-- ==== Sys2Proof/Word.lean ====
section
/-! DEFINITION. The word types of HUFFCORE (00_scope.md R8, R9, R11): every register field and every count is
unsigned. -/

namespace Sys2Proof

/-- A byte of a stream, and a symbol (R8). -/
abbrev Byte := BitVec 8

/-- A register-block word (REG_W, R9). -/
abbrev Word := BitVec 32

/-- A count, weight, position or size (COUNT_W, R9). -/
abbrev Count := BitVec 64

/-- A node-arena index (R9, R38). -/
abbrev NodeIdx := BitVec 9

/-- An insertion sequence number (SEQ_W, R9). -/
abbrev Seq := BitVec 16

/-- The node index that means "no node" (R9). -/
abbrev nilIdx : NodeIdx := 0x1FF

end Sys2Proof
end

