-- ==== Sys2Proof/Config.lean ====
section
/-! DEFINITION. What the hardware fixes (00_scope.md R9, 10_state.md R27) and the one free value (20_memory.md R70). -/

namespace Sys2Proof

/-- NODE_CAP: node-arena entries (R9). -/
abbrev Config.nodeCap : Nat := 511

/-- PQ_CAP: priority-structure entries (R9). -/
abbrev Config.pqCap : Nat := 256

/-- MAX_COUNT: the largest count, weight or input length (R9). -/
abbrev Config.maxCount : Nat := 2 ^ 64 - 1

/-- The value of SEQ at which PQ_INSERT refuses (41_priority_queue.md R101). -/
abbrev Config.seqLimit : Seq := 0xFFFF

/-- ID, hardwired (R27). -/
abbrev Config.idWord : Word := 0x48554646

/-- PARAM, hardwired: NODE_CAP, PQ_CAP and MAX_CODE_LEN packed (R27). -/
abbrev Config.paramWord : Word := 0x0FF401FF

/-- FREE VALUE (log 4): the word an UNSPECIFIED register read returns while BUSY = 1 (20_memory.md R70). It has no body:
a statement about it holds whatever it is. The argument counts the draws, so each read may give a new word. -/
opaque Config.freeWord : Nat → Word

end Sys2Proof
end

