-- ==== Sys2Proof/Syntax.lean ====
section
/-! DEFINITION. The instructions: one constructor per row of spec/opcode_table.json, 35 commands (30_encoding.md R79) and
7 container tokens (R83). -/

namespace Sys2Proof

/-- A command the host writes to CMD, or a token the container reader reads. Operands: a symbol or bit count is the
8-bit imm8, a node operand is a 9-bit index (R77). -/
inductive Instr where
  -- control (40_control.md)
  | nop
  | softReset
  | clearErr
  | srcRewind
  -- priority structure and node arena (41_priority_queue.md)
  | pqClear
  | pqInsert (a : NodeIdx)
  | pqExtractMin
  | arenaClear
  | nodeLeaf (sym : Byte)
  | nodeJoin (a b : NodeIdx)
  | nodeRead (a : NodeIdx)
  -- histogram and tree builder (42_tree_builder.md)
  | histClear
  | histAdd (sym : Byte)
  | histScan
  | histRead (sym : Byte)
  | treeBuild
  -- code table (43_code_table.md)
  | codeGen
  | codeLookup (sym : Byte)
  -- container (44_container.md)
  | hdrWrite
  | shapeWrite
  | sepWrite
  | hdrRead
  | shapeRead
  | sepRead
  -- payload bits (45_bitstream.md)
  | bwReset
  | bwPut (n : Byte)
  | encSymbol (sym : Byte)
  | encScan
  | bwFlush
  | brReset
  | brGet (n : Byte)
  | decSymbol
  | decRun
  -- codec (46_codec.md)
  | compress
  | decompress
  -- container tokens (30_encoding.md R83)
  | tokDigit (d : BitVec 4)
  | tokHdrEnd
  | tokInternal
  | tokLeaf (sym : Byte)
  | tokSep (b : Byte)
  | tokBit0
  | tokBit1
  deriving DecidableEq, Repr

end Sys2Proof
end

