-- ==== Sys2Proof/WellFormed.lean ====
section
/-! DEFINITION. Which terms of Instr some encoding stands for. -/

namespace Sys2Proof

/-- A digit token carries a decimal digit value, `b - 0x30` for a byte 0x30..0x39 (30_encoding.md R83). Every other
operand takes every value of its field: 511 as a node operand and a bit count above 32 are encodings the command's own
checks answer (R77). -/
def Instr.WellFormed : Instr → Bool
  | .tokDigit d => d.toNat < 10
  | _ => true

end Sys2Proof
end

