-- ==== Sys2Proof/Decode.lean ====
section
/-! DEFINITION. The decoder of command words and of container tokens, and the encoder (30_encoding.md R75 to R86). -/

namespace Sys2Proof

/-- Why a word or a token is no instruction. -/
inductive Reject where
  /-- The opcode is not in the opcode map (R80). -/
  | unlistedOpcode
  /-- A reserved bit of the command's format is 1 (R80). -/
  | reservedBits
  /-- A header byte that is neither a digit nor the comma (R85). -/
  | badHeaderByte
  /-- A shape marker byte other than 0x30 and 0x31 (R85). -/
  | badMarker
  /-- The bytes end inside the token. -/
  | truncated
  /-- Bytes follow the token. -/
  | trailing
  deriving DecidableEq, Repr

/-- What the decoder is given: a command word, or the bytes or the bit of one token in its parser phase ("A token's
meaning depends on the parser phase it is read in", R83). -/
inductive Fetched where
  | cmd (w : Word)
  | header (b : Byte)
  | shape (bs : List Byte)
  | sep (b : Byte)
  | bit (x : Bool)
  deriving DecidableEq, Repr

/-! ### Command words -/

/-- `op = w[7:0]` (R76). -/
def opOf (w : Word) : Byte := w.extractLsb' 0 8

/-- Format CMD-N: bits 31..8 are reserved (R76). -/
def decodeN (w : Word) (i : Instr) : Except Reject Instr :=
  if w.extractLsb' 8 24 = 0 then .ok i else .error .reservedBits

/-- Format CMD-S: imm8 = w[15:8], bits 31..16 are reserved (R76). -/
def decodeS (w : Word) (f : Byte → Instr) : Except Reject Instr :=
  if w.extractLsb' 16 16 = 0 then .ok (f (w.extractLsb' 8 8)) else .error .reservedBits

/-- Format CMD-A: a = w[16:8], bits 31..17 are reserved (R76). -/
def decodeA (w : Word) (f : NodeIdx → Instr) : Except Reject Instr :=
  if w.extractLsb' 17 15 = 0 then .ok (f (w.extractLsb' 8 9)) else .error .reservedBits

/-- Format CMD-AB: a = w[16:8], b = w[25:17], bits 31..26 are reserved (R76). -/
def decodeAB (w : Word) (f : NodeIdx → NodeIdx → Instr) : Except Reject Instr :=
  if w.extractLsb' 26 6 = 0 then .ok (f (w.extractLsb' 8 9) (w.extractLsb' 17 9)) else .error .reservedBits

/-- The opcode map of R79. -/
def decodeCmd (w : Word) : Except Reject Instr :=
  match (opOf w).toNat with
  | 0x00 => decodeN w .nop
  | 0x01 => decodeN w .softReset
  | 0x02 => decodeN w .clearErr
  | 0x03 => decodeN w .srcRewind
  | 0x10 => decodeN w .pqClear
  | 0x11 => decodeA w .pqInsert
  | 0x12 => decodeN w .pqExtractMin
  | 0x14 => decodeN w .arenaClear
  | 0x15 => decodeS w .nodeLeaf
  | 0x16 => decodeAB w .nodeJoin
  | 0x17 => decodeA w .nodeRead
  | 0x20 => decodeN w .histClear
  | 0x21 => decodeS w .histAdd
  | 0x22 => decodeN w .histScan
  | 0x23 => decodeS w .histRead
  | 0x24 => decodeN w .treeBuild
  | 0x28 => decodeN w .codeGen
  | 0x29 => decodeS w .codeLookup
  | 0x30 => decodeN w .hdrWrite
  | 0x31 => decodeN w .shapeWrite
  | 0x32 => decodeN w .sepWrite
  | 0x38 => decodeN w .hdrRead
  | 0x39 => decodeN w .shapeRead
  | 0x3A => decodeN w .sepRead
  | 0x40 => decodeN w .bwReset
  | 0x41 => decodeS w .bwPut
  | 0x42 => decodeS w .encSymbol
  | 0x43 => decodeN w .encScan
  | 0x44 => decodeN w .bwFlush
  | 0x48 => decodeN w .brReset
  | 0x49 => decodeS w .brGet
  | 0x4A => decodeN w .decSymbol
  | 0x4B => decodeN w .decRun
  | 0x50 => decodeN w .compress
  | 0x51 => decodeN w .decompress
  | _ => .error .unlistedOpcode

/-! ### Container tokens -/

/-- The header phase (R83): a decimal digit, or the comma that ends the header. -/
def decodeHeader (b : Byte) : Except Reject Instr :=
  if b = 0x2C then .ok .tokHdrEnd
  else if 0x30 ≤ b.toNat ∧ b.toNat ≤ 0x39 then .ok (.tokDigit (BitVec.ofNat 4 (b.toNat - 0x30)))
  else .error .badHeaderByte

/-- The shape phase (R83, R84): the first byte tells the token's length; the byte after 0x31 is a raw symbol. The rest of
the bytes is handed back. -/
def decodeShape : List Byte → Except Reject (Instr × List Byte)
  | [] => .error .truncated
  | m :: rest =>
    if m = 0x30 then .ok (.tokInternal, rest)
    else if m = 0x31 then
      match rest with
      | [] => .error .truncated
      | sym :: rest' => .ok (.tokLeaf sym, rest')
    else .error .badMarker

/-- The payload phase (R83): one bit is one token. -/
def decodeBit (x : Bool) : Instr := if x then .tokBit1 else .tokBit0

/-- The decoder, total, rejecting by name. -/
def decode : Fetched → Except Reject Instr
  | .cmd w => decodeCmd w
  | .header b => decodeHeader b
  | .shape bs =>
    match decodeShape bs with
    | .ok (i, []) => .ok i
    | .ok (_, _ :: _) => .error .trailing
    | .error r => .error r
  | .sep b => .ok (.tokSep b)
  | .bit x => .ok (decodeBit x)

/-! ### The encoder -/

/-- The opcode of a command (R79). A token has none. -/
def opcode : Instr → Byte
  | .nop => 0x00
  | .softReset => 0x01
  | .clearErr => 0x02
  | .srcRewind => 0x03
  | .pqClear => 0x10
  | .pqInsert _ => 0x11
  | .pqExtractMin => 0x12
  | .arenaClear => 0x14
  | .nodeLeaf _ => 0x15
  | .nodeJoin _ _ => 0x16
  | .nodeRead _ => 0x17
  | .histClear => 0x20
  | .histAdd _ => 0x21
  | .histScan => 0x22
  | .histRead _ => 0x23
  | .treeBuild => 0x24
  | .codeGen => 0x28
  | .codeLookup _ => 0x29
  | .hdrWrite => 0x30
  | .shapeWrite => 0x31
  | .sepWrite => 0x32
  | .hdrRead => 0x38
  | .shapeRead => 0x39
  | .sepRead => 0x3A
  | .bwReset => 0x40
  | .bwPut _ => 0x41
  | .encSymbol _ => 0x42
  | .encScan => 0x43
  | .bwFlush => 0x44
  | .brReset => 0x48
  | .brGet _ => 0x49
  | .decSymbol => 0x4A
  | .decRun => 0x4B
  | .compress => 0x50
  | .decompress => 0x51
  | .tokDigit _ => 0
  | .tokHdrEnd => 0
  | .tokInternal => 0
  | .tokLeaf _ => 0
  | .tokSep _ => 0
  | .tokBit0 => 0
  | .tokBit1 => 0

/-- Whether the row is a container token and not a command (R2). -/
def isToken : Instr → Bool
  | .tokDigit _ => true
  | .tokHdrEnd => true
  | .tokInternal => true
  | .tokLeaf _ => true
  | .tokSep _ => true
  | .tokBit0 => true
  | .tokBit1 => true
  | _ => false

/-- encN (R78). -/
def encN (op : Byte) : Word := op.setWidth 32

/-- encS (R78). -/
def encS (op imm8 : Byte) : Word := (imm8.setWidth 32 <<< 8) ||| op.setWidth 32

/-- encA (R78). -/
def encA (op : Byte) (a : NodeIdx) : Word := (a.setWidth 32 <<< 8) ||| op.setWidth 32

/-- encAB (R78). -/
def encAB (op : Byte) (a b : NodeIdx) : Word :=
  (b.setWidth 32 <<< 17) ||| (a.setWidth 32 <<< 8) ||| op.setWidth 32

/-- The word, bytes or bit of an instruction, from the formats of R76, R78, R79 and the tokens of R83. -/
def encode (i : Instr) : Fetched :=
  match i with
  | .pqInsert a => .cmd (encA (opcode i) a)
  | .nodeRead a => .cmd (encA (opcode i) a)
  | .nodeJoin a b => .cmd (encAB (opcode i) a b)
  | .nodeLeaf imm8 => .cmd (encS (opcode i) imm8)
  | .histAdd imm8 => .cmd (encS (opcode i) imm8)
  | .histRead imm8 => .cmd (encS (opcode i) imm8)
  | .codeLookup imm8 => .cmd (encS (opcode i) imm8)
  | .bwPut imm8 => .cmd (encS (opcode i) imm8)
  | .encSymbol imm8 => .cmd (encS (opcode i) imm8)
  | .brGet imm8 => .cmd (encS (opcode i) imm8)
  | .tokDigit d => .header (BitVec.ofNat 8 (0x30 + d.toNat))
  | .tokHdrEnd => .header 0x2C
  | .tokInternal => .shape [0x30]
  | .tokLeaf sym => .shape [0x31, sym]
  | .tokSep b => .sep b
  | .tokBit0 => .bit false
  | .tokBit1 => .bit true
  | .nop => .cmd (encN (opcode i))
  | .softReset => .cmd (encN (opcode i))
  | .clearErr => .cmd (encN (opcode i))
  | .srcRewind => .cmd (encN (opcode i))
  | .pqClear => .cmd (encN (opcode i))
  | .pqExtractMin => .cmd (encN (opcode i))
  | .arenaClear => .cmd (encN (opcode i))
  | .histClear => .cmd (encN (opcode i))
  | .histScan => .cmd (encN (opcode i))
  | .treeBuild => .cmd (encN (opcode i))
  | .codeGen => .cmd (encN (opcode i))
  | .hdrWrite => .cmd (encN (opcode i))
  | .shapeWrite => .cmd (encN (opcode i))
  | .sepWrite => .cmd (encN (opcode i))
  | .hdrRead => .cmd (encN (opcode i))
  | .shapeRead => .cmd (encN (opcode i))
  | .sepRead => .cmd (encN (opcode i))
  | .bwReset => .cmd (encN (opcode i))
  | .encScan => .cmd (encN (opcode i))
  | .bwFlush => .cmd (encN (opcode i))
  | .brReset => .cmd (encN (opcode i))
  | .decSymbol => .cmd (encN (opcode i))
  | .decRun => .cmd (encN (opcode i))
  | .compress => .cmd (encN (opcode i))
  | .decompress => .cmd (encN (opcode i))

/-! ### Words as spec/opcode_table.json numbers them -/

/-- An 8-bit row of the table carries no phase, and one byte is a token of several phases (R83): the words 0 and 1 are
read as payload bits, 0x30 in the shape phase, the digits 0x31..0x39 and 0x2C in the header phase, any other byte in the
separator phase (DESIGN CHOICE, log 17). -/
def codeOfTableByte (b : Byte) : Fetched :=
  if b = 0 then .bit false
  else if b = 1 then .bit true
  else if b = 0x30 then .shape [b]
  else if b = 0x2C ∨ (0x31 ≤ b.toNat ∧ b.toNat ≤ 0x39) then .header b
  else .sep b

/-- What the decoder is given for a word of the table: 32 bits are a command word; 16 bits are the two bytes of a shape
token, the first in bits 15..8 as the table's TOK_LEAF row has them (DEDUCED, log 16); 8 bits as above. -/
def codeOfTableWord (nbits w : Nat) : Option Fetched :=
  if nbits = 32 then some (.cmd (BitVec.ofNat 32 w))
  else if nbits = 16 then some (.shape [BitVec.ofNat 8 (w / 256), BitVec.ofNat 8 w])
  else if nbits = 8 then some (codeOfTableByte (BitVec.ofNat 8 w))
  else none

/-- The instruction the decoder reads from a word numbered as spec/opcode_table.json numbers it. -/
def decodeTableWord (nbits w : Nat) : Option Instr :=
  match codeOfTableWord nbits w with
  | none => none
  | some c =>
    match decode c with
    | .ok i => some i
    | .error _ => none

end Sys2Proof
end

