-- ==== Sys2Proof/Machine/State.lean ====
section
/-! DEFINITION. The state of HUFFCORE, of its host and of the schedule between them, and the state right after reset
(10_state.md). -/

namespace Sys2Proof.Machine

/-- Node kind (10_state.md R38). -/
inductive NodeKind where
  | leaf
  | internal
  deriving DecidableEq, Repr

/-- A node record (10_state.md R38). -/
structure Node where
  kind : NodeKind
  sym : Byte
  weight : Count
  left : NodeIdx
  right : NodeIdx
  inPq : Bool
  parented : Bool
  deriving DecidableEq, Repr

/-- One pair (node, seq) of PQ (10_state.md R41). -/
structure PqEntry where
  node : NodeIdx
  seq : Seq
  deriving DecidableEq, Repr

/-- A code: the bits from the root to the leaf, the first bit first, `false` for 0; `len` is its length
(10_state.md R42). -/
abbrev Code := List Bool

/-- The shape of a tree as its walks see it: left before right. -/
inductive CodeTree where
  | leaf (sym : Byte)
  | node (l r : CodeTree)
  deriving DecidableEq, Repr

/-- The error codes 1 to 8 (60_exceptions.md R157). -/
inductive Err where
  | ioError
  | formatError
  | emptyInput
  | illegalCmd
  | badState
  | badOperand
  | capacity
  | absentSymbol
  deriving DecidableEq, Repr

/-- Which child of a node is still to be parsed (44_container.md R129). -/
inductive Side where
  | left
  | right
  deriving DecidableEq, Repr

/-- One frame of the shape parser's stack (44_container.md R129, R130). -/
structure Frame where
  node : NodeIdx
  side : Side
  deriving DecidableEq, Repr

/-- Where the container reader stands inside a running command, one token at a time (30_encoding.md R83; log 15). Idle
between commands (10_state.md R45). -/
inductive Parse where
  | idle
  /-- The header, with R128's `v` and `nd` so far. -/
  | header (v : Count) (nd : Nat)
  /-- The shape, with the children still to parse, innermost first. -/
  | shape (stack : List Frame)
  /-- The separator byte. -/
  | sep
  /-- The payload, with the decode cursor. -/
  | payload (c : NodeIdx)
  deriving DecidableEq, Repr

/-- One move of the schedule: the engine's turn, a host action (20_memory.md R52, R58), or the hardware reset
(70_reset_and_hazards.md R183). -/
inductive Event where
  | engine
  | memWrite (addr : Nat) (size : Nat) (v : Word)
  | memRead (addr : Nat) (size : Nat)
  | attachSource (bytes : List Byte)
  | detachSource
  | attachSink
  | detachSink
  | readSink
  | hwReset
  deriving DecidableEq, Repr

/-- What a host read gave the host. -/
inductive Seen where
  | word (w : Word)
  | bytes (bs : List Byte)
  deriving DecidableEq, Repr

/-- Why the machine stops. None of these is an error of the hardware, which are `Err` and a next state. -/
inductive Fault where
  /-- A host access that is not 4 bytes wide, not aligned or outside the window: no step (20_memory.md R53; raised by
  `hostAccess`). Unsafe: the host is assumed never to make one (log 7). -/
  | unadmittedAccess
  /-- A host port action while BUSY = 1: no step (20_memory.md R58; raised by `portAction`). Unsafe: the host is assumed
  never to take one (log 8). -/
  | portActionWhileBusy
  /-- A source of 2^64 bytes or more attached (20_memory.md R51; raised by `portAction`). Safe (log 12). -/
  | sourceTooLong
  /-- A tree walk met an index with no allocated entry, or did not end (raised by the walks of `CodeTree` readers and by the
  decode cursor). Safe: only in states no run reaches (log 19). -/
  | treeBroken
  /-- TREE_BUILD met an empty PQ, because TOTAL disagrees with HIST (raised by `treeBuildCore`). Safe: only in states no
  run reaches (log 19). -/
  | buildBroken
  /-- A loop passed its bound of 70_reset_and_hazards.md R200 (raised by the loops at no fuel). Safe: no state gives
  it (log 19). -/
  | loopBound
  deriving DecidableEq, Repr

/-- Why an instruction has no meaning. -/
inductive Refusal where
  /-- Not modelled yet (raised by `exec`). Safe. -/
  | notModelled (mnemonic : String)
  /-- A container token in a parser phase it is no token of (30_encoding.md R83; raised by the tokens' meanings). Safe
  (log 15). -/
  | tokenOutOfPhase
  deriving DecidableEq, Repr

/-- The whole state. The comments name the spec's element; INVENTORY.md gives widths and rules. -/
structure State where
  /-- HIST[0..255] -/
  hist : Vector Count 256
  /-- TOTAL -/
  total : Count
  /-- NODE[0..NODE_COUNT-1]; NODE_COUNT is the length (log 13) -/
  nodes : List Node
  /-- ROOT -/
  root : NodeIdx
  /-- PQ, in the order of the seqs (log 14) -/
  pq : List PqEntry
  /-- SEQ -/
  seq : Seq
  /-- CODE[0..255] -/
  codes : Vector (Option Code) 256
  /-- ACC -/
  acc : Byte
  /-- NACC -/
  nacc : Fin 8
  /-- CUR -/
  cur : Byte
  /-- NLEFT -/
  nleft : Fin 9
  /-- REMAIN -/
  remain : Count
  /-- DECL -/
  decl : Count
  /-- TREE_VALID -/
  treeValid : Bool
  /-- CODES_VALID -/
  codesValid : Bool
  /-- BUSY -/
  busy : Bool
  /-- PQ_EMPTY -/
  pqEmpty : Bool
  /-- CMD_DROPPED -/
  cmdDropped : Bool
  /-- ERR_CODE; none is 0 -/
  errCode : Option Err
  /-- ERR_OP -/
  errOp : Byte
  /-- ERR_POS -/
  errPos : Count
  /-- ARG -/
  arg : Count
  /-- RES -/
  res : Count
  /-- RES_AUX -/
  resAux : Word
  /-- ORIG_SIZE -/
  origSize : Count
  /-- COMP_SIZE -/
  compSize : Count
  /-- SRC_ATTACHED -/
  srcAttached : Bool
  /-- SRC -/
  src : List Byte
  /-- SRC_POS -/
  srcPos : Nat
  /-- SNK_ATTACHED -/
  snkAttached : Bool
  /-- SNK; SNK_POS is its length -/
  snk : List Byte
  /-- The opcode of the command being executed, 0 between commands (60_exceptions.md R158; log 29) -/
  cmdOp : Byte
  /-- The container reader's position inside a command (log 15) -/
  parse : Parse
  /-- REG_BASE, which no step writes (20_memory.md R52; log 6) -/
  regBase : Nat
  /-- The moves to come, oldest first (log 1) -/
  script : List Event
  /-- The host's draws for the port accesses to come, `true` for Deliver and Accept (20_memory.md R56, R57; log 3) -/
  draws : List Bool
  /-- What the host has read, newest first (log 23) -/
  obs : List Seen
  /-- How many UNSPECIFIED words have been drawn (log 4) -/
  freeCount : Nat
  deriving DecidableEq, Repr

/-- The machine right after a hardware reset (10_state.md R49, R50), with an empty schedule. -/
def State.reset : State where
  hist := Vector.replicate 256 0
  total := 0
  nodes := []
  root := nilIdx
  pq := []
  seq := 0
  codes := Vector.replicate 256 none
  acc := 0
  nacc := 0
  cur := 0
  nleft := 0
  remain := 0
  decl := 0
  treeValid := false
  codesValid := false
  busy := false
  pqEmpty := false
  cmdDropped := false
  errCode := none
  errOp := 0
  errPos := 0
  arg := 0
  res := 0
  resAux := 0
  origSize := 0
  compSize := 0
  srcAttached := false
  src := []
  srcPos := 0
  snkAttached := false
  snk := []
  cmdOp := 0
  parse := .idle
  regBase := 0
  script := []
  draws := []
  obs := []
  freeCount := 0

end Sys2Proof.Machine
end

