-- ==== Sys2Proof/Machine/Ops.lean ====
section
/-! DEFINITION. The named operations every meaning is written over: the outcome of a body, raising an error, command
acceptance and completion, the ports, result fields, the arena, the priority structure, the tables and the bit
buffers. -/

namespace Sys2Proof.Machine

/-! ### Outcomes of a body -/

/-- How a piece of a command's body ends: done with a value, ended by a `raise` (00_scope.md R15: the statements after
it do not run, nothing is rolled back), or stopped. -/
inductive Ran (α : Type) where
  | done (a : α) (s : State)
  | raised (e : Err) (s : State)
  | fault (f : Fault)
  deriving Repr

/-- Then: the rest runs only after a piece that is done. -/
def Ran.andThen {α β : Type} (r : Ran α) (k : α → State → Ran β) : Ran β :=
  match r with
  | .done a s => k a s
  | .raised e s => .raised e s
  | .fault f => .fault f

/-! ### Errors, acceptance, completion -/

/-- The error codes of 60_exceptions.md R157. -/
def errCodeBits : Option Err → BitVec 4
  | none => 0
  | some .ioError => 1
  | some .formatError => 2
  | some .emptyInput => 3
  | some .illegalCmd => 4
  | some .badState => 5
  | some .badOperand => 6
  | some .capacity => 7
  | some .absentSymbol => 8

/-- SRC_POS as the 64-bit register (10_state.md R26). -/
def State.srcPosReg (s : State) : Count := BitVec.ofNat 64 s.srcPos

/-- SNK_POS = len(SNK) as the 64-bit register (10_state.md R44). -/
def State.snkPosReg (s : State) : Count := BitVec.ofNat 64 s.snk.length

/-- `raise E` (60_exceptions.md R158), the one operation that takes an error: ERR_CODE, ERR_OP from the command word,
ERR_POS = SRC_POS, and the command is over. Nothing is rolled back. -/
def raise (e : Err) (s : State) : State :=
  { s with errCode := some e, errOp := s.cmdOp, errPos := s.srcPosReg, busy := false, cmdOp := 0, parse := .idle }

/-- The way back from an error, CLEAR_ERR's effect (40_control.md R94, 60_exceptions.md R170): the record is cleared and
nothing is undone. -/
def clearError (s : State) : State :=
  { s with errCode := none, errOp := 0, errPos := 0, cmdDropped := false }

/-- The last lines of acceptance (40_control.md R89): BUSY, RES, RES_AUX, PQ_EMPTY; the command word's opcode is kept for
`raise`. -/
def accept (op : Byte) (s : State) : State :=
  { s with busy := true, res := 0, resAux := 0, pqEmpty := false, cmdOp := op }

/-- Completion (40_control.md R90): BUSY <- 0. -/
def complete (s : State) : State :=
  { s with busy := false, cmdOp := 0 }

/-- How a body's end is the command's end (40_control.md R89, R90; 60_exceptions.md R158). -/
def finish (r : Ran Unit) : Host.Outcome State Fault Refusal :=
  match r with
  | .done _ t => .next (complete t)
  | .raised e t => .next (raise e t)
  | .fault f => .fault f

/-- A command: acceptance, body, completion (40_control.md R89). -/
def runCommand (op : Byte) (body : State → Ran Unit) (s : State) : Host.Outcome State Fault Refusal :=
  finish (body (accept op s))

/-! ### Result registers -/

/-- `RES <- v` (10_state.md R31). -/
def setRes (v : Count) (s : State) : State := { s with res := v }

/-- `w[lo+width-1 : lo] <- v`, the other bits kept (00_scope.md R11). -/
def putField (w : Word) (lo width v : Nat) : Word :=
  (w &&& ~~~(BitVec.ofNat 32 (2 ^ width - 1) <<< lo)) ||| (BitVec.ofNat 32 (v % 2 ^ width) <<< lo)

/-- `RES_AUX[lo+width-1 : lo] <- v` (10_state.md R31: the other bits stay; log 27). -/
def setAux (lo width v : Nat) (s : State) : State := { s with resAux := putField s.resAux lo width v }

/-! ### Ports (20_memory.md R56, R57) -/

/-- What SrcRead returns. -/
inductive SrcAnswer where
  | byte (b : Byte)
  | eof
  | fail
  deriving DecidableEq, Repr

/-- The host's draw for one port access: the next entry of `draws`; with none left the host delivers (log 3). -/
def State.nextDraw (s : State) : Bool := s.draws.headD true

/-- SrcRead (R56). A read past the last byte and a read of a detached port draw nothing and consume nothing. -/
def srcRead (s : State) : SrcAnswer × State :=
  if s.srcAttached then
    match s.src[s.srcPos]? with
    | none => (.eof, s)
    | some b =>
      if s.nextDraw then (.byte b, { s with srcPos := s.srcPos + 1, draws := s.draws.tail })
      else (.fail, { s with draws := s.draws.tail })
  else (.fail, s)

/-- SrcRewind (R56): whether it returned Ok. -/
def srcRewind (s : State) : Bool × State :=
  if s.srcAttached then
    if s.nextDraw then (true, { s with srcPos := 0, draws := s.draws.tail })
    else (false, { s with draws := s.draws.tail })
  else (false, s)

/-- SnkWrite (R57): whether it returned Ok. SNK stays below 2^64 bytes (R51): a write that would reach that length
fails (DEDUCED, log 11). -/
def snkWrite (b : Byte) (s : State) : Bool × State :=
  if s.snkAttached then
    if s.nextDraw && decide (s.snk.length < Config.maxCount) then
      (true, { s with snk := s.snk ++ [b], draws := s.draws.tail })
    else (false, { s with draws := s.draws.tail })
  else (false, s)

/-- GetByte (44_container.md): EOF raises FORMAT_ERROR, Fail raises IO_ERROR. -/
def getByte (s : State) : Ran Byte :=
  match srcRead s with
  | (.byte b, t) => .done b t
  | (.eof, t) => .raised .formatError t
  | (.fail, t) => .raised .ioError t

/-- PutByte (44_container.md). -/
def putByte (b : Byte) (s : State) : Ran Unit :=
  match snkWrite b s with
  | (true, t) => .done () t
  | (false, t) => .raised .ioError t

/-- PutByte of each byte in order. -/
def putBytes : List Byte → State → Ran Unit
  | [], s => .done () s
  | b :: bs, s => (putByte b s).andThen fun _ t => putBytes bs t

/-- How many loop passes the rest of the source allows, one of them for the end (70_reset_and_hazards.md R200). -/
def State.readsLeft (s : State) : Nat := s.src.length - s.srcPos + 1

/-! ### Node arena (41_priority_queue.md R98) -/

/-- The entry at an index, none where it is unallocated (10_state.md R39). -/
def State.node? (s : State) (i : NodeIdx) : Option Node := s.nodes[i.toNat]?

/-- What a field of an unallocated entry reads as inside the operations below; no command reads one (R39), so it stands
only in states no run reaches (log 19). -/
def blankNode : Node :=
  { kind := .leaf, sym := 0, weight := 0, left := nilIdx, right := nilIdx, inPq := false, parented := false }

/-- NODE[i], read by operations whose checks have passed. -/
def State.node (s : State) (i : NodeIdx) : Node := (s.node? i).getD blankNode

/-- `NODE[i] <- f NODE[i]`. -/
def setNode (i : NodeIdx) (f : Node → Node) (s : State) : State :=
  { s with nodes := s.nodes.modify i.toNat f }

/-- The index the next Alloc gives: NODE_COUNT (R98). -/
def State.nextIdx (s : State) : NodeIdx := BitVec.ofNat 9 s.nodes.length

/-- Whether the arena is full, `NODE_COUNT = 511` (never above it in a run). -/
def State.arenaFull (s : State) : Bool := decide (Config.nodeCap ≤ s.nodes.length)

/-- Alloc (R98): the node at index NODE_COUNT. -/
def alloc (kind : NodeKind) (sym : Byte) (w : Count) (l r : NodeIdx) (s : State) : State :=
  { s with
    nodes := s.nodes ++ [{ kind := kind, sym := sym, weight := w, left := l, right := r, inPq := false, parented := false }] }

/-- Invalidate (R98). -/
def invalidate (s : State) : State :=
  { s with treeValid := false, codesValid := false, root := nilIdx, codes := Vector.replicate 256 none }

/-- ArenaClear (R98). -/
def arenaClear (s : State) : State :=
  { invalidate s with nodes := [], pq := [], seq := 0 }

/-- Join (R98): node NODE_COUNT with the two children and the sum of their weights; the children become parented. -/
def join (a b : NodeIdx) (s : State) : State :=
  setNode b (fun n => { n with parented := true })
    (setNode a (fun n => { n with parented := true })
      (alloc .internal 0 ((s.node a).weight + (s.node b).weight) a b s))

/-! ### Priority structure (41_priority_queue.md R97, R98) -/

/-- PqInsert (R98). -/
def pqInsert (n : NodeIdx) (s : State) : State :=
  setNode n (fun x => { x with inPq := true })
    { s with pq := s.pq ++ [{ node := n, seq := s.seq }], seq := s.seq + 1 }

/-- Whether an entry's key (weight, seq) is below another's, compared lexicographically (R97). -/
def State.keyBelow (s : State) (x y : PqEntry) : Bool :=
  decide ((s.node x.node).weight < (s.node y.node).weight) ||
    (decide ((s.node x.node).weight = (s.node y.node).weight) && decide (x.seq < y.seq))

/-- The entry with the least key of a list (R97). -/
def State.leastOf (s : State) : List PqEntry → Option PqEntry
  | [] => none
  | x :: xs =>
    match s.leastOf xs with
    | none => some x
    | some y => if s.keyBelow y x then some y else some x

/-- PqExtractMin (R98): the entry with the least key, and the state without it. -/
def pqExtractMin (s : State) : Option (PqEntry × State) :=
  match s.leastOf s.pq with
  | none => none
  | some e =>
    some (e, setNode e.node (fun x => { x with inPq := false }) { s with pq := s.pq.filter fun x => decide (x ≠ e) })

/-- PQ_CLEAR's effect (R100). -/
def pqClear (s : State) : State :=
  { s.pq.foldl (fun t e => setNode e.node (fun x => { x with inPq := false }) t) s with pq := [], seq := 0 }

/-! ### Histogram and code table (10_state.md R25, R36, R42) -/

/-- HIST[s]. -/
def State.histAt (s : State) (sym : Byte) : Count := s.hist[sym.toNat]'sym.isLt

/-- `HIST[s] <- HIST[s] + 1; TOTAL <- TOTAL + 1` (42_tree_builder.md R108, R109). -/
def countSymbol (sym : Byte) (s : State) : State :=
  { s with hist := s.hist.set sym.toNat (s.histAt sym + 1) sym.isLt, total := s.total + 1 }

/-- `for s in 0..255: HIST[s] <- 0; TOTAL <- 0` (R107). -/
def histReset (s : State) : State := { s with hist := Vector.replicate 256 0, total := 0 }

/-- TOTAL at its largest value, 2^64 - 1 (R108). -/
def State.totalFull (s : State) : Bool := decide (s.total.toNat = Config.maxCount)

/-- The symbols 0..255 in ascending order (R112). -/
def allSymbols : List Byte := (List.range 256).map (BitVec.ofNat 8)

/-- CODE[s], none where it is absent. -/
def State.codeAt (s : State) (sym : Byte) : Option Code := s.codes[sym.toNat]'sym.isLt

/-- `CODE[s] <- {present: 1, len, bits}`. -/
def setCode (sym : Byte) (c : Code) (s : State) : State :=
  { s with codes := s.codes.set sym.toNat (some c) sym.isLt }

/-! ### Reading a tree from the arena -/

/-- The tree below an index. The fuel bounds the depth; an arena tree is no deeper than its node count, so it runs out
only on a cycle. CODE_GEN and SHAPE_WRITE leave the arena alone while they walk, so the tree is read once and walked
after (DEDUCED, log 24). -/
def readTree (nodes : List Node) : Nat → NodeIdx → Option CodeTree
  | 0, _ => none
  | fuel + 1, i =>
    match nodes[i.toNat]? with
    | none => none
    | some n =>
      match n.kind with
      | .leaf => some (.leaf n.sym)
      | .internal =>
        match readTree nodes fuel n.left, readTree nodes fuel n.right with
        | some l, some r => some (.node l r)
        | _, _ => none

/-- The tree at an index of the arena. -/
def State.treeAt (s : State) (i : NodeIdx) : Option CodeTree := readTree s.nodes s.nodes.length i

/-! ### Bit buffers (45_bitstream.md R134, R141) -/

/-- `ACC[7 - NACC] <- x`. -/
def accWith (acc : Byte) (nacc : Nat) (x : Bool) : Byte :=
  (acc &&& ~~~(1#8 <<< (7 - nacc))) ||| ((if x then 1#8 else 0#8) <<< (7 - nacc))

/-- PutBit (R134). A full byte is emitted at once; if its write fails the byte is lost. -/
def putBit (x : Bool) (s : State) : Ran Unit :=
  if h : s.nacc.val + 1 < 8 then
    .done () { s with acc := accWith s.acc s.nacc.val x, nacc := ⟨s.nacc.val + 1, h⟩ }
  else putByte (accWith s.acc s.nacc.val x) { s with acc := 0, nacc := 0 }

/-- PutBit of each bit in order. -/
def putBits : List Bool → State → Ran Unit
  | [], s => .done () s
  | x :: xs, s => (putBit x s).andThen fun _ t => putBits xs t

/-- BW_RESET's effect (R135). -/
def bwReset (s : State) : State := { s with acc := 0, nacc := 0 }

/-- BR_RESET's effect (R142). -/
def brReset (s : State) : State := { s with cur := 0, nleft := 0 }

/-- `NLEFT <- 0`, which the container readers begin with (44_container.md R128, R129, R132). -/
def dropBits (s : State) : State := { s with nleft := 0 }

/-- GetBit (R141): a byte is fetched only when a bit is needed and none is buffered. -/
def getBit (s : State) : Ran Bool :=
  if h : s.nleft.val = 0 then
    (getByte s).andThen fun b t => .done (b.getLsbD 7) { t with cur := b, nleft := 7 }
  else
    .done (s.cur.getLsbD (s.nleft.val - 1)) { s with nleft := ⟨s.nleft.val - 1, by omega⟩ }

/-- How many bits the buffer and the rest of the source hold, and one pass for the end (70_reset_and_hazards.md R200). -/
def State.bitsLeft (s : State) : Nat := 8 * (s.src.length - s.srcPos) + s.nleft.val + 1

end Sys2Proof.Machine
end

