-- ==== Sys2Proof/Machine/Operands.lean ====
section
/-! DEFINITION. The operand forms (30_encoding.md R77): node indices with their checks, bit counts, ARG as a weight, a
window index or raw bits, and the packed results of the read-back commands. -/

namespace Sys2Proof.Machine

/-- A node operand names an allocated entry, `a < NODE_COUNT` (60_exceptions.md R164); NIL never does in a run. -/
def State.allocated (s : State) (a : NodeIdx) : Bool := decide (a.toNat < s.nodes.length)

/-- The node is in PQ or the child of some node (41_priority_queue.md R101, R105). -/
def State.taken (s : State) (a : NodeIdx) : Bool := (s.node a).inPq || (s.node a).parented

/-- A bit count of BW_PUT and BR_GET is at most 32 (45_bitstream.md R137, R143). -/
def bitCountOk (n : Byte) : Bool := decide (n.toNat ≤ 32)

/-- `ARG[31:32-n]`, ARG[31] first (45_bitstream.md R137). -/
def argBits (arg : Count) (n : Nat) : List Bool := (List.range n).map fun j => arg.getLsbD (31 - j)

/-- The window index `k = ARG[2:0]` (43_code_table.md R123). -/
def argWindow (arg : Count) : Nat := (arg.extractLsb' 0 3).toNat

/-- The 32-bit window k of a code: code bit 32k + j in bit 31 - j, 0 past the end (43_code_table.md R123). -/
def codeWindow (c : Code) (k : Nat) : Count :=
  (List.range 32).foldl (fun v j => v ||| (if c.getD (32 * k + j) false then 1#64 <<< (31 - j) else 0#64)) 0

/-- RES_AUX of NODE_READ (41_priority_queue.md R106). -/
def nodeReadAux (n : Node) : Word :=
  n.left.setWidth 32 ||| (n.right.setWidth 32 <<< 9) ||| (n.sym.setWidth 32 <<< 18) |||
    (if n.kind = .leaf then 1#32 <<< 26 else 0#32) ||| (if n.inPq then 1#32 <<< 27 else 0#32) |||
    (if n.parented then 1#32 <<< 28 else 0#32)

/-- The sum of two weights passes 2^64 - 1 (41_priority_queue.md R105). -/
def weightsOverflow (x y : Count) : Bool := decide (Config.maxCount < x.toNat + y.toNat)

end Sys2Proof.Machine
end

