-- ==== Sys2Proof/Machine/Bitstream.lean ====
section
/-! DEFINITION. The payload writer and the payload reader (45_bitstream.md R133 to R148). -/

namespace Sys2Proof.Machine

/-! ### Writing -/

/-- BW_PUT's body (R137). -/
def bwPutBody (n : Byte) (s : State) : Ran Unit :=
  if bitCountOk n = false then .raised .badOperand s
  else (putBits (argBits s.arg n.toNat) s).andThen fun _ t => .done () (setRes (BitVec.ofNat 64 n.toNat) t)

/-- ENC_SYMBOL's body (R136). -/
def encSymbolBody (sym : Byte) (s : State) : Ran Unit :=
  if s.codesValid = false then .raised .badState s
  else
    match s.codeAt sym with
    | none => .raised .absentSymbol s
    | some c => (putBits c s).andThen fun _ t => .done () (setRes (BitVec.ofNat 64 c.length) t)

/-- ENC_SCAN's loop (R138), `k` symbols encoded so far. -/
def encScanLoop : Nat → Nat → State → Ran Nat
  | 0, _, _ => .fault .loopBound
  | fuel + 1, k, s =>
    match srcRead s with
    | (.eof, t) => .done k t
    | (.fail, t) => .raised .ioError t
    | (.byte b, t) =>
      match t.codeAt b with
      | none => .raised .absentSymbol t
      | some c => (putBits c t).andThen fun _ u => encScanLoop fuel (k + 1) u

/-- ENC_SCAN after its check (R138). -/
def encScanCore (s : State) : Ran Unit :=
  (encScanLoop s.readsLeft 0 s).andThen fun k t => .done () (setRes (BitVec.ofNat 64 k) t)

/-- ENC_SCAN's body (R138). -/
def encScanBody (s : State) : Ran Unit :=
  if s.codesValid = false then .raised .badState s else encScanCore s

/-- BW_FLUSH's body (R139): the buffer is empty afterwards in every case. -/
def bwFlushBody (s : State) : Ran Unit :=
  (putByte s.acc (bwReset s)).andThen fun _ t => .done () (setAux 0 4 (8 - s.nacc.val) (setRes 1 t))

/-! ### Reading -/

/-- BR_GET's loop (R143): `v <- 2*v + GetBit()`, n times. -/
def getBits : Nat → Nat → State → Ran Nat
  | 0, v, s => .done v s
  | n + 1, v, s => (getBit s).andThen fun x t => getBits n (2 * v + x.toNat) t

/-- BR_GET's body (R143). -/
def brGetBody (n : Byte) (s : State) : Ran Unit :=
  if bitCountOk n = false then .raised .badOperand s
  else (getBits n.toNat 0 s).andThen fun v t => .done () (setRes (BitVec.ofNat 64 v) t)

/-- One step of the cursor (R145): left on 0, right on 1. -/
def descend (n : Node) (x : Bool) : NodeIdx := if x then n.right else n.left

/-- The cursor's walk from `c` to a leaf (R145): no bit is read at a leaf (R146). -/
def decWalk : Nat → NodeIdx → State → Ran NodeIdx
  | 0, _, _ => .fault .loopBound
  | fuel + 1, c, s =>
    match s.node? c with
    | none => .fault .treeBroken
    | some n =>
      match n.kind with
      | .leaf => .done c s
      | .internal => (getBit s).andThen fun x t => decWalk fuel (descend n x) t

/-- The lines of R145 after the walk: emit the leaf's symbol, count it off, report it. -/
def emitLeaf (c : NodeIdx) (s : State) : Ran Unit :=
  (putByte (s.node c).sym s).andThen fun _ t =>
    .done () (setAux 0 9 c.toNat (setRes ((s.node c).sym.setWidth 64) { t with remain := t.remain - 1 }))

/-- DEC_SYMBOL after its checks (R145). -/
def decSymbolCore (s : State) : Ran Unit :=
  (decWalk s.bitsLeft s.root s).andThen fun c t => emitLeaf c t

/-- DEC_SYMBOL's body (R145). -/
def decSymbolBody (s : State) : Ran Unit :=
  if s.treeValid = false then .raised .badState s
  else if s.remain = 0 then .raised .badState s
  else decSymbolCore s

/-- DEC_RUN's loop (R147), `k` symbols decoded so far; each pass counts REMAIN down, so REMAIN passes are enough. -/
def decRunLoop : Nat → Nat → State → Ran Nat
  | 0, k, s => .done k s
  | fuel + 1, k, s =>
    if s.remain = 0 then .done k s else (decSymbolCore s).andThen fun _ t => decRunLoop fuel (k + 1) t

/-- DEC_RUN after its check (R147). -/
def decRunCore (s : State) : Ran Unit :=
  (decRunLoop s.remain.toNat 0 s).andThen fun k t => .done () (setRes (BitVec.ofNat 64 k) t)

/-- DEC_RUN's body (R147). -/
def decRunBody (s : State) : Ran Unit :=
  if s.treeValid = false then .raised .badState s else decRunCore s

/-! ### The commands -/

/-- BW_RESET (R135). -/
def execBwReset (s : State) : Host.Outcome State Fault Refusal :=
  runCommand (opcode .bwReset) (fun s => .done () (bwReset s)) s

/-- BW_PUT n (R137). -/
def execBwPut (n : Byte) (s : State) : Host.Outcome State Fault Refusal :=
  runCommand (opcode (.bwPut n)) (bwPutBody n) s

/-- ENC_SYMBOL s (R136). -/
def execEncSymbol (sym : Byte) (s : State) : Host.Outcome State Fault Refusal :=
  runCommand (opcode (.encSymbol sym)) (encSymbolBody sym) s

/-- ENC_SCAN (R138). -/
def execEncScan (s : State) : Host.Outcome State Fault Refusal :=
  runCommand (opcode .encScan) encScanBody s

/-- BW_FLUSH (R139). -/
def execBwFlush (s : State) : Host.Outcome State Fault Refusal :=
  runCommand (opcode .bwFlush) bwFlushBody s

/-- BR_RESET (R142). -/
def execBrReset (s : State) : Host.Outcome State Fault Refusal :=
  runCommand (opcode .brReset) (fun s => .done () (brReset s)) s

/-- BR_GET n (R143). -/
def execBrGet (n : Byte) (s : State) : Host.Outcome State Fault Refusal :=
  runCommand (opcode (.brGet n)) (brGetBody n) s

/-- DEC_SYMBOL (R145). -/
def execDecSymbol (s : State) : Host.Outcome State Fault Refusal :=
  runCommand (opcode .decSymbol) decSymbolBody s

/-- DEC_RUN (R147). -/
def execDecRun (s : State) : Host.Outcome State Fault Refusal :=
  runCommand (opcode .decRun) decRunBody s

end Sys2Proof.Machine
end

