-- ==== Sys2Proof/Machine/CodeTable.lean ====
section
/-! DEFINITION. The code-table generator (43_code_table.md R117 to R123). -/

namespace Sys2Proof.Machine

/-- Walk (R118): depth-first, left before right, `path` the bits from the root; `nleaf` and `maxlen` so far. A symbol at
two leaves raises BAD_OPERAND, with the entries written before it kept (log 21). -/
def genWalk : CodeTree → Code → Nat → Nat → State → Ran (Nat × Nat)
  | .leaf sym, path, nleaf, maxlen, s =>
    if (s.codeAt sym).isSome then .raised .badOperand s
    else .done (nleaf + 1, max maxlen path.length) (setCode sym path s)
  | .node l r, path, nleaf, maxlen, s =>
    (genWalk l (path ++ [false]) nleaf maxlen s).andThen fun k t => genWalk r (path ++ [true]) k.1 k.2 t

/-- CODE_GEN after its check (R118). -/
def codeGenCore (s : State) : Ran Unit :=
  match s.treeAt s.root with
  | none => .fault .treeBroken
  | some tree =>
    (genWalk tree [] 0 0 { s with codesValid := false, codes := Vector.replicate 256 none }).andThen fun k t =>
      .done () (setAux 0 8 k.2 (setRes (BitVec.ofNat 64 k.1) { t with codesValid := true }))

/-- CODE_GEN's body (R118). -/
def codeGenBody (s : State) : Ran Unit :=
  if s.treeValid = false then .raised .badState s else codeGenCore s

/-- CODE_LOOKUP's body (R123). -/
def codeLookupBody (sym : Byte) (s : State) : Ran Unit :=
  if s.codesValid = false then .raised .badState s
  else
    match s.codeAt sym with
    | none => .raised .absentSymbol s
    | some c => .done () (setAux 8 1 1 (setAux 0 8 c.length (setRes (codeWindow c (argWindow s.arg)) s)))

/-- CODE_GEN (R118). -/
def execCodeGen (s : State) : Host.Outcome State Fault Refusal :=
  runCommand (opcode .codeGen) codeGenBody s

/-- CODE_LOOKUP s (R123). -/
def execCodeLookup (sym : Byte) (s : State) : Host.Outcome State Fault Refusal :=
  runCommand (opcode (.codeLookup sym)) (codeLookupBody sym) s

end Sys2Proof.Machine
end

