-- ==== Sys2Proof/Machine/Container.lean ====
section
/-! DEFINITION. The container serializer and parser (44_container.md R124 to R132). The operations on one token are shared
by the reading commands and by the tokens' own meanings (Token.lean). -/

namespace Sys2Proof.Machine

/-! ### Writing -/

/-- The decimal digits of `v`, most significant first, no leading zero; the fuel bounds their number. -/
def decDigits : Nat → Nat → List Byte
  | 0, _ => []
  | fuel + 1, v =>
    if v < 10 then [BitVec.ofNat 8 (0x30 + v)] else decDigits fuel (v / 10) ++ [BitVec.ofNat 8 (0x30 + v % 10)]

/-- Dec(v) (R124); a count has at most 20 digits. The digit order is PRESUMED (log 20). -/
def dec (v : Count) : List Byte := decDigits 20 v.toNat

/-- HDR_WRITE after its checks (R125). -/
def hdrWriteCore (s : State) : Ran Unit :=
  match s.node? s.root with
  | none => .fault .treeBroken
  | some n =>
    let h := dec n.weight ++ [0x2C]
    (putBytes h s).andThen fun _ t => .done () (setRes (BitVec.ofNat 64 h.length) t)

/-- Emit (R126): preorder, left before right; `k` bytes written so far. -/
def emitShape : CodeTree → Nat → State → Ran Nat
  | .leaf sym, k, s =>
    (putByte 0x31 s).andThen fun _ t => (putByte sym t).andThen fun _ u => .done (k + 2) u
  | .node l r, k, s =>
    (putByte 0x30 s).andThen fun _ t => (emitShape l (k + 1) t).andThen fun k' u => emitShape r k' u

/-- SHAPE_WRITE after its checks (R126). -/
def shapeWriteCore (s : State) : Ran Unit :=
  match s.treeAt s.root with
  | none => .fault .treeBroken
  | some tree => (emitShape tree 0 s).andThen fun k t => .done () (setRes (BitVec.ofNat 64 k) t)

/-- SEP_WRITE after its check (R127). -/
def sepWriteCore (s : State) : Ran Unit :=
  (putByte 0x20 s).andThen fun _ t => .done () (setRes 1 t)

/-- HDR_WRITE's body (R125). -/
def hdrWriteBody (s : State) : Ran Unit :=
  if s.treeValid = false then .raised .badState s
  else if s.nacc ≠ 0 then .raised .badState s
  else hdrWriteCore s

/-- SHAPE_WRITE's body (R126). -/
def shapeWriteBody (s : State) : Ran Unit :=
  if s.treeValid = false then .raised .badState s
  else if s.nacc ≠ 0 then .raised .badState s
  else shapeWriteCore s

/-- SEP_WRITE's body (R127). -/
def sepWriteBody (s : State) : Ran Unit :=
  if s.nacc ≠ 0 then .raised .badState s else sepWriteCore s

/-! ### One header token (R128) -/

/-- `v <- 10*v + d`, none where the value passes 2^64 - 1. -/
def headerDigit (v : Count) (d : Nat) : Option Count :=
  if 10 * v.toNat + d ≤ Config.maxCount then some (BitVec.ofNat 64 (10 * v.toNat + d)) else none

/-- The lines after the comma, `nd` digits read. -/
def headerEnd (v : Count) (nd : Nat) (s : State) : Ran Unit :=
  if nd = 0 then .raised .formatError s else .done () (setRes v { s with decl := v, remain := v })

/-! ### One shape token (R129) -/

/-- The internal marker: an internal node, its children still NIL. -/
def shapeInternal (s : State) : Ran NodeIdx :=
  if s.arenaFull then .raised .capacity s else .done s.nextIdx (alloc .internal 0 0 nilIdx nilIdx s)

/-- The leaf marker's symbol: a leaf of weight 0. -/
def shapeLeaf (sym : Byte) (s : State) : State := alloc .leaf sym 0 nilIdx nilIdx s

/-- A parsed child takes its place below node `i` and becomes parented. -/
def attach (i : NodeIdx) (side : Side) (child : NodeIdx) (s : State) : State :=
  setNode child (fun n => { n with parented := true })
    (setNode i (fun n => match side with
      | .left => { n with left := child }
      | .right => { n with right := child }) s)

/-- The last lines of SHAPE_READ, the root parsed. -/
def shapeEnd (r : NodeIdx) (s : State) : State :=
  setAux 0 9 r.toNat (setRes (BitVec.ofNat 64 s.nodes.length) { s with root := r, treeValid := true })

/-! ### The separator (R132) -/

/-- The separator byte is discarded; its value is not checked. -/
def sepEnd (b : Byte) (s : State) : State := setRes (b.setWidth 64) s

/-! ### Reading -/

/-- HDR_READ's loop (R128). A byte that is no header token raises FORMAT_ERROR, the byte consumed. -/
def hdrLoop : Nat → Count → Nat → State → Ran Unit
  | 0, _, _, _ => .fault .loopBound
  | fuel + 1, v, nd, s =>
    (getByte s).andThen fun b t =>
      match decodeHeader b with
      | .error _ => .raised .formatError t
      | .ok (.tokDigit d) =>
        match headerDigit v d.toNat with
        | none => .raised .capacity t
        | some v' => hdrLoop fuel v' (nd + 1) t
      | .ok _ => headerEnd v nd t

/-- HDR_READ's body (R128). -/
def hdrReadBody (s : State) : Ran Unit := hdrLoop s.readsLeft 0 0 (dropBits s)

/-- Parse (R129), by recursion as the rule has it; the fuel bounds the depth, each level having consumed a byte. The arena
is checked before the symbol byte is read. -/
def parseShape : Nat → State → Ran NodeIdx
  | 0, _ => .fault .loopBound
  | fuel + 1, s =>
    (getByte s).andThen fun m t =>
      if m = 0x31 then
        if t.arenaFull then .raised .capacity t
        else (getByte t).andThen fun sym u => .done u.nextIdx (shapeLeaf sym u)
      else if m = 0x30 then
        (shapeInternal t).andThen fun i u =>
          (parseShape fuel u).andThen fun l v =>
            (parseShape fuel (attach i .left l v)).andThen fun r w => .done i (attach i .right r w)
      else .raised .formatError t

/-- SHAPE_READ's body (R129). -/
def shapeReadBody (s : State) : Ran Unit :=
  (parseShape s.readsLeft (arenaClear (dropBits s))).andThen fun r t => .done () (shapeEnd r t)

/-- SEP_READ's body (R132). -/
def sepReadBody (s : State) : Ran Unit :=
  (getByte (dropBits s)).andThen fun b t => .done () (sepEnd b t)

/-! ### The commands -/

/-- HDR_WRITE (R125). -/
def execHdrWrite (s : State) : Host.Outcome State Fault Refusal :=
  runCommand (opcode .hdrWrite) hdrWriteBody s

/-- SHAPE_WRITE (R126). -/
def execShapeWrite (s : State) : Host.Outcome State Fault Refusal :=
  runCommand (opcode .shapeWrite) shapeWriteBody s

/-- SEP_WRITE (R127). -/
def execSepWrite (s : State) : Host.Outcome State Fault Refusal :=
  runCommand (opcode .sepWrite) sepWriteBody s

/-- HDR_READ (R128). -/
def execHdrRead (s : State) : Host.Outcome State Fault Refusal :=
  runCommand (opcode .hdrRead) hdrReadBody s

/-- SHAPE_READ (R129). -/
def execShapeRead (s : State) : Host.Outcome State Fault Refusal :=
  runCommand (opcode .shapeRead) shapeReadBody s

/-- SEP_READ (R132). -/
def execSepRead (s : State) : Host.Outcome State Fault Refusal :=
  runCommand (opcode .sepRead) sepReadBody s

end Sys2Proof.Machine
end

