-- ==== Sys2Proof/Machine/Control.lean ====
section
/-! DEFINITION. The control commands (40_control.md R92 to R95). -/

namespace Sys2Proof.Machine

/-- Every element of 10_state.md R49 at its reset value, whatever the engine was doing; the port state, the host and the
schedule are `s`'s (R93; log 22, log 29). -/
def softResetState (s : State) : State :=
  { State.reset with
    srcAttached := s.srcAttached, src := s.src, srcPos := s.srcPos
    snkAttached := s.snkAttached, snk := s.snk
    regBase := s.regBase, script := s.script, draws := s.draws, obs := s.obs, freeCount := s.freeCount }

/-- The hardware reset (70_reset_and_hazards.md R183): as above, and the ports are detached and empty. What the host has
read, and the moves and draws to come, are no state of the engine's (R184; log 22). -/
def hardReset (s : State) : State :=
  { State.reset with
    regBase := s.regBase, script := s.script, draws := s.draws, obs := s.obs, freeCount := s.freeCount }

/-- SRC_REWIND's body (R95). -/
def srcRewindBody (s : State) : Ran Unit :=
  match srcRewind s with
  | (true, t) => .done () t
  | (false, t) => .raised .ioError t

/-- NOP (R92): nothing beyond acceptance. -/
def execNop (s : State) : Host.Outcome State Fault Refusal :=
  runCommand (opcode .nop) (fun s => .done () s) s

/-- SOFT_RESET (R93). -/
def execSoftReset (s : State) : Host.Outcome State Fault Refusal :=
  runCommand (opcode .softReset) (fun s => .done () (softResetState s)) s

/-- CLEAR_ERR (R94). -/
def execClearErr (s : State) : Host.Outcome State Fault Refusal :=
  runCommand (opcode .clearErr) (fun s => .done () (clearError s)) s

/-- SRC_REWIND (R95). -/
def execSrcRewind (s : State) : Host.Outcome State Fault Refusal :=
  runCommand (opcode .srcRewind) srcRewindBody s

end Sys2Proof.Machine
end

