-- ==== Sys2Proof/Machine/Histogram.lean ====
section
/-! DEFINITION. The frequency histogram and the tree builder (42_tree_builder.md R107 to R116). -/

namespace Sys2Proof.Machine

/-- HIST_ADD's body (R108). -/
def histAddBody (sym : Byte) (s : State) : Ran Unit :=
  if s.totalFull then .raised .capacity s
  else .done () (setRes (s.histAt sym + 1) (countSymbol sym s))

/-- HIST_SCAN's loop (R109), `k` bytes counted so far. -/
def histScanLoop : Nat → Nat → State → Ran Nat
  | 0, _, _ => .fault .loopBound
  | fuel + 1, k, s =>
    match srcRead s with
    | (.eof, t) => .done k t
    | (.fail, t) => .raised .ioError t
    | (.byte b, t) => if t.totalFull then .raised .capacity t else histScanLoop fuel (k + 1) (countSymbol b t)

/-- HIST_SCAN's body (R109). -/
def histScanBody (s : State) : Ran Unit :=
  (histScanLoop s.readsLeft 0 s).andThen fun k t => .done () (setRes (BitVec.ofNat 64 k) t)

/-- TREE_BUILD's seeding (R112): one leaf per symbol whose count is nonzero, in ascending order. -/
def seedLeaves : List Byte → State → State
  | [], s => s
  | sym :: rest, s =>
    if s.histAt sym = 0 then seedLeaves rest s
    else seedLeaves rest (pqInsert s.nextIdx (alloc .leaf sym (s.histAt sym) nilIdx nilIdx s))

/-- TREE_BUILD's joins (R112): while two entries are left, the first minimum becomes the left child and the second the
right child of a new node, which is inserted. -/
def joinAll : Nat → State → Ran Unit
  | 0, _ => .fault .loopBound
  | fuel + 1, s =>
    if s.pq.length ≤ 1 then .done () s
    else
      match pqExtractMin s with
      | none => .fault .buildBroken
      | some (a, t) =>
        match pqExtractMin t with
        | none => .fault .buildBroken
        | some (b, u) => joinAll fuel (pqInsert u.nextIdx (join a.node b.node u))

/-- TREE_BUILD's last lines (R112): the root leaves PQ. -/
def takeRoot (s : State) : Ran Unit :=
  match pqExtractMin s with
  | none => .fault .buildBroken
  | some (r, t) =>
    .done () (setAux 0 9 r.node.toNat (setRes (t.node r.node).weight { t with root := r.node, treeValid := true }))

/-- TREE_BUILD after its check (R112). -/
def treeBuildCore (s : State) : Ran Unit :=
  let t := seedLeaves allSymbols (arenaClear s)
  (joinAll (t.pq.length + 1) t).andThen fun _ u => takeRoot u

/-- TREE_BUILD's body (R112, R113). -/
def treeBuildBody (s : State) : Ran Unit :=
  if s.total = 0 then .raised .emptyInput s else treeBuildCore s

/-- HIST_CLEAR (R107). -/
def execHistClear (s : State) : Host.Outcome State Fault Refusal :=
  runCommand (opcode .histClear) (fun s => .done () (histReset s)) s

/-- HIST_ADD s (R108). -/
def execHistAdd (sym : Byte) (s : State) : Host.Outcome State Fault Refusal :=
  runCommand (opcode (.histAdd sym)) (histAddBody sym) s

/-- HIST_SCAN (R109). -/
def execHistScan (s : State) : Host.Outcome State Fault Refusal :=
  runCommand (opcode .histScan) histScanBody s

/-- HIST_READ s (R110). -/
def execHistRead (sym : Byte) (s : State) : Host.Outcome State Fault Refusal :=
  runCommand (opcode (.histRead sym)) (fun s => .done () (setRes (s.histAt sym) s)) s

/-- TREE_BUILD (R112). -/
def execTreeBuild (s : State) : Host.Outcome State Fault Refusal :=
  runCommand (opcode .treeBuild) treeBuildBody s

end Sys2Proof.Machine
end

