-- ==== Sys2Proof/Machine/Codec.lean ====
section
/-! DEFINITION. The Compress and Decompress sequencers (46_codec.md R149 to R155): the bodies of the component commands in
order, "the command's pseudocode after its checks". The sub-bodies write RES and RES_AUX as they go; the last line
overwrites both. -/

namespace Sys2Proof.Machine

/-- The last line of a successful composite (R149, R152): the sizes, and RES with RES_AUX = 0. -/
def sizes (orig comp res : Count) (s : State) : State :=
  { s with origSize := orig, compSize := comp, res := res, resAux := 0 }

/-- Container bytes written since the sink held `start` bytes: `SNK_POS - s0`. -/
def State.writtenSince (s : State) (start : Nat) : Count := BitVec.ofNat 64 (s.snk.length - start)

/-- Container bytes consumed since position `start`: `SRC_POS - t0`. -/
def State.readSince (s : State) (start : Nat) : Count := BitVec.ofNat 64 (s.srcPos - start)

/-- The non-empty part of COMPRESS (R149), steps (2) to (5). -/
def compressSteps (s : State) : Ran Unit :=
  (srcRewindBody s).andThen fun _ s =>
  (treeBuildCore s).andThen fun _ s =>
  (codeGenCore s).andThen fun _ s =>
  (hdrWriteCore s).andThen fun _ s =>
  (shapeWriteCore s).andThen fun _ s =>
  (sepWriteCore s).andThen fun _ s =>
  (encScanCore s).andThen fun _ s =>
  bwFlushBody s

/-- COMPRESS's body (R149, R151). -/
def compressBody (s : State) : Ran Unit :=
  if s.srcPos ≠ 0 then .raised .badState s
  else
    (histScanBody (bwReset (histReset (arenaClear s)))).andThen fun _ t =>
      if t.total = 0 then
        (putBytes [0x30, 0x2C] t).andThen fun _ u =>
          .done () (sizes 0 (u.writtenSince s.snk.length) (u.writtenSince s.snk.length) u)
      else
        (compressSteps t).andThen fun _ u =>
          .done () (sizes u.total (u.writtenSince s.snk.length) (u.writtenSince s.snk.length) u)

/-- The non-empty part of DECOMPRESS (R152), steps (2) to (4). -/
def decompressSteps (s : State) : Ran Unit :=
  (shapeReadBody s).andThen fun _ s =>
  (sepReadBody s).andThen fun _ s =>
  decRunCore s

/-- DECOMPRESS's body (R152). -/
def decompressBody (s : State) : Ran Unit :=
  (hdrReadBody (brReset (arenaClear s))).andThen fun _ t =>
    if t.decl = 0 then .done () (sizes 0 (t.readSince s.srcPos) 0 t)
    else
      (decompressSteps t).andThen fun _ u => .done () (sizes u.decl (u.readSince s.srcPos) u.decl u)

/-- COMPRESS (R149). -/
def execCompress (s : State) : Host.Outcome State Fault Refusal :=
  runCommand (opcode .compress) compressBody s

/-- DECOMPRESS (R152). -/
def execDecompress (s : State) : Host.Outcome State Fault Refusal :=
  runCommand (opcode .decompress) decompressBody s

end Sys2Proof.Machine
end

