-- ==== Sys2Proof/Machine/Queue.lean ====
section
/-! DEFINITION. The priority structure and the node arena (41_priority_queue.md R100 to R106). -/

namespace Sys2Proof.Machine

/-- PQ_INSERT's body (R101). -/
def pqInsertBody (a : NodeIdx) (s : State) : Ran Unit :=
  if s.allocated a = false then .raised .badOperand s
  else if s.taken a then .raised .badOperand s
  else if Config.pqCap ≤ s.pq.length ∨ s.seq = Config.seqLimit then .raised .capacity s
  else .done () (setAux 16 16 s.seq.toNat (setAux 0 9 a.toNat (setRes (s.node a).weight (pqInsert a s))))

/-- PQ_EXTRACT_MIN's body (R102). Empty is a result, not an error. -/
def pqExtractMinBody (s : State) : Ran Unit :=
  match pqExtractMin s with
  | none => .done () (setAux 0 9 nilIdx.toNat { s with pqEmpty := true })
  | some (e, t) => .done () (setAux 16 16 e.seq.toNat (setAux 0 9 e.node.toNat (setRes (s.node e.node).weight t)))

/-- NODE_LEAF's body (R104): the weight is ARG. -/
def nodeLeafBody (sym : Byte) (s : State) : Ran Unit :=
  if s.arenaFull then .raised .capacity s
  else .done () (setAux 0 9 s.nextIdx.toNat (setRes s.arg (alloc .leaf sym s.arg nilIdx nilIdx (invalidate s))))

/-- NODE_JOIN's body (R105). -/
def nodeJoinBody (a b : NodeIdx) (s : State) : Ran Unit :=
  if s.allocated a = false ∨ s.allocated b = false then .raised .badOperand s
  else if a = b then .raised .badOperand s
  else if s.taken a ∨ s.taken b then .raised .badOperand s
  else if s.arenaFull ∨ weightsOverflow (s.node a).weight (s.node b).weight then .raised .capacity s
  else
    .done () (setAux 0 9 s.nextIdx.toNat
      (setRes ((s.node a).weight + (s.node b).weight) (join a b (invalidate s))))

/-- NODE_READ's body (R106). -/
def nodeReadBody (a : NodeIdx) (s : State) : Ran Unit :=
  if s.allocated a = false then .raised .badOperand s
  else .done () { setRes (s.node a).weight s with resAux := nodeReadAux (s.node a) }

/-- PQ_CLEAR (R100). -/
def execPqClear (s : State) : Host.Outcome State Fault Refusal :=
  runCommand (opcode .pqClear) (fun s => .done () (pqClear s)) s

/-- PQ_INSERT a (R101). -/
def execPqInsert (a : NodeIdx) (s : State) : Host.Outcome State Fault Refusal :=
  runCommand (opcode (.pqInsert a)) (pqInsertBody a) s

/-- PQ_EXTRACT_MIN (R102). -/
def execPqExtractMin (s : State) : Host.Outcome State Fault Refusal :=
  runCommand (opcode .pqExtractMin) pqExtractMinBody s

/-- ARENA_CLEAR (R103). -/
def execArenaClear (s : State) : Host.Outcome State Fault Refusal :=
  runCommand (opcode .arenaClear) (fun s => .done () (arenaClear s)) s

/-- NODE_LEAF s (R104). -/
def execNodeLeaf (sym : Byte) (s : State) : Host.Outcome State Fault Refusal :=
  runCommand (opcode (.nodeLeaf sym)) (nodeLeafBody sym) s

/-- NODE_JOIN a, b (R105). -/
def execNodeJoin (a b : NodeIdx) (s : State) : Host.Outcome State Fault Refusal :=
  runCommand (opcode (.nodeJoin a b)) (nodeJoinBody a b) s

/-- NODE_READ a (R106). -/
def execNodeRead (a : NodeIdx) (s : State) : Host.Outcome State Fault Refusal :=
  runCommand (opcode (.nodeRead a)) (nodeReadBody a) s

end Sys2Proof.Machine
end

