-- ==== Sys2Proof/Machine/Token.lean ====
section
/-! DEFINITION. The container tokens as instructions (30_encoding.md R83, R84): what the container reader does with ONE
token, over the same operations as HDR_READ, SHAPE_READ, SEP_READ and DEC_SYMBOL. The token's bytes or bit have been read
by the fetch below. A token in a phase it is no token of is refused (log 15). -/

namespace Sys2Proof.Machine

/-- How a token's piece of a body ends: the command it is part of goes on, or ends with an error. -/
def tokenOutcome (r : Ran Unit) : Host.Outcome State Fault Refusal :=
  match r with
  | .done _ t => .next t
  | .raised e t => .next (raise e t)
  | .fault f => .fault f

/-- A complete subtree at `r` takes its place (R129): below the innermost frame, whose right child comes next or whose own
subtree is then complete too; with no frame left it is the root, and the shape ends (R84). -/
def closeSubtree : List Frame → NodeIdx → State → State
  | [], r, s => shapeEnd r { s with parse := .idle }
  | f :: st, r, s =>
    match f.side with
    | .left => { attach f.node .left r s with parse := .shape ({ node := f.node, side := .right } :: st) }
    | .right => closeSubtree st f.node (attach f.node .right r s)

/-! ### The tokens -/

/-- TOK_DIGIT d (R83, R128). -/
def execTokDigit (d : BitVec 4) (s : State) : Host.Outcome State Fault Refusal :=
  match s.parse with
  | .header v nd =>
    match headerDigit v d.toNat with
    | none => .next (raise .capacity s)
    | some v' => .next { s with parse := .header v' (nd + 1) }
  | _ => .refused .tokenOutOfPhase

/-- TOK_HDR_END (R83, R128). -/
def execTokHdrEnd (s : State) : Host.Outcome State Fault Refusal :=
  match s.parse with
  | .header v nd => tokenOutcome (headerEnd v nd { s with parse := .idle })
  | _ => .refused .tokenOutOfPhase

/-- TOK_INTERNAL (R83, R129): the left subtree follows, then the right one. -/
def execTokInternal (s : State) : Host.Outcome State Fault Refusal :=
  match s.parse with
  | .shape st =>
    tokenOutcome ((shapeInternal s).andThen fun i t =>
      .done () { t with parse := .shape ({ node := i, side := .left } :: st) })
  | _ => .refused .tokenOutOfPhase

/-- TOK_LEAF s (R83, R129). -/
def execTokLeaf (sym : Byte) (s : State) : Host.Outcome State Fault Refusal :=
  match s.parse with
  | .shape st =>
    if s.arenaFull then .next (raise .capacity s) else .next (closeSubtree st s.nextIdx (shapeLeaf sym s))
  | _ => .refused .tokenOutOfPhase

/-- TOK_SEP (R83, R132). -/
def execTokSep (b : Byte) (s : State) : Host.Outcome State Fault Refusal :=
  match s.parse with
  | .sep => .next (sepEnd b { s with parse := .idle })
  | _ => .refused .tokenOutOfPhase

/-- One payload bit at the cursor (R145): an internal node sends it to a child. At a leaf no bit is read (R146), so a bit
there is no token. -/
def moveCursor (x : Bool) (s : State) : Host.Outcome State Fault Refusal :=
  match s.parse with
  | .payload c =>
    match s.node? c with
    | none => .fault .treeBroken
    | some n =>
      match n.kind with
      | .leaf => .refused .tokenOutOfPhase
      | .internal => .next { s with parse := .payload (descend n x) }
  | _ => .refused .tokenOutOfPhase

/-- TOK_BIT0 (R83, R145): "descend left on 0". -/
def execTokBit0 (s : State) : Host.Outcome State Fault Refusal := moveCursor false s

/-- TOK_BIT1 (R83, R145): "right on 1". -/
def execTokBit1 (s : State) : Host.Outcome State Fault Refusal := moveCursor true s

/-! ### Fetching a token (R84) -/

/-- What the decoder refuses in the byte stream raises FORMAT_ERROR (R85). -/
def decodeToken (c : Fetched) (s : State) : Ran Instr :=
  match decode c with
  | .ok i => .done i s
  | .error _ => .raised .formatError s

/-- A header token is one byte. -/
def fetchHeader (s : State) : Ran Instr := (getByte s).andThen fun b t => decodeToken (.header b) t

/-- A shape token is one byte, or two where the first is 0x31; the arena is checked before the symbol byte is read
(44_container.md R129). -/
def fetchShape (s : State) : Ran Instr :=
  (getByte s).andThen fun m t =>
    if m = 0x31 then
      if t.arenaFull then .raised .capacity t
      else (getByte t).andThen fun sym u => decodeToken (.shape [m, sym]) u
    else decodeToken (.shape [m]) t

/-- The separator is one byte. -/
def fetchSep (s : State) : Ran Instr := (getByte s).andThen fun b t => decodeToken (.sep b) t

/-- A payload token is one bit. -/
def fetchBit (s : State) : Ran Instr := (getBit s).andThen fun x t => decodeToken (.bit x) t

/-- Fetch, then run; a fetch that raises ends the command. -/
def runFetched (run : Instr → State → Host.Outcome State Fault Refusal) (r : Ran Instr) :
    Host.Outcome State Fault Refusal :=
  match r with
  | .done i t => run i t
  | .raised e t => .next (raise e t)
  | .fault f => .fault f

/-- The engine's turn inside a container reader: the next token of its phase; at a leaf in the payload, the symbol is
emitted and the walk ends (45_bitstream.md R145). -/
def tokenTurn (run : Instr → State → Host.Outcome State Fault Refusal) (s : State) :
    Host.Outcome State Fault Refusal :=
  match s.parse with
  | .idle => .next s
  | .header _ _ => runFetched run (fetchHeader s)
  | .shape _ => runFetched run (fetchShape s)
  | .sep => runFetched run (fetchSep s)
  | .payload c =>
    match s.node? c with
    | none => .fault .treeBroken
    | some n =>
      match n.kind with
      | .leaf => tokenOutcome (emitLeaf c { s with parse := .idle })
      | .internal => runFetched run (fetchBit s)

end Sys2Proof.Machine
end

