-- ==== Sys2Proof/Machine/Dispatch.lean ====
section
/-! DEFINITION. One arm per instruction: its meaning. -/

namespace Sys2Proof.Machine

def exec (i : Instr) (s : State) : Host.Outcome State Fault Refusal :=
  match i with
  | .nop => Sys2Proof.Machine.execNop s
  | .softReset => Sys2Proof.Machine.execSoftReset s
  | .clearErr => Sys2Proof.Machine.execClearErr s
  | .srcRewind => Sys2Proof.Machine.execSrcRewind s
  | .pqClear => Sys2Proof.Machine.execPqClear s
  | .pqInsert a => Sys2Proof.Machine.execPqInsert a s
  | .pqExtractMin => Sys2Proof.Machine.execPqExtractMin s
  | .arenaClear => Sys2Proof.Machine.execArenaClear s
  | .nodeLeaf sym => Sys2Proof.Machine.execNodeLeaf sym s
  | .nodeJoin a b => Sys2Proof.Machine.execNodeJoin a b s
  | .nodeRead a => Sys2Proof.Machine.execNodeRead a s
  | .histClear => Sys2Proof.Machine.execHistClear s
  | .histAdd sym => Sys2Proof.Machine.execHistAdd sym s
  | .histScan => Sys2Proof.Machine.execHistScan s
  | .histRead sym => Sys2Proof.Machine.execHistRead sym s
  | .treeBuild => Sys2Proof.Machine.execTreeBuild s
  | .codeGen => Sys2Proof.Machine.execCodeGen s
  | .codeLookup sym => Sys2Proof.Machine.execCodeLookup sym s
  | .hdrWrite => Sys2Proof.Machine.execHdrWrite s
  | .shapeWrite => Sys2Proof.Machine.execShapeWrite s
  | .sepWrite => Sys2Proof.Machine.execSepWrite s
  | .hdrRead => Sys2Proof.Machine.execHdrRead s
  | .shapeRead => Sys2Proof.Machine.execShapeRead s
  | .sepRead => Sys2Proof.Machine.execSepRead s
  | .bwReset => Sys2Proof.Machine.execBwReset s
  | .bwPut n => Sys2Proof.Machine.execBwPut n s
  | .encSymbol sym => Sys2Proof.Machine.execEncSymbol sym s
  | .encScan => Sys2Proof.Machine.execEncScan s
  | .bwFlush => Sys2Proof.Machine.execBwFlush s
  | .brReset => Sys2Proof.Machine.execBrReset s
  | .brGet n => Sys2Proof.Machine.execBrGet n s
  | .decSymbol => Sys2Proof.Machine.execDecSymbol s
  | .decRun => Sys2Proof.Machine.execDecRun s
  | .compress => Sys2Proof.Machine.execCompress s
  | .decompress => Sys2Proof.Machine.execDecompress s
  | .tokDigit d => Sys2Proof.Machine.execTokDigit d s
  | .tokHdrEnd => Sys2Proof.Machine.execTokHdrEnd s
  | .tokInternal => Sys2Proof.Machine.execTokInternal s
  | .tokLeaf sym => Sys2Proof.Machine.execTokLeaf sym s
  | .tokSep b => Sys2Proof.Machine.execTokSep b s
  | .tokBit0 => Sys2Proof.Machine.execTokBit0 s
  | .tokBit1 => Sys2Proof.Machine.execTokBit1 s

end Sys2Proof.Machine
end

