-- ==== Sys2Proof/Machine/Flags.lean ====
section
/-! DEFINITION. STATUS and the register block as the host reads it (10_state.md R26 to R33). -/

namespace Sys2Proof.Machine

/-- A flag at its bit position. -/
def flagBit (b : Bool) (pos : Nat) : Word := if b then 1#32 <<< pos else 0#32

/-- STATUS.ERROR: 1 exactly when ERR_CODE is not 0 (R28). -/
def State.errorFlag (s : State) : Bool := s.errCode.isSome

/-- STATUS (R28). -/
def State.status (s : State) : Word :=
  flagBit s.busy 0 ||| flagBit s.errorFlag 1 ||| flagBit s.pqEmpty 2 ||| flagBit s.treeValid 3 |||
    flagBit s.codesValid 4 ||| flagBit s.cmdDropped 5 ||| ((errCodeBits s.errCode).setWidth 32 <<< 8)

/-- The _LO word of a 64-bit register (R26). -/
def loWord (c : Count) : Word := c.extractLsb' 0 32

/-- The _HI word of a 64-bit register (R26). -/
def hiWord (c : Count) : Word := c.extractLsb' 32 32

/-- PQ_STATE: size in [8:0], SEQ in [31:16] (R26). -/
def State.pqState (s : State) : Word := (BitVec.ofNat 9 s.pq.length).setWidth 32 ||| (s.seq.setWidth 32 <<< 16)

/-- NODE_COUNT in [9:0] (R26). -/
def State.nodeCountReg (s : State) : Word := (BitVec.ofNat 10 s.nodes.length).setWidth 32

/-- BW_STATE: ACC in [7:0], NACC in [10:8] (R26). -/
def State.bwState (s : State) : Word := s.acc.setWidth 32 ||| (BitVec.ofNat 32 s.nacc.val <<< 8)

/-- BR_STATE: CUR in [7:0], NLEFT in [11:8] (R26). -/
def State.brState (s : State) : Word := s.cur.setWidth 32 ||| (BitVec.ofNat 32 s.nleft.val <<< 8)

/-- PORT_STATUS: SRC_ATTACHED in [0], SNK_ATTACHED in [1] (R26). -/
def State.portStatus (s : State) : Word := flagBit s.srcAttached 0 ||| flagBit s.snkAttached 1

/-- Whether an offset is a register of R26 and not reserved. -/
def isRegister (off : Nat) : Bool := decide (off ≤ 0x7C)

/-- The register at an offset, as the host reads it while BUSY = 0 (R26). CMD is write-only and reads 0; a reserved
offset reads 0. -/
def State.readReg (s : State) (off : Nat) : Word :=
  match off with
  | 0x00 => Config.idWord
  | 0x04 => Config.paramWord
  | 0x08 => 0
  | 0x0C => s.status
  | 0x10 => loWord s.arg
  | 0x14 => hiWord s.arg
  | 0x18 => loWord s.res
  | 0x1C => hiWord s.res
  | 0x20 => s.resAux
  | 0x24 => s.errOp.setWidth 32
  | 0x28 => loWord s.errPos
  | 0x2C => hiWord s.errPos
  | 0x30 => s.pqState
  | 0x34 => s.nodeCountReg
  | 0x38 => s.root.setWidth 32
  | 0x3C => s.bwState
  | 0x40 => s.brState
  | 0x44 => loWord s.total
  | 0x48 => hiWord s.total
  | 0x4C => loWord s.remain
  | 0x50 => hiWord s.remain
  | 0x54 => loWord s.decl
  | 0x58 => hiWord s.decl
  | 0x5C => loWord s.srcPosReg
  | 0x60 => hiWord s.srcPosReg
  | 0x64 => loWord s.snkPosReg
  | 0x68 => hiWord s.snkPosReg
  | 0x6C => loWord s.origSize
  | 0x70 => hiWord s.origSize
  | 0x74 => loWord s.compSize
  | 0x78 => hiWord s.compSize
  | 0x7C => s.portStatus
  | _ => 0

end Sys2Proof.Machine
end

