-- ==== Sys2Proof/Machine/Lifecycle.lean ====
section
/-! DEFINITION. One move of the schedule: command acceptance (40_control.md R89), the host's register accesses and port
actions (20_memory.md R52, R53, R58, R70), the hardware reset, and the engine's turn. Each takes `run`, what executes an
instruction, which Step.lean gives as `exec`. -/

namespace Sys2Proof.Machine

/-- The commands the error state admits (60_exceptions.md R168). -/
def admittedInError : Instr → Bool
  | .nop => true
  | .softReset => true
  | .clearErr => true
  | _ => false

/-- A word that is not executed: CMD_DROPPED <- 1 (R89). -/
def dropWord (s : State) : State := { s with cmdDropped := true }

/-- ILLEGAL_CMD, raised at acceptance: BUSY, RES, RES_AUX and PQ_EMPTY stay as they are (R89, 60_exceptions.md R162). -/
def raiseIllegal (w : Word) (s : State) : State := raise .illegalCmd { s with cmdOp := opOf w }

/-- The command's body has run; BUSY reads 1 until the engine's completion turn (R90; log 2). -/
def holdBusy : Host.Outcome State Fault Refusal → Host.Outcome State Fault Refusal
  | .next t => .next { t with busy := true }
  | .fault f => .fault f
  | .refused r => .refused r

/-- A write of `w` to CMD (R89). -/
def acceptWord (run : Instr → State → Host.Outcome State Fault Refusal) (w : Word) (s : State) :
    Host.Outcome State Fault Refusal :=
  if s.busy then .next (dropWord s)
  else
    match decode (.cmd w) with
    | .error _ => if s.errCode.isSome then .next (dropWord s) else .next (raiseIllegal w s)
    | .ok i =>
      if s.errCode.isSome ∧ admittedInError i = false then .next (dropWord s) else holdBusy (run i s)

/-- An access the block admits: 4 bytes wide, 4-byte aligned, inside the 256-byte window (20_memory.md R52). -/
def State.admits (s : State) (addr size : Nat) : Bool :=
  decide (size = 4 ∧ s.regBase ≤ addr ∧ (addr - s.regBase) % 4 = 0 ∧ addr - s.regBase < 0x100)

/-- A write to the register at an offset: CMD, ARG_LO and ARG_HI take it, every other offset ignores it
(10_state.md R26, R29). -/
def writeReg (run : Instr → State → Host.Outcome State Fault Refusal) (off : Nat) (v : Word) (s : State) :
    Host.Outcome State Fault Refusal :=
  if off = 0x08 then acceptWord run v s
  else if off = 0x10 then .next { s with arg := s.arg.extractLsb' 32 32 ++ v }
  else if off = 0x14 then .next { s with arg := v ++ s.arg.extractLsb' 0 32 }
  else .next s

/-- MemWrite; an access that is not admitted has no step (20_memory.md R53; log 7). -/
def hostWrite (run : Instr → State → Host.Outcome State Fault Refusal) (addr size : Nat) (v : Word) (s : State) :
    Host.Outcome State Fault Refusal :=
  if s.admits addr size then writeReg run (addr - s.regBase) v s else .fault .unadmittedAccess

/-- The word of an UNSPECIFIED read (20_memory.md R70): a free value (log 4); of STATUS, BUSY reads 1. -/
def State.busyRead (s : State) (off : Nat) : Word :=
  if off = 0x0C then Config.freeWord s.freeCount ||| 1#32 else Config.freeWord s.freeCount

/-- A register read: while BUSY = 1 every register's value is UNSPECIFIED but STATUS.BUSY; a reserved offset is no
register and reads 0 (log 5). -/
def readRegTo (off : Nat) (s : State) : State :=
  if s.busy && isRegister off then
    { s with obs := .word (s.busyRead off) :: s.obs, freeCount := s.freeCount + 1 }
  else { s with obs := .word (s.readReg off) :: s.obs }

/-- MemRead; an access that is not admitted has no step (20_memory.md R53; log 7). -/
def hostRead (addr size : Nat) (s : State) : Host.Outcome State Fault Refusal :=
  if s.admits addr size then .next (readRegTo (addr - s.regBase) s) else .fault .unadmittedAccess

/-- A host port action; while BUSY = 1 it has no step (20_memory.md R58; log 8). -/
def portAction (f : State → State) (s : State) : Host.Outcome State Fault Refusal :=
  if s.busy then .fault .portActionWhileBusy else .next (f s)

/-- AttachSource (20_memory.md R58); a source is shorter than 2^64 bytes (R51; log 12). -/
def attachSource (bytes : List Byte) (s : State) : Host.Outcome State Fault Refusal :=
  if bytes.length ≤ Config.maxCount then
    portAction (fun s => { s with src := bytes, srcPos := 0, srcAttached := true }) s
  else .fault .sourceTooLong

/-- The engine's turn: idle at BUSY = 0; else the next token of a container reader, or completion (40_control.md R90). -/
def engineTurn (run : Instr → State → Host.Outcome State Fault Refusal) (s : State) :
    Host.Outcome State Fault Refusal :=
  if s.busy then
    match s.parse with
    | .idle => .next (complete s)
    | _ => tokenTurn run s
  else .next s

/-- One move. -/
def move (run : Instr → State → Host.Outcome State Fault Refusal) (e : Event) (s : State) :
    Host.Outcome State Fault Refusal :=
  match e with
  | .engine => engineTurn run s
  | .memWrite addr size v => hostWrite run addr size v s
  | .memRead addr size => hostRead addr size s
  | .attachSource bytes => attachSource bytes s
  | .detachSource => portAction (fun s => { s with srcAttached := false }) s
  | .attachSink => portAction (fun s => { s with snk := [], snkAttached := true }) s
  | .detachSink => portAction (fun s => { s with snkAttached := false }) s
  | .readSink => portAction (fun s => { s with obs := .bytes s.snk :: s.obs }) s
  | .hwReset => .next (hardReset s)

/-- The next move of the schedule; with none left it is the engine's turn (log 1). -/
def turn (run : Instr → State → Host.Outcome State Fault Refusal) (s : State) : Host.Outcome State Fault Refusal :=
  match s.script with
  | [] => engineTurn run s
  | e :: rest => move run e { s with script := rest }

/-! ### Placing one instruction where the next step fetches it -/

/-- A command word is fetched from the host's next move: a write of it to CMD, while the engine is idle and not in the
error state (log 18). -/
def placeCommand (w : Word) (s : State) : State :=
  { s with
    script := .memWrite (s.regBase + 0x08) 4 w :: s.script
    busy := false, parse := .idle, errCode := none, errOp := 0, errPos := 0 }

/-- A token's bytes are fetched from the attached source at SRC_POS, by a running command whose reader is in the token's
phase, at the engine's turn (log 15, log 18). -/
def placeBytes (p : Parse) (bs : List Byte) (s : State) : State :=
  { s with
    script := .engine :: s.script, draws := [], busy := true, parse := p
    srcAttached := true, src := s.src.take s.srcPos ++ bs, srcPos := (s.src.take s.srcPos).length }

/-- The smallest tree with a bit to read: an internal root over two leaves. -/
def bitTree : List Node :=
  [{ kind := .internal, sym := 0, weight := 0, left := 1, right := 2, inPq := false, parented := false },
   { kind := .leaf, sym := 0, weight := 0, left := nilIdx, right := nilIdx, inPq := false, parented := true },
   { kind := .leaf, sym := 1, weight := 0, left := nilIdx, right := nilIdx, inPq := false, parented := true }]

/-- A payload bit is fetched from the byte being consumed, at a cursor on an internal node (log 15, log 18). -/
def placeBit (x : Bool) (s : State) : State :=
  { s with
    script := .engine :: s.script, busy := true, parse := .payload 0
    nodes := bitTree, root := 0, treeValid := true, codesValid := false, pq := []
    cur := if x then 1 else 0, nleft := 1 }

/-- Where each kind of code is fetched. The header's end is placed after one digit. -/
def placeCode (c : Fetched) (s : State) : State :=
  match c with
  | .cmd w => placeCommand w s
  | .header b => placeBytes (.header 0 1) [b] s
  | .shape bs => placeBytes (.shape []) bs s
  | .sep b => placeBytes .sep [b] s
  | .bit x => placeBit x s

end Sys2Proof.Machine
end

