-- ==== Sys2Proof/Machine/Step.lean ====
section
/-! DEFINITION. One step: the next move of the schedule, with `exec` running the instructions; and where an instruction is
placed for the next step to fetch. -/

namespace Sys2Proof.Machine

/-- One step of the machine (40_control.md R89, R90): a host move or the engine's turn. -/
def step (s : State) : Host.Outcome State Fault Refusal := turn exec s

/-- The state with an instruction stored where the next step fetches it: a command word in the host's next write to CMD, a
token's bytes or bit in the stream of a container reader in that token's phase (log 18). -/
def State.withFetchWord (s : State) (nbits w : Nat) : State :=
  match codeOfTableWord nbits w with
  | none => s
  | some c => placeCode c s

end Sys2Proof.Machine
end

