-- ==== Sys2Proof/Safety.lean ====
section
/-! DEFINITION. The terms the claims are stated in: what a command leaves beside its own effect, the streams seen as bit and
byte strings, trees seen as paths and shapes, and the invariants of a run. -/

namespace Sys2Proof.Machine

/-! ### What a command leaves beside its own effect -/

/-- The acceptance and completion effects alone (40_control.md R89, R90): RES, RES_AUX and PQ_EMPTY cleared, BUSY 0. -/
def State.fresh (s : State) : State :=
  { s with busy := false, res := 0, resAux := 0, pqEmpty := false, cmdOp := 0 }

/-- A command that raised `e` before its body changed anything (40_control.md R91, 60_exceptions.md R158). -/
def State.failed (s : State) (op : Byte) (e : Err) : State :=
  { s.fresh with errCode := some e, errOp := op, errPos := s.srcPosReg, parse := .idle }

/-- The host fails no port access (20_memory.md R56, R57). -/
abbrev Willing (s : State) : Prop := ∀ d ∈ s.draws, d = true

/-- The sink has room for `n` more bytes (20_memory.md R51). -/
abbrev Room (n : Nat) (s : State) : Prop := s.snk.length + n ≤ Config.maxCount

/-- Every state a piece of a body can end in, done or raised, meets `P`. -/
def Ran.Ends {α : Type} (P : State → Prop) (r : Ran α) : Prop :=
  match r with
  | .done _ t => P t
  | .raised _ t => P t
  | .fault _ => True

/-! ### Streams -/

/-- The source bytes from SRC_POS on. -/
def State.rest (s : State) : List Byte := s.src.drop s.srcPos

/-- A byte's bits, bit 7 first (20_memory.md R62). -/
def byteBits (b : Byte) : List Bool := (List.range 8).map fun k => b.getLsbD (7 - k)

/-- The bits of a byte string in stream order (20_memory.md R62). -/
def bytesBits (bs : List Byte) : List Bool := bs.flatMap byteBits

/-- The BitWriter's pending bits, the first pending first (10_state.md R43). -/
def State.pending (s : State) : List Bool := (byteBits s.acc).take s.nacc.val

/-- The bits the BitReader has before it: those left of CUR, then the rest of the source (10_state.md R43). -/
def State.upcoming (s : State) : List Bool := (byteBits s.cur).drop (8 - s.nleft.val) ++ bytesBits s.rest

/-- How many bytes the BitReader fetches to give `n` bits (45_bitstream.md R141). -/
def State.fetches (s : State) (n : Nat) : Nat := (n - s.nleft.val + 7) / 8

/-- A bit string as a number, the first bit most significant (45_bitstream.md R143). -/
def bitsValue (xs : List Bool) : Nat := xs.foldl (fun v x => 2 * v + x.toNat) 0

/-- A byte 0x30..0x39. -/
def isDigit (b : Byte) : Bool := decide (0x30 ≤ b.toNat ∧ b.toNat ≤ 0x39)

/-- The value of a string of digit bytes, most significant first (44_container.md R124, R128). -/
def digitsValue (bs : List Byte) : Nat := bs.foldl (fun v b => 10 * v + (b.toNat - 0x30)) 0

/-! ### Trees -/

/-- The leaf symbols, left before right. -/
def CodeTree.leaves : CodeTree → List Byte
  | .leaf sym => [sym]
  | .node l r => l.leaves ++ r.leaves

/-- Each leaf with the bits from the root to it: 0 left, 1 right (30_encoding.md R87). -/
def CodeTree.paths : CodeTree → List (Byte × Code)
  | .leaf sym => [(sym, [])]
  | .node l r =>
    (l.paths.map fun p => (p.1, false :: p.2)) ++ (r.paths.map fun p => (p.1, true :: p.2))

/-- The code of a symbol: the path to its first leaf. -/
def CodeTree.codeOf (t : CodeTree) (sym : Byte) : Option Code := (t.paths.find? fun p => p.1 == sym).map (·.2)

/-- The length of the longest path. -/
def CodeTree.depth : CodeTree → Nat
  | .leaf _ => 0
  | .node l r => max l.depth r.depth + 1

/-- The number of nodes. -/
def CodeTree.size : CodeTree → Nat
  | .leaf _ => 1
  | .node l r => l.size + r.size + 1

/-- The shape bytes: preorder, '0' for an internal node, '1' and the raw symbol for a leaf (30_encoding.md R82). -/
def CodeTree.shapeBytes : CodeTree → List Byte
  | .leaf sym => [0x31, sym]
  | .node l r => 0x30 :: (l.shapeBytes ++ r.shapeBytes)

/-- The shape tokens, one per node in preorder (30_encoding.md R83, R84). -/
def CodeTree.shapeTokens : CodeTree → List (List Byte)
  | .leaf sym => [[0x31, sym]]
  | .node l r => [0x30] :: (l.shapeTokens ++ r.shapeTokens)

/-- The records of a decoded tree in preorder (44_container.md R129, R130), the first at index `base`: every weight is 0, and
every node below the first is parented. -/
def CodeTree.preorder : CodeTree → Nat → Bool → List Node
  | .leaf sym, _, parented =>
    [{ kind := .leaf, sym := sym, weight := 0, left := nilIdx, right := nilIdx, inPq := false, parented := parented }]
  | .node l r, base, parented =>
    { kind := .internal, sym := 0, weight := 0, left := BitVec.ofNat 9 (base + 1)
      right := BitVec.ofNat 9 (base + 1 + l.size), inPq := false, parented := parented } ::
      (l.preorder (base + 1) true ++ r.preorder (base + 1 + l.size) true)

/-- The node the arena's path from `i` leads to: left on 0, right on 1 (45_bitstream.md R145). -/
def State.follow (s : State) (i : NodeIdx) : Code → Option NodeIdx
  | [] => some i
  | x :: xs =>
    match s.node? i with
    | none => none
    | some n => s.follow (descend n x) xs

/-! ### Joins of TREE_BUILD (42_tree_builder.md R112, R115) -/

/-- Node `x` waits in PQ when node `k` is made: it is made before and no node made before `k` has taken it as a child. -/
def State.waitingAt (s : State) (k : Nat) (x : NodeIdx) : Prop :=
  x.toNat < k ∧ ∀ (j : Nat) (m : Node), j < k → s.nodes[j]? = some m → m.left ≠ x ∧ m.right ≠ x

/-- The order key (weight, seq) of `x` is below that of `y` (41_priority_queue.md R97). In TREE_BUILD a node's seq is its
index: both count the nodes from 0 in the order they are made. -/
def State.keyLess (s : State) (x y : NodeIdx) : Prop :=
  (s.node x).weight.toNat < (s.node y).weight.toNat ∨ ((s.node x).weight = (s.node y).weight ∧ x.toNat < y.toNat)

/-- `a` is the least of the nodes waiting at `k`, and `b` the next. -/
def State.twoLeast (s : State) (k : Nat) (a b : NodeIdx) : Prop :=
  s.waitingAt k a ∧ s.waitingAt k b ∧ s.keyLess a b ∧ ∀ x, s.waitingAt k x → x ≠ a → x ≠ b → s.keyLess b x

/-! ### Histogram -/

/-- The sum of HIST[s] over s, exact. -/
def State.histSum (s : State) : Nat := (s.hist.toList.map BitVec.toNat).sum

/-- The symbols whose count is nonzero, ascending (42_tree_builder.md R114). -/
def State.present (s : State) : List Byte := allSymbols.filter fun sym => s.histAt sym ≠ 0

/-! ### Invariants of a run -/

/-- No command is half done in its container reader (10_state.md R45), and no opcode is kept at BUSY = 0. -/
def QuietReader (s : State) : Prop := s.parse = .idle ∧ (s.busy = false → s.cmdOp = 0)

/-- TOTAL is the sum of HIST (10_state.md R37). -/
def TotalAgrees (s : State) : Prop := s.parse = .idle ∧ s.total.toNat = s.histSum

/-- CODES_VALID implies TREE_VALID (10_state.md R46), and without a tree ROOT is NIL (41_priority_queue.md R98). -/
def FlagsAgree (s : State) : Prop :=
  s.parse = .idle ∧ (s.codesValid = true → s.treeValid = true) ∧ (s.treeValid = false → s.root = nilIdx)

/-- ERR_OP and ERR_POS are 0 when ERR_CODE is 0 (10_state.md R32). -/
def ErrorRecordAgrees (s : State) : Prop := s.parse = .idle ∧ (s.errCode = none → s.errOp = 0 ∧ s.errPos = 0)

/-- ACC[7-NACC:0] = 0 (10_state.md R43). -/
def AccPadded (s : State) : Prop := s.parse = .idle ∧ ∀ k, k < 8 - s.nacc.val → s.acc.getLsbD k = false

/-- SRC_POS lies in 0..len(SRC), and both streams are shorter than 2^64 (10_state.md R44, 20_memory.md R51). -/
def PortsInRange (s : State) : Prop :=
  s.parse = .idle ∧ s.srcPos ≤ s.src.length ∧ s.src.length ≤ Config.maxCount ∧ s.snk.length ≤ Config.maxCount

/-- A valid tree can be read from the arena, which is no longer than NODE_CAP (10_state.md R25, R28). -/
def TreePresent (s : State) : Prop :=
  s.parse = .idle ∧ s.nodes.length ≤ Config.nodeCap ∧ (s.treeValid = true → (s.treeAt s.root).isSome = true)

/-- PQ is a set of at most PQ_CAP pairs, in seq order and below SEQ, of distinct allocated nodes, and in_pq says exactly
which nodes are in it (10_state.md R41). -/
def QueueAgrees (s : State) : Prop :=
  s.parse = .idle ∧ s.nodes.length ≤ Config.nodeCap ∧ s.pq.length ≤ Config.pqCap ∧
    s.pq.Pairwise (fun x y => x.seq < y.seq ∧ x.node ≠ y.node) ∧ (∀ e ∈ s.pq, e.seq < s.seq) ∧
    (∀ e ∈ s.pq, s.allocated e.node = true) ∧
    (∀ i : NodeIdx, s.allocated i = true → ((s.node i).inPq = true ↔ ∃ e ∈ s.pq, e.node = i))

/-- Every child an allocated internal node names, NIL aside. -/
def State.childRefs (s : State) : List NodeIdx :=
  s.nodes.flatMap fun n => if n.kind = .internal then [n.left, n.right].filter (fun i => i ≠ nilIdx) else []

/-- `c` is a child of the allocated internal node `p`. -/
def State.childOf (s : State) (c p : NodeIdx) : Prop :=
  ∃ n, s.node? p = some n ∧ n.kind = .internal ∧ c ≠ nilIdx ∧ (n.left = c ∨ n.right = c)

/-- Ownership (10_state.md R40): no node is named as a child twice, `parented` says exactly which allocated nodes are named,
every child named is allocated, no node in PQ has a parent, and no node is its own descendant. -/
def ArenaOwned (s : State) : Prop :=
  QueueAgrees s ∧ s.childRefs.Nodup ∧ (∀ i ∈ s.childRefs, s.allocated i = true) ∧
    (∀ i : NodeIdx, s.allocated i = true → ((s.node i).parented = true ↔ i ∈ s.childRefs)) ∧
    (∀ e ∈ s.pq, (s.node e.node).parented = false) ∧
    ∀ i : NodeIdx, ¬ Relation.TransGen s.childOf i i

/-! ### Runs of the container reader, one token a turn -/

/-- `n` engine turns, each running the next token of the container reader, until it is idle or the command has ended. -/
def tokenRun : Nat → State → Host.Outcome State Fault Refusal
  | 0, s => .next s
  | n + 1, s =>
    if s.busy = true ∧ s.parse ≠ .idle then
      match tokenTurn exec s with
      | .next t => tokenRun n t
      | .fault f => .fault f
      | .refused r => .refused r
    else .next s

end Sys2Proof.Machine
end

