-- ==== Sys2Proof/Certificates/Slice0/Obligations.lean ====
section
/-! DEFINITION. The statements for the provers, from the numbered rules of spec/. An equation `exec i s = .next { s.fresh with … }`
is the instruction's result, its completion and its whole frame at once: every field it does not name is as `s.fresh` has
it, which is `s` with the acceptance effects of R89. -/

open Sys2Proof Sys2Proof.Machine

/-! ### Encoding -/

/-- Decoding an encoded well-formed instruction gives it back, for every operand value (30_encoding.md sections 1, 2). -/
def Obligations.DecodeUndoesEncode : Prop :=
  ∀ i : Instr, i.WellFormed = true → decode (encode i) = .ok i

/-- Each word, byte string or bit has one meaning: what decodes to `i` is the encoding of `i`, and `i` is well formed. -/
def Obligations.EncodeUndoesDecode : Prop :=
  ∀ (c : Fetched) (i : Instr), decode c = .ok i → encode i = c ∧ i.WellFormed = true

/-- R80: a word is legal exactly when its opcode is in the map of R79 and the reserved bits of its format (R76) are 0. -/
def Obligations.LegalWordsAreTheOpcodeMap : Prop :=
  ∀ w : Word, (∃ i, decode (.cmd w) = .ok i) ↔
    ((w.extractLsb' 0 8).toNat ∈ [0x00, 0x01, 0x02, 0x03, 0x10, 0x12, 0x14, 0x20, 0x22, 0x24, 0x28, 0x30, 0x31, 0x32, 0x38,
        0x39, 0x3A, 0x40, 0x43, 0x44, 0x48, 0x4A, 0x4B, 0x50, 0x51] ∧ w.toNat < 2 ^ 8) ∨
    ((w.extractLsb' 0 8).toNat ∈ [0x15, 0x21, 0x23, 0x29, 0x41, 0x42, 0x49] ∧ w.toNat < 2 ^ 16) ∨
    ((w.extractLsb' 0 8).toNat ∈ [0x11, 0x17] ∧ w.toNat < 2 ^ 17) ∨
    ((w.extractLsb' 0 8).toNat = 0x16 ∧ w.toNat < 2 ^ 26)

/-- R78: the encoding functions as numbers, with the rule's three examples; and the three examples' words decode. -/
def Obligations.EncodingWordsOfTheRule : Prop :=
  (∀ op : Byte, (encN op).toNat = op.toNat) ∧
  (∀ op imm8 : Byte, (encS op imm8).toNat = imm8.toNat * 2 ^ 8 + op.toNat) ∧
  (∀ (op : Byte) (a : NodeIdx), (encA op a).toNat = a.toNat * 2 ^ 8 + op.toNat) ∧
  (∀ (op : Byte) (a b : NodeIdx), (encAB op a b).toNat = b.toNat * 2 ^ 17 + a.toNat * 2 ^ 8 + op.toNat) ∧
  encode (.pqInsert 5) = .cmd 0x00000511 ∧ encode (.nodeJoin 0 1) = .cmd 0x00020016 ∧
  encode (.histAdd 0x61) = .cmd 0x00006121 ∧ decode (.cmd 0x00000511) = .ok (.pqInsert 5) ∧
  decode (.cmd 0x00020016) = .ok (.nodeJoin 0 1) ∧ decode (.cmd 0x00006121) = .ok (.histAdd 0x61)

/-- A few command words and tokens written out from R76, R79 and R83 decode to the instruction they stand for. -/
def Obligations.SanityWordsDecode : Prop :=
  decode (.cmd 0x00000000) = .ok .nop ∧ decode (.cmd 0x0001FF11) = .ok (.pqInsert 511) ∧
  decode (.cmd 0x00020016) = .ok (.nodeJoin 0 1) ∧ decode (.cmd 0x00007223) = .ok (.histRead 0x72) ∧
  decode (.cmd 0x00006329) = .ok (.codeLookup 0x63) ∧ decode (.cmd 0x0000003A) = .ok .sepRead ∧
  decode (.cmd 0x00002041) = .ok (.bwPut 32) ∧ decode (.cmd 0x00000051) = .ok .decompress ∧
  decode (.header 0x37) = .ok (.tokDigit 7) ∧ decode (.shape [0x31, 0x30]) = .ok (.tokLeaf 0x30)

/-! ### The command lifecycle -/

/-- R89: a legal word written to CMD while BUSY = 0 and outside the error state (or one the error state admits) is executed:
the step is `exec` of the instruction it decodes to, the move taken off the schedule, with BUSY up until the completion
turn (log 2). -/
def Obligations.StepRunsTheCommandWritten : Prop :=
  ∀ (s : State) (w : Word) (i : Instr) (moves : List Event),
    s.script = .memWrite (s.regBase + 0x08) 4 w :: moves → s.busy = false →
    (s.errCode = none ∨ i = .nop ∨ i = .softReset ∨ i = .clearErr) → decode (.cmd w) = .ok i →
    step s = match exec i { s with script := moves } with
      | .next t => .next { t with busy := true }
      | .fault f => .fault f
      | .refused r => .refused r

/-- R83, R84: inside a running container reader, the engine's turn runs the token that the bytes at SRC_POS (or the next
payload bit) decode to, the bytes consumed. Model's choice: the token granularity (log 15). -/
def Obligations.StepRunsTheTokenFetched : Prop :=
  ∀ (s : State) (moves : List Event), s.script = .engine :: moves → s.busy = true → s.srcAttached = true →
    (∀ (v : Count) (nd : Nat) (b : Byte) (i : Instr), s.parse = .header v nd → Willing s → s.src[s.srcPos]? = some b →
      decode (.header b) = .ok i →
      step s = exec i { s with script := moves, srcPos := s.srcPos + 1, draws := s.draws.tail }) ∧
    (∀ (st : List Frame), s.parse = .shape st → Willing s → s.src[s.srcPos]? = some 0x30 →
      step s = exec .tokInternal { s with script := moves, srcPos := s.srcPos + 1, draws := s.draws.tail }) ∧
    (∀ (st : List Frame) (sym : Byte), s.parse = .shape st → Willing s → s.nodes.length < 511 →
      s.src[s.srcPos]? = some 0x31 → s.src[s.srcPos + 1]? = some sym →
      step s = exec (.tokLeaf sym) { s with script := moves, srcPos := s.srcPos + 2, draws := s.draws.tail.tail }) ∧
    (∀ b : Byte, s.parse = .sep → Willing s → s.src[s.srcPos]? = some b →
      step s = exec (.tokSep b) { s with script := moves, srcPos := s.srcPos + 1, draws := s.draws.tail }) ∧
    (∀ (c : NodeIdx) (n : Node) (k : Fin 9), s.parse = .payload c → s.node? c = some n → n.kind = .internal →
      s.nleft.val = k.val + 1 →
      step s = exec (if s.cur.getLsbD k.val then .tokBit1 else .tokBit0) { s with script := moves, nleft := k })

/-- R162, R89, R173: an illegal word outside the error state raises ILLEGAL_CMD, and only the error registers change; a word
written while BUSY = 1 is dropped, CMD_DROPPED is set and nothing else changes. The premise QuietReader is an invariant of
its own. -/
def Obligations.UnexecutedWords : Prop :=
  (∀ (s : State) (w : Word) (r : Reject) (moves : List Event),
     QuietReader s → s.script = .memWrite (s.regBase + 0x08) 4 w :: moves → s.busy = false → s.errCode = none →
     decode (.cmd w) = .error r →
     step s = .next { s with
       script := moves, errCode := some .illegalCmd, errOp := w.extractLsb' 0 8, errPos := BitVec.ofNat 64 s.srcPos }) ∧
  (∀ (s : State) (w : Word) (moves : List Event),
     s.script = .memWrite (s.regBase + 0x08) 4 w :: moves → s.busy = true →
     step s = .next { s with script := moves, cmdDropped := true })

/-- R168: in the error state every word but a legal NOP, SOFT_RESET or CLEAR_ERR is dropped, and those three execute; the state
is left only by CLEAR_ERR, by SOFT_RESET or by a hardware reset. That BUSY reads 1 after the step that accepts one of the three
(R89, R90) is the model's division of a command into two steps (log 2). The premise QuietReader is an invariant of its own. -/
def Obligations.ErrorStateAdmission : Prop :=
  (∀ (s : State) (w : Word) (moves : List Event),
     s.script = .memWrite (s.regBase + 0x08) 4 w :: moves → s.busy = false → s.errCode.isSome = true →
     (w.toNat ∉ [0, 1, 2] → step s = .next { s with script := moves, cmdDropped := true }) ∧
     (∀ i ∈ [Instr.nop, Instr.softReset, Instr.clearErr], w = encN (opcode i) →
       ∃ t, exec i { s with script := moves } = .next t ∧ step s = .next { t with busy := true })) ∧
  (∀ (s t : State) (e : Err), QuietReader s → s.errCode = some e → step s = .next t → t.errCode ≠ some e →
     t.errCode = none ∧ ∃ m moves, s.script = m :: moves ∧
       (m = .hwReset ∨ (s.busy = false ∧
         (m = .memWrite (s.regBase + 0x08) 4 0x00000001 ∨ m = .memWrite (s.regBase + 0x08) 4 0x00000002))))

/-- R90, R180: the engine's turn completes a command whose body has run (BUSY <- 0), and an idle engine keeps its state; an
empty schedule gives the engine the turn (log 1, log 2). -/
def Obligations.EngineTurnCompletesOrIdles : Prop :=
  ∀ (s : State) (moves : List Event), (s.script = .engine :: moves ∨ (s.script = [] ∧ moves = [])) →
    (s.busy = true → s.parse = .idle → step s = .next { s with script := moves, busy := false, cmdOp := 0 }) ∧
    (s.busy = false → step s = .next { s with script := moves })

/-- R158, R154: a command that ends with an error not there before has recorded its own opcode (the composite's) and
SRC_POS, is over, and has left ORIG_SIZE and COMP_SIZE alone. -/
def Obligations.RaiseRecordsOpcodeAndPosition : Prop :=
  ∀ (i : Instr) (s t : State) (e : Err), isToken i = false → s.errCode = none → exec i s = .next t → t.errCode = some e →
    t.errOp = opcode i ∧ t.errPos = BitVec.ofNat 64 t.srcPos ∧ t.busy = false ∧
    t.origSize = s.origSize ∧ t.compSize = s.compSize

/-- R28, R35, R90: every executed command ends with BUSY = 0, clears PQ_EMPTY unless it is PQ_EXTRACT_MIN, and clears
CMD_DROPPED only if it is SOFT_RESET or CLEAR_ERR. -/
def Obligations.ExecutedCommandFlags : Prop :=
  ∀ (i : Instr) (s t : State), isToken i = false → exec i s = .next t →
    t.busy = false ∧ (t.pqEmpty = true → i = .pqExtractMin) ∧
    ((i = .softReset ∨ i = .clearErr) → t.cmdDropped = false) ∧
    (i ≠ .softReset → i ≠ .clearErr → t.cmdDropped = s.cmdDropped)

/-- R36: HIST and TOTAL are written only by HIST_CLEAR, HIST_ADD, HIST_SCAN, COMPRESS and SOFT_RESET. R30, R33: only
SOFT_RESET changes ARG, and only COMPRESS, DECOMPRESS and SOFT_RESET change the two sizes. R57, R59, R93: no instruction
changes SRC or attaches or detaches a port, SNK only grows at its end, and the host's side (REG_BASE, the schedule, what the
host has read) is left alone. -/
def Obligations.WritersOfSharedState : Prop :=
  (∀ (i : Instr) (s t : State), exec i s = .next t →
     i ∉ [.histClear, .histScan, .compress, .softReset] → (∀ sym, i ≠ .histAdd sym) →
     t.hist = s.hist ∧ t.total = s.total) ∧
  (∀ (i : Instr) (s t : State), exec i s = .next t →
     (i ≠ .softReset → t.arg = s.arg) ∧
     (i ≠ .softReset → i ≠ .compress → i ≠ .decompress → t.origSize = s.origSize ∧ t.compSize = s.compSize)) ∧
  (∀ (i : Instr) (s t : State), exec i s = .next t →
     t.src = s.src ∧ t.srcAttached = s.srcAttached ∧ t.snkAttached = s.snkAttached ∧ s.snk <+: t.snk ∧
     t.draws <:+ s.draws ∧ t.regBase = s.regBase ∧ t.script = s.script ∧ t.obs = s.obs ∧ t.freeCount = s.freeCount)

/-! ### Reset -/

/-- R49, R50: the reset values the spec gives. -/
def Obligations.ResetValues : Prop :=
  (∀ sym, State.reset.histAt sym = 0 ∧ State.reset.codeAt sym = none) ∧ State.reset.total = 0 ∧
  State.reset.nodes.length = 0 ∧ State.reset.root = 0x1FF ∧ State.reset.pq = [] ∧ State.reset.seq = 0 ∧
  State.reset.acc = 0 ∧ State.reset.nacc = 0 ∧ State.reset.cur = 0 ∧ State.reset.nleft = 0 ∧ State.reset.remain = 0 ∧
  State.reset.decl = 0 ∧ State.reset.origSize = 0 ∧ State.reset.compSize = 0 ∧ State.reset.arg = 0 ∧
  State.reset.res = 0 ∧ State.reset.resAux = 0 ∧ State.reset.errCode = none ∧ State.reset.errOp = 0 ∧
  State.reset.errPos = 0 ∧ State.reset.status = 0 ∧ State.reset.srcAttached = false ∧ State.reset.snkAttached = false ∧
  State.reset.srcPos = 0 ∧ State.reset.src = [] ∧ State.reset.snk = [] ∧
  State.reset.readReg 0x00 = 0x48554646 ∧ State.reset.readReg 0x04 = 0x0FF401FF

/-- R93: SOFT_RESET gives every element of R49 its reset value and leaves the port state unchanged. R183, R184: the hardware
reset gives every element its reset value, ports included, whatever the engine was doing; what the host has read stays. That
the host and the schedule survive is the model's own (log 22, log 29). -/
def Obligations.Resets : Prop :=
  (encode .softReset = .cmd 0x00000001 ∧
   ∀ s : State, exec .softReset s = .next { State.reset with
     srcAttached := s.srcAttached, src := s.src, srcPos := s.srcPos, snkAttached := s.snkAttached, snk := s.snk
     regBase := s.regBase, script := s.script, draws := s.draws, obs := s.obs, freeCount := s.freeCount }) ∧
  (∀ (s : State) (moves : List Event), s.script = .hwReset :: moves →
     step s = .next { State.reset with
       regBase := s.regBase, script := moves, draws := s.draws, obs := s.obs, freeCount := s.freeCount })

/-! ### The register block and the ports -/

/-- R26, R27: the register map, and reserved offsets read 0. -/
def Obligations.RegisterMap : Prop :=
  ∀ s : State,
    s.readReg 0x00 = 0x48554646 ∧ s.readReg 0x04 = 0x0FF401FF ∧ s.readReg 0x08 = 0 ∧
    s.readReg 0x14 ++ s.readReg 0x10 = s.arg ∧ s.readReg 0x1C ++ s.readReg 0x18 = s.res ∧ s.readReg 0x20 = s.resAux ∧
    s.readReg 0x24 = s.errOp.setWidth 32 ∧ s.readReg 0x2C ++ s.readReg 0x28 = s.errPos ∧
    (s.pq.length ≤ 256 → (s.readReg 0x30).toNat = s.pq.length + s.seq.toNat * 2 ^ 16) ∧
    (s.nodes.length ≤ 511 → (s.readReg 0x34).toNat = s.nodes.length) ∧ (s.readReg 0x38).toNat = s.root.toNat ∧
    (s.readReg 0x3C).toNat = s.acc.toNat + s.nacc.val * 2 ^ 8 ∧
    (s.readReg 0x40).toNat = s.cur.toNat + s.nleft.val * 2 ^ 8 ∧
    s.readReg 0x48 ++ s.readReg 0x44 = s.total ∧ s.readReg 0x50 ++ s.readReg 0x4C = s.remain ∧
    s.readReg 0x58 ++ s.readReg 0x54 = s.decl ∧
    (s.srcPos < 2 ^ 64 → (s.readReg 0x60 ++ s.readReg 0x5C).toNat = s.srcPos) ∧
    (s.snk.length < 2 ^ 64 → (s.readReg 0x68 ++ s.readReg 0x64).toNat = s.snk.length) ∧
    s.readReg 0x70 ++ s.readReg 0x6C = s.origSize ∧ s.readReg 0x78 ++ s.readReg 0x74 = s.compSize ∧
    (s.readReg 0x7C).toNat = s.srcAttached.toNat + 2 * s.snkAttached.toNat ∧ ∀ off, 0x7C < off → s.readReg off = 0

/-- R28, R157: the fields of STATUS; bits 7:6 and 31:12 read 0. -/
def Obligations.StatusFields : Prop :=
  ∀ s : State,
    (s.readReg 0x0C).getLsbD 0 = s.busy ∧ (s.readReg 0x0C).getLsbD 1 = s.errCode.isSome ∧
    (s.readReg 0x0C).getLsbD 2 = s.pqEmpty ∧ (s.readReg 0x0C).getLsbD 3 = s.treeValid ∧
    (s.readReg 0x0C).getLsbD 4 = s.codesValid ∧ (s.readReg 0x0C).getLsbD 5 = s.cmdDropped ∧
    (s.readReg 0x0C).extractLsb' 6 2 = 0 ∧ (s.readReg 0x0C).extractLsb' 12 20 = 0 ∧
    ((s.readReg 0x0C).extractLsb' 8 4).toNat = match s.errCode with
      | none => 0
      | some .ioError => 1
      | some .formatError => 2
      | some .emptyInput => 3
      | some .illegalCmd => 4
      | some .badState => 5
      | some .badOperand => 6
      | some .capacity => 7
      | some .absentSymbol => 8

/-- R26, R29, R66, R192: a host write to ARG_LO or ARG_HI is kept unchanged, also while BUSY = 1; a write to any other
admitted offset but CMD does nothing. -/
def Obligations.RegisterWrites : Prop :=
  ∀ (s : State) (off : Nat) (v : Word) (moves : List Event),
    s.script = .memWrite (s.regBase + off) 4 v :: moves → off % 4 = 0 → off < 0x100 → off ≠ 0x08 →
    ∃ t, step s = .next t ∧ t = { s with script := moves, arg := t.arg } ∧
      (off = 0x10 → t.readReg 0x10 = v ∧ t.readReg 0x14 = s.readReg 0x14) ∧
      (off = 0x14 → t.readReg 0x14 = v ∧ t.readReg 0x10 = s.readReg 0x10) ∧
      (off ≠ 0x10 → off ≠ 0x14 → t.arg = s.arg)

/-- R52, R66: an admitted register read at BUSY = 0 gives the host the register and changes nothing. R70: while BUSY = 1 a read
of STATUS has bit 0 set, a read of any other register gives some word, and nothing of the engine changes; this holds whatever
the free value Config.freeWord is (log 4). -/
def Obligations.RegisterReads : Prop :=
  (∀ (s : State) (off : Nat) (moves : List Event),
     s.script = .memRead (s.regBase + off) 4 :: moves → off % 4 = 0 → off < 0x100 → s.busy = false →
     step s = .next { s with script := moves, obs := .word (s.readReg off) :: s.obs }) ∧
  (∀ (s : State) (off : Nat) (moves : List Event),
     s.script = .memRead (s.regBase + off) 4 :: moves → off % 4 = 0 → off ≤ 0x7C → s.busy = true →
     ∃ v : Word, step s = .next
         { s with script := moves, obs := .word v :: s.obs, freeCount := s.freeCount + 1 } ∧
       (off = 0x0C → v.getLsbD 0 = true))

/-- R58: the host's port actions at BUSY = 0; a source is shorter than 2^64 bytes (R51). R53, R58: a register access that is
not 4 bytes wide, not aligned or outside the window has no step, and neither has a port action while BUSY = 1. -/
def Obligations.HostPortMoves : Prop :=
  (∀ (s : State) (moves : List Event), s.busy = false →
     (∀ bs : List Byte, bs.length < 2 ^ 64 → s.script = .attachSource bs :: moves →
       step s = .next { s with script := moves, src := bs, srcPos := 0, srcAttached := true }) ∧
     (s.script = .detachSource :: moves → step s = .next { s with script := moves, srcAttached := false }) ∧
     (s.script = .attachSink :: moves → step s = .next { s with script := moves, snk := [], snkAttached := true }) ∧
     (s.script = .detachSink :: moves → step s = .next { s with script := moves, snkAttached := false }) ∧
     (s.script = .readSink :: moves → step s = .next { s with script := moves, obs := .bytes s.snk :: s.obs })) ∧
  (∀ (s : State) (moves : List Event),
     (∀ (addr size : Nat) (v : Word),
       ¬ (size = 4 ∧ s.regBase ≤ addr ∧ (addr - s.regBase) % 4 = 0 ∧ addr - s.regBase < 0x100) →
       (s.script = .memWrite addr size v :: moves → step s = .fault .unadmittedAccess) ∧
       (s.script = .memRead addr size :: moves → step s = .fault .unadmittedAccess)) ∧
     (s.busy = true → ∀ m, m ∈ [Event.detachSource, Event.attachSink, Event.detachSink, Event.readSink] →
       s.script = m :: moves → step s = .fault .portActionWhileBusy) ∧
     (s.busy = true → ∀ bs : List Byte, bs.length < 2 ^ 64 → s.script = .attachSource bs :: moves →
       step s = .fault .portActionWhileBusy))

/-! ### Control commands (40_control.md) -/

/-- R92, R94: NOP does nothing beyond acceptance, and a NOP word with a reserved bit set is illegal; CLEAR_ERR clears the error
record and CMD_DROPPED. -/
def Obligations.NopAndClearErr : Prop :=
  encode .nop = .cmd 0x00000000 ∧ encode .clearErr = .cmd 0x00000002 ∧
  (∀ w : Word, w.extractLsb' 0 8 = 0 → w ≠ 0 → decode (.cmd w) = .error .reservedBits) ∧
  ∀ s : State, exec .nop s = .next s.fresh ∧
    exec .clearErr s = .next { s.fresh with errCode := none, errOp := 0, errPos := 0, cmdDropped := false }

/-- R95, R56: SRC_REWIND sets SRC_POS to 0, or raises IO_ERROR with SRC_POS unchanged when no source is attached or the host
fails the rewind. -/
def Obligations.SrcRewind : Prop :=
  encode .srcRewind = .cmd 0x00000003 ∧
  ∀ s : State,
    if s.srcAttached = false then exec .srcRewind s = .next (s.failed 0x03 .ioError)
    else if s.draws.head? = some false then
      exec .srcRewind s = .next { s.failed 0x03 .ioError with draws := s.draws.tail }
    else exec .srcRewind s = .next { s.fresh with srcPos := 0, draws := s.draws.tail }

/-! ### Priority structure and node arena (41_priority_queue.md) -/

/-- R100: PQ_CLEAR takes every node out of PQ, empties it and resets SEQ. R103: ARENA_CLEAR frees every node and invalidates
the tree and the codes. -/
def Obligations.QueueAndArenaClear : Prop :=
  (encode .pqClear = .cmd 0x00000010 ∧
   ∀ s : State, exec .pqClear s = .next { s.fresh with
     pq := [], seq := 0
     nodes := s.nodes.mapIdx fun k n => if s.pq.any (fun e => e.node.toNat == k) then { n with inPq := false } else n }) ∧
  (encode .arenaClear = .cmd 0x00000014 ∧
   ∀ s : State, exec .arenaClear s = .next { s.fresh with
     nodes := [], pq := [], seq := 0, root := 0x1FF, treeValid := false, codesValid := false
     codes := Vector.replicate 256 none })

/-- R101: PQ_INSERT's checks in order, and its effect. -/
def Obligations.PqInsert : Prop :=
  (∀ a : NodeIdx, encode (.pqInsert a) = .cmd (encA 0x11 a)) ∧
  ∀ (s : State) (a : NodeIdx),
    if s.nodes.length ≤ a.toNat then exec (.pqInsert a) s = .next (s.failed 0x11 .badOperand)
    else if (s.node a).inPq = true ∨ (s.node a).parented = true then
      exec (.pqInsert a) s = .next (s.failed 0x11 .badOperand)
    else if 256 ≤ s.pq.length ∨ s.seq = 0xFFFF then exec (.pqInsert a) s = .next (s.failed 0x11 .capacity)
    else exec (.pqInsert a) s = .next { s.fresh with
      pq := s.pq ++ [{ node := a, seq := s.seq }], seq := s.seq + 1
      nodes := s.nodes.modify a.toNat fun n => { n with inPq := true }
      res := (s.node a).weight, resAux := a.setWidth 32 ||| (s.seq.setWidth 32 <<< 16) }

/-- R97, R102: PQ_EXTRACT_MIN removes the entry of least weight and, among equal weights, of least seq; an empty structure is
a result, not an error. The premise on the seqs is part of the invariant QueueAgrees. -/
def Obligations.PqExtractMin : Prop :=
  encode .pqExtractMin = .cmd 0x00000012 ∧
  ∀ s : State,
    (s.pq = [] → exec .pqExtractMin s = .next { s.fresh with pqEmpty := true, resAux := 0x1FF }) ∧
    (s.pq ≠ [] → (s.pq.map PqEntry.seq).Nodup → ∃ e ∈ s.pq,
      (∀ x ∈ s.pq, x ≠ e → (s.node e.node).weight.toNat < (s.node x.node).weight.toNat ∨
        ((s.node e.node).weight = (s.node x.node).weight ∧ e.seq.toNat < x.seq.toNat)) ∧
      exec .pqExtractMin s = .next { s.fresh with
        pq := s.pq.filter fun x => x ≠ e
        nodes := s.nodes.modify e.node.toNat fun n => { n with inPq := false }
        res := (s.node e.node).weight, resAux := e.node.setWidth 32 ||| (e.seq.setWidth 32 <<< 16) })

/-- R104: NODE_LEAF allocates a leaf of weight ARG at index NODE_COUNT, or raises CAPACITY when the arena is full. -/
def Obligations.NodeLeaf : Prop :=
  (∀ sym : Byte, encode (.nodeLeaf sym) = .cmd (encS 0x15 sym)) ∧
  ∀ (s : State) (sym : Byte),
    if 511 ≤ s.nodes.length then exec (.nodeLeaf sym) s = .next (s.failed 0x15 .capacity)
    else exec (.nodeLeaf sym) s = .next { s.fresh with
      nodes := s.nodes ++ [{ kind := .leaf, sym := sym, weight := s.arg, left := 0x1FF, right := 0x1FF, inPq := false,
                             parented := false }]
      root := 0x1FF, treeValid := false, codesValid := false, codes := Vector.replicate 256 none
      res := s.arg, resAux := BitVec.ofNat 32 s.nodes.length }

/-- R105: NODE_JOIN's checks in order, and the new internal node over its two children. -/
def Obligations.NodeJoin : Prop :=
  (∀ a b : NodeIdx, encode (.nodeJoin a b) = .cmd (encAB 0x16 a b)) ∧
  ∀ (s : State) (a b : NodeIdx),
    if s.nodes.length ≤ a.toNat ∨ s.nodes.length ≤ b.toNat ∨ a = b then
      exec (.nodeJoin a b) s = .next (s.failed 0x16 .badOperand)
    else if (s.node a).parented = true ∨ (s.node b).parented = true ∨ (s.node a).inPq = true ∨ (s.node b).inPq = true then
      exec (.nodeJoin a b) s = .next (s.failed 0x16 .badOperand)
    else if 511 ≤ s.nodes.length ∨ 2 ^ 64 ≤ (s.node a).weight.toNat + (s.node b).weight.toNat then
      exec (.nodeJoin a b) s = .next (s.failed 0x16 .capacity)
    else ∃ w : Count, w.toNat = (s.node a).weight.toNat + (s.node b).weight.toNat ∧
      exec (.nodeJoin a b) s = .next { s.fresh with
        nodes := (s.nodes.mapIdx fun k n => if k = a.toNat ∨ k = b.toNat then { n with parented := true } else n) ++
          [{ kind := .internal, sym := 0, weight := w, left := a, right := b, inPq := false, parented := false }]
        root := 0x1FF, treeValid := false, codesValid := false, codes := Vector.replicate 256 none
        res := w, resAux := BitVec.ofNat 32 s.nodes.length }

/-- R106: NODE_READ gives the node's weight in RES and its fields in RES_AUX, and changes nothing else. -/
def Obligations.NodeRead : Prop :=
  (∀ a : NodeIdx, encode (.nodeRead a) = .cmd (encA 0x17 a)) ∧
  ∀ (s : State) (a : NodeIdx),
    if s.nodes.length ≤ a.toNat then exec (.nodeRead a) s = .next (s.failed 0x17 .badOperand)
    else ∃ x : Word, exec (.nodeRead a) s = .next { s.fresh with res := (s.node a).weight, resAux := x } ∧
      x.extractLsb' 0 9 = (s.node a).left ∧ x.extractLsb' 9 9 = (s.node a).right ∧ x.extractLsb' 18 8 = (s.node a).sym ∧
      (x.getLsbD 26 = true ↔ (s.node a).kind = .leaf) ∧ x.getLsbD 27 = (s.node a).inPq ∧
      x.getLsbD 28 = (s.node a).parented ∧ x.extractLsb' 29 3 = 0

/-! ### Histogram and tree builder (42_tree_builder.md) -/

/-- R107, R108, R110: HIST_CLEAR, HIST_ADD (CAPACITY at TOTAL = 2^64 - 1) and HIST_READ. -/
def Obligations.HistogramCommands : Prop :=
  encode .histClear = .cmd 0x00000020 ∧ (∀ sym : Byte, encode (.histAdd sym) = .cmd (encS 0x21 sym)) ∧
  (∀ sym : Byte, encode (.histRead sym) = .cmd (encS 0x23 sym)) ∧
  ∀ (s : State) (sym : Byte),
    exec .histClear s = .next { s.fresh with hist := Vector.replicate 256 0, total := 0 } ∧
    exec (.histRead sym) s = .next { s.fresh with res := s.histAt sym } ∧
    (s.total.toNat = 2 ^ 64 - 1 → exec (.histAdd sym) s = .next (s.failed 0x21 .capacity)) ∧
    (s.total.toNat < 2 ^ 64 - 1 → ∃ t, exec (.histAdd sym) s = .next t ∧
      t = { s.fresh with hist := t.hist, total := s.total + 1, res := s.histAt sym + 1 } ∧
      ∀ x, t.histAt x = if x = sym then s.histAt x + 1 else s.histAt x)

/-- R109: HIST_SCAN counts every remaining source byte; RES is their number. R159, R165: it raises IO_ERROR when no source is
attached or when the host fails the read after `k` bytes, and CAPACITY when the count would pass 2^64 - 1; the bytes counted
before stay counted. -/
def Obligations.HistScan : Prop :=
  (∀ s : State, s.srcAttached = true → Willing s → s.srcPos ≤ s.src.length →
     s.total.toNat + s.rest.length ≤ 2 ^ 64 - 1 →
     ∃ t, exec .histScan s = .next t ∧
       t = { s.fresh with
         hist := t.hist, total := s.total + BitVec.ofNat 64 s.rest.length, srcPos := s.src.length
         draws := s.draws.drop s.rest.length, res := BitVec.ofNat 64 s.rest.length } ∧
       ∀ sym, t.histAt sym = s.histAt sym + BitVec.ofNat 64 (s.rest.count sym)) ∧
  (∀ s : State,
     (s.srcAttached = false → exec .histScan s = .next (s.failed 0x22 .ioError)) ∧
     (∀ (k : Nat) (more : List Bool), s.srcAttached = true → s.draws = List.replicate k true ++ false :: more →
       k < s.rest.length → s.total.toNat + k ≤ 2 ^ 64 - 1 →
       ∃ t, exec .histScan s = .next t ∧
         t = { s.failed 0x22 .ioError with
           hist := t.hist, total := s.total + BitVec.ofNat 64 k, srcPos := s.srcPos + k, draws := more
           errPos := BitVec.ofNat 64 (s.srcPos + k) } ∧
         ∀ sym, t.histAt sym = s.histAt sym + BitVec.ofNat 64 ((s.rest.take k).count sym)) ∧
     (∀ k : Nat, s.srcAttached = true → Willing s → k < s.rest.length → s.total.toNat + k = 2 ^ 64 - 1 →
       ∃ t, exec .histScan s = .next t ∧
         t = { s.failed 0x22 .capacity with
           hist := t.hist, total := s.total + BitVec.ofNat 64 k, srcPos := s.srcPos + k + 1
           draws := s.draws.drop (k + 1), errPos := BitVec.ofNat 64 (s.srcPos + k + 1) } ∧
         ∀ sym, t.histAt sym = s.histAt sym + BitVec.ofNat 64 ((s.rest.take k).count sym)))

/-- R111 to R115: TREE_BUILD raises EMPTY_INPUT on an empty histogram; else, with L symbols counted, the leaves are nodes
0..L-1 in ascending symbol order and the internal nodes are L..2L-2 in join order, NODE_COUNT = 2L-1, ROOT = 2L-2, SEQ = 2L-1,
PQ is empty, every node but the root is parented, the tree's leaves are those symbols, its depth is at most L-1, every weight
is at most TOTAL, and the root's weight is TOTAL. The join that makes node k takes the two waiting nodes of least (weight,
seq), the first as the left child, and k's weight is the sum of theirs. A node's seq is its index here, because the nodes are
inserted in the order they are allocated, from SEQ = 0. The premise is the invariant TotalAgrees. -/
def Obligations.TreeBuildShape : Prop :=
  ∀ s : State,
    (s.total = 0 → exec .treeBuild s = .next (s.failed 0x24 .emptyInput)) ∧
    (TotalAgrees s → s.total ≠ 0 → ∃ (t : State) (tree : CodeTree), exec .treeBuild s = .next t ∧
      t = { s.fresh with
        nodes := t.nodes, root := BitVec.ofNat 9 (2 * s.present.length - 2), pq := []
        seq := BitVec.ofNat 16 (2 * s.present.length - 1), treeValid := true, codesValid := false
        codes := Vector.replicate 256 none, res := s.total
        resAux := BitVec.ofNat 32 (2 * s.present.length - 2) } ∧
      t.nodes.length = 2 * s.present.length - 1 ∧
      (∀ (k : Nat) (sym : Byte), s.present[k]? = some sym →
        ∃ n, t.nodes[k]? = some n ∧ n.kind = .leaf ∧ n.sym = sym ∧ n.weight = s.histAt sym ∧
          n.left = 0x1FF ∧ n.right = 0x1FF) ∧
      (∀ (k : Nat) (n : Node), t.nodes[k]? = some n → s.present.length ≤ k →
        n.kind = .internal ∧ n.sym = 0 ∧
          n.weight.toNat = (t.node n.left).weight.toNat + (t.node n.right).weight.toNat ∧ t.twoLeast k n.left n.right) ∧
      (∀ (k : Nat) (n : Node), t.nodes[k]? = some n → (n.parented = true ↔ k ≠ 2 * s.present.length - 2)) ∧
      (t.node t.root).weight = s.total ∧ (∀ n ∈ t.nodes, n.weight.toNat ≤ s.total.toNat ∧ n.inPq = false) ∧
      t.treeAt t.root = some tree ∧ tree.leaves.Perm s.present ∧ tree.depth ≤ s.present.length - 1)

/-! ### Code table (43_code_table.md) -/

/-- R118, R119: CODE_GEN records each leaf's path as its symbol's code; a symbol at two leaves raises BAD_OPERAND with
CODES_VALID = 0; no tree raises BAD_STATE. The tree at ROOT is there by the invariant TreePresent. -/
def Obligations.CodeGenRecordsPaths : Prop :=
  ∀ s : State,
    (s.treeValid = false → exec .codeGen s = .next (s.failed 0x28 .badState)) ∧
    (∀ tree : CodeTree, s.treeValid = true → s.treeAt s.root = some tree →
      (tree.leaves.Nodup → ∃ t, exec .codeGen s = .next t ∧
        t = { s.fresh with
          codesValid := true, codes := t.codes, res := BitVec.ofNat 64 tree.leaves.length
          resAux := BitVec.ofNat 32 (tree.depth % 256) } ∧
        ∀ sym, t.codeAt sym = tree.codeOf sym) ∧
      (¬ tree.leaves.Nodup → ∃ t, exec .codeGen s = .next t ∧
        t = { s.failed 0x28 .badOperand with codesValid := false, codes := t.codes }))

/-- R121: after a successful CODE_GEN no present code is a prefix of another present code. -/
def Obligations.CodesArePrefixFree : Prop :=
  ∀ (s t : State), exec .codeGen s = .next t → t.codesValid = true → s.treeValid = true →
    ∀ (x y : Byte) (c d : List Bool), t.codeAt x = some c → t.codeAt y = some d → c <+: d → x = y

/-- R123: CODE_LOOKUP's checks in order, and the 32-bit window ARG[2:0] of the code, first code bit in RES[31]. -/
def Obligations.CodeLookupWindow : Prop :=
  (∀ sym : Byte, encode (.codeLookup sym) = .cmd (encS 0x29 sym)) ∧
  ∀ (s : State) (sym : Byte),
    (s.codesValid = false → exec (.codeLookup sym) s = .next (s.failed 0x29 .badState)) ∧
    (s.codesValid = true → s.codeAt sym = none → exec (.codeLookup sym) s = .next (s.failed 0x29 .absentSymbol)) ∧
    (∀ c, s.codesValid = true → s.codeAt sym = some c →
      ∃ v : Count, exec (.codeLookup sym) s =
          .next { s.fresh with res := v, resAux := BitVec.ofNat 32 (0x100 + c.length % 256) } ∧
        v.extractLsb' 32 32 = 0 ∧
        ∀ j, j < 32 → v.getLsbD (31 - j) = c.getD (32 * (s.arg.toNat % 8) + j) false)

/-! ### Container (44_container.md) -/

/-- R124: Dec(v) is v in decimal digit bytes, most significant first, with no leading zero (the digit order is the spec's
general knowledge: log 20). -/
def Obligations.DecimalRendering : Prop :=
  ∀ v : Count, dec v ≠ [] ∧ (∀ b ∈ dec v, isDigit b = true) ∧ digitsValue (dec v) = v.toNat ∧
    ((dec v).head? = some 0x30 → dec v = [0x30])

/-- R125, R126, R127, R195: HDR_WRITE, SHAPE_WRITE and SEP_WRITE raise BAD_STATE while the BitWriter holds bits, and the first
two without a tree; else they append their bytes and report their number, 3L - 1 shape bytes for a tree of L leaves. R57, R159:
where no sink is attached, or the host fails the write after `k` bytes, they raise IO_ERROR and the `k` bytes stay in SNK.
The tree at ROOT is there by the invariant TreePresent. -/
def Obligations.ContainerWrites : Prop :=
  (∀ s : State,
     (s.treeValid = false ∨ s.nacc ≠ 0 → exec .hdrWrite s = .next (s.failed 0x30 .badState) ∧
       exec .shapeWrite s = .next (s.failed 0x31 .badState)) ∧
     (s.nacc ≠ 0 → exec .sepWrite s = .next (s.failed 0x32 .badState))) ∧
  (∀ s : State, s.nacc = 0 → s.snkAttached = true → Willing s →
     (∀ (n : Node) (h : List Byte), s.treeValid = true → s.node? s.root = some n → h = dec n.weight ++ [0x2C] →
       Room h.length s →
       exec .hdrWrite s = .next { s.fresh with
         snk := s.snk ++ h, draws := s.draws.drop h.length, res := BitVec.ofNat 64 h.length }) ∧
     (∀ tree : CodeTree, s.treeValid = true → s.treeAt s.root = some tree → Room (3 * tree.leaves.length - 1) s →
       exec .shapeWrite s = .next { s.fresh with
         snk := s.snk ++ tree.shapeBytes, draws := s.draws.drop (3 * tree.leaves.length - 1)
         res := BitVec.ofNat 64 (3 * tree.leaves.length - 1) }) ∧
     (Room 1 s → exec .sepWrite s = .next { s.fresh with snk := s.snk ++ [0x20], draws := s.draws.tail, res := 1 })) ∧
  (∀ (s : State) (n : Node) (tree : CodeTree), s.nacc = 0 → s.treeValid = true →
     s.node? s.root = some n → s.treeAt s.root = some tree → s.snkAttached = false →
     exec .hdrWrite s = .next (s.failed 0x30 .ioError) ∧ exec .shapeWrite s = .next (s.failed 0x31 .ioError)) ∧
  (∀ (s : State) (n : Node) (tree : CodeTree) (h : List Byte) (k : Nat) (more : List Bool), s.nacc = 0 →
     s.treeValid = true → s.node? s.root = some n → h = dec n.weight ++ [0x2C] → s.treeAt s.root = some tree →
     s.snkAttached = true → s.draws = List.replicate k true ++ false :: more → Room k s →
     (k < h.length → exec .hdrWrite s = .next { s.failed 0x30 .ioError with snk := s.snk ++ h.take k, draws := more }) ∧
     (k < tree.shapeBytes.length →
       exec .shapeWrite s = .next { s.failed 0x31 .ioError with snk := s.snk ++ tree.shapeBytes.take k, draws := more })) ∧
  (∀ s : State, s.nacc = 0 →
     (s.snkAttached = false → exec .sepWrite s = .next (s.failed 0x32 .ioError)) ∧
     (∀ more : List Bool, s.snkAttached = true → s.draws = false :: more →
       exec .sepWrite s = .next { s.failed 0x32 .ioError with draws := more }))

/-- R128: HDR_READ parses one or more digits up to the comma; DECL, REMAIN and RES get the value. R160, R165: it raises
FORMAT_ERROR at a byte that is neither a digit nor the comma, at a comma with no digit before it and at the end of the
source, and CAPACITY at the digit that passes 2^64 - 1; the byte that raised is consumed, DECL and REMAIN are unchanged.
R159: where the host fails the read after `k` digits it raises IO_ERROR, and those `k` bytes alone are consumed. -/
def Obligations.HdrRead : Prop :=
  (∀ (s : State) (ds more : List Byte), s.srcAttached = true → Willing s → s.rest = ds ++ 0x2C :: more → ds ≠ [] →
     (∀ b ∈ ds, isDigit b = true) → digitsValue ds < 2 ^ 64 →
     exec .hdrRead s = .next { s.fresh with
       nleft := 0, srcPos := s.srcPos + ds.length + 1, draws := s.draws.drop (ds.length + 1)
       decl := BitVec.ofNat 64 (digitsValue ds), remain := BitVec.ofNat 64 (digitsValue ds)
       res := BitVec.ofNat 64 (digitsValue ds) }) ∧
  (∀ (s : State) (ds more : List Byte), s.srcAttached = true → Willing s → (∀ b ∈ ds, isDigit b = true) →
     digitsValue ds < 2 ^ 64 →
     (∀ b : Byte, s.rest = ds ++ b :: more → isDigit b = false → (b ≠ 0x2C ∨ ds = []) →
       exec .hdrRead s = .next { s.failed 0x38 .formatError with
         nleft := 0, srcPos := s.srcPos + ds.length + 1, draws := s.draws.drop (ds.length + 1)
         errPos := BitVec.ofNat 64 (s.srcPos + ds.length + 1) }) ∧
     (∀ b : Byte, s.rest = ds ++ b :: more → isDigit b = true → 2 ^ 64 ≤ digitsValue (ds ++ [b]) →
       exec .hdrRead s = .next { s.failed 0x38 .capacity with
         nleft := 0, srcPos := s.srcPos + ds.length + 1, draws := s.draws.drop (ds.length + 1)
         errPos := BitVec.ofNat 64 (s.srcPos + ds.length + 1) }) ∧
     (s.rest = ds →
       exec .hdrRead s = .next { s.failed 0x38 .formatError with
         nleft := 0, srcPos := s.srcPos + ds.length, draws := s.draws.drop ds.length
         errPos := BitVec.ofNat 64 (s.srcPos + ds.length) })) ∧
  (∀ (s : State) (ds rest : List Byte) (more : List Bool), s.srcAttached = true → (∀ b ∈ ds, isDigit b = true) →
     digitsValue ds < 2 ^ 64 → s.rest = ds ++ rest → rest ≠ [] →
     s.draws = List.replicate ds.length true ++ false :: more →
     exec .hdrRead s = .next { s.failed 0x38 .ioError with
       nleft := 0, srcPos := s.srcPos + ds.length, draws := more, errPos := BitVec.ofNat 64 (s.srcPos + ds.length) })

/-- R129, R130, R131: SHAPE_READ on the shape bytes of any tree of at most 511 nodes rebuilds that tree with its nodes in
preorder (the left child of an internal node k is k+1, the right child follows the left subtree, the root is 0), every weight
0, no node in PQ, and every node but the root parented. R160, R165, R159: shape bytes cut short raise FORMAT_ERROR at the end
of the source; after j whole tokens, a marker byte other than 0x30 and 0x31 raises FORMAT_ERROR, that byte consumed; after 511
whole tokens of a larger tree, a marker raises CAPACITY, that byte consumed; a read the host fails after `k` bytes raises
IO_ERROR, the `k` bytes consumed. Each failure leaves no tree. -/
def Obligations.ShapeRead : Prop :=
  (∀ (s : State) (tree : CodeTree) (more : List Byte), s.srcAttached = true → Willing s → tree.size ≤ 511 →
     s.rest = tree.shapeBytes ++ more →
     ∃ t, exec .shapeRead s = .next t ∧
       t = { s.fresh with
         nleft := 0, srcPos := s.srcPos + tree.shapeBytes.length, draws := s.draws.drop tree.shapeBytes.length
         nodes := t.nodes, root := 0, pq := [], seq := 0, treeValid := true, codesValid := false
         codes := Vector.replicate 256 none, res := BitVec.ofNat 64 tree.size, resAux := 0 } ∧
       t.nodes = tree.preorder 0 false ∧ t.nodes.length = tree.size ∧ t.treeAt 0 = some tree ∧
       (∀ (k : Nat) (n : Node), t.nodes[k]? = some n → n.weight = 0 ∧ n.inPq = false ∧ (n.parented = true ↔ k ≠ 0)) ∧
       (∀ (k : Nat) (n : Node), t.nodes[k]? = some n → n.kind = .internal →
         n.left.toNat = k + 1 ∧ ∃ l, t.treeAt n.left = some l ∧ n.right.toNat = k + 1 + l.size)) ∧
  (∀ (s : State) (tree : CodeTree), s.srcAttached = true → Willing s → tree.size ≤ 511 → s.srcPos ≤ s.src.length →
     s.rest <+: tree.shapeBytes → s.rest ≠ tree.shapeBytes →
     ∃ t, exec .shapeRead s = .next t ∧
       t = { s.failed 0x39 .formatError with
         nleft := 0, srcPos := s.src.length, draws := s.draws.drop s.rest.length, nodes := t.nodes, root := 0x1FF
         pq := [], seq := 0, treeValid := false, codesValid := false, codes := Vector.replicate 256 none
         errPos := BitVec.ofNat 64 s.src.length }) ∧
  (∀ (s : State) (tree : CodeTree) (j : Nat) (m : Byte) (more : List Byte), s.srcAttached = true → Willing s →
     j < tree.size → s.rest = (tree.shapeTokens.take j).flatten ++ m :: more →
     (j ≤ 511 → m ≠ 0x30 → m ≠ 0x31 → ∃ t, exec .shapeRead s = .next t ∧ t.nodes.length = j ∧
       t = { s.failed 0x39 .formatError with
         nleft := 0, srcPos := s.srcPos + (tree.shapeTokens.take j).flatten.length + 1
         draws := s.draws.drop ((tree.shapeTokens.take j).flatten.length + 1), nodes := t.nodes, root := 0x1FF
         pq := [], seq := 0, treeValid := false, codesValid := false, codes := Vector.replicate 256 none
         errPos := BitVec.ofNat 64 (s.srcPos + (tree.shapeTokens.take j).flatten.length + 1) }) ∧
     (j = 511 → m = 0x30 ∨ m = 0x31 → ∃ t, exec .shapeRead s = .next t ∧ t.nodes.length = 511 ∧
       t = { s.failed 0x39 .capacity with
         nleft := 0, srcPos := s.srcPos + (tree.shapeTokens.take j).flatten.length + 1
         draws := s.draws.drop ((tree.shapeTokens.take j).flatten.length + 1), nodes := t.nodes, root := 0x1FF
         pq := [], seq := 0, treeValid := false, codesValid := false, codes := Vector.replicate 256 none
         errPos := BitVec.ofNat 64 (s.srcPos + (tree.shapeTokens.take j).flatten.length + 1) })) ∧
  (∀ (s : State) (tree : CodeTree) (k : Nat) (rest : List Byte) (more : List Bool), s.srcAttached = true →
     tree.size ≤ 511 → k < tree.shapeBytes.length → s.rest = tree.shapeBytes.take k ++ rest → rest ≠ [] →
     s.draws = List.replicate k true ++ false :: more →
     ∃ t, exec .shapeRead s = .next t ∧
       t = { s.failed 0x39 .ioError with
         nleft := 0, srcPos := s.srcPos + k, draws := more, nodes := t.nodes, root := 0x1FF
         pq := [], seq := 0, treeValid := false, codesValid := false, codes := Vector.replicate 256 none
         errPos := BitVec.ofNat 64 (s.srcPos + k) })

/-- R132: SEP_READ discards one byte, whatever it is, and raises FORMAT_ERROR at the end of the source. -/
def Obligations.SepReadDiscardsOneByte : Prop :=
  ∀ s : State, s.srcAttached = true → Willing s →
    (∀ (b : Byte) (more : List Byte), s.rest = b :: more → exec .sepRead s = .next { s.fresh with
      nleft := 0, srcPos := s.srcPos + 1, draws := s.draws.tail, res := b.setWidth 64 }) ∧
    (s.rest = [] → exec .sepRead s = .next { s.failed 0x3A .formatError with nleft := 0 })

/-! ### Payload bits (45_bitstream.md) -/

/-- R135, R142: BW_RESET and BR_RESET empty the two buffers and do nothing else. -/
def Obligations.BufferResets : Prop :=
  encode .bwReset = .cmd 0x00000040 ∧ encode .brReset = .cmd 0x00000048 ∧
  ∀ s : State, exec .bwReset s = .next { s.fresh with acc := 0, nacc := 0 } ∧
    exec .brReset s = .next { s.fresh with cur := 0, nleft := 0 }

/-- R134, R137, R62: BW_PUT appends ARG[31:32-n] to the bits pending, most significant bit first within each byte written;
n above 32 raises BAD_OPERAND. -/
def Obligations.BwPutAppendsBits : Prop :=
  ∀ (s : State) (n : Byte),
    (32 < n.toNat → exec (.bwPut n) s = .next (s.failed 0x41 .badOperand)) ∧
    (n.toNat ≤ 32 → s.snkAttached = true → Willing s → Room 5 s →
      ∃ (t : State) (bs : List Byte), exec (.bwPut n) s = .next t ∧
        t = { s.fresh with
          acc := t.acc, nacc := t.nacc, snk := s.snk ++ bs, draws := s.draws.drop bs.length
          res := BitVec.ofNat 64 n.toNat } ∧
        bytesBits bs ++ t.pending = s.pending ++ (List.range n.toNat).map fun j => s.arg.getLsbD (31 - j))

/-- R136: ENC_SYMBOL's checks in order, and the code appended to the bits pending. R138: ENC_SCAN appends the codes of the
remaining source bytes in order, with no boundary markers; a byte with no code, the first or after some encoded ones, raises
ABSENT_SYMBOL after it is consumed, the codes of those before it appended; no code table raises BAD_STATE. -/
def Obligations.EncodersAppendCodes : Prop :=
  (∀ (s : State) (sym : Byte),
     (s.codesValid = false → exec (.encSymbol sym) s = .next (s.failed 0x42 .badState)) ∧
     (s.codesValid = true → s.codeAt sym = none → exec (.encSymbol sym) s = .next (s.failed 0x42 .absentSymbol)) ∧
     (∀ c, s.codesValid = true → s.codeAt sym = some c → s.snkAttached = true → Willing s → Room (c.length + 1) s →
       ∃ (t : State) (bs : List Byte), exec (.encSymbol sym) s = .next t ∧
         t = { s.fresh with
           acc := t.acc, nacc := t.nacc, snk := s.snk ++ bs, draws := s.draws.drop bs.length
           res := BitVec.ofNat 64 c.length } ∧
         bytesBits bs ++ t.pending = s.pending ++ c)) ∧
  (∀ s : State,
     (s.codesValid = false → exec .encScan s = .next (s.failed 0x43 .badState)) ∧
     (∀ cs : List Code, s.codesValid = true → s.srcAttached = true → s.snkAttached = true → Willing s →
       s.srcPos ≤ s.src.length → s.rest.map s.codeAt = cs.map some → Room (cs.flatten.length + 1) s →
       ∃ (t : State) (bs : List Byte), exec .encScan s = .next t ∧
         t = { s.fresh with
           acc := t.acc, nacc := t.nacc, snk := s.snk ++ bs, srcPos := s.src.length
           draws := s.draws.drop (bs.length + cs.length), res := BitVec.ofNat 64 cs.length } ∧
         bytesBits bs ++ t.pending = s.pending ++ cs.flatten) ∧
     (∀ (b : Byte) (more : List Byte), s.codesValid = true → s.srcAttached = true → Willing s → s.rest = b :: more →
       s.codeAt b = none →
       exec .encScan s = .next { s.failed 0x43 .absentSymbol with
         srcPos := s.srcPos + 1, draws := s.draws.tail, errPos := BitVec.ofNat 64 (s.srcPos + 1) }) ∧
     (∀ (pre more : List Byte) (b : Byte) (cs : List Code), s.codesValid = true → s.srcAttached = true →
       s.snkAttached = true → Willing s → s.rest = pre ++ b :: more → pre.map s.codeAt = cs.map some →
       s.codeAt b = none → Room (cs.flatten.length + 1) s →
       ∃ (t : State) (bs : List Byte), exec .encScan s = .next t ∧
         t = { s.failed 0x43 .absentSymbol with
           acc := t.acc, nacc := t.nacc, snk := s.snk ++ bs, srcPos := s.srcPos + pre.length + 1
           draws := s.draws.drop (bs.length + pre.length + 1)
           errPos := BitVec.ofNat 64 (s.srcPos + pre.length + 1) } ∧
         bytesBits bs ++ t.pending = s.pending ++ cs.flatten))

/-- R139, R134: BW_FLUSH writes ACC whatever it holds and reports 8 - NACC pad bits; the BitWriter is empty afterwards, also
when the write fails. -/
def Obligations.BwFlushAlwaysWritesOneByte : Prop :=
  encode .bwFlush = .cmd 0x00000044 ∧
  ∀ s : State,
    (s.snkAttached = true → s.draws.head? ≠ some false → Room 1 s →
      exec .bwFlush s = .next { s.fresh with
        acc := 0, nacc := 0, snk := s.snk ++ [s.acc], draws := s.draws.tail, res := 1
        resAux := BitVec.ofNat 32 (8 - s.nacc.val) }) ∧
    (s.snkAttached = true → s.draws.head? = some false →
      exec .bwFlush s = .next { s.failed 0x44 .ioError with acc := 0, nacc := 0, draws := s.draws.tail }) ∧
    (s.snkAttached = false → exec .bwFlush s = .next { s.failed 0x44 .ioError with acc := 0, nacc := 0 })

/-- R141, R143: BR_GET takes the next n bits, first bit most significant, and fetches a byte only when a bit is needed;
running out raises FORMAT_ERROR; n above 32 raises BAD_OPERAND. -/
def Obligations.BrGetTakesBits : Prop :=
  ∀ (s : State) (n : Byte),
    (32 < n.toNat → exec (.brGet n) s = .next (s.failed 0x49 .badOperand)) ∧
    (n.toNat ≤ 32 → s.srcAttached = true → Willing s → n.toNat ≤ s.upcoming.length →
      ∃ t, exec (.brGet n) s = .next t ∧
        t = { s.fresh with
          cur := t.cur, nleft := t.nleft, srcPos := s.srcPos + (n.toNat - s.nleft.val + 7) / 8
          draws := s.draws.drop ((n.toNat - s.nleft.val + 7) / 8)
          res := BitVec.ofNat 64 (bitsValue (s.upcoming.take n.toNat)) } ∧
        t.upcoming = s.upcoming.drop n.toNat) ∧
    (n.toNat ≤ 32 → s.srcAttached = true → Willing s → s.upcoming.length < n.toNat →
      ∃ t, exec (.brGet n) s = .next t ∧
        t = { s.failed 0x49 .formatError with
          cur := t.cur, nleft := 0, srcPos := t.srcPos, draws := t.draws, errPos := BitVec.ofNat 64 t.srcPos } ∧
        t.rest = [])

/-- R145, R146, R163: DEC_SYMBOL raises BAD_STATE without a tree or at REMAIN = 0; else it consumes exactly the bits of one
leaf's path (none for a single leaf), fetching a byte only when a bit is needed, emits that leaf's symbol, counts REMAIN down
and reports the leaf the path leads to. R160: where the source ends before a leaf it raises FORMAT_ERROR at the end of the
source, the bits consumed lost and REMAIN unchanged. -/
def Obligations.DecSymbolDecodesOne : Prop :=
  ∀ s : State,
    (s.treeValid = false ∨ s.remain = 0 → exec .decSymbol s = .next (s.failed 0x4A .badState)) ∧
    (∀ (tree : CodeTree) (sym : Byte) (path more : List Bool), s.treeValid = true → s.remain ≠ 0 →
      s.treeAt s.root = some tree → (sym, path) ∈ tree.paths → s.upcoming = path ++ more →
      s.srcAttached = true → s.snkAttached = true → Willing s → Room 1 s →
      ∃ (t : State) (c : NodeIdx) (n : Node), exec .decSymbol s = .next t ∧
        t = { s.fresh with
          cur := (s.rest.take (s.fetches path.length)).getLastD s.cur, nleft := t.nleft
          srcPos := s.srcPos + s.fetches path.length, draws := s.draws.drop (s.fetches path.length + 1)
          snk := s.snk ++ [sym], remain := s.remain - 1, res := sym.setWidth 64, resAux := c.setWidth 32 } ∧
        s.follow s.root path = some c ∧ s.node? c = some n ∧ n.kind = .leaf ∧ n.sym = sym ∧ t.upcoming = more) ∧
    (∀ (tree : CodeTree) (sym : Byte) (path : Code), s.treeValid = true → s.remain ≠ 0 →
      s.treeAt s.root = some tree → (sym, path) ∈ tree.paths → s.upcoming <+: path → s.upcoming ≠ path →
      s.srcAttached = true → Willing s →
      exec .decSymbol s = .next { s.failed 0x4A .formatError with
        cur := s.rest.getLastD s.cur, nleft := 0, srcPos := s.srcPos + s.rest.length
        draws := s.draws.drop s.rest.length, errPos := BitVec.ofNat 64 (s.srcPos + s.rest.length) })

/-- R144, R147: DEC_RUN decodes REMAIN symbols and stops, the bits after the last one unread and a byte fetched only when a bit
is needed; RES_AUX keeps the leaf of the last one; with REMAIN = 0 it does nothing; without a tree it raises BAD_STATE. R160:
where the source ends inside a later symbol it raises FORMAT_ERROR at the end of the source, the symbols before it written and
reported, and REMAIN counts the rest. -/
def Obligations.DecRunDecodesRemain : Prop :=
  ∀ s : State,
    (s.treeValid = false → exec .decRun s = .next (s.failed 0x4B .badState)) ∧
    (s.treeValid = true → s.remain = 0 → exec .decRun s = .next s.fresh) ∧
    (∀ (tree : CodeTree) (ps : List (Byte × Code)) (last : Byte × Code) (more : List Bool), s.treeValid = true →
      s.treeAt s.root = some tree → (∀ p ∈ ps, p ∈ tree.paths) → s.remain.toNat = ps.length →
      ps.getLast? = some last → s.upcoming = (ps.map Prod.snd).flatten ++ more →
      s.srcAttached = true → s.snkAttached = true → Willing s → Room ps.length s →
      ∃ (t : State) (c : NodeIdx), exec .decRun s = .next t ∧
        t = { s.fresh with
          cur := (s.rest.take (s.fetches (ps.map Prod.snd).flatten.length)).getLastD s.cur, nleft := t.nleft
          srcPos := s.srcPos + s.fetches (ps.map Prod.snd).flatten.length
          draws := s.draws.drop (s.fetches (ps.map Prod.snd).flatten.length + ps.length)
          snk := s.snk ++ ps.map Prod.fst, remain := 0, res := BitVec.ofNat 64 ps.length, resAux := c.setWidth 32 } ∧
        s.follow s.root last.2 = some c ∧ t.upcoming = more) ∧
    (∀ (tree : CodeTree) (ps : List (Byte × Code)) (sym : Byte) (path cut : Code), s.treeValid = true →
      s.treeAt s.root = some tree → (∀ p ∈ ps, p ∈ tree.paths) → ps.length < s.remain.toNat →
      (sym, path) ∈ tree.paths → cut <+: path → cut ≠ path → s.upcoming = (ps.map Prod.snd).flatten ++ cut →
      s.srcAttached = true → s.snkAttached = true → Willing s → Room ps.length s →
      ∃ t, exec .decRun s = .next t ∧
        t = { s.failed 0x4B .formatError with
          cur := s.rest.getLastD s.cur, nleft := 0, srcPos := s.srcPos + s.rest.length
          draws := s.draws.drop (s.rest.length + ps.length), errPos := BitVec.ofNat 64 (s.srcPos + s.rest.length)
          snk := s.snk ++ ps.map Prod.fst, remain := s.remain - BitVec.ofNat 64 ps.length
          res := t.res, resAux := t.resAux } ∧
        (ps = [] → t.res = 0 ∧ t.resAux = 0) ∧
        ∀ last, ps.getLast? = some last →
          t.res = last.1.setWidth 64 ∧ ∃ c, s.follow s.root last.2 = some c ∧ t.resAux = c.setWidth 32)

/-! ### Codec (46_codec.md) -/

/-- R149, R151: COMPRESS raises BAD_STATE unless SRC_POS = 0, and an empty source gives exactly the two bytes "0,". R140, R150:
of a non-empty source it appends the header, the shape of the tree of its symbols, the space and the codes of its bytes in
order, zero-padded into floor(B/8) + 1 bytes, and reports the sizes. -/
def Obligations.Compress : Prop :=
  (∀ s : State,
     (s.srcPos ≠ 0 → exec .compress s = .next (s.failed 0x50 .badState)) ∧
     (s.srcPos = 0 → s.srcAttached = true → s.src = [] → s.snkAttached = true → Willing s → Room 2 s →
       exec .compress s = .next { s.fresh with
         nodes := [], pq := [], seq := 0, root := 0x1FF, treeValid := false, codesValid := false
         codes := Vector.replicate 256 none, hist := Vector.replicate 256 0, total := 0, acc := 0, nacc := 0
         snk := s.snk ++ [0x30, 0x2C], draws := s.draws.drop 2, origSize := 0, compSize := 2, res := 2, resAux := 0 })) ∧
  (∀ s : State, s.srcPos = 0 → s.srcAttached = true → s.src ≠ [] → s.snkAttached = true → Willing s →
     s.src.length < 2 ^ 64 → Room (32 * s.src.length + 1024) s →
     ∃ (t : State) (tree : CodeTree) (head payload : List Byte) (codes : List Code),
       exec .compress s = .next t ∧
       t = { s.fresh with
         hist := t.hist, total := BitVec.ofNat 64 s.src.length, nodes := t.nodes, root := t.root, pq := [], seq := t.seq
         codes := t.codes, treeValid := true, codesValid := true, acc := 0, nacc := 0, srcPos := s.src.length
         draws := t.draws, snk := s.snk ++ head ++ payload, origSize := BitVec.ofNat 64 s.src.length
         compSize := BitVec.ofNat 64 (head.length + payload.length)
         res := BitVec.ofNat 64 (head.length + payload.length), resAux := 0 } ∧
       (∀ sym, t.histAt sym = BitVec.ofNat 64 (s.src.count sym)) ∧
       t.treeAt t.root = some tree ∧ tree.leaves.Nodup ∧ (∀ sym, sym ∈ tree.leaves ↔ sym ∈ s.src) ∧
       s.src.map tree.codeOf = codes.map some ∧
       head = dec (BitVec.ofNat 64 s.src.length) ++ [0x2C] ++ tree.shapeBytes ++ [0x20] ∧
       payload.length = codes.flatten.length / 8 + 1 ∧
       bytesBits payload = codes.flatten ++ List.replicate (8 - codes.flatten.length % 8) false)

/-- R152, R153: DECOMPRESS of a header of value 0 stops after the comma; of any other well-formed container it decodes the
declared number of symbols and reports the sizes, the bytes after the last bit needed unread. -/
def Obligations.DecompressReadsTheContainer : Prop :=
  ∀ (s : State) (ds more : List Byte), s.srcAttached = true → Willing s → ds ≠ [] → (∀ b ∈ ds, isDigit b = true) →
    digitsValue ds < 2 ^ 64 →
    (digitsValue ds = 0 → s.rest = ds ++ 0x2C :: more →
      exec .decompress s = .next { s.fresh with
        nodes := [], pq := [], seq := 0, root := 0x1FF, treeValid := false, codesValid := false
        codes := Vector.replicate 256 none, cur := 0, nleft := 0, decl := 0, remain := 0
        srcPos := s.srcPos + ds.length + 1, draws := s.draws.drop (ds.length + 1), origSize := 0
        compSize := BitVec.ofNat 64 (ds.length + 1), res := 0, resAux := 0 }) ∧
    (∀ (tree : CodeTree) (sep : Byte) (ps : List (Byte × Code)) (pad : List Bool), tree.size ≤ 511 → ps ≠ [] →
      (∀ p ∈ ps, p ∈ tree.paths) → digitsValue ds = ps.length →
      s.rest = ds ++ 0x2C :: (tree.shapeBytes ++ sep :: more) → bytesBits more = (ps.map Prod.snd).flatten ++ pad →
      s.snkAttached = true → Room ps.length s →
      ∃ t used, exec .decompress s = .next t ∧
        used = ds.length + 1 + tree.shapeBytes.length + 1 + ((ps.map Prod.snd).flatten.length + 7) / 8 ∧
        t = { s.fresh with
          nodes := t.nodes, root := 0, pq := [], seq := 0, treeValid := true, codesValid := false
          codes := Vector.replicate 256 none, cur := t.cur, nleft := t.nleft, decl := BitVec.ofNat 64 ps.length
          remain := 0, srcPos := s.srcPos + used, draws := t.draws, snk := s.snk ++ ps.map Prod.fst
          origSize := BitVec.ofNat 64 ps.length, compSize := BitVec.ofNat 64 used, res := BitVec.ofNat 64 ps.length
          resAux := 0 })

/-- R155, R22: decompressing what COMPRESS wrote gives back the source, for every source whose container the sink has room for
(R51 bounds a stream to less than 2^64 bytes; log 11), when the host fails no port access. -/
def Obligations.CompressThenDecompressIsIdentity : Prop :=
  ∀ s : State, s.srcPos = 0 → s.srcAttached = true → s.snkAttached = true → s.snk = [] → Willing s →
    32 * s.src.length + 1024 < 2 ^ 64 →
    ∃ t, exec .compress s = .next t ∧ t.errCode = s.errCode ∧
      ∀ u : State, u.srcAttached = true → u.src = t.snk → u.srcPos = 0 → u.snkAttached = true → u.snk = [] → Willing u →
        ∃ v, exec .decompress u = .next v ∧ v.errCode = u.errCode ∧ v.snk = s.src

/-! ### Container tokens (30_encoding.md R83, R84) -/

/-- R83, R128, R129, R132, R145: what each token does in its phase. A leaf token allocates a leaf; as the whole shape it is the
root and the shape ends (R84); as a left child it leaves the right child to come; as the right child of the outermost node it
ends the shape. Model's choice: the token granularity (log 15). -/
def Obligations.TokenEffects : Prop :=
  (∀ s : State,
     (∀ (d : BitVec 4) (v v' : Count) (nd : Nat), s.parse = .header v nd → v'.toNat = 10 * v.toNat + d.toNat →
       exec (.tokDigit d) s = .next { s with parse := .header v' (nd + 1) }) ∧
     (∀ (d : BitVec 4) (v : Count) (nd : Nat), s.parse = .header v nd → 2 ^ 64 ≤ 10 * v.toNat + d.toNat →
       exec (.tokDigit d) s = .next (raise .capacity s)) ∧
     (∀ (v : Count) (nd : Nat), s.parse = .header v nd → 0 < nd →
       exec .tokHdrEnd s = .next { s with parse := .idle, decl := v, remain := v, res := v }) ∧
     (∀ v : Count, s.parse = .header v 0 → exec .tokHdrEnd s = .next (raise .formatError s)) ∧
     (∀ st : List Frame, s.parse = .shape st → s.nodes.length < 511 →
       exec .tokInternal s = .next { s with
         nodes := s.nodes ++ [{ kind := .internal, sym := 0, weight := 0, left := 0x1FF, right := 0x1FF, inPq := false,
                                parented := false }]
         parse := .shape ({ node := BitVec.ofNat 9 s.nodes.length, side := .left } :: st) }) ∧
     (∀ (st : List Frame) (sym : Byte), s.parse = .shape st → 511 ≤ s.nodes.length →
       exec .tokInternal s = .next (raise .capacity s) ∧ exec (.tokLeaf sym) s = .next (raise .capacity s)) ∧
     (∀ b : Byte, s.parse = .sep → exec (.tokSep b) s = .next { s with parse := .idle, res := b.setWidth 64 }) ∧
     (∀ (c : NodeIdx) (n : Node), s.parse = .payload c → s.node? c = some n → n.kind = .internal →
       exec .tokBit0 s = .next { s with parse := .payload n.left } ∧
       exec .tokBit1 s = .next { s with parse := .payload n.right })) ∧
  (∀ (s : State) (sym : Byte) (leaf : Node), s.nodes.length < 511 →
     leaf = { kind := .leaf, sym := sym, weight := 0, left := 0x1FF, right := 0x1FF, inPq := false, parented := false } →
     (s.parse = .shape [] → exec (.tokLeaf sym) s = .next { s with
       nodes := s.nodes ++ [leaf], parse := .idle, root := BitVec.ofNat 9 s.nodes.length, treeValid := true
       res := BitVec.ofNat 64 (s.nodes.length + 1)
       resAux := putField s.resAux 0 9 s.nodes.length }) ∧
     (∀ (i : NodeIdx) (st : List Frame), s.parse = .shape ({ node := i, side := .left } :: st) →
       i.toNat < s.nodes.length → exec (.tokLeaf sym) s = .next { s with
         nodes := (s.nodes.modify i.toNat fun n => { n with left := BitVec.ofNat 9 s.nodes.length }) ++
           [{ leaf with parented := true }]
         parse := .shape ({ node := i, side := .right } :: st) }) ∧
     (∀ i : NodeIdx, s.parse = .shape [{ node := i, side := .right }] →
       i.toNat < s.nodes.length → exec (.tokLeaf sym) s = .next { s with
         nodes := (s.nodes.modify i.toNat fun n => { n with right := BitVec.ofNat 9 s.nodes.length }) ++
           [{ leaf with parented := true }]
         parse := .idle, root := i, treeValid := true, res := BitVec.ofNat 64 (s.nodes.length + 1)
         resAux := putField s.resAux 0 9 i.toNat }))

/-- R83: a token is refused in a phase it is no token of, and a payload bit at a leaf (R146). -/
def Obligations.TokensOutOfPhaseAreRefused : Prop :=
  ∀ s : State,
    ((∀ v nd, s.parse ≠ .header v nd) → (∀ d, exec (.tokDigit d) s = .refused .tokenOutOfPhase) ∧
      exec .tokHdrEnd s = .refused .tokenOutOfPhase) ∧
    ((∀ st, s.parse ≠ .shape st) → exec .tokInternal s = .refused .tokenOutOfPhase ∧
      ∀ sym, exec (.tokLeaf sym) s = .refused .tokenOutOfPhase) ∧
    (s.parse ≠ .sep → ∀ b, exec (.tokSep b) s = .refused .tokenOutOfPhase) ∧
    ((∀ c, s.parse ≠ .payload c) → exec .tokBit0 s = .refused .tokenOutOfPhase ∧
      exec .tokBit1 s = .refused .tokenOutOfPhase) ∧
    (∀ c n, s.parse = .payload c → s.node? c = some n → n.kind = .leaf →
      exec .tokBit0 s = .refused .tokenOutOfPhase ∧ exec .tokBit1 s = .refused .tokenOutOfPhase)

/-- R83, R84, R128, R129: HDR_READ is its tokens run one at a time, and SHAPE_READ's recursion is its tokens run one at a time
on the explicit stack. Model's choice: the token granularity (log 15). -/
def Obligations.ReadersAreTheirTokens : Prop :=
  (∀ s t : State, s.parse = .idle → exec .hdrRead s = .next t →
     ∃ n u, tokenRun n { dropBits (accept 0x38 s) with parse := .header 0 0 } = .next u ∧ u.parse = .idle ∧ complete u = t) ∧
  (∀ s t : State, s.parse = .idle → exec .shapeRead s = .next t →
     ∃ n u, tokenRun n { arenaClear (dropBits (accept 0x39 s)) with parse := .shape [] } = .next u ∧ u.parse = .idle ∧
       complete u = t)

/-! ### Invariants every step keeps -/

/-- The reset state meets every invariant. -/
def Obligations.ResetMeetsTheInvariants : Prop :=
  QuietReader State.reset ∧ TotalAgrees State.reset ∧ FlagsAgree State.reset ∧ ErrorRecordAgrees State.reset ∧
  AccPadded State.reset ∧ PortsInRange State.reset ∧ TreePresent State.reset ∧ QueueAgrees State.reset ∧
  ArenaOwned State.reset

/-- R45: between commands no decode position is held. R46: CODES_VALID implies TREE_VALID, and ROOT is NIL without a tree. R32:
ERR_POS and ERR_OP are 0 when ERR_CODE is 0. R43: the bits of ACC below the pending ones stay 0. Every step keeps each of
them. -/
def Obligations.StepKeepsRegisterInvariants : Prop :=
  (∀ s t : State, QuietReader s → step s = .next t → QuietReader t) ∧
  (∀ s t : State, FlagsAgree s → step s = .next t → FlagsAgree t) ∧
  (∀ s t : State, ErrorRecordAgrees s → step s = .next t → ErrorRecordAgrees t) ∧
  (∀ s t : State, AccPadded s → step s = .next t → AccPadded t)

/-- R37: TOTAL stays the sum of HIST. -/
def Obligations.StepKeepsTotalTheSumOfHist : Prop :=
  ∀ s t : State, TotalAgrees s → step s = .next t → TotalAgrees t

/-- R44, R51: SRC_POS stays within the source, and the streams stay below 2^64 bytes. -/
def Obligations.StepKeepsPortsInRange : Prop :=
  ∀ s t : State, PortsInRange s → step s = .next t → PortsInRange t

/-- R25, R28: while TREE_VALID = 1 a whole tree can be read at ROOT, and the arena stays within NODE_CAP. -/
def Obligations.StepKeepsTreePresent : Prop :=
  ∀ s t : State, TreePresent s → step s = .next t → TreePresent t

/-- R41: PQ stays a set of at most 256 pairs of distinct allocated nodes and distinct seqs, and in_pq stays exact. -/
def Obligations.StepKeepsQueueAgreeing : Prop :=
  ∀ s t : State, QueueAgrees s → step s = .next t → QueueAgrees t

/-- R40: each child is owned by exactly one parent, and no node is its own descendant. -/
def Obligations.StepKeepsArenaOwned : Prop :=
  ∀ s t : State, ArenaOwned s → step s = .next t → ArenaOwned t

/-! ### Port failures (60_exceptions.md R159) -/

/-- R159: IO_ERROR is raised only by the commands the rule lists; and where the first access of a reader or of a bit writer
fails, because the port is detached or because the host fails it, the command raises IO_ERROR with SRC_POS and SNK unchanged
(the byte the BitWriter emitted is lost, R134). HDR_WRITE, SHAPE_WRITE, SEP_WRITE, HIST_SCAN, SRC_REWIND and BW_FLUSH have
theirs beside their results. -/
def Obligations.PortFailuresRaiseIoError : Prop :=
  (∀ (i : Instr) (s t : State), isToken i = false → s.errCode = none → exec i s = .next t → t.errCode = some .ioError →
     i ∈ [.srcRewind, .histScan, .hdrWrite, .shapeWrite, .sepWrite, .hdrRead, .shapeRead, .sepRead, .encScan, .bwFlush,
       .decSymbol, .decRun, .compress, .decompress] ∨ (∃ sym, i = .encSymbol sym) ∨ (∃ n, i = .bwPut n) ∨
       ∃ n, i = .brGet n) ∧
  (∀ (s : State) (d : List Bool),
     (s.srcAttached = false ∧ d = s.draws) ∨ (s.srcAttached = true ∧ s.rest ≠ [] ∧ s.draws = false :: d) →
     exec .hdrRead s = .next { s.failed 0x38 .ioError with nleft := 0, draws := d } ∧
     exec .sepRead s = .next { s.failed 0x3A .ioError with nleft := 0, draws := d } ∧
     exec .shapeRead s = .next { s.failed 0x39 .ioError with
       nleft := 0, draws := d, nodes := [], root := 0x1FF, pq := [], seq := 0, treeValid := false, codesValid := false
       codes := Vector.replicate 256 none } ∧
     exec .decompress s = .next { s.failed 0x51 .ioError with
       cur := 0, nleft := 0, draws := d, nodes := [], root := 0x1FF, pq := [], seq := 0, treeValid := false
       codesValid := false, codes := Vector.replicate 256 none } ∧
     (s.srcPos = 0 → exec .compress s = .next { s.failed 0x50 .ioError with
       acc := 0, nacc := 0, draws := d, nodes := [], root := 0x1FF, pq := [], seq := 0, treeValid := false
       codesValid := false, codes := Vector.replicate 256 none, hist := Vector.replicate 256 0, total := 0 }) ∧
     (s.codesValid = true → exec .encScan s = .next { s.failed 0x43 .ioError with draws := d }) ∧
     (∀ n : Byte, s.nleft = 0 → 0 < n.toNat → n.toNat ≤ 32 →
       exec (.brGet n) s = .next { s.failed 0x49 .ioError with draws := d }) ∧
     (∀ n : Node, s.treeValid = true → s.remain ≠ 0 → s.node? s.root = some n → n.kind = .internal → s.nleft = 0 →
       exec .decSymbol s = .next { s.failed 0x4A .ioError with draws := d } ∧
       exec .decRun s = .next { s.failed 0x4B .ioError with draws := d })) ∧
  (∀ (s : State) (d : List Bool),
     (s.snkAttached = false ∧ d = s.draws) ∨ (s.snkAttached = true ∧ s.draws = false :: d) →
     (∀ n : Byte, n.toNat ≤ 32 → 8 ≤ s.nacc.val + n.toNat →
       exec (.bwPut n) s = .next { s.failed 0x41 .ioError with acc := 0, nacc := 0, draws := d }) ∧
     (∀ (sym : Byte) (c : Code), s.codesValid = true → s.codeAt sym = some c → 8 ≤ s.nacc.val + c.length →
       exec (.encSymbol sym) s = .next { s.failed 0x42 .ioError with acc := 0, nacc := 0, draws := d }) ∧
     (∀ n : Node, s.treeValid = true → s.remain ≠ 0 → s.node? s.root = some n → n.kind = .leaf →
       exec .decSymbol s = .next { s.failed 0x4A .ioError with draws := d } ∧
       exec .decRun s = .next { s.failed 0x4B .ioError with draws := d }))
end

