-- ==== Sys2Proof/Laws/State.lean ====
section
/-! SUPPORT. One lemma per field per named update of State, true by rfl, so that no later proof unfolds a record update. -/

namespace Sys2Proof.Machine

/-! ### Acceptance (40_control.md R89) -/

@[simp] theorem accept_hist (op : Byte) (s : State) : (accept op s).hist = s.hist := rfl
@[simp] theorem accept_total (op : Byte) (s : State) : (accept op s).total = s.total := rfl
@[simp] theorem accept_nodes (op : Byte) (s : State) : (accept op s).nodes = s.nodes := rfl
@[simp] theorem accept_root (op : Byte) (s : State) : (accept op s).root = s.root := rfl
@[simp] theorem accept_pq (op : Byte) (s : State) : (accept op s).pq = s.pq := rfl
@[simp] theorem accept_seq (op : Byte) (s : State) : (accept op s).seq = s.seq := rfl
@[simp] theorem accept_codes (op : Byte) (s : State) : (accept op s).codes = s.codes := rfl
@[simp] theorem accept_acc (op : Byte) (s : State) : (accept op s).acc = s.acc := rfl
@[simp] theorem accept_nacc (op : Byte) (s : State) : (accept op s).nacc = s.nacc := rfl
@[simp] theorem accept_cur (op : Byte) (s : State) : (accept op s).cur = s.cur := rfl
@[simp] theorem accept_nleft (op : Byte) (s : State) : (accept op s).nleft = s.nleft := rfl
@[simp] theorem accept_remain (op : Byte) (s : State) : (accept op s).remain = s.remain := rfl
@[simp] theorem accept_decl (op : Byte) (s : State) : (accept op s).decl = s.decl := rfl
@[simp] theorem accept_treeValid (op : Byte) (s : State) : (accept op s).treeValid = s.treeValid := rfl
@[simp] theorem accept_codesValid (op : Byte) (s : State) : (accept op s).codesValid = s.codesValid := rfl
@[simp] theorem accept_busy (op : Byte) (s : State) : (accept op s).busy = true := rfl
@[simp] theorem accept_pqEmpty (op : Byte) (s : State) : (accept op s).pqEmpty = false := rfl
@[simp] theorem accept_cmdDropped (op : Byte) (s : State) : (accept op s).cmdDropped = s.cmdDropped := rfl
@[simp] theorem accept_errCode (op : Byte) (s : State) : (accept op s).errCode = s.errCode := rfl
@[simp] theorem accept_errOp (op : Byte) (s : State) : (accept op s).errOp = s.errOp := rfl
@[simp] theorem accept_errPos (op : Byte) (s : State) : (accept op s).errPos = s.errPos := rfl
@[simp] theorem accept_arg (op : Byte) (s : State) : (accept op s).arg = s.arg := rfl
@[simp] theorem accept_res (op : Byte) (s : State) : (accept op s).res = 0 := rfl
@[simp] theorem accept_resAux (op : Byte) (s : State) : (accept op s).resAux = 0 := rfl
@[simp] theorem accept_origSize (op : Byte) (s : State) : (accept op s).origSize = s.origSize := rfl
@[simp] theorem accept_compSize (op : Byte) (s : State) : (accept op s).compSize = s.compSize := rfl
@[simp] theorem accept_srcAttached (op : Byte) (s : State) : (accept op s).srcAttached = s.srcAttached := rfl
@[simp] theorem accept_src (op : Byte) (s : State) : (accept op s).src = s.src := rfl
@[simp] theorem accept_srcPos (op : Byte) (s : State) : (accept op s).srcPos = s.srcPos := rfl
@[simp] theorem accept_snkAttached (op : Byte) (s : State) : (accept op s).snkAttached = s.snkAttached := rfl
@[simp] theorem accept_snk (op : Byte) (s : State) : (accept op s).snk = s.snk := rfl
@[simp] theorem accept_cmdOp (op : Byte) (s : State) : (accept op s).cmdOp = op := rfl
@[simp] theorem accept_parse (op : Byte) (s : State) : (accept op s).parse = s.parse := rfl
@[simp] theorem accept_regBase (op : Byte) (s : State) : (accept op s).regBase = s.regBase := rfl
@[simp] theorem accept_script (op : Byte) (s : State) : (accept op s).script = s.script := rfl
@[simp] theorem accept_draws (op : Byte) (s : State) : (accept op s).draws = s.draws := rfl
@[simp] theorem accept_obs (op : Byte) (s : State) : (accept op s).obs = s.obs := rfl
@[simp] theorem accept_freeCount (op : Byte) (s : State) : (accept op s).freeCount = s.freeCount := rfl

/-! ### Completion (40_control.md R90) -/

@[simp] theorem complete_hist (s : State) : (complete s).hist = s.hist := rfl
@[simp] theorem complete_total (s : State) : (complete s).total = s.total := rfl
@[simp] theorem complete_nodes (s : State) : (complete s).nodes = s.nodes := rfl
@[simp] theorem complete_root (s : State) : (complete s).root = s.root := rfl
@[simp] theorem complete_pq (s : State) : (complete s).pq = s.pq := rfl
@[simp] theorem complete_seq (s : State) : (complete s).seq = s.seq := rfl
@[simp] theorem complete_codes (s : State) : (complete s).codes = s.codes := rfl
@[simp] theorem complete_acc (s : State) : (complete s).acc = s.acc := rfl
@[simp] theorem complete_nacc (s : State) : (complete s).nacc = s.nacc := rfl
@[simp] theorem complete_cur (s : State) : (complete s).cur = s.cur := rfl
@[simp] theorem complete_nleft (s : State) : (complete s).nleft = s.nleft := rfl
@[simp] theorem complete_remain (s : State) : (complete s).remain = s.remain := rfl
@[simp] theorem complete_decl (s : State) : (complete s).decl = s.decl := rfl
@[simp] theorem complete_treeValid (s : State) : (complete s).treeValid = s.treeValid := rfl
@[simp] theorem complete_codesValid (s : State) : (complete s).codesValid = s.codesValid := rfl
@[simp] theorem complete_busy (s : State) : (complete s).busy = false := rfl
@[simp] theorem complete_pqEmpty (s : State) : (complete s).pqEmpty = s.pqEmpty := rfl
@[simp] theorem complete_cmdDropped (s : State) : (complete s).cmdDropped = s.cmdDropped := rfl
@[simp] theorem complete_errCode (s : State) : (complete s).errCode = s.errCode := rfl
@[simp] theorem complete_errOp (s : State) : (complete s).errOp = s.errOp := rfl
@[simp] theorem complete_errPos (s : State) : (complete s).errPos = s.errPos := rfl
@[simp] theorem complete_arg (s : State) : (complete s).arg = s.arg := rfl
@[simp] theorem complete_res (s : State) : (complete s).res = s.res := rfl
@[simp] theorem complete_resAux (s : State) : (complete s).resAux = s.resAux := rfl
@[simp] theorem complete_origSize (s : State) : (complete s).origSize = s.origSize := rfl
@[simp] theorem complete_compSize (s : State) : (complete s).compSize = s.compSize := rfl
@[simp] theorem complete_srcAttached (s : State) : (complete s).srcAttached = s.srcAttached := rfl
@[simp] theorem complete_src (s : State) : (complete s).src = s.src := rfl
@[simp] theorem complete_srcPos (s : State) : (complete s).srcPos = s.srcPos := rfl
@[simp] theorem complete_snkAttached (s : State) : (complete s).snkAttached = s.snkAttached := rfl
@[simp] theorem complete_snk (s : State) : (complete s).snk = s.snk := rfl
@[simp] theorem complete_cmdOp (s : State) : (complete s).cmdOp = 0 := rfl
@[simp] theorem complete_parse (s : State) : (complete s).parse = s.parse := rfl
@[simp] theorem complete_regBase (s : State) : (complete s).regBase = s.regBase := rfl
@[simp] theorem complete_script (s : State) : (complete s).script = s.script := rfl
@[simp] theorem complete_draws (s : State) : (complete s).draws = s.draws := rfl
@[simp] theorem complete_obs (s : State) : (complete s).obs = s.obs := rfl
@[simp] theorem complete_freeCount (s : State) : (complete s).freeCount = s.freeCount := rfl

/-! ### `raise` (60_exceptions.md R158) -/

@[simp] theorem raise_hist (e : Err) (s : State) : (raise e s).hist = s.hist := rfl
@[simp] theorem raise_total (e : Err) (s : State) : (raise e s).total = s.total := rfl
@[simp] theorem raise_nodes (e : Err) (s : State) : (raise e s).nodes = s.nodes := rfl
@[simp] theorem raise_root (e : Err) (s : State) : (raise e s).root = s.root := rfl
@[simp] theorem raise_pq (e : Err) (s : State) : (raise e s).pq = s.pq := rfl
@[simp] theorem raise_seq (e : Err) (s : State) : (raise e s).seq = s.seq := rfl
@[simp] theorem raise_codes (e : Err) (s : State) : (raise e s).codes = s.codes := rfl
@[simp] theorem raise_acc (e : Err) (s : State) : (raise e s).acc = s.acc := rfl
@[simp] theorem raise_nacc (e : Err) (s : State) : (raise e s).nacc = s.nacc := rfl
@[simp] theorem raise_cur (e : Err) (s : State) : (raise e s).cur = s.cur := rfl
@[simp] theorem raise_nleft (e : Err) (s : State) : (raise e s).nleft = s.nleft := rfl
@[simp] theorem raise_remain (e : Err) (s : State) : (raise e s).remain = s.remain := rfl
@[simp] theorem raise_decl (e : Err) (s : State) : (raise e s).decl = s.decl := rfl
@[simp] theorem raise_treeValid (e : Err) (s : State) : (raise e s).treeValid = s.treeValid := rfl
@[simp] theorem raise_codesValid (e : Err) (s : State) : (raise e s).codesValid = s.codesValid := rfl
@[simp] theorem raise_busy (e : Err) (s : State) : (raise e s).busy = false := rfl
@[simp] theorem raise_pqEmpty (e : Err) (s : State) : (raise e s).pqEmpty = s.pqEmpty := rfl
@[simp] theorem raise_cmdDropped (e : Err) (s : State) : (raise e s).cmdDropped = s.cmdDropped := rfl
@[simp] theorem raise_errCode (e : Err) (s : State) : (raise e s).errCode = some e := rfl
@[simp] theorem raise_errOp (e : Err) (s : State) : (raise e s).errOp = s.cmdOp := rfl
@[simp] theorem raise_errPos (e : Err) (s : State) : (raise e s).errPos = s.srcPosReg := rfl
@[simp] theorem raise_arg (e : Err) (s : State) : (raise e s).arg = s.arg := rfl
@[simp] theorem raise_res (e : Err) (s : State) : (raise e s).res = s.res := rfl
@[simp] theorem raise_resAux (e : Err) (s : State) : (raise e s).resAux = s.resAux := rfl
@[simp] theorem raise_origSize (e : Err) (s : State) : (raise e s).origSize = s.origSize := rfl
@[simp] theorem raise_compSize (e : Err) (s : State) : (raise e s).compSize = s.compSize := rfl
@[simp] theorem raise_srcAttached (e : Err) (s : State) : (raise e s).srcAttached = s.srcAttached := rfl
@[simp] theorem raise_src (e : Err) (s : State) : (raise e s).src = s.src := rfl
@[simp] theorem raise_srcPos (e : Err) (s : State) : (raise e s).srcPos = s.srcPos := rfl
@[simp] theorem raise_snkAttached (e : Err) (s : State) : (raise e s).snkAttached = s.snkAttached := rfl
@[simp] theorem raise_snk (e : Err) (s : State) : (raise e s).snk = s.snk := rfl
@[simp] theorem raise_cmdOp (e : Err) (s : State) : (raise e s).cmdOp = 0 := rfl
@[simp] theorem raise_parse (e : Err) (s : State) : (raise e s).parse = .idle := rfl
@[simp] theorem raise_regBase (e : Err) (s : State) : (raise e s).regBase = s.regBase := rfl
@[simp] theorem raise_script (e : Err) (s : State) : (raise e s).script = s.script := rfl
@[simp] theorem raise_draws (e : Err) (s : State) : (raise e s).draws = s.draws := rfl
@[simp] theorem raise_obs (e : Err) (s : State) : (raise e s).obs = s.obs := rfl
@[simp] theorem raise_freeCount (e : Err) (s : State) : (raise e s).freeCount = s.freeCount := rfl

/-! ### CLEAR_ERR (40_control.md R94) -/

@[simp] theorem clearError_hist (s : State) : (clearError s).hist = s.hist := rfl
@[simp] theorem clearError_total (s : State) : (clearError s).total = s.total := rfl
@[simp] theorem clearError_nodes (s : State) : (clearError s).nodes = s.nodes := rfl
@[simp] theorem clearError_root (s : State) : (clearError s).root = s.root := rfl
@[simp] theorem clearError_pq (s : State) : (clearError s).pq = s.pq := rfl
@[simp] theorem clearError_seq (s : State) : (clearError s).seq = s.seq := rfl
@[simp] theorem clearError_codes (s : State) : (clearError s).codes = s.codes := rfl
@[simp] theorem clearError_acc (s : State) : (clearError s).acc = s.acc := rfl
@[simp] theorem clearError_nacc (s : State) : (clearError s).nacc = s.nacc := rfl
@[simp] theorem clearError_cur (s : State) : (clearError s).cur = s.cur := rfl
@[simp] theorem clearError_nleft (s : State) : (clearError s).nleft = s.nleft := rfl
@[simp] theorem clearError_remain (s : State) : (clearError s).remain = s.remain := rfl
@[simp] theorem clearError_decl (s : State) : (clearError s).decl = s.decl := rfl
@[simp] theorem clearError_treeValid (s : State) : (clearError s).treeValid = s.treeValid := rfl
@[simp] theorem clearError_codesValid (s : State) : (clearError s).codesValid = s.codesValid := rfl
@[simp] theorem clearError_busy (s : State) : (clearError s).busy = s.busy := rfl
@[simp] theorem clearError_pqEmpty (s : State) : (clearError s).pqEmpty = s.pqEmpty := rfl
@[simp] theorem clearError_cmdDropped (s : State) : (clearError s).cmdDropped = false := rfl
@[simp] theorem clearError_errCode (s : State) : (clearError s).errCode = none := rfl
@[simp] theorem clearError_errOp (s : State) : (clearError s).errOp = 0 := rfl
@[simp] theorem clearError_errPos (s : State) : (clearError s).errPos = 0 := rfl
@[simp] theorem clearError_arg (s : State) : (clearError s).arg = s.arg := rfl
@[simp] theorem clearError_res (s : State) : (clearError s).res = s.res := rfl
@[simp] theorem clearError_resAux (s : State) : (clearError s).resAux = s.resAux := rfl
@[simp] theorem clearError_origSize (s : State) : (clearError s).origSize = s.origSize := rfl
@[simp] theorem clearError_compSize (s : State) : (clearError s).compSize = s.compSize := rfl
@[simp] theorem clearError_srcAttached (s : State) : (clearError s).srcAttached = s.srcAttached := rfl
@[simp] theorem clearError_src (s : State) : (clearError s).src = s.src := rfl
@[simp] theorem clearError_srcPos (s : State) : (clearError s).srcPos = s.srcPos := rfl
@[simp] theorem clearError_snkAttached (s : State) : (clearError s).snkAttached = s.snkAttached := rfl
@[simp] theorem clearError_snk (s : State) : (clearError s).snk = s.snk := rfl
@[simp] theorem clearError_cmdOp (s : State) : (clearError s).cmdOp = s.cmdOp := rfl
@[simp] theorem clearError_parse (s : State) : (clearError s).parse = s.parse := rfl
@[simp] theorem clearError_regBase (s : State) : (clearError s).regBase = s.regBase := rfl
@[simp] theorem clearError_script (s : State) : (clearError s).script = s.script := rfl
@[simp] theorem clearError_draws (s : State) : (clearError s).draws = s.draws := rfl
@[simp] theorem clearError_obs (s : State) : (clearError s).obs = s.obs := rfl
@[simp] theorem clearError_freeCount (s : State) : (clearError s).freeCount = s.freeCount := rfl

/-! ### Acceptance and completion -/

@[simp] theorem State.fresh_hist (s : State) : s.fresh.hist = s.hist := rfl
@[simp] theorem State.fresh_total (s : State) : s.fresh.total = s.total := rfl
@[simp] theorem State.fresh_nodes (s : State) : s.fresh.nodes = s.nodes := rfl
@[simp] theorem State.fresh_root (s : State) : s.fresh.root = s.root := rfl
@[simp] theorem State.fresh_pq (s : State) : s.fresh.pq = s.pq := rfl
@[simp] theorem State.fresh_seq (s : State) : s.fresh.seq = s.seq := rfl
@[simp] theorem State.fresh_codes (s : State) : s.fresh.codes = s.codes := rfl
@[simp] theorem State.fresh_acc (s : State) : s.fresh.acc = s.acc := rfl
@[simp] theorem State.fresh_nacc (s : State) : s.fresh.nacc = s.nacc := rfl
@[simp] theorem State.fresh_cur (s : State) : s.fresh.cur = s.cur := rfl
@[simp] theorem State.fresh_nleft (s : State) : s.fresh.nleft = s.nleft := rfl
@[simp] theorem State.fresh_remain (s : State) : s.fresh.remain = s.remain := rfl
@[simp] theorem State.fresh_decl (s : State) : s.fresh.decl = s.decl := rfl
@[simp] theorem State.fresh_treeValid (s : State) : s.fresh.treeValid = s.treeValid := rfl
@[simp] theorem State.fresh_codesValid (s : State) : s.fresh.codesValid = s.codesValid := rfl
@[simp] theorem State.fresh_busy (s : State) : s.fresh.busy = false := rfl
@[simp] theorem State.fresh_pqEmpty (s : State) : s.fresh.pqEmpty = false := rfl
@[simp] theorem State.fresh_cmdDropped (s : State) : s.fresh.cmdDropped = s.cmdDropped := rfl
@[simp] theorem State.fresh_errCode (s : State) : s.fresh.errCode = s.errCode := rfl
@[simp] theorem State.fresh_errOp (s : State) : s.fresh.errOp = s.errOp := rfl
@[simp] theorem State.fresh_errPos (s : State) : s.fresh.errPos = s.errPos := rfl
@[simp] theorem State.fresh_arg (s : State) : s.fresh.arg = s.arg := rfl
@[simp] theorem State.fresh_res (s : State) : s.fresh.res = 0 := rfl
@[simp] theorem State.fresh_resAux (s : State) : s.fresh.resAux = 0 := rfl
@[simp] theorem State.fresh_origSize (s : State) : s.fresh.origSize = s.origSize := rfl
@[simp] theorem State.fresh_compSize (s : State) : s.fresh.compSize = s.compSize := rfl
@[simp] theorem State.fresh_srcAttached (s : State) : s.fresh.srcAttached = s.srcAttached := rfl
@[simp] theorem State.fresh_src (s : State) : s.fresh.src = s.src := rfl
@[simp] theorem State.fresh_srcPos (s : State) : s.fresh.srcPos = s.srcPos := rfl
@[simp] theorem State.fresh_snkAttached (s : State) : s.fresh.snkAttached = s.snkAttached := rfl
@[simp] theorem State.fresh_snk (s : State) : s.fresh.snk = s.snk := rfl
@[simp] theorem State.fresh_cmdOp (s : State) : s.fresh.cmdOp = 0 := rfl
@[simp] theorem State.fresh_parse (s : State) : s.fresh.parse = s.parse := rfl
@[simp] theorem State.fresh_regBase (s : State) : s.fresh.regBase = s.regBase := rfl
@[simp] theorem State.fresh_script (s : State) : s.fresh.script = s.script := rfl
@[simp] theorem State.fresh_draws (s : State) : s.fresh.draws = s.draws := rfl
@[simp] theorem State.fresh_obs (s : State) : s.fresh.obs = s.obs := rfl
@[simp] theorem State.fresh_freeCount (s : State) : s.fresh.freeCount = s.freeCount := rfl

/-! ### A command refused by its checks -/

@[simp] theorem State.failed_hist (op : Byte) (e : Err) (s : State) : (s.failed op e).hist = s.hist := rfl
@[simp] theorem State.failed_total (op : Byte) (e : Err) (s : State) : (s.failed op e).total = s.total := rfl
@[simp] theorem State.failed_nodes (op : Byte) (e : Err) (s : State) : (s.failed op e).nodes = s.nodes := rfl
@[simp] theorem State.failed_root (op : Byte) (e : Err) (s : State) : (s.failed op e).root = s.root := rfl
@[simp] theorem State.failed_pq (op : Byte) (e : Err) (s : State) : (s.failed op e).pq = s.pq := rfl
@[simp] theorem State.failed_seq (op : Byte) (e : Err) (s : State) : (s.failed op e).seq = s.seq := rfl
@[simp] theorem State.failed_codes (op : Byte) (e : Err) (s : State) : (s.failed op e).codes = s.codes := rfl
@[simp] theorem State.failed_acc (op : Byte) (e : Err) (s : State) : (s.failed op e).acc = s.acc := rfl
@[simp] theorem State.failed_nacc (op : Byte) (e : Err) (s : State) : (s.failed op e).nacc = s.nacc := rfl
@[simp] theorem State.failed_cur (op : Byte) (e : Err) (s : State) : (s.failed op e).cur = s.cur := rfl
@[simp] theorem State.failed_nleft (op : Byte) (e : Err) (s : State) : (s.failed op e).nleft = s.nleft := rfl
@[simp] theorem State.failed_remain (op : Byte) (e : Err) (s : State) : (s.failed op e).remain = s.remain := rfl
@[simp] theorem State.failed_decl (op : Byte) (e : Err) (s : State) : (s.failed op e).decl = s.decl := rfl
@[simp] theorem State.failed_treeValid (op : Byte) (e : Err) (s : State) : (s.failed op e).treeValid =
    s.treeValid := rfl
@[simp] theorem State.failed_codesValid (op : Byte) (e : Err) (s : State) : (s.failed op e).codesValid =
    s.codesValid := rfl
@[simp] theorem State.failed_busy (op : Byte) (e : Err) (s : State) : (s.failed op e).busy = false := rfl
@[simp] theorem State.failed_pqEmpty (op : Byte) (e : Err) (s : State) : (s.failed op e).pqEmpty = false := rfl
@[simp] theorem State.failed_cmdDropped (op : Byte) (e : Err) (s : State) : (s.failed op e).cmdDropped =
    s.cmdDropped := rfl
@[simp] theorem State.failed_errCode (op : Byte) (e : Err) (s : State) : (s.failed op e).errCode = some e := rfl
@[simp] theorem State.failed_errOp (op : Byte) (e : Err) (s : State) : (s.failed op e).errOp = op := rfl
@[simp] theorem State.failed_errPos (op : Byte) (e : Err) (s : State) : (s.failed op e).errPos = s.srcPosReg := rfl
@[simp] theorem State.failed_arg (op : Byte) (e : Err) (s : State) : (s.failed op e).arg = s.arg := rfl
@[simp] theorem State.failed_res (op : Byte) (e : Err) (s : State) : (s.failed op e).res = 0 := rfl
@[simp] theorem State.failed_resAux (op : Byte) (e : Err) (s : State) : (s.failed op e).resAux = 0 := rfl
@[simp] theorem State.failed_origSize (op : Byte) (e : Err) (s : State) : (s.failed op e).origSize = s.origSize := rfl
@[simp] theorem State.failed_compSize (op : Byte) (e : Err) (s : State) : (s.failed op e).compSize = s.compSize := rfl
@[simp] theorem State.failed_srcAttached (op : Byte) (e : Err) (s : State) : (s.failed op e).srcAttached =
    s.srcAttached := rfl
@[simp] theorem State.failed_src (op : Byte) (e : Err) (s : State) : (s.failed op e).src = s.src := rfl
@[simp] theorem State.failed_srcPos (op : Byte) (e : Err) (s : State) : (s.failed op e).srcPos = s.srcPos := rfl
@[simp] theorem State.failed_snkAttached (op : Byte) (e : Err) (s : State) : (s.failed op e).snkAttached =
    s.snkAttached := rfl
@[simp] theorem State.failed_snk (op : Byte) (e : Err) (s : State) : (s.failed op e).snk = s.snk := rfl
@[simp] theorem State.failed_cmdOp (op : Byte) (e : Err) (s : State) : (s.failed op e).cmdOp = 0 := rfl
@[simp] theorem State.failed_parse (op : Byte) (e : Err) (s : State) : (s.failed op e).parse = .idle := rfl
@[simp] theorem State.failed_regBase (op : Byte) (e : Err) (s : State) : (s.failed op e).regBase = s.regBase := rfl
@[simp] theorem State.failed_script (op : Byte) (e : Err) (s : State) : (s.failed op e).script = s.script := rfl
@[simp] theorem State.failed_draws (op : Byte) (e : Err) (s : State) : (s.failed op e).draws = s.draws := rfl
@[simp] theorem State.failed_obs (op : Byte) (e : Err) (s : State) : (s.failed op e).obs = s.obs := rfl
@[simp] theorem State.failed_freeCount (op : Byte) (e : Err) (s : State) : (s.failed op e).freeCount =
    s.freeCount := rfl

/-! ### RES (10_state.md R31) -/

@[simp] theorem setRes_hist (v : Count) (s : State) : (setRes v s).hist = s.hist := rfl
@[simp] theorem setRes_total (v : Count) (s : State) : (setRes v s).total = s.total := rfl
@[simp] theorem setRes_nodes (v : Count) (s : State) : (setRes v s).nodes = s.nodes := rfl
@[simp] theorem setRes_root (v : Count) (s : State) : (setRes v s).root = s.root := rfl
@[simp] theorem setRes_pq (v : Count) (s : State) : (setRes v s).pq = s.pq := rfl
@[simp] theorem setRes_seq (v : Count) (s : State) : (setRes v s).seq = s.seq := rfl
@[simp] theorem setRes_codes (v : Count) (s : State) : (setRes v s).codes = s.codes := rfl
@[simp] theorem setRes_acc (v : Count) (s : State) : (setRes v s).acc = s.acc := rfl
@[simp] theorem setRes_nacc (v : Count) (s : State) : (setRes v s).nacc = s.nacc := rfl
@[simp] theorem setRes_cur (v : Count) (s : State) : (setRes v s).cur = s.cur := rfl
@[simp] theorem setRes_nleft (v : Count) (s : State) : (setRes v s).nleft = s.nleft := rfl
@[simp] theorem setRes_remain (v : Count) (s : State) : (setRes v s).remain = s.remain := rfl
@[simp] theorem setRes_decl (v : Count) (s : State) : (setRes v s).decl = s.decl := rfl
@[simp] theorem setRes_treeValid (v : Count) (s : State) : (setRes v s).treeValid = s.treeValid := rfl
@[simp] theorem setRes_codesValid (v : Count) (s : State) : (setRes v s).codesValid = s.codesValid := rfl
@[simp] theorem setRes_busy (v : Count) (s : State) : (setRes v s).busy = s.busy := rfl
@[simp] theorem setRes_pqEmpty (v : Count) (s : State) : (setRes v s).pqEmpty = s.pqEmpty := rfl
@[simp] theorem setRes_cmdDropped (v : Count) (s : State) : (setRes v s).cmdDropped = s.cmdDropped := rfl
@[simp] theorem setRes_errCode (v : Count) (s : State) : (setRes v s).errCode = s.errCode := rfl
@[simp] theorem setRes_errOp (v : Count) (s : State) : (setRes v s).errOp = s.errOp := rfl
@[simp] theorem setRes_errPos (v : Count) (s : State) : (setRes v s).errPos = s.errPos := rfl
@[simp] theorem setRes_arg (v : Count) (s : State) : (setRes v s).arg = s.arg := rfl
@[simp] theorem setRes_res (v : Count) (s : State) : (setRes v s).res = v := rfl
@[simp] theorem setRes_resAux (v : Count) (s : State) : (setRes v s).resAux = s.resAux := rfl
@[simp] theorem setRes_origSize (v : Count) (s : State) : (setRes v s).origSize = s.origSize := rfl
@[simp] theorem setRes_compSize (v : Count) (s : State) : (setRes v s).compSize = s.compSize := rfl
@[simp] theorem setRes_srcAttached (v : Count) (s : State) : (setRes v s).srcAttached = s.srcAttached := rfl
@[simp] theorem setRes_src (v : Count) (s : State) : (setRes v s).src = s.src := rfl
@[simp] theorem setRes_srcPos (v : Count) (s : State) : (setRes v s).srcPos = s.srcPos := rfl
@[simp] theorem setRes_snkAttached (v : Count) (s : State) : (setRes v s).snkAttached = s.snkAttached := rfl
@[simp] theorem setRes_snk (v : Count) (s : State) : (setRes v s).snk = s.snk := rfl
@[simp] theorem setRes_cmdOp (v : Count) (s : State) : (setRes v s).cmdOp = s.cmdOp := rfl
@[simp] theorem setRes_parse (v : Count) (s : State) : (setRes v s).parse = s.parse := rfl
@[simp] theorem setRes_regBase (v : Count) (s : State) : (setRes v s).regBase = s.regBase := rfl
@[simp] theorem setRes_script (v : Count) (s : State) : (setRes v s).script = s.script := rfl
@[simp] theorem setRes_draws (v : Count) (s : State) : (setRes v s).draws = s.draws := rfl
@[simp] theorem setRes_obs (v : Count) (s : State) : (setRes v s).obs = s.obs := rfl
@[simp] theorem setRes_freeCount (v : Count) (s : State) : (setRes v s).freeCount = s.freeCount := rfl

/-! ### RES_AUX (10_state.md R31) -/

@[simp] theorem setAux_hist (lo width v : Nat) (s : State) : (setAux lo width v s).hist = s.hist := rfl
@[simp] theorem setAux_total (lo width v : Nat) (s : State) : (setAux lo width v s).total = s.total := rfl
@[simp] theorem setAux_nodes (lo width v : Nat) (s : State) : (setAux lo width v s).nodes = s.nodes := rfl
@[simp] theorem setAux_root (lo width v : Nat) (s : State) : (setAux lo width v s).root = s.root := rfl
@[simp] theorem setAux_pq (lo width v : Nat) (s : State) : (setAux lo width v s).pq = s.pq := rfl
@[simp] theorem setAux_seq (lo width v : Nat) (s : State) : (setAux lo width v s).seq = s.seq := rfl
@[simp] theorem setAux_codes (lo width v : Nat) (s : State) : (setAux lo width v s).codes = s.codes := rfl
@[simp] theorem setAux_acc (lo width v : Nat) (s : State) : (setAux lo width v s).acc = s.acc := rfl
@[simp] theorem setAux_nacc (lo width v : Nat) (s : State) : (setAux lo width v s).nacc = s.nacc := rfl
@[simp] theorem setAux_cur (lo width v : Nat) (s : State) : (setAux lo width v s).cur = s.cur := rfl
@[simp] theorem setAux_nleft (lo width v : Nat) (s : State) : (setAux lo width v s).nleft = s.nleft := rfl
@[simp] theorem setAux_remain (lo width v : Nat) (s : State) : (setAux lo width v s).remain = s.remain := rfl
@[simp] theorem setAux_decl (lo width v : Nat) (s : State) : (setAux lo width v s).decl = s.decl := rfl
@[simp] theorem setAux_treeValid (lo width v : Nat) (s : State) : (setAux lo width v s).treeValid = s.treeValid := rfl
@[simp] theorem setAux_codesValid (lo width v : Nat) (s : State) : (setAux lo width v s).codesValid =
    s.codesValid := rfl
@[simp] theorem setAux_busy (lo width v : Nat) (s : State) : (setAux lo width v s).busy = s.busy := rfl
@[simp] theorem setAux_pqEmpty (lo width v : Nat) (s : State) : (setAux lo width v s).pqEmpty = s.pqEmpty := rfl
@[simp] theorem setAux_cmdDropped (lo width v : Nat) (s : State) : (setAux lo width v s).cmdDropped =
    s.cmdDropped := rfl
@[simp] theorem setAux_errCode (lo width v : Nat) (s : State) : (setAux lo width v s).errCode = s.errCode := rfl
@[simp] theorem setAux_errOp (lo width v : Nat) (s : State) : (setAux lo width v s).errOp = s.errOp := rfl
@[simp] theorem setAux_errPos (lo width v : Nat) (s : State) : (setAux lo width v s).errPos = s.errPos := rfl
@[simp] theorem setAux_arg (lo width v : Nat) (s : State) : (setAux lo width v s).arg = s.arg := rfl
@[simp] theorem setAux_res (lo width v : Nat) (s : State) : (setAux lo width v s).res = s.res := rfl
@[simp] theorem setAux_resAux (lo width v : Nat) (s : State) : (setAux lo width v s).resAux =
    putField s.resAux lo width v := rfl
@[simp] theorem setAux_origSize (lo width v : Nat) (s : State) : (setAux lo width v s).origSize = s.origSize := rfl
@[simp] theorem setAux_compSize (lo width v : Nat) (s : State) : (setAux lo width v s).compSize = s.compSize := rfl
@[simp] theorem setAux_srcAttached (lo width v : Nat) (s : State) : (setAux lo width v s).srcAttached =
    s.srcAttached := rfl
@[simp] theorem setAux_src (lo width v : Nat) (s : State) : (setAux lo width v s).src = s.src := rfl
@[simp] theorem setAux_srcPos (lo width v : Nat) (s : State) : (setAux lo width v s).srcPos = s.srcPos := rfl
@[simp] theorem setAux_snkAttached (lo width v : Nat) (s : State) : (setAux lo width v s).snkAttached =
    s.snkAttached := rfl
@[simp] theorem setAux_snk (lo width v : Nat) (s : State) : (setAux lo width v s).snk = s.snk := rfl
@[simp] theorem setAux_cmdOp (lo width v : Nat) (s : State) : (setAux lo width v s).cmdOp = s.cmdOp := rfl
@[simp] theorem setAux_parse (lo width v : Nat) (s : State) : (setAux lo width v s).parse = s.parse := rfl
@[simp] theorem setAux_regBase (lo width v : Nat) (s : State) : (setAux lo width v s).regBase = s.regBase := rfl
@[simp] theorem setAux_script (lo width v : Nat) (s : State) : (setAux lo width v s).script = s.script := rfl
@[simp] theorem setAux_draws (lo width v : Nat) (s : State) : (setAux lo width v s).draws = s.draws := rfl
@[simp] theorem setAux_obs (lo width v : Nat) (s : State) : (setAux lo width v s).obs = s.obs := rfl
@[simp] theorem setAux_freeCount (lo width v : Nat) (s : State) : (setAux lo width v s).freeCount = s.freeCount := rfl

/-! ### One node record -/

@[simp] theorem setNode_hist (i : NodeIdx) (f : Node → Node) (s : State) : (setNode i f s).hist = s.hist := rfl
@[simp] theorem setNode_total (i : NodeIdx) (f : Node → Node) (s : State) : (setNode i f s).total = s.total := rfl
@[simp] theorem setNode_nodes (i : NodeIdx) (f : Node → Node) (s : State) : (setNode i f s).nodes =
    s.nodes.modify i.toNat f := rfl
@[simp] theorem setNode_root (i : NodeIdx) (f : Node → Node) (s : State) : (setNode i f s).root = s.root := rfl
@[simp] theorem setNode_pq (i : NodeIdx) (f : Node → Node) (s : State) : (setNode i f s).pq = s.pq := rfl
@[simp] theorem setNode_seq (i : NodeIdx) (f : Node → Node) (s : State) : (setNode i f s).seq = s.seq := rfl
@[simp] theorem setNode_codes (i : NodeIdx) (f : Node → Node) (s : State) : (setNode i f s).codes = s.codes := rfl
@[simp] theorem setNode_acc (i : NodeIdx) (f : Node → Node) (s : State) : (setNode i f s).acc = s.acc := rfl
@[simp] theorem setNode_nacc (i : NodeIdx) (f : Node → Node) (s : State) : (setNode i f s).nacc = s.nacc := rfl
@[simp] theorem setNode_cur (i : NodeIdx) (f : Node → Node) (s : State) : (setNode i f s).cur = s.cur := rfl
@[simp] theorem setNode_nleft (i : NodeIdx) (f : Node → Node) (s : State) : (setNode i f s).nleft = s.nleft := rfl
@[simp] theorem setNode_remain (i : NodeIdx) (f : Node → Node) (s : State) : (setNode i f s).remain = s.remain := rfl
@[simp] theorem setNode_decl (i : NodeIdx) (f : Node → Node) (s : State) : (setNode i f s).decl = s.decl := rfl
@[simp] theorem setNode_treeValid (i : NodeIdx) (f : Node → Node) (s : State) : (setNode i f s).treeValid =
    s.treeValid := rfl
@[simp] theorem setNode_codesValid (i : NodeIdx) (f : Node → Node) (s : State) : (setNode i f s).codesValid =
    s.codesValid := rfl
@[simp] theorem setNode_busy (i : NodeIdx) (f : Node → Node) (s : State) : (setNode i f s).busy = s.busy := rfl
@[simp] theorem setNode_pqEmpty (i : NodeIdx) (f : Node → Node) (s : State) : (setNode i f s).pqEmpty =
    s.pqEmpty := rfl
@[simp] theorem setNode_cmdDropped (i : NodeIdx) (f : Node → Node) (s : State) : (setNode i f s).cmdDropped =
    s.cmdDropped := rfl
@[simp] theorem setNode_errCode (i : NodeIdx) (f : Node → Node) (s : State) : (setNode i f s).errCode =
    s.errCode := rfl
@[simp] theorem setNode_errOp (i : NodeIdx) (f : Node → Node) (s : State) : (setNode i f s).errOp = s.errOp := rfl
@[simp] theorem setNode_errPos (i : NodeIdx) (f : Node → Node) (s : State) : (setNode i f s).errPos = s.errPos := rfl
@[simp] theorem setNode_arg (i : NodeIdx) (f : Node → Node) (s : State) : (setNode i f s).arg = s.arg := rfl
@[simp] theorem setNode_res (i : NodeIdx) (f : Node → Node) (s : State) : (setNode i f s).res = s.res := rfl
@[simp] theorem setNode_resAux (i : NodeIdx) (f : Node → Node) (s : State) : (setNode i f s).resAux = s.resAux := rfl
@[simp] theorem setNode_origSize (i : NodeIdx) (f : Node → Node) (s : State) : (setNode i f s).origSize =
    s.origSize := rfl
@[simp] theorem setNode_compSize (i : NodeIdx) (f : Node → Node) (s : State) : (setNode i f s).compSize =
    s.compSize := rfl
@[simp] theorem setNode_srcAttached (i : NodeIdx) (f : Node → Node) (s : State) : (setNode i f s).srcAttached =
    s.srcAttached := rfl
@[simp] theorem setNode_src (i : NodeIdx) (f : Node → Node) (s : State) : (setNode i f s).src = s.src := rfl
@[simp] theorem setNode_srcPos (i : NodeIdx) (f : Node → Node) (s : State) : (setNode i f s).srcPos = s.srcPos := rfl
@[simp] theorem setNode_snkAttached (i : NodeIdx) (f : Node → Node) (s : State) : (setNode i f s).snkAttached =
    s.snkAttached := rfl
@[simp] theorem setNode_snk (i : NodeIdx) (f : Node → Node) (s : State) : (setNode i f s).snk = s.snk := rfl
@[simp] theorem setNode_cmdOp (i : NodeIdx) (f : Node → Node) (s : State) : (setNode i f s).cmdOp = s.cmdOp := rfl
@[simp] theorem setNode_parse (i : NodeIdx) (f : Node → Node) (s : State) : (setNode i f s).parse = s.parse := rfl
@[simp] theorem setNode_regBase (i : NodeIdx) (f : Node → Node) (s : State) : (setNode i f s).regBase =
    s.regBase := rfl
@[simp] theorem setNode_script (i : NodeIdx) (f : Node → Node) (s : State) : (setNode i f s).script = s.script := rfl
@[simp] theorem setNode_draws (i : NodeIdx) (f : Node → Node) (s : State) : (setNode i f s).draws = s.draws := rfl
@[simp] theorem setNode_obs (i : NodeIdx) (f : Node → Node) (s : State) : (setNode i f s).obs = s.obs := rfl
@[simp] theorem setNode_freeCount (i : NodeIdx) (f : Node → Node) (s : State) : (setNode i f s).freeCount =
    s.freeCount := rfl

/-! ### Alloc (41_priority_queue.md R98) -/

@[simp] theorem alloc_hist (k : NodeKind) (sym : Byte) (w : Count) (l r : NodeIdx) (s : State) : (alloc k sym w l r s).hist =
    s.hist := rfl
@[simp] theorem alloc_total (k : NodeKind) (sym : Byte) (w : Count) (l r : NodeIdx) (s : State) : (alloc k sym w l r s).total =
    s.total := rfl
@[simp] theorem alloc_nodes (k : NodeKind) (sym : Byte) (w : Count) (l r : NodeIdx) (s : State) : (alloc k sym w l r s).nodes =
    s.nodes ++ [⟨k, sym, w, l, r, false, false⟩] := rfl
@[simp] theorem alloc_root (k : NodeKind) (sym : Byte) (w : Count) (l r : NodeIdx) (s : State) : (alloc k sym w l r s).root =
    s.root := rfl
@[simp] theorem alloc_pq (k : NodeKind) (sym : Byte) (w : Count) (l r : NodeIdx) (s : State) : (alloc k sym w l r s).pq =
    s.pq := rfl
@[simp] theorem alloc_seq (k : NodeKind) (sym : Byte) (w : Count) (l r : NodeIdx) (s : State) : (alloc k sym w l r s).seq =
    s.seq := rfl
@[simp] theorem alloc_codes (k : NodeKind) (sym : Byte) (w : Count) (l r : NodeIdx) (s : State) : (alloc k sym w l r s).codes =
    s.codes := rfl
@[simp] theorem alloc_acc (k : NodeKind) (sym : Byte) (w : Count) (l r : NodeIdx) (s : State) : (alloc k sym w l r s).acc =
    s.acc := rfl
@[simp] theorem alloc_nacc (k : NodeKind) (sym : Byte) (w : Count) (l r : NodeIdx) (s : State) : (alloc k sym w l r s).nacc =
    s.nacc := rfl
@[simp] theorem alloc_cur (k : NodeKind) (sym : Byte) (w : Count) (l r : NodeIdx) (s : State) : (alloc k sym w l r s).cur =
    s.cur := rfl
@[simp] theorem alloc_nleft (k : NodeKind) (sym : Byte) (w : Count) (l r : NodeIdx) (s : State) : (alloc k sym w l r s).nleft =
    s.nleft := rfl
@[simp] theorem alloc_remain (k : NodeKind) (sym : Byte) (w : Count) (l r : NodeIdx) (s : State) : (alloc k sym w l r s).remain =
    s.remain := rfl
@[simp] theorem alloc_decl (k : NodeKind) (sym : Byte) (w : Count) (l r : NodeIdx) (s : State) : (alloc k sym w l r s).decl =
    s.decl := rfl
@[simp] theorem alloc_treeValid (k : NodeKind) (sym : Byte) (w : Count) (l r : NodeIdx) (s : State) : (alloc k sym w l r s).treeValid =
    s.treeValid := rfl
@[simp] theorem alloc_codesValid (k : NodeKind) (sym : Byte) (w : Count) (l r : NodeIdx) (s : State) : (alloc k sym w l r s).codesValid =
    s.codesValid := rfl
@[simp] theorem alloc_busy (k : NodeKind) (sym : Byte) (w : Count) (l r : NodeIdx) (s : State) : (alloc k sym w l r s).busy =
    s.busy := rfl
@[simp] theorem alloc_pqEmpty (k : NodeKind) (sym : Byte) (w : Count) (l r : NodeIdx) (s : State) : (alloc k sym w l r s).pqEmpty =
    s.pqEmpty := rfl
@[simp] theorem alloc_cmdDropped (k : NodeKind) (sym : Byte) (w : Count) (l r : NodeIdx) (s : State) : (alloc k sym w l r s).cmdDropped =
    s.cmdDropped := rfl
@[simp] theorem alloc_errCode (k : NodeKind) (sym : Byte) (w : Count) (l r : NodeIdx) (s : State) : (alloc k sym w l r s).errCode =
    s.errCode := rfl
@[simp] theorem alloc_errOp (k : NodeKind) (sym : Byte) (w : Count) (l r : NodeIdx) (s : State) : (alloc k sym w l r s).errOp =
    s.errOp := rfl
@[simp] theorem alloc_errPos (k : NodeKind) (sym : Byte) (w : Count) (l r : NodeIdx) (s : State) : (alloc k sym w l r s).errPos =
    s.errPos := rfl
@[simp] theorem alloc_arg (k : NodeKind) (sym : Byte) (w : Count) (l r : NodeIdx) (s : State) : (alloc k sym w l r s).arg =
    s.arg := rfl
@[simp] theorem alloc_res (k : NodeKind) (sym : Byte) (w : Count) (l r : NodeIdx) (s : State) : (alloc k sym w l r s).res =
    s.res := rfl
@[simp] theorem alloc_resAux (k : NodeKind) (sym : Byte) (w : Count) (l r : NodeIdx) (s : State) : (alloc k sym w l r s).resAux =
    s.resAux := rfl
@[simp] theorem alloc_origSize (k : NodeKind) (sym : Byte) (w : Count) (l r : NodeIdx) (s : State) : (alloc k sym w l r s).origSize =
    s.origSize := rfl
@[simp] theorem alloc_compSize (k : NodeKind) (sym : Byte) (w : Count) (l r : NodeIdx) (s : State) : (alloc k sym w l r s).compSize =
    s.compSize := rfl
@[simp] theorem alloc_srcAttached (k : NodeKind) (sym : Byte) (w : Count) (l r : NodeIdx) (s : State) : (alloc k sym w l r s).srcAttached =
    s.srcAttached := rfl
@[simp] theorem alloc_src (k : NodeKind) (sym : Byte) (w : Count) (l r : NodeIdx) (s : State) : (alloc k sym w l r s).src =
    s.src := rfl
@[simp] theorem alloc_srcPos (k : NodeKind) (sym : Byte) (w : Count) (l r : NodeIdx) (s : State) : (alloc k sym w l r s).srcPos =
    s.srcPos := rfl
@[simp] theorem alloc_snkAttached (k : NodeKind) (sym : Byte) (w : Count) (l r : NodeIdx) (s : State) : (alloc k sym w l r s).snkAttached =
    s.snkAttached := rfl
@[simp] theorem alloc_snk (k : NodeKind) (sym : Byte) (w : Count) (l r : NodeIdx) (s : State) : (alloc k sym w l r s).snk =
    s.snk := rfl
@[simp] theorem alloc_cmdOp (k : NodeKind) (sym : Byte) (w : Count) (l r : NodeIdx) (s : State) : (alloc k sym w l r s).cmdOp =
    s.cmdOp := rfl
@[simp] theorem alloc_parse (k : NodeKind) (sym : Byte) (w : Count) (l r : NodeIdx) (s : State) : (alloc k sym w l r s).parse =
    s.parse := rfl
@[simp] theorem alloc_regBase (k : NodeKind) (sym : Byte) (w : Count) (l r : NodeIdx) (s : State) : (alloc k sym w l r s).regBase =
    s.regBase := rfl
@[simp] theorem alloc_script (k : NodeKind) (sym : Byte) (w : Count) (l r : NodeIdx) (s : State) : (alloc k sym w l r s).script =
    s.script := rfl
@[simp] theorem alloc_draws (k : NodeKind) (sym : Byte) (w : Count) (l r : NodeIdx) (s : State) : (alloc k sym w l r s).draws =
    s.draws := rfl
@[simp] theorem alloc_obs (k : NodeKind) (sym : Byte) (w : Count) (l r : NodeIdx) (s : State) : (alloc k sym w l r s).obs =
    s.obs := rfl
@[simp] theorem alloc_freeCount (k : NodeKind) (sym : Byte) (w : Count) (l r : NodeIdx) (s : State) : (alloc k sym w l r s).freeCount =
    s.freeCount := rfl

/-! ### Invalidate (41_priority_queue.md R98) -/

@[simp] theorem invalidate_hist (s : State) : (invalidate s).hist = s.hist := rfl
@[simp] theorem invalidate_total (s : State) : (invalidate s).total = s.total := rfl
@[simp] theorem invalidate_nodes (s : State) : (invalidate s).nodes = s.nodes := rfl
@[simp] theorem invalidate_root (s : State) : (invalidate s).root = nilIdx := rfl
@[simp] theorem invalidate_pq (s : State) : (invalidate s).pq = s.pq := rfl
@[simp] theorem invalidate_seq (s : State) : (invalidate s).seq = s.seq := rfl
@[simp] theorem invalidate_codes (s : State) : (invalidate s).codes = Vector.replicate 256 none := rfl
@[simp] theorem invalidate_acc (s : State) : (invalidate s).acc = s.acc := rfl
@[simp] theorem invalidate_nacc (s : State) : (invalidate s).nacc = s.nacc := rfl
@[simp] theorem invalidate_cur (s : State) : (invalidate s).cur = s.cur := rfl
@[simp] theorem invalidate_nleft (s : State) : (invalidate s).nleft = s.nleft := rfl
@[simp] theorem invalidate_remain (s : State) : (invalidate s).remain = s.remain := rfl
@[simp] theorem invalidate_decl (s : State) : (invalidate s).decl = s.decl := rfl
@[simp] theorem invalidate_treeValid (s : State) : (invalidate s).treeValid = false := rfl
@[simp] theorem invalidate_codesValid (s : State) : (invalidate s).codesValid = false := rfl
@[simp] theorem invalidate_busy (s : State) : (invalidate s).busy = s.busy := rfl
@[simp] theorem invalidate_pqEmpty (s : State) : (invalidate s).pqEmpty = s.pqEmpty := rfl
@[simp] theorem invalidate_cmdDropped (s : State) : (invalidate s).cmdDropped = s.cmdDropped := rfl
@[simp] theorem invalidate_errCode (s : State) : (invalidate s).errCode = s.errCode := rfl
@[simp] theorem invalidate_errOp (s : State) : (invalidate s).errOp = s.errOp := rfl
@[simp] theorem invalidate_errPos (s : State) : (invalidate s).errPos = s.errPos := rfl
@[simp] theorem invalidate_arg (s : State) : (invalidate s).arg = s.arg := rfl
@[simp] theorem invalidate_res (s : State) : (invalidate s).res = s.res := rfl
@[simp] theorem invalidate_resAux (s : State) : (invalidate s).resAux = s.resAux := rfl
@[simp] theorem invalidate_origSize (s : State) : (invalidate s).origSize = s.origSize := rfl
@[simp] theorem invalidate_compSize (s : State) : (invalidate s).compSize = s.compSize := rfl
@[simp] theorem invalidate_srcAttached (s : State) : (invalidate s).srcAttached = s.srcAttached := rfl
@[simp] theorem invalidate_src (s : State) : (invalidate s).src = s.src := rfl
@[simp] theorem invalidate_srcPos (s : State) : (invalidate s).srcPos = s.srcPos := rfl
@[simp] theorem invalidate_snkAttached (s : State) : (invalidate s).snkAttached = s.snkAttached := rfl
@[simp] theorem invalidate_snk (s : State) : (invalidate s).snk = s.snk := rfl
@[simp] theorem invalidate_cmdOp (s : State) : (invalidate s).cmdOp = s.cmdOp := rfl
@[simp] theorem invalidate_parse (s : State) : (invalidate s).parse = s.parse := rfl
@[simp] theorem invalidate_regBase (s : State) : (invalidate s).regBase = s.regBase := rfl
@[simp] theorem invalidate_script (s : State) : (invalidate s).script = s.script := rfl
@[simp] theorem invalidate_draws (s : State) : (invalidate s).draws = s.draws := rfl
@[simp] theorem invalidate_obs (s : State) : (invalidate s).obs = s.obs := rfl
@[simp] theorem invalidate_freeCount (s : State) : (invalidate s).freeCount = s.freeCount := rfl

/-! ### ArenaClear (41_priority_queue.md R98) -/

@[simp] theorem arenaClear_hist (s : State) : (arenaClear s).hist = s.hist := rfl
@[simp] theorem arenaClear_total (s : State) : (arenaClear s).total = s.total := rfl
@[simp] theorem arenaClear_nodes (s : State) : (arenaClear s).nodes = [] := rfl
@[simp] theorem arenaClear_root (s : State) : (arenaClear s).root = nilIdx := rfl
@[simp] theorem arenaClear_pq (s : State) : (arenaClear s).pq = [] := rfl
@[simp] theorem arenaClear_seq (s : State) : (arenaClear s).seq = 0 := rfl
@[simp] theorem arenaClear_codes (s : State) : (arenaClear s).codes = Vector.replicate 256 none := rfl
@[simp] theorem arenaClear_acc (s : State) : (arenaClear s).acc = s.acc := rfl
@[simp] theorem arenaClear_nacc (s : State) : (arenaClear s).nacc = s.nacc := rfl
@[simp] theorem arenaClear_cur (s : State) : (arenaClear s).cur = s.cur := rfl
@[simp] theorem arenaClear_nleft (s : State) : (arenaClear s).nleft = s.nleft := rfl
@[simp] theorem arenaClear_remain (s : State) : (arenaClear s).remain = s.remain := rfl
@[simp] theorem arenaClear_decl (s : State) : (arenaClear s).decl = s.decl := rfl
@[simp] theorem arenaClear_treeValid (s : State) : (arenaClear s).treeValid = false := rfl
@[simp] theorem arenaClear_codesValid (s : State) : (arenaClear s).codesValid = false := rfl
@[simp] theorem arenaClear_busy (s : State) : (arenaClear s).busy = s.busy := rfl
@[simp] theorem arenaClear_pqEmpty (s : State) : (arenaClear s).pqEmpty = s.pqEmpty := rfl
@[simp] theorem arenaClear_cmdDropped (s : State) : (arenaClear s).cmdDropped = s.cmdDropped := rfl
@[simp] theorem arenaClear_errCode (s : State) : (arenaClear s).errCode = s.errCode := rfl
@[simp] theorem arenaClear_errOp (s : State) : (arenaClear s).errOp = s.errOp := rfl
@[simp] theorem arenaClear_errPos (s : State) : (arenaClear s).errPos = s.errPos := rfl
@[simp] theorem arenaClear_arg (s : State) : (arenaClear s).arg = s.arg := rfl
@[simp] theorem arenaClear_res (s : State) : (arenaClear s).res = s.res := rfl
@[simp] theorem arenaClear_resAux (s : State) : (arenaClear s).resAux = s.resAux := rfl
@[simp] theorem arenaClear_origSize (s : State) : (arenaClear s).origSize = s.origSize := rfl
@[simp] theorem arenaClear_compSize (s : State) : (arenaClear s).compSize = s.compSize := rfl
@[simp] theorem arenaClear_srcAttached (s : State) : (arenaClear s).srcAttached = s.srcAttached := rfl
@[simp] theorem arenaClear_src (s : State) : (arenaClear s).src = s.src := rfl
@[simp] theorem arenaClear_srcPos (s : State) : (arenaClear s).srcPos = s.srcPos := rfl
@[simp] theorem arenaClear_snkAttached (s : State) : (arenaClear s).snkAttached = s.snkAttached := rfl
@[simp] theorem arenaClear_snk (s : State) : (arenaClear s).snk = s.snk := rfl
@[simp] theorem arenaClear_cmdOp (s : State) : (arenaClear s).cmdOp = s.cmdOp := rfl
@[simp] theorem arenaClear_parse (s : State) : (arenaClear s).parse = s.parse := rfl
@[simp] theorem arenaClear_regBase (s : State) : (arenaClear s).regBase = s.regBase := rfl
@[simp] theorem arenaClear_script (s : State) : (arenaClear s).script = s.script := rfl
@[simp] theorem arenaClear_draws (s : State) : (arenaClear s).draws = s.draws := rfl
@[simp] theorem arenaClear_obs (s : State) : (arenaClear s).obs = s.obs := rfl
@[simp] theorem arenaClear_freeCount (s : State) : (arenaClear s).freeCount = s.freeCount := rfl

/-! ### PqInsert (41_priority_queue.md R98) -/

@[simp] theorem pqInsert_hist (n : NodeIdx) (s : State) : (pqInsert n s).hist = s.hist := rfl
@[simp] theorem pqInsert_total (n : NodeIdx) (s : State) : (pqInsert n s).total = s.total := rfl
@[simp] theorem pqInsert_nodes (n : NodeIdx) (s : State) : (pqInsert n s).nodes =
    s.nodes.modify n.toNat fun x => { x with inPq := true } := rfl
@[simp] theorem pqInsert_root (n : NodeIdx) (s : State) : (pqInsert n s).root = s.root := rfl
@[simp] theorem pqInsert_pq (n : NodeIdx) (s : State) : (pqInsert n s).pq = s.pq ++ [⟨n, s.seq⟩] := rfl
@[simp] theorem pqInsert_seq (n : NodeIdx) (s : State) : (pqInsert n s).seq = s.seq + 1 := rfl
@[simp] theorem pqInsert_codes (n : NodeIdx) (s : State) : (pqInsert n s).codes = s.codes := rfl
@[simp] theorem pqInsert_acc (n : NodeIdx) (s : State) : (pqInsert n s).acc = s.acc := rfl
@[simp] theorem pqInsert_nacc (n : NodeIdx) (s : State) : (pqInsert n s).nacc = s.nacc := rfl
@[simp] theorem pqInsert_cur (n : NodeIdx) (s : State) : (pqInsert n s).cur = s.cur := rfl
@[simp] theorem pqInsert_nleft (n : NodeIdx) (s : State) : (pqInsert n s).nleft = s.nleft := rfl
@[simp] theorem pqInsert_remain (n : NodeIdx) (s : State) : (pqInsert n s).remain = s.remain := rfl
@[simp] theorem pqInsert_decl (n : NodeIdx) (s : State) : (pqInsert n s).decl = s.decl := rfl
@[simp] theorem pqInsert_treeValid (n : NodeIdx) (s : State) : (pqInsert n s).treeValid = s.treeValid := rfl
@[simp] theorem pqInsert_codesValid (n : NodeIdx) (s : State) : (pqInsert n s).codesValid = s.codesValid := rfl
@[simp] theorem pqInsert_busy (n : NodeIdx) (s : State) : (pqInsert n s).busy = s.busy := rfl
@[simp] theorem pqInsert_pqEmpty (n : NodeIdx) (s : State) : (pqInsert n s).pqEmpty = s.pqEmpty := rfl
@[simp] theorem pqInsert_cmdDropped (n : NodeIdx) (s : State) : (pqInsert n s).cmdDropped = s.cmdDropped := rfl
@[simp] theorem pqInsert_errCode (n : NodeIdx) (s : State) : (pqInsert n s).errCode = s.errCode := rfl
@[simp] theorem pqInsert_errOp (n : NodeIdx) (s : State) : (pqInsert n s).errOp = s.errOp := rfl
@[simp] theorem pqInsert_errPos (n : NodeIdx) (s : State) : (pqInsert n s).errPos = s.errPos := rfl
@[simp] theorem pqInsert_arg (n : NodeIdx) (s : State) : (pqInsert n s).arg = s.arg := rfl
@[simp] theorem pqInsert_res (n : NodeIdx) (s : State) : (pqInsert n s).res = s.res := rfl
@[simp] theorem pqInsert_resAux (n : NodeIdx) (s : State) : (pqInsert n s).resAux = s.resAux := rfl
@[simp] theorem pqInsert_origSize (n : NodeIdx) (s : State) : (pqInsert n s).origSize = s.origSize := rfl
@[simp] theorem pqInsert_compSize (n : NodeIdx) (s : State) : (pqInsert n s).compSize = s.compSize := rfl
@[simp] theorem pqInsert_srcAttached (n : NodeIdx) (s : State) : (pqInsert n s).srcAttached = s.srcAttached := rfl
@[simp] theorem pqInsert_src (n : NodeIdx) (s : State) : (pqInsert n s).src = s.src := rfl
@[simp] theorem pqInsert_srcPos (n : NodeIdx) (s : State) : (pqInsert n s).srcPos = s.srcPos := rfl
@[simp] theorem pqInsert_snkAttached (n : NodeIdx) (s : State) : (pqInsert n s).snkAttached = s.snkAttached := rfl
@[simp] theorem pqInsert_snk (n : NodeIdx) (s : State) : (pqInsert n s).snk = s.snk := rfl
@[simp] theorem pqInsert_cmdOp (n : NodeIdx) (s : State) : (pqInsert n s).cmdOp = s.cmdOp := rfl
@[simp] theorem pqInsert_parse (n : NodeIdx) (s : State) : (pqInsert n s).parse = s.parse := rfl
@[simp] theorem pqInsert_regBase (n : NodeIdx) (s : State) : (pqInsert n s).regBase = s.regBase := rfl
@[simp] theorem pqInsert_script (n : NodeIdx) (s : State) : (pqInsert n s).script = s.script := rfl
@[simp] theorem pqInsert_draws (n : NodeIdx) (s : State) : (pqInsert n s).draws = s.draws := rfl
@[simp] theorem pqInsert_obs (n : NodeIdx) (s : State) : (pqInsert n s).obs = s.obs := rfl
@[simp] theorem pqInsert_freeCount (n : NodeIdx) (s : State) : (pqInsert n s).freeCount = s.freeCount := rfl

/-! ### One symbol counted (42_tree_builder.md R108) -/

@[simp] theorem countSymbol_hist (sym : Byte) (s : State) : (countSymbol sym s).hist =
    s.hist.set sym.toNat (s.histAt sym + 1) sym.isLt := rfl
@[simp] theorem countSymbol_total (sym : Byte) (s : State) : (countSymbol sym s).total = s.total + 1 := rfl
@[simp] theorem countSymbol_nodes (sym : Byte) (s : State) : (countSymbol sym s).nodes = s.nodes := rfl
@[simp] theorem countSymbol_root (sym : Byte) (s : State) : (countSymbol sym s).root = s.root := rfl
@[simp] theorem countSymbol_pq (sym : Byte) (s : State) : (countSymbol sym s).pq = s.pq := rfl
@[simp] theorem countSymbol_seq (sym : Byte) (s : State) : (countSymbol sym s).seq = s.seq := rfl
@[simp] theorem countSymbol_codes (sym : Byte) (s : State) : (countSymbol sym s).codes = s.codes := rfl
@[simp] theorem countSymbol_acc (sym : Byte) (s : State) : (countSymbol sym s).acc = s.acc := rfl
@[simp] theorem countSymbol_nacc (sym : Byte) (s : State) : (countSymbol sym s).nacc = s.nacc := rfl
@[simp] theorem countSymbol_cur (sym : Byte) (s : State) : (countSymbol sym s).cur = s.cur := rfl
@[simp] theorem countSymbol_nleft (sym : Byte) (s : State) : (countSymbol sym s).nleft = s.nleft := rfl
@[simp] theorem countSymbol_remain (sym : Byte) (s : State) : (countSymbol sym s).remain = s.remain := rfl
@[simp] theorem countSymbol_decl (sym : Byte) (s : State) : (countSymbol sym s).decl = s.decl := rfl
@[simp] theorem countSymbol_treeValid (sym : Byte) (s : State) : (countSymbol sym s).treeValid = s.treeValid := rfl
@[simp] theorem countSymbol_codesValid (sym : Byte) (s : State) : (countSymbol sym s).codesValid = s.codesValid := rfl
@[simp] theorem countSymbol_busy (sym : Byte) (s : State) : (countSymbol sym s).busy = s.busy := rfl
@[simp] theorem countSymbol_pqEmpty (sym : Byte) (s : State) : (countSymbol sym s).pqEmpty = s.pqEmpty := rfl
@[simp] theorem countSymbol_cmdDropped (sym : Byte) (s : State) : (countSymbol sym s).cmdDropped = s.cmdDropped := rfl
@[simp] theorem countSymbol_errCode (sym : Byte) (s : State) : (countSymbol sym s).errCode = s.errCode := rfl
@[simp] theorem countSymbol_errOp (sym : Byte) (s : State) : (countSymbol sym s).errOp = s.errOp := rfl
@[simp] theorem countSymbol_errPos (sym : Byte) (s : State) : (countSymbol sym s).errPos = s.errPos := rfl
@[simp] theorem countSymbol_arg (sym : Byte) (s : State) : (countSymbol sym s).arg = s.arg := rfl
@[simp] theorem countSymbol_res (sym : Byte) (s : State) : (countSymbol sym s).res = s.res := rfl
@[simp] theorem countSymbol_resAux (sym : Byte) (s : State) : (countSymbol sym s).resAux = s.resAux := rfl
@[simp] theorem countSymbol_origSize (sym : Byte) (s : State) : (countSymbol sym s).origSize = s.origSize := rfl
@[simp] theorem countSymbol_compSize (sym : Byte) (s : State) : (countSymbol sym s).compSize = s.compSize := rfl
@[simp] theorem countSymbol_srcAttached (sym : Byte) (s : State) : (countSymbol sym s).srcAttached =
    s.srcAttached := rfl
@[simp] theorem countSymbol_src (sym : Byte) (s : State) : (countSymbol sym s).src = s.src := rfl
@[simp] theorem countSymbol_srcPos (sym : Byte) (s : State) : (countSymbol sym s).srcPos = s.srcPos := rfl
@[simp] theorem countSymbol_snkAttached (sym : Byte) (s : State) : (countSymbol sym s).snkAttached =
    s.snkAttached := rfl
@[simp] theorem countSymbol_snk (sym : Byte) (s : State) : (countSymbol sym s).snk = s.snk := rfl
@[simp] theorem countSymbol_cmdOp (sym : Byte) (s : State) : (countSymbol sym s).cmdOp = s.cmdOp := rfl
@[simp] theorem countSymbol_parse (sym : Byte) (s : State) : (countSymbol sym s).parse = s.parse := rfl
@[simp] theorem countSymbol_regBase (sym : Byte) (s : State) : (countSymbol sym s).regBase = s.regBase := rfl
@[simp] theorem countSymbol_script (sym : Byte) (s : State) : (countSymbol sym s).script = s.script := rfl
@[simp] theorem countSymbol_draws (sym : Byte) (s : State) : (countSymbol sym s).draws = s.draws := rfl
@[simp] theorem countSymbol_obs (sym : Byte) (s : State) : (countSymbol sym s).obs = s.obs := rfl
@[simp] theorem countSymbol_freeCount (sym : Byte) (s : State) : (countSymbol sym s).freeCount = s.freeCount := rfl

/-! ### HIST_CLEAR (42_tree_builder.md R107) -/

@[simp] theorem histReset_hist (s : State) : (histReset s).hist = Vector.replicate 256 0 := rfl
@[simp] theorem histReset_total (s : State) : (histReset s).total = 0 := rfl
@[simp] theorem histReset_nodes (s : State) : (histReset s).nodes = s.nodes := rfl
@[simp] theorem histReset_root (s : State) : (histReset s).root = s.root := rfl
@[simp] theorem histReset_pq (s : State) : (histReset s).pq = s.pq := rfl
@[simp] theorem histReset_seq (s : State) : (histReset s).seq = s.seq := rfl
@[simp] theorem histReset_codes (s : State) : (histReset s).codes = s.codes := rfl
@[simp] theorem histReset_acc (s : State) : (histReset s).acc = s.acc := rfl
@[simp] theorem histReset_nacc (s : State) : (histReset s).nacc = s.nacc := rfl
@[simp] theorem histReset_cur (s : State) : (histReset s).cur = s.cur := rfl
@[simp] theorem histReset_nleft (s : State) : (histReset s).nleft = s.nleft := rfl
@[simp] theorem histReset_remain (s : State) : (histReset s).remain = s.remain := rfl
@[simp] theorem histReset_decl (s : State) : (histReset s).decl = s.decl := rfl
@[simp] theorem histReset_treeValid (s : State) : (histReset s).treeValid = s.treeValid := rfl
@[simp] theorem histReset_codesValid (s : State) : (histReset s).codesValid = s.codesValid := rfl
@[simp] theorem histReset_busy (s : State) : (histReset s).busy = s.busy := rfl
@[simp] theorem histReset_pqEmpty (s : State) : (histReset s).pqEmpty = s.pqEmpty := rfl
@[simp] theorem histReset_cmdDropped (s : State) : (histReset s).cmdDropped = s.cmdDropped := rfl
@[simp] theorem histReset_errCode (s : State) : (histReset s).errCode = s.errCode := rfl
@[simp] theorem histReset_errOp (s : State) : (histReset s).errOp = s.errOp := rfl
@[simp] theorem histReset_errPos (s : State) : (histReset s).errPos = s.errPos := rfl
@[simp] theorem histReset_arg (s : State) : (histReset s).arg = s.arg := rfl
@[simp] theorem histReset_res (s : State) : (histReset s).res = s.res := rfl
@[simp] theorem histReset_resAux (s : State) : (histReset s).resAux = s.resAux := rfl
@[simp] theorem histReset_origSize (s : State) : (histReset s).origSize = s.origSize := rfl
@[simp] theorem histReset_compSize (s : State) : (histReset s).compSize = s.compSize := rfl
@[simp] theorem histReset_srcAttached (s : State) : (histReset s).srcAttached = s.srcAttached := rfl
@[simp] theorem histReset_src (s : State) : (histReset s).src = s.src := rfl
@[simp] theorem histReset_srcPos (s : State) : (histReset s).srcPos = s.srcPos := rfl
@[simp] theorem histReset_snkAttached (s : State) : (histReset s).snkAttached = s.snkAttached := rfl
@[simp] theorem histReset_snk (s : State) : (histReset s).snk = s.snk := rfl
@[simp] theorem histReset_cmdOp (s : State) : (histReset s).cmdOp = s.cmdOp := rfl
@[simp] theorem histReset_parse (s : State) : (histReset s).parse = s.parse := rfl
@[simp] theorem histReset_regBase (s : State) : (histReset s).regBase = s.regBase := rfl
@[simp] theorem histReset_script (s : State) : (histReset s).script = s.script := rfl
@[simp] theorem histReset_draws (s : State) : (histReset s).draws = s.draws := rfl
@[simp] theorem histReset_obs (s : State) : (histReset s).obs = s.obs := rfl
@[simp] theorem histReset_freeCount (s : State) : (histReset s).freeCount = s.freeCount := rfl

/-! ### One code recorded (43_code_table.md R118) -/

@[simp] theorem setCode_hist (sym : Byte) (c : Code) (s : State) : (setCode sym c s).hist = s.hist := rfl
@[simp] theorem setCode_total (sym : Byte) (c : Code) (s : State) : (setCode sym c s).total = s.total := rfl
@[simp] theorem setCode_nodes (sym : Byte) (c : Code) (s : State) : (setCode sym c s).nodes = s.nodes := rfl
@[simp] theorem setCode_root (sym : Byte) (c : Code) (s : State) : (setCode sym c s).root = s.root := rfl
@[simp] theorem setCode_pq (sym : Byte) (c : Code) (s : State) : (setCode sym c s).pq = s.pq := rfl
@[simp] theorem setCode_seq (sym : Byte) (c : Code) (s : State) : (setCode sym c s).seq = s.seq := rfl
@[simp] theorem setCode_codes (sym : Byte) (c : Code) (s : State) : (setCode sym c s).codes =
    s.codes.set sym.toNat (some c) sym.isLt := rfl
@[simp] theorem setCode_acc (sym : Byte) (c : Code) (s : State) : (setCode sym c s).acc = s.acc := rfl
@[simp] theorem setCode_nacc (sym : Byte) (c : Code) (s : State) : (setCode sym c s).nacc = s.nacc := rfl
@[simp] theorem setCode_cur (sym : Byte) (c : Code) (s : State) : (setCode sym c s).cur = s.cur := rfl
@[simp] theorem setCode_nleft (sym : Byte) (c : Code) (s : State) : (setCode sym c s).nleft = s.nleft := rfl
@[simp] theorem setCode_remain (sym : Byte) (c : Code) (s : State) : (setCode sym c s).remain = s.remain := rfl
@[simp] theorem setCode_decl (sym : Byte) (c : Code) (s : State) : (setCode sym c s).decl = s.decl := rfl
@[simp] theorem setCode_treeValid (sym : Byte) (c : Code) (s : State) : (setCode sym c s).treeValid =
    s.treeValid := rfl
@[simp] theorem setCode_codesValid (sym : Byte) (c : Code) (s : State) : (setCode sym c s).codesValid =
    s.codesValid := rfl
@[simp] theorem setCode_busy (sym : Byte) (c : Code) (s : State) : (setCode sym c s).busy = s.busy := rfl
@[simp] theorem setCode_pqEmpty (sym : Byte) (c : Code) (s : State) : (setCode sym c s).pqEmpty = s.pqEmpty := rfl
@[simp] theorem setCode_cmdDropped (sym : Byte) (c : Code) (s : State) : (setCode sym c s).cmdDropped =
    s.cmdDropped := rfl
@[simp] theorem setCode_errCode (sym : Byte) (c : Code) (s : State) : (setCode sym c s).errCode = s.errCode := rfl
@[simp] theorem setCode_errOp (sym : Byte) (c : Code) (s : State) : (setCode sym c s).errOp = s.errOp := rfl
@[simp] theorem setCode_errPos (sym : Byte) (c : Code) (s : State) : (setCode sym c s).errPos = s.errPos := rfl
@[simp] theorem setCode_arg (sym : Byte) (c : Code) (s : State) : (setCode sym c s).arg = s.arg := rfl
@[simp] theorem setCode_res (sym : Byte) (c : Code) (s : State) : (setCode sym c s).res = s.res := rfl
@[simp] theorem setCode_resAux (sym : Byte) (c : Code) (s : State) : (setCode sym c s).resAux = s.resAux := rfl
@[simp] theorem setCode_origSize (sym : Byte) (c : Code) (s : State) : (setCode sym c s).origSize = s.origSize := rfl
@[simp] theorem setCode_compSize (sym : Byte) (c : Code) (s : State) : (setCode sym c s).compSize = s.compSize := rfl
@[simp] theorem setCode_srcAttached (sym : Byte) (c : Code) (s : State) : (setCode sym c s).srcAttached =
    s.srcAttached := rfl
@[simp] theorem setCode_src (sym : Byte) (c : Code) (s : State) : (setCode sym c s).src = s.src := rfl
@[simp] theorem setCode_srcPos (sym : Byte) (c : Code) (s : State) : (setCode sym c s).srcPos = s.srcPos := rfl
@[simp] theorem setCode_snkAttached (sym : Byte) (c : Code) (s : State) : (setCode sym c s).snkAttached =
    s.snkAttached := rfl
@[simp] theorem setCode_snk (sym : Byte) (c : Code) (s : State) : (setCode sym c s).snk = s.snk := rfl
@[simp] theorem setCode_cmdOp (sym : Byte) (c : Code) (s : State) : (setCode sym c s).cmdOp = s.cmdOp := rfl
@[simp] theorem setCode_parse (sym : Byte) (c : Code) (s : State) : (setCode sym c s).parse = s.parse := rfl
@[simp] theorem setCode_regBase (sym : Byte) (c : Code) (s : State) : (setCode sym c s).regBase = s.regBase := rfl
@[simp] theorem setCode_script (sym : Byte) (c : Code) (s : State) : (setCode sym c s).script = s.script := rfl
@[simp] theorem setCode_draws (sym : Byte) (c : Code) (s : State) : (setCode sym c s).draws = s.draws := rfl
@[simp] theorem setCode_obs (sym : Byte) (c : Code) (s : State) : (setCode sym c s).obs = s.obs := rfl
@[simp] theorem setCode_freeCount (sym : Byte) (c : Code) (s : State) : (setCode sym c s).freeCount =
    s.freeCount := rfl

/-! ### BW_RESET (45_bitstream.md R135) -/

@[simp] theorem bwReset_hist (s : State) : (bwReset s).hist = s.hist := rfl
@[simp] theorem bwReset_total (s : State) : (bwReset s).total = s.total := rfl
@[simp] theorem bwReset_nodes (s : State) : (bwReset s).nodes = s.nodes := rfl
@[simp] theorem bwReset_root (s : State) : (bwReset s).root = s.root := rfl
@[simp] theorem bwReset_pq (s : State) : (bwReset s).pq = s.pq := rfl
@[simp] theorem bwReset_seq (s : State) : (bwReset s).seq = s.seq := rfl
@[simp] theorem bwReset_codes (s : State) : (bwReset s).codes = s.codes := rfl
@[simp] theorem bwReset_acc (s : State) : (bwReset s).acc = 0 := rfl
@[simp] theorem bwReset_nacc (s : State) : (bwReset s).nacc = 0 := rfl
@[simp] theorem bwReset_cur (s : State) : (bwReset s).cur = s.cur := rfl
@[simp] theorem bwReset_nleft (s : State) : (bwReset s).nleft = s.nleft := rfl
@[simp] theorem bwReset_remain (s : State) : (bwReset s).remain = s.remain := rfl
@[simp] theorem bwReset_decl (s : State) : (bwReset s).decl = s.decl := rfl
@[simp] theorem bwReset_treeValid (s : State) : (bwReset s).treeValid = s.treeValid := rfl
@[simp] theorem bwReset_codesValid (s : State) : (bwReset s).codesValid = s.codesValid := rfl
@[simp] theorem bwReset_busy (s : State) : (bwReset s).busy = s.busy := rfl
@[simp] theorem bwReset_pqEmpty (s : State) : (bwReset s).pqEmpty = s.pqEmpty := rfl
@[simp] theorem bwReset_cmdDropped (s : State) : (bwReset s).cmdDropped = s.cmdDropped := rfl
@[simp] theorem bwReset_errCode (s : State) : (bwReset s).errCode = s.errCode := rfl
@[simp] theorem bwReset_errOp (s : State) : (bwReset s).errOp = s.errOp := rfl
@[simp] theorem bwReset_errPos (s : State) : (bwReset s).errPos = s.errPos := rfl
@[simp] theorem bwReset_arg (s : State) : (bwReset s).arg = s.arg := rfl
@[simp] theorem bwReset_res (s : State) : (bwReset s).res = s.res := rfl
@[simp] theorem bwReset_resAux (s : State) : (bwReset s).resAux = s.resAux := rfl
@[simp] theorem bwReset_origSize (s : State) : (bwReset s).origSize = s.origSize := rfl
@[simp] theorem bwReset_compSize (s : State) : (bwReset s).compSize = s.compSize := rfl
@[simp] theorem bwReset_srcAttached (s : State) : (bwReset s).srcAttached = s.srcAttached := rfl
@[simp] theorem bwReset_src (s : State) : (bwReset s).src = s.src := rfl
@[simp] theorem bwReset_srcPos (s : State) : (bwReset s).srcPos = s.srcPos := rfl
@[simp] theorem bwReset_snkAttached (s : State) : (bwReset s).snkAttached = s.snkAttached := rfl
@[simp] theorem bwReset_snk (s : State) : (bwReset s).snk = s.snk := rfl
@[simp] theorem bwReset_cmdOp (s : State) : (bwReset s).cmdOp = s.cmdOp := rfl
@[simp] theorem bwReset_parse (s : State) : (bwReset s).parse = s.parse := rfl
@[simp] theorem bwReset_regBase (s : State) : (bwReset s).regBase = s.regBase := rfl
@[simp] theorem bwReset_script (s : State) : (bwReset s).script = s.script := rfl
@[simp] theorem bwReset_draws (s : State) : (bwReset s).draws = s.draws := rfl
@[simp] theorem bwReset_obs (s : State) : (bwReset s).obs = s.obs := rfl
@[simp] theorem bwReset_freeCount (s : State) : (bwReset s).freeCount = s.freeCount := rfl

/-! ### BR_RESET (45_bitstream.md R142) -/

@[simp] theorem brReset_hist (s : State) : (brReset s).hist = s.hist := rfl
@[simp] theorem brReset_total (s : State) : (brReset s).total = s.total := rfl
@[simp] theorem brReset_nodes (s : State) : (brReset s).nodes = s.nodes := rfl
@[simp] theorem brReset_root (s : State) : (brReset s).root = s.root := rfl
@[simp] theorem brReset_pq (s : State) : (brReset s).pq = s.pq := rfl
@[simp] theorem brReset_seq (s : State) : (brReset s).seq = s.seq := rfl
@[simp] theorem brReset_codes (s : State) : (brReset s).codes = s.codes := rfl
@[simp] theorem brReset_acc (s : State) : (brReset s).acc = s.acc := rfl
@[simp] theorem brReset_nacc (s : State) : (brReset s).nacc = s.nacc := rfl
@[simp] theorem brReset_cur (s : State) : (brReset s).cur = 0 := rfl
@[simp] theorem brReset_nleft (s : State) : (brReset s).nleft = 0 := rfl
@[simp] theorem brReset_remain (s : State) : (brReset s).remain = s.remain := rfl
@[simp] theorem brReset_decl (s : State) : (brReset s).decl = s.decl := rfl
@[simp] theorem brReset_treeValid (s : State) : (brReset s).treeValid = s.treeValid := rfl
@[simp] theorem brReset_codesValid (s : State) : (brReset s).codesValid = s.codesValid := rfl
@[simp] theorem brReset_busy (s : State) : (brReset s).busy = s.busy := rfl
@[simp] theorem brReset_pqEmpty (s : State) : (brReset s).pqEmpty = s.pqEmpty := rfl
@[simp] theorem brReset_cmdDropped (s : State) : (brReset s).cmdDropped = s.cmdDropped := rfl
@[simp] theorem brReset_errCode (s : State) : (brReset s).errCode = s.errCode := rfl
@[simp] theorem brReset_errOp (s : State) : (brReset s).errOp = s.errOp := rfl
@[simp] theorem brReset_errPos (s : State) : (brReset s).errPos = s.errPos := rfl
@[simp] theorem brReset_arg (s : State) : (brReset s).arg = s.arg := rfl
@[simp] theorem brReset_res (s : State) : (brReset s).res = s.res := rfl
@[simp] theorem brReset_resAux (s : State) : (brReset s).resAux = s.resAux := rfl
@[simp] theorem brReset_origSize (s : State) : (brReset s).origSize = s.origSize := rfl
@[simp] theorem brReset_compSize (s : State) : (brReset s).compSize = s.compSize := rfl
@[simp] theorem brReset_srcAttached (s : State) : (brReset s).srcAttached = s.srcAttached := rfl
@[simp] theorem brReset_src (s : State) : (brReset s).src = s.src := rfl
@[simp] theorem brReset_srcPos (s : State) : (brReset s).srcPos = s.srcPos := rfl
@[simp] theorem brReset_snkAttached (s : State) : (brReset s).snkAttached = s.snkAttached := rfl
@[simp] theorem brReset_snk (s : State) : (brReset s).snk = s.snk := rfl
@[simp] theorem brReset_cmdOp (s : State) : (brReset s).cmdOp = s.cmdOp := rfl
@[simp] theorem brReset_parse (s : State) : (brReset s).parse = s.parse := rfl
@[simp] theorem brReset_regBase (s : State) : (brReset s).regBase = s.regBase := rfl
@[simp] theorem brReset_script (s : State) : (brReset s).script = s.script := rfl
@[simp] theorem brReset_draws (s : State) : (brReset s).draws = s.draws := rfl
@[simp] theorem brReset_obs (s : State) : (brReset s).obs = s.obs := rfl
@[simp] theorem brReset_freeCount (s : State) : (brReset s).freeCount = s.freeCount := rfl

/-! ### The buffered bits dropped (44_container.md R128) -/

@[simp] theorem dropBits_hist (s : State) : (dropBits s).hist = s.hist := rfl
@[simp] theorem dropBits_total (s : State) : (dropBits s).total = s.total := rfl
@[simp] theorem dropBits_nodes (s : State) : (dropBits s).nodes = s.nodes := rfl
@[simp] theorem dropBits_root (s : State) : (dropBits s).root = s.root := rfl
@[simp] theorem dropBits_pq (s : State) : (dropBits s).pq = s.pq := rfl
@[simp] theorem dropBits_seq (s : State) : (dropBits s).seq = s.seq := rfl
@[simp] theorem dropBits_codes (s : State) : (dropBits s).codes = s.codes := rfl
@[simp] theorem dropBits_acc (s : State) : (dropBits s).acc = s.acc := rfl
@[simp] theorem dropBits_nacc (s : State) : (dropBits s).nacc = s.nacc := rfl
@[simp] theorem dropBits_cur (s : State) : (dropBits s).cur = s.cur := rfl
@[simp] theorem dropBits_nleft (s : State) : (dropBits s).nleft = 0 := rfl
@[simp] theorem dropBits_remain (s : State) : (dropBits s).remain = s.remain := rfl
@[simp] theorem dropBits_decl (s : State) : (dropBits s).decl = s.decl := rfl
@[simp] theorem dropBits_treeValid (s : State) : (dropBits s).treeValid = s.treeValid := rfl
@[simp] theorem dropBits_codesValid (s : State) : (dropBits s).codesValid = s.codesValid := rfl
@[simp] theorem dropBits_busy (s : State) : (dropBits s).busy = s.busy := rfl
@[simp] theorem dropBits_pqEmpty (s : State) : (dropBits s).pqEmpty = s.pqEmpty := rfl
@[simp] theorem dropBits_cmdDropped (s : State) : (dropBits s).cmdDropped = s.cmdDropped := rfl
@[simp] theorem dropBits_errCode (s : State) : (dropBits s).errCode = s.errCode := rfl
@[simp] theorem dropBits_errOp (s : State) : (dropBits s).errOp = s.errOp := rfl
@[simp] theorem dropBits_errPos (s : State) : (dropBits s).errPos = s.errPos := rfl
@[simp] theorem dropBits_arg (s : State) : (dropBits s).arg = s.arg := rfl
@[simp] theorem dropBits_res (s : State) : (dropBits s).res = s.res := rfl
@[simp] theorem dropBits_resAux (s : State) : (dropBits s).resAux = s.resAux := rfl
@[simp] theorem dropBits_origSize (s : State) : (dropBits s).origSize = s.origSize := rfl
@[simp] theorem dropBits_compSize (s : State) : (dropBits s).compSize = s.compSize := rfl
@[simp] theorem dropBits_srcAttached (s : State) : (dropBits s).srcAttached = s.srcAttached := rfl
@[simp] theorem dropBits_src (s : State) : (dropBits s).src = s.src := rfl
@[simp] theorem dropBits_srcPos (s : State) : (dropBits s).srcPos = s.srcPos := rfl
@[simp] theorem dropBits_snkAttached (s : State) : (dropBits s).snkAttached = s.snkAttached := rfl
@[simp] theorem dropBits_snk (s : State) : (dropBits s).snk = s.snk := rfl
@[simp] theorem dropBits_cmdOp (s : State) : (dropBits s).cmdOp = s.cmdOp := rfl
@[simp] theorem dropBits_parse (s : State) : (dropBits s).parse = s.parse := rfl
@[simp] theorem dropBits_regBase (s : State) : (dropBits s).regBase = s.regBase := rfl
@[simp] theorem dropBits_script (s : State) : (dropBits s).script = s.script := rfl
@[simp] theorem dropBits_draws (s : State) : (dropBits s).draws = s.draws := rfl
@[simp] theorem dropBits_obs (s : State) : (dropBits s).obs = s.obs := rfl
@[simp] theorem dropBits_freeCount (s : State) : (dropBits s).freeCount = s.freeCount := rfl

/-! ### A word dropped (40_control.md R89) -/

@[simp] theorem dropWord_hist (s : State) : (dropWord s).hist = s.hist := rfl
@[simp] theorem dropWord_total (s : State) : (dropWord s).total = s.total := rfl
@[simp] theorem dropWord_nodes (s : State) : (dropWord s).nodes = s.nodes := rfl
@[simp] theorem dropWord_root (s : State) : (dropWord s).root = s.root := rfl
@[simp] theorem dropWord_pq (s : State) : (dropWord s).pq = s.pq := rfl
@[simp] theorem dropWord_seq (s : State) : (dropWord s).seq = s.seq := rfl
@[simp] theorem dropWord_codes (s : State) : (dropWord s).codes = s.codes := rfl
@[simp] theorem dropWord_acc (s : State) : (dropWord s).acc = s.acc := rfl
@[simp] theorem dropWord_nacc (s : State) : (dropWord s).nacc = s.nacc := rfl
@[simp] theorem dropWord_cur (s : State) : (dropWord s).cur = s.cur := rfl
@[simp] theorem dropWord_nleft (s : State) : (dropWord s).nleft = s.nleft := rfl
@[simp] theorem dropWord_remain (s : State) : (dropWord s).remain = s.remain := rfl
@[simp] theorem dropWord_decl (s : State) : (dropWord s).decl = s.decl := rfl
@[simp] theorem dropWord_treeValid (s : State) : (dropWord s).treeValid = s.treeValid := rfl
@[simp] theorem dropWord_codesValid (s : State) : (dropWord s).codesValid = s.codesValid := rfl
@[simp] theorem dropWord_busy (s : State) : (dropWord s).busy = s.busy := rfl
@[simp] theorem dropWord_pqEmpty (s : State) : (dropWord s).pqEmpty = s.pqEmpty := rfl
@[simp] theorem dropWord_cmdDropped (s : State) : (dropWord s).cmdDropped = true := rfl
@[simp] theorem dropWord_errCode (s : State) : (dropWord s).errCode = s.errCode := rfl
@[simp] theorem dropWord_errOp (s : State) : (dropWord s).errOp = s.errOp := rfl
@[simp] theorem dropWord_errPos (s : State) : (dropWord s).errPos = s.errPos := rfl
@[simp] theorem dropWord_arg (s : State) : (dropWord s).arg = s.arg := rfl
@[simp] theorem dropWord_res (s : State) : (dropWord s).res = s.res := rfl
@[simp] theorem dropWord_resAux (s : State) : (dropWord s).resAux = s.resAux := rfl
@[simp] theorem dropWord_origSize (s : State) : (dropWord s).origSize = s.origSize := rfl
@[simp] theorem dropWord_compSize (s : State) : (dropWord s).compSize = s.compSize := rfl
@[simp] theorem dropWord_srcAttached (s : State) : (dropWord s).srcAttached = s.srcAttached := rfl
@[simp] theorem dropWord_src (s : State) : (dropWord s).src = s.src := rfl
@[simp] theorem dropWord_srcPos (s : State) : (dropWord s).srcPos = s.srcPos := rfl
@[simp] theorem dropWord_snkAttached (s : State) : (dropWord s).snkAttached = s.snkAttached := rfl
@[simp] theorem dropWord_snk (s : State) : (dropWord s).snk = s.snk := rfl
@[simp] theorem dropWord_cmdOp (s : State) : (dropWord s).cmdOp = s.cmdOp := rfl
@[simp] theorem dropWord_parse (s : State) : (dropWord s).parse = s.parse := rfl
@[simp] theorem dropWord_regBase (s : State) : (dropWord s).regBase = s.regBase := rfl
@[simp] theorem dropWord_script (s : State) : (dropWord s).script = s.script := rfl
@[simp] theorem dropWord_draws (s : State) : (dropWord s).draws = s.draws := rfl
@[simp] theorem dropWord_obs (s : State) : (dropWord s).obs = s.obs := rfl
@[simp] theorem dropWord_freeCount (s : State) : (dropWord s).freeCount = s.freeCount := rfl

end Sys2Proof.Machine
end

