-- ==== Sys2Proof/Laws/Ops.lean ====
section
/-! SUPPORT. For each shared operation, once, what it can do: outcomes, commands, ports, the bit buffers, the priority
structure and the arena. -/

namespace Sys2Proof.Machine

/-! ### Outcomes -/

@[simp] theorem andThen_done {α β : Type} (a : α) (s : State) (k : α → State → Ran β) :
    (Ran.done a s).andThen k = k a s := rfl

@[simp] theorem andThen_raised {α β : Type} (e : Err) (s : State) (k : α → State → Ran β) :
    (Ran.raised e s : Ran α).andThen k = .raised e s := rfl

@[simp] theorem andThen_fault {α β : Type} (f : Fault) (k : α → State → Ran β) :
    (Ran.fault f : Ran α).andThen k = .fault f := rfl

/-- A sequence is done exactly when both parts are. -/
theorem andThen_eq_done {α β : Type} {r : Ran α} {k : α → State → Ran β} {b : β} {t : State} :
    r.andThen k = .done b t ↔ ∃ a u, r = .done a u ∧ k a u = .done b t := by
  cases r <;> simp [Ran.andThen]

/-- A sequence raises when its first part does, or when its second does after the first is done. -/
theorem andThen_eq_raised {α β : Type} {r : Ran α} {k : α → State → Ran β} {e : Err} {t : State} :
    r.andThen k = .raised e t ↔ r = .raised e t ∨ ∃ a u, r = .done a u ∧ k a u = .raised e t := by
  cases r <;> simp [Ran.andThen]

/-! ### Commands -/

/-- Everything a command that answers a next state did: its body was done and the command completed, or its body raised. -/
theorem runCommand_eq_next {op : Byte} {body : State → Ran Unit} {s t : State} :
    runCommand op body s = .next t ↔
      (∃ u, body (accept op s) = .done () u ∧ t = complete u) ∨
      (∃ e u, body (accept op s) = .raised e u ∧ t = raise e u) := by
  unfold runCommand finish
  cases h : body (accept op s) <;> simp [eq_comm]

/-- A command whose body is done. -/
theorem runCommand_done {op : Byte} {body : State → Ran Unit} {s u : State} (h : body (accept op s) = .done () u) :
    runCommand op body s = .next (complete u) := by
  simp [runCommand, finish, h]

/-- A command whose body raises. -/
theorem runCommand_raised {op : Byte} {body : State → Ran Unit} {s u : State} {e : Err}
    (h : body (accept op s) = .raised e u) : runCommand op body s = .next (raise e u) := by
  simp [runCommand, finish, h]

@[simp] theorem complete_accept (op : Byte) (s : State) : complete (accept op s) = s.fresh := rfl

@[simp] theorem raise_accept (op : Byte) (e : Err) (s : State) : raise e (accept op s) = s.failed op e := rfl

/-- A command whose check raises before its body changed anything. -/
theorem runCommand_check {op : Byte} {body : State → Ran Unit} {s : State} {e : Err}
    (h : body (accept op s) = .raised e (accept op s)) : runCommand op body s = .next (s.failed op e) :=
  runCommand_raised h

/-! ### RES_AUX -/

/-- A field at bit 0 of a cleared word is the value. -/
theorem putField_zero (width v : Nat) : putField 0 0 width v = BitVec.ofNat 32 (v % 2 ^ width) := by
  simp [putField]

/-! ### Ports -/

/-- Everything SrcRead can do to the state: nothing but moving SRC_POS by at most one byte of the source and using up at
most one draw. -/
theorem srcRead_state (s : State) : ∃ k, k ≤ 1 ∧ ∃ d, (srcRead s).2 = { s with srcPos := s.srcPos + k, draws := d } ∧
    (k = 1 → s.srcPos < s.src.length) ∧ d <:+ s.draws := by
  unfold srcRead
  split
  · split
    · exact ⟨0, by omega, s.draws, rfl, by omega, List.suffix_refl _⟩
    · rename_i b hb
      split
      · exact ⟨1, le_refl _, _, rfl, fun _ => (List.getElem?_eq_some_iff.mp hb).1, List.tail_suffix _⟩
      · exact ⟨0, by omega, _, rfl, by omega, List.tail_suffix _⟩
  · exact ⟨0, by omega, s.draws, rfl, by omega, List.suffix_refl _⟩

/-- Everything SnkWrite can do to the state: append the byte or not, and use up at most one draw. -/
theorem snkWrite_state (b : Byte) (s : State) : ∃ bs d, (snkWrite b s).2 = { s with snk := s.snk ++ bs, draws := d } ∧
    (bs = [] ∨ bs = [b]) ∧ d <:+ s.draws ∧ ((snkWrite b s).1 = true ↔ bs = [b]) := by
  unfold snkWrite
  split
  · split
    · exact ⟨[b], _, rfl, .inr rfl, List.tail_suffix _, by simp⟩
    · exact ⟨[], s.draws.tail, by simp, .inl rfl, List.tail_suffix _, by simp⟩
  · exact ⟨[], s.draws, by simp, .inl rfl, List.suffix_refl _, by simp⟩

theorem Willing.nextDraw {s : State} (h : Willing s) : s.nextDraw = true := by
  unfold State.nextDraw
  cases hd : s.draws with
  | nil => rfl
  | cons d ds => exact h d (by simp [hd])

theorem Willing.tail {s t : State} (h : Willing s) (ht : t.draws = s.draws.tail) : Willing t :=
  fun d hd => h d (List.mem_of_mem_tail (ht ▸ hd))

/-- A byte read from a willing source. -/
theorem getByte_done {s : State} {b : Byte} (ha : s.srcAttached = true) (hw : Willing s)
    (hb : s.src[s.srcPos]? = some b) :
    getByte s = .done b { s with srcPos := s.srcPos + 1, draws := s.draws.tail } := by
  simp [getByte, srcRead, ha, hb, hw.nextDraw]

/-- The end of an attached source. -/
theorem getByte_eof {s : State} (ha : s.srcAttached = true) (hb : s.src[s.srcPos]? = none) :
    getByte s = .raised .formatError s := by
  simp [getByte, srcRead, ha, hb]

/-- A detached source. -/
theorem getByte_detached {s : State} (ha : s.srcAttached = false) : getByte s = .raised .ioError s := by
  simp [getByte, srcRead, ha]

/-- A byte taken by a willing sink with room. -/
theorem putByte_done {b : Byte} {s : State} (ha : s.snkAttached = true) (hw : Willing s) (hr : Room 1 s) :
    putByte b s = .done () { s with snk := s.snk ++ [b], draws := s.draws.tail } := by
  have hlt : s.snk.length < Config.maxCount := by have := hr; unfold Room at this; omega
  simp [putByte, snkWrite, ha, hw.nextDraw, hlt]

/-- A detached sink. -/
theorem putByte_detached {b : Byte} {s : State} (ha : s.snkAttached = false) : putByte b s = .raised .ioError s := by
  simp [putByte, snkWrite, ha]

/-- Bytes taken by a willing sink with room for them. -/
theorem putBytes_done {bs : List Byte} {s : State} (ha : s.snkAttached = true) (hw : Willing s) (hr : Room bs.length s) :
    putBytes bs s = .done () { s with snk := s.snk ++ bs, draws := s.draws.drop bs.length } := by
  induction bs generalizing s with
  | nil => simp [putBytes]
  | cons b bs ih =>
    have hr' : s.snk.length + (bs.length + 1) ≤ Config.maxCount := hr
    have h1 : Room 1 s := by unfold Room; omega
    have h2 := ih (s := { s with snk := s.snk ++ [b], draws := s.draws.tail }) ha (hw.tail rfl)
      (by simp only [Room, List.length_append, List.length_singleton]; omega)
    simp only [putBytes, putByte_done ha hw h1, andThen_done, h2]
    simp [List.drop_tail]

/-! ### Bit buffers -/

/-- A bit that does not fill the buffer. -/
theorem putBit_kept {x : Bool} {s : State} (h : s.nacc.val + 1 < 8) :
    putBit x s = .done () { s with acc := accWith s.acc s.nacc.val x, nacc := ⟨s.nacc.val + 1, h⟩ } := by
  simp [putBit, h]

/-- A bit that fills the buffer: the byte is written and the buffer is empty, also when the write fails. -/
theorem putBit_full {x : Bool} {s : State} (h : s.nacc.val = 7) :
    putBit x s = putByte (accWith s.acc 7 x) { s with acc := 0, nacc := 0 } := by
  simp [putBit, h]

/-- The bits of the accumulator after one more. -/
theorem accWith_getLsbD (acc : Byte) (nacc : Nat) (x : Bool) (h : nacc < 8) (k : Nat) :
    (accWith acc nacc x).getLsbD k = if k = 7 - nacc then x else acc.getLsbD k := by
  by_cases hk : k < 8
  · have hn : nacc = 0 ∨ nacc = 1 ∨ nacc = 2 ∨ nacc = 3 ∨ nacc = 4 ∨ nacc = 5 ∨ nacc = 6 ∨ nacc = 7 := by omega
    have hks : k = 0 ∨ k = 1 ∨ k = 2 ∨ k = 3 ∨ k = 4 ∨ k = 5 ∨ k = 6 ∨ k = 7 := by omega
    rcases hn with rfl | rfl | rfl | rfl | rfl | rfl | rfl | rfl <;>
      rcases hks with rfl | rfl | rfl | rfl | rfl | rfl | rfl | rfl <;> cases x <;> simp [accWith]
  · rw [BitVec.getLsbD_of_ge _ _ (by omega), BitVec.getLsbD_of_ge _ _ (by omega), if_neg (by omega)]

/-- A bit that is buffered. -/
theorem getBit_buffered {s : State} {k : Fin 9} (h : s.nleft.val = k.val + 1) :
    getBit s = .done (s.cur.getLsbD k.val) { s with nleft := k } := by
  have h0 : s.nleft.val ≠ 0 := by omega
  have hk : s.nleft.val - 1 = k.val := by omega
  simp [getBit, h0, hk]

/-- A bit for which a byte is fetched. -/
theorem getBit_fetched {s : State} (h : s.nleft.val = 0) :
    getBit s = (getByte s).andThen fun b t => .done (b.getLsbD 7) { t with cur := b, nleft := 7 } := by
  simp [getBit, h]

/-! ### Priority structure -/

theorem leastOf_eq_none {s : State} {xs : List PqEntry} : s.leastOf xs = none ↔ xs = [] := by
  cases xs with
  | nil => simp [State.leastOf]
  | cons x xs =>
    simp only [State.leastOf, reduceCtorEq, iff_false]
    cases s.leastOf xs with
    | none => simp
    | some y => dsimp only; split <;> simp

/-- The least entry is one of the list. -/
theorem leastOf_mem {s : State} {xs : List PqEntry} {e : PqEntry} (h : s.leastOf xs = some e) : e ∈ xs := by
  induction xs generalizing e with
  | nil => simp [State.leastOf] at h
  | cons x xs ih =>
    simp only [State.leastOf] at h
    cases hl : s.leastOf xs with
    | none => simp [hl] at h; simp [h]
    | some y =>
      simp only [hl] at h
      split at h <;> simp only [Option.some.injEq] at h <;> subst h
      · exact List.mem_cons_of_mem _ (ih hl)
      · exact List.mem_cons_self

/-- PqExtractMin finds an entry exactly when there is one, and takes that entry out. -/
theorem pqExtractMin_eq_some {s t : State} {e : PqEntry} :
    pqExtractMin s = some (e, t) ↔ s.leastOf s.pq = some e ∧
      t = setNode e.node (fun x => { x with inPq := false }) { s with pq := s.pq.filter fun x => decide (x ≠ e) } := by
  unfold pqExtractMin
  cases h : s.leastOf s.pq with
  | none => simp
  | some x =>
    simp only [Option.some.injEq, Prod.mk.injEq]
    constructor
    · rintro ⟨rfl, rfl⟩; exact ⟨rfl, rfl⟩
    · rintro ⟨rfl, rfl⟩; exact ⟨rfl, rfl⟩

/-! ### Trees in the arena -/

/-- A tree that is read is read at any larger fuel. -/
theorem readTree_mono {nodes : List Node} {f g : Nat} {i : NodeIdx} {tree : CodeTree} (h : readTree nodes f i = some tree)
    (hfg : f ≤ g) : readTree nodes g i = some tree := by
  induction f generalizing g i tree with
  | zero => simp [readTree] at h
  | succ f ih =>
    obtain ⟨g, rfl⟩ : ∃ k, g = k + 1 := ⟨g - 1, by omega⟩
    simp only [readTree] at h ⊢
    cases hn : nodes[i.toNat]? with
    | none => simp [hn] at h
    | some n =>
      simp only [hn] at h ⊢
      cases hk : n.kind with
      | leaf => simpa [hk] using h
      | internal =>
        simp only [hk] at h ⊢
        cases hl : readTree nodes f n.left with
        | none => simp [hl] at h
        | some l =>
          cases hr : readTree nodes f n.right with
          | none => simp [hl, hr] at h
          | some r =>
            simp only [hl, hr, Option.some.injEq] at h
            simp [ih hl (by omega : f ≤ g), ih hr (by omega : f ≤ g), h]

end Sys2Proof.Machine
end

