-- ==== Sys2Proof/Laws/Frames.lean ====
section
/-! SUPPORT. Frames of the shared loops: every state such a loop can end in, done or raised, is its start with only the named
fields changed. -/

namespace Sys2Proof.Machine

/-- A sequence ends where its parts end. -/
theorem ends_andThen {α β : Type} {P Q : State → Prop} {r : Ran α} {k : α → State → Ran β} (hr : r.Ends P)
    (hPQ : ∀ t, P t → Q t) (hk : ∀ a t, P t → (k a t).Ends Q) : (r.andThen k).Ends Q := by
  cases r with
  | done a t => exact hk a t hr
  | raised e t => exact hPQ t hr
  | fault f => trivial

theorem Ran.Ends.imp {α : Type} {P Q : State → Prop} {r : Ran α} (h : r.Ends P) (hPQ : ∀ t, P t → Q t) : r.Ends Q := by
  cases r with
  | done a t => exact hPQ t h
  | raised e t => exact hPQ t h
  | fault f => trivial

/-- Only SRC_POS and the draws differ. -/
def OnlySource (s t : State) : Prop := ∃ p d, t = { s with srcPos := p, draws := d }

/-- Only SNK and the draws differ, and SNK has grown at its end. -/
def OnlySink (s t : State) : Prop := ∃ bs d, t = { s with snk := s.snk ++ bs, draws := d }

/-- Only the BitWriter, SNK and the draws differ, and SNK has grown at its end. -/
def OnlyWriter (s t : State) : Prop := ∃ a n bs d, t = { s with acc := a, nacc := n, snk := s.snk ++ bs, draws := d }

/-- Only the BitReader, SRC_POS and the draws differ. -/
def OnlyReader (s t : State) : Prop := ∃ c n p d, t = { s with cur := c, nleft := n, srcPos := p, draws := d }

/-- Only the histogram, SRC_POS and the draws differ. -/
def OnlyCount (s t : State) : Prop := ∃ h n p d, t = { s with hist := h, total := n, srcPos := p, draws := d }

theorem OnlySink.trans {s t u : State} (h : OnlySink s t) (h' : OnlySink t u) : OnlySink s u := by
  obtain ⟨a, d, rfl⟩ := h; obtain ⟨b, e, rfl⟩ := h'; exact ⟨a ++ b, e, by simp⟩

theorem OnlyWriter.trans {s t u : State} (h : OnlyWriter s t) (h' : OnlyWriter t u) : OnlyWriter s u := by
  obtain ⟨a, n, x, d, rfl⟩ := h; obtain ⟨b, m, y, e, rfl⟩ := h'; exact ⟨b, m, x ++ y, e, by simp⟩

theorem OnlyReader.trans {s t u : State} (h : OnlyReader s t) (h' : OnlyReader t u) : OnlyReader s u := by
  obtain ⟨a, n, x, d, rfl⟩ := h; obtain ⟨b, m, y, e, rfl⟩ := h'; exact ⟨b, m, y, e, rfl⟩

theorem OnlyCount.trans {s t u : State} (h : OnlyCount s t) (h' : OnlyCount t u) : OnlyCount s u := by
  obtain ⟨a, n, x, d, rfl⟩ := h; obtain ⟨b, m, y, e, rfl⟩ := h'; exact ⟨b, m, y, e, rfl⟩

theorem OnlyWriter.refl (s : State) : OnlyWriter s s := ⟨s.acc, s.nacc, [], s.draws, by simp⟩

theorem OnlySource.reader {s t : State} (h : OnlySource s t) : OnlyReader s t := by
  obtain ⟨p, d, rfl⟩ := h; exact ⟨s.cur, s.nleft, p, d, rfl⟩

theorem OnlySource.count {s t : State} (h : OnlySource s t) : OnlyCount s t := by
  obtain ⟨p, d, rfl⟩ := h; exact ⟨s.hist, s.total, p, d, rfl⟩

/-- SrcRead. -/
theorem srcRead_only (s : State) : OnlySource s (srcRead s).2 := by
  obtain ⟨k, _, d, h, _⟩ := srcRead_state s
  exact ⟨_, d, h⟩

/-- GetByte. -/
theorem getByte_ends (s : State) : (getByte s).Ends (OnlySource s) := by
  have h := srcRead_only s
  unfold getByte
  split <;> (rename_i heq; rw [heq] at h; exact h)

/-- PutByte. -/
theorem putByte_ends (b : Byte) (s : State) : (putByte b s).Ends (OnlySink s) := by
  obtain ⟨bs, d, h, _⟩ := snkWrite_state b s
  unfold putByte
  split <;> (rename_i heq; rw [heq] at h; exact ⟨bs, d, h⟩)

/-- PutByte of several bytes. -/
theorem putBytes_ends (bs : List Byte) (s : State) : (putBytes bs s).Ends (OnlySink s) := by
  induction bs generalizing s with
  | nil => exact ⟨[], s.draws, by simp⟩
  | cons b bs ih =>
    exact ends_andThen (putByte_ends b s) (fun _ h => h) fun _ t h => (ih t).imp fun _ h' => h.trans h'

/-- PutBit. -/
theorem putBit_ends (x : Bool) (s : State) : (putBit x s).Ends (OnlyWriter s) := by
  unfold putBit
  split
  · rename_i h
    exact ⟨accWith s.acc s.nacc.val x, ⟨s.nacc.val + 1, h⟩, [], s.draws, by simp⟩
  · refine (putByte_ends _ _).imp fun t h => ?_
    obtain ⟨bs, d, rfl⟩ := h
    exact ⟨0, 0, bs, d, rfl⟩

/-- PutBit of several bits. -/
theorem putBits_ends (xs : List Bool) (s : State) : (putBits xs s).Ends (OnlyWriter s) := by
  induction xs generalizing s with
  | nil => exact OnlyWriter.refl s
  | cons x xs ih =>
    exact ends_andThen (putBit_ends x s) (fun _ h => h) fun _ t h => (ih t).imp fun _ h' => h.trans h'

/-- GetBit. -/
theorem getBit_ends (s : State) : (getBit s).Ends (OnlyReader s) := by
  unfold getBit
  split
  · refine ends_andThen (getByte_ends s) (fun _ h => h.reader) fun b t h => ?_
    obtain ⟨p, d, rfl⟩ := h
    exact ⟨b, 7, p, d, rfl⟩
  · exact ⟨s.cur, _, s.srcPos, s.draws, rfl⟩

/-- BR_GET's loop. -/
theorem getBits_ends (n v : Nat) (s : State) : (getBits n v s).Ends (OnlyReader s) := by
  induction n generalizing v s with
  | zero => exact ⟨s.cur, s.nleft, s.srcPos, s.draws, rfl⟩
  | succ n ih =>
    exact ends_andThen (getBit_ends s) (fun _ h => h) fun x t h => (ih _ t).imp fun _ h' => h.trans h'

/-- The decode cursor's walk. -/
theorem decWalk_ends (fuel : Nat) (c : NodeIdx) (s : State) : (decWalk fuel c s).Ends (OnlyReader s) := by
  induction fuel generalizing c s with
  | zero => trivial
  | succ fuel ih =>
    unfold decWalk
    split
    · trivial
    · split
      · exact ⟨s.cur, s.nleft, s.srcPos, s.draws, rfl⟩
      · exact ends_andThen (getBit_ends s) (fun _ h => h) fun x t h => (ih _ t).imp fun _ h' => h.trans h'

/-- HIST_SCAN's loop. -/
theorem histScanLoop_ends (fuel k : Nat) (s : State) : (histScanLoop fuel k s).Ends (OnlyCount s) := by
  induction fuel generalizing k s with
  | zero => trivial
  | succ fuel ih =>
    have h := (srcRead_only s).count
    unfold histScanLoop
    split <;> rename_i heq <;> rw [heq] at h
    · exact h
    · exact h
    · split
      · exact h
      · refine (ih _ _).imp fun u h' => h.trans (.trans ?_ h')
        exact ⟨_, _, _, _, rfl⟩

/-- SHAPE_WRITE's walk. -/
theorem emitShape_ends (tree : CodeTree) (k : Nat) (s : State) : (emitShape tree k s).Ends (OnlySink s) := by
  induction tree generalizing k s with
  | leaf sym =>
    exact ends_andThen (putByte_ends _ s) (fun _ h => h) fun _ t h =>
      ends_andThen (putByte_ends sym t) (fun _ h' => h.trans h') fun _ u h' => h.trans h'
  | node l r ihl ihr =>
    exact ends_andThen (putByte_ends _ s) (fun _ h => h) fun _ t h =>
      ends_andThen (ihl _ t) (fun _ h' => h.trans h') fun _ u h' => (ihr _ u).imp fun _ h'' => (h.trans h').trans h''

end Sys2Proof.Machine
end

