-- ==== Sys2Proof/Laws/PerInstr.lean ====
section
/-! SUPPORT. Per instruction: the word of a command carries the command's opcode in bits 7..0 (30_encoding.md R76, R79). A
token has no word, so it meets the statement at once. -/

namespace Sys2Proof.Laws.OpcodeByte

/-- Where the instruction has a command word, `w[7:0]` is its opcode. -/
def Statement (i : Instr) : Prop := ∀ w : Word, encode i = .cmd w → opOf w = opcode i

theorem opOf_encN (op : Byte) : opOf (encN op) = op := by
  apply BitVec.eq_of_getLsbD_eq
  intro k hk
  simp [opOf, encN, BitVec.getLsbD_setWidth, hk]
  omega

theorem opOf_encS (op imm8 : Byte) : opOf (encS op imm8) = op := by
  apply BitVec.eq_of_getLsbD_eq
  intro k hk
  simp [opOf, encS, BitVec.getLsbD_setWidth, hk]
  omega

theorem opOf_encA (op : Byte) (a : NodeIdx) : opOf (encA op a) = op := by
  apply BitVec.eq_of_getLsbD_eq
  intro k hk
  simp [opOf, encA, BitVec.getLsbD_setWidth, hk]
  omega

theorem opOf_encAB (op : Byte) (a b : NodeIdx) : opOf (encAB op a b) = op := by
  apply BitVec.eq_of_getLsbD_eq
  intro k hk
  have h : k < 17 := by omega
  simp [opOf, encAB, BitVec.getLsbD_setWidth, hk, h]
  omega

theorem nop : Statement .nop := by
  rintro w ⟨⟩
  exact opOf_encN _

theorem softReset : Statement .softReset := by
  rintro w ⟨⟩
  exact opOf_encN _

theorem clearErr : Statement .clearErr := by
  rintro w ⟨⟩
  exact opOf_encN _

theorem srcRewind : Statement .srcRewind := by
  rintro w ⟨⟩
  exact opOf_encN _

theorem pqClear : Statement .pqClear := by
  rintro w ⟨⟩
  exact opOf_encN _

theorem pqInsert (a : NodeIdx) : Statement (.pqInsert a) := by
  rintro w ⟨⟩
  exact opOf_encA _ _

theorem pqExtractMin : Statement .pqExtractMin := by
  rintro w ⟨⟩
  exact opOf_encN _

theorem arenaClear : Statement .arenaClear := by
  rintro w ⟨⟩
  exact opOf_encN _

theorem nodeLeaf (sym : Byte) : Statement (.nodeLeaf sym) := by
  rintro w ⟨⟩
  exact opOf_encS _ _

theorem nodeJoin (a b : NodeIdx) : Statement (.nodeJoin a b) := by
  rintro w ⟨⟩
  exact opOf_encAB _ _ _

theorem nodeRead (a : NodeIdx) : Statement (.nodeRead a) := by
  rintro w ⟨⟩
  exact opOf_encA _ _

theorem histClear : Statement .histClear := by
  rintro w ⟨⟩
  exact opOf_encN _

theorem histAdd (sym : Byte) : Statement (.histAdd sym) := by
  rintro w ⟨⟩
  exact opOf_encS _ _

theorem histScan : Statement .histScan := by
  rintro w ⟨⟩
  exact opOf_encN _

theorem histRead (sym : Byte) : Statement (.histRead sym) := by
  rintro w ⟨⟩
  exact opOf_encS _ _

theorem treeBuild : Statement .treeBuild := by
  rintro w ⟨⟩
  exact opOf_encN _

theorem codeGen : Statement .codeGen := by
  rintro w ⟨⟩
  exact opOf_encN _

theorem codeLookup (sym : Byte) : Statement (.codeLookup sym) := by
  rintro w ⟨⟩
  exact opOf_encS _ _

theorem hdrWrite : Statement .hdrWrite := by
  rintro w ⟨⟩
  exact opOf_encN _

theorem shapeWrite : Statement .shapeWrite := by
  rintro w ⟨⟩
  exact opOf_encN _

theorem sepWrite : Statement .sepWrite := by
  rintro w ⟨⟩
  exact opOf_encN _

theorem hdrRead : Statement .hdrRead := by
  rintro w ⟨⟩
  exact opOf_encN _

theorem shapeRead : Statement .shapeRead := by
  rintro w ⟨⟩
  exact opOf_encN _

theorem sepRead : Statement .sepRead := by
  rintro w ⟨⟩
  exact opOf_encN _

theorem bwReset : Statement .bwReset := by
  rintro w ⟨⟩
  exact opOf_encN _

theorem bwPut (n : Byte) : Statement (.bwPut n) := by
  rintro w ⟨⟩
  exact opOf_encS _ _

theorem encSymbol (sym : Byte) : Statement (.encSymbol sym) := by
  rintro w ⟨⟩
  exact opOf_encS _ _

theorem encScan : Statement .encScan := by
  rintro w ⟨⟩
  exact opOf_encN _

theorem bwFlush : Statement .bwFlush := by
  rintro w ⟨⟩
  exact opOf_encN _

theorem brReset : Statement .brReset := by
  rintro w ⟨⟩
  exact opOf_encN _

theorem brGet (n : Byte) : Statement (.brGet n) := by
  rintro w ⟨⟩
  exact opOf_encS _ _

theorem decSymbol : Statement .decSymbol := by
  rintro w ⟨⟩
  exact opOf_encN _

theorem decRun : Statement .decRun := by
  rintro w ⟨⟩
  exact opOf_encN _

theorem compress : Statement .compress := by
  rintro w ⟨⟩
  exact opOf_encN _

theorem decompress : Statement .decompress := by
  rintro w ⟨⟩
  exact opOf_encN _

theorem tokDigit (d : BitVec 4) : Statement (.tokDigit d) := fun _ h => nomatch h

theorem tokHdrEnd : Statement .tokHdrEnd := fun _ h => nomatch h

theorem tokInternal : Statement .tokInternal := fun _ h => nomatch h

theorem tokLeaf (sym : Byte) : Statement (.tokLeaf sym) := fun _ h => nomatch h

theorem tokSep (b : Byte) : Statement (.tokSep b) := fun _ h => nomatch h

theorem tokBit0 : Statement .tokBit0 := fun _ h => nomatch h

theorem tokBit1 : Statement .tokBit1 := fun _ h => nomatch h

end Sys2Proof.Laws.OpcodeByte
end

