-- ==== Sys2Proof/Laws/Step.lean ====
section
/-! SUPPORT. A step is the schedule's next move; a command is acceptance, a body and completion. -/

namespace Sys2Proof.Machine

/-- The step at a schedule with a move left. -/
theorem step_cons {s : State} {e : Event} {moves : List Event} (h : s.script = e :: moves) :
    step s = move exec e { s with script := moves } := by
  simp [step, turn, h]

/-- The step at an empty schedule. -/
theorem step_nil {s : State} (h : s.script = []) : step s = engineTurn exec s := by
  simp [step, turn, h]

/-- Every command runs as its opcode's acceptance, a body and completion. -/
theorem exec_eq_runCommand {i : Instr} (h : isToken i = false) :
    ∃ body, ∀ s, exec i s = runCommand (opcode i) body s := by
  cases i with
  | nop => exact ⟨fun s => .done () s, fun _ => rfl⟩
  | softReset => exact ⟨fun s => .done () (softResetState s), fun _ => rfl⟩
  | clearErr => exact ⟨fun s => .done () (clearError s), fun _ => rfl⟩
  | pqClear => exact ⟨fun s => .done () (pqClear s), fun _ => rfl⟩
  | arenaClear => exact ⟨fun s => .done () (arenaClear s), fun _ => rfl⟩
  | histClear => exact ⟨fun s => .done () (histReset s), fun _ => rfl⟩
  | histRead sym => exact ⟨fun s => .done () (setRes (s.histAt sym) s), fun _ => rfl⟩
  | bwReset => exact ⟨fun s => .done () (bwReset s), fun _ => rfl⟩
  | brReset => exact ⟨fun s => .done () (brReset s), fun _ => rfl⟩
  | _ => first | exact ⟨_, fun _ => rfl⟩ | cases h

/-- A command word decodes to a command, never to a token. -/
theorem decodeCmd_not_token {w : Word} {i : Instr} (h : decodeCmd w = .ok i) : isToken i = false := by
  unfold decodeCmd decodeN decodeS decodeA decodeAB at h
  split at h <;> first | (split at h <;> first | (cases h; rfl) | cases h) | cases h

/-- Everything a host write of an admitted word can be. -/
theorem hostWrite_eq {s : State} {off : Nat} {v : Word} (h : off % 4 = 0) (h' : off < 0x100) :
    hostWrite exec (s.regBase + off) 4 v s = writeReg exec off v s := by
  simp [hostWrite, State.admits, h, h']

/-- Everything a host read of an admitted word can be. -/
theorem hostRead_eq {s : State} {off : Nat} (h : off % 4 = 0) (h' : off < 0x100) :
    hostRead (s.regBase + off) 4 s = .next (readRegTo off s) := by
  simp [hostRead, State.admits, h, h']

/-- Everything a write to CMD can be (40_control.md R89). -/
theorem acceptWord_cases (w : Word) (s : State) :
    acceptWord exec w s = .next (dropWord s) ∨
    (s.busy = false ∧ s.errCode = none ∧ (∃ r, decode (.cmd w) = .error r) ∧
      acceptWord exec w s = .next (raiseIllegal w s)) ∨
    (s.busy = false ∧ ∃ i, decode (.cmd w) = .ok i ∧ (s.errCode = none ∨ admittedInError i = true) ∧
      acceptWord exec w s = holdBusy (exec i s)) := by
  unfold acceptWord
  cases hb : s.busy with
  | true => simp
  | false =>
    cases hd : decode (.cmd w) with
    | error r => cases he : s.errCode <;> simp
    | ok i => cases he : s.errCode <;> cases ha : admittedInError i <;> simp [ha]

end Sys2Proof.Machine
end

