-- ==== Sys2Proof/Laws/Trees.lean ====
section
/-! SUPPORT. The small laws of the tree and stream terms of Safety.lean: sizes, shape bytes and tokens, paths in the arena. -/

namespace Sys2Proof.Machine

/-- The tokens, joined, are the shape bytes. -/
theorem CodeTree.flatten_shapeTokens (tree : CodeTree) : tree.shapeTokens.flatten = tree.shapeBytes := by
  induction tree with
  | leaf sym => rfl
  | node l r ihl ihr => simp [CodeTree.shapeTokens, CodeTree.shapeBytes, ihl, ihr]

/-- One token per node. -/
@[simp] theorem CodeTree.length_shapeTokens (tree : CodeTree) : tree.shapeTokens.length = tree.size := by
  induction tree with
  | leaf sym => rfl
  | node l r ihl ihr => simp [CodeTree.shapeTokens, CodeTree.size, ihl, ihr]

/-- One record per node. -/
@[simp] theorem CodeTree.length_preorder (tree : CodeTree) (base : Nat) (parented : Bool) :
    (tree.preorder base parented).length = tree.size := by
  induction tree generalizing base parented with
  | leaf sym => rfl
  | node l r ihl ihr => simp [CodeTree.preorder, CodeTree.size, ihl, ihr]

theorem CodeTree.size_pos (tree : CodeTree) : 0 < tree.size := by
  cases tree <;> simp [CodeTree.size]

/-- A tree of L leaves has 2L - 1 nodes. -/
theorem CodeTree.size_add_one (tree : CodeTree) : tree.size + 1 = 2 * tree.leaves.length := by
  induction tree with
  | leaf sym => rfl
  | node l r ihl ihr => simp [CodeTree.size, CodeTree.leaves] at *; omega

/-- A tree of L leaves has 3L - 1 shape bytes. -/
theorem CodeTree.length_shapeBytes (tree : CodeTree) : tree.shapeBytes.length + 1 = 3 * tree.leaves.length := by
  induction tree with
  | leaf sym => rfl
  | node l r ihl ihr => simp [CodeTree.shapeBytes, CodeTree.leaves] at *; omega

/-- One path per leaf. -/
@[simp] theorem CodeTree.length_paths (tree : CodeTree) : tree.paths.length = tree.leaves.length := by
  induction tree with
  | leaf sym => rfl
  | node l r ihl ihr => simp [CodeTree.paths, CodeTree.leaves, ihl, ihr]

@[simp] theorem follow_nil (s : State) (i : NodeIdx) : s.follow i [] = some i := rfl

/-- A step of a path through a node that is there. -/
theorem follow_cons {s : State} {i : NodeIdx} {n : Node} (x : Bool) (xs : Code) (h : s.node? i = some n) :
    s.follow i (x :: xs) = s.follow (descend n x) xs := by
  simp [State.follow, h]

@[simp] theorem length_byteBits (b : Byte) : (byteBits b).length = 8 := by
  simp [byteBits]

@[simp] theorem length_bytesBits (bs : List Byte) : (bytesBits bs).length = 8 * bs.length := by
  induction bs with
  | nil => rfl
  | cons b bs ih => simp [bytesBits] at *; omega

@[simp] theorem bytesBits_append (xs ys : List Byte) : bytesBits (xs ++ ys) = bytesBits xs ++ bytesBits ys := by
  simp [bytesBits]

/-- No byte is fetched for bits that are buffered. -/
theorem fetches_eq_zero {s : State} {n : Nat} (h : n ≤ s.nleft.val) : s.fetches n = 0 := by
  unfold State.fetches; omega

end Sys2Proof.Machine
end

