-- ==== Sys2Proof/Tests/Slice0.lean ====
section
/-! SUPPORT. Small named tests. Expected results come from spec/: the encodings of 30_encoding.md, the vectors of
95_test_vectors.md (cited by number) or hand calculation from the rule named. The witnesses at the end show states that meet
the hypotheses of the obligations. -/

namespace Sys2Proof.Tests

open Sys2Proof.Machine

-- One theorem after another: each open `decide` task would otherwise hold a thread and its stack.
set_option Elab.async false

/-! ### Well-formedness -/

/-- A digit token has a decimal digit; 10 is none (30_encoding.md R83). -/
theorem test_wellFormed_digit : (Instr.tokDigit 9).WellFormed = true ∧ (Instr.tokDigit 10).WellFormed = false := by decide

/-- NIL as a node operand and a bit count above 32 are encodings (30_encoding.md R77). -/
theorem test_wellFormed_operands :
    (Instr.pqInsert 511).WellFormed = true ∧ (Instr.bwPut 255).WellFormed = true := by decide

/-! ### Decoding, from the formats of R76 and the opcodes of R79 -/

/-- Format CMD-N, field by field: the reserved bits 31..8, then op. -/
theorem test_decode_control :
    decode (.cmd (0b000000000000000000000000#24 ++ 0b00000000#8)) = .ok .nop ∧
    decode (.cmd (0b000000000000000000000000#24 ++ 0b00000001#8)) = .ok .softReset ∧
    decode (.cmd (0b000000000000000000000000#24 ++ 0b00000010#8)) = .ok .clearErr ∧
    decode (.cmd (0b000000000000000000000000#24 ++ 0b00000011#8)) = .ok .srcRewind := by decide

/-- CMD-A (15 reserved bits, a, op), CMD-S (16 reserved bits, imm8, op) and CMD-AB (6 reserved bits, b, a, op). -/
theorem test_decode_queue :
    decode (.cmd (0b000000000000000000000000#24 ++ 0b00010000#8)) = .ok .pqClear ∧
    decode (.cmd (0b000000000000000#15 ++ 0b111111110#9 ++ 0b00010001#8)) = .ok (.pqInsert 510) ∧
    decode (.cmd (0b000000000000000000000000#24 ++ 0b00010010#8)) = .ok .pqExtractMin ∧
    decode (.cmd (0b000000000000000000000000#24 ++ 0b00010100#8)) = .ok .arenaClear ∧
    decode (.cmd (0b0000000000000000#16 ++ 0b01100001#8 ++ 0b00010101#8)) = .ok (.nodeLeaf 0x61) ∧
    decode (.cmd (0b000000#6 ++ 0b000000001#9 ++ 0b100000010#9 ++ 0b00010110#8)) = .ok (.nodeJoin 258 1) ∧
    decode (.cmd (0b000000000000000#15 ++ 0b100000000#9 ++ 0b00010111#8)) = .ok (.nodeRead 256) := by decide

theorem test_decode_histogram :
    decode (.cmd (0b000000000000000000000000#24 ++ 0b00100000#8)) = .ok .histClear ∧
    decode (.cmd (0b0000000000000000#16 ++ 0b10000001#8 ++ 0b00100001#8)) = .ok (.histAdd 0x81) ∧
    decode (.cmd (0b000000000000000000000000#24 ++ 0b00100010#8)) = .ok .histScan ∧
    decode (.cmd (0b0000000000000000#16 ++ 0b01110010#8 ++ 0b00100011#8)) = .ok (.histRead 0x72) ∧
    decode (.cmd (0b000000000000000000000000#24 ++ 0b00100100#8)) = .ok .treeBuild := by decide

theorem test_decode_codeTable :
    decode (.cmd (0b000000000000000000000000#24 ++ 0b00101000#8)) = .ok .codeGen ∧
    decode (.cmd (0b0000000000000000#16 ++ 0b01100011#8 ++ 0b00101001#8)) = .ok (.codeLookup 0x63) := by decide

theorem test_decode_container :
    decode (.cmd (0b000000000000000000000000#24 ++ 0b00110000#8)) = .ok .hdrWrite ∧
    decode (.cmd (0b000000000000000000000000#24 ++ 0b00110001#8)) = .ok .shapeWrite ∧
    decode (.cmd (0b000000000000000000000000#24 ++ 0b00110010#8)) = .ok .sepWrite ∧
    decode (.cmd (0b000000000000000000000000#24 ++ 0b00111000#8)) = .ok .hdrRead ∧
    decode (.cmd (0b000000000000000000000000#24 ++ 0b00111001#8)) = .ok .shapeRead ∧
    decode (.cmd (0b000000000000000000000000#24 ++ 0b00111010#8)) = .ok .sepRead := by decide

theorem test_decode_bitstream :
    decode (.cmd (0b000000000000000000000000#24 ++ 0b01000000#8)) = .ok .bwReset ∧
    decode (.cmd (0b0000000000000000#16 ++ 0b00100000#8 ++ 0b01000001#8)) = .ok (.bwPut 32) ∧
    decode (.cmd (0b0000000000000000#16 ++ 0b11111111#8 ++ 0b01000010#8)) = .ok (.encSymbol 0xFF) ∧
    decode (.cmd (0b000000000000000000000000#24 ++ 0b01000011#8)) = .ok .encScan ∧
    decode (.cmd (0b000000000000000000000000#24 ++ 0b01000100#8)) = .ok .bwFlush ∧
    decode (.cmd (0b000000000000000000000000#24 ++ 0b01001000#8)) = .ok .brReset ∧
    decode (.cmd (0b0000000000000000#16 ++ 0b00000011#8 ++ 0b01001001#8)) = .ok (.brGet 3) ∧
    decode (.cmd (0b000000000000000000000000#24 ++ 0b01001010#8)) = .ok .decSymbol ∧
    decode (.cmd (0b000000000000000000000000#24 ++ 0b01001011#8)) = .ok .decRun := by decide

theorem test_decode_codec :
    decode (.cmd (0b000000000000000000000000#24 ++ 0b01010000#8)) = .ok .compress ∧
    decode (.cmd (0b000000000000000000000000#24 ++ 0b01010001#8)) = .ok .decompress := by decide

/-- The tokens of R83, each in its phase; the byte after a leaf marker is raw. -/
theorem test_decode_tokens :
    decode (.header 0b00111001#8) = .ok (.tokDigit 9) ∧ decode (.header 0b00101100#8) = .ok .tokHdrEnd ∧
    decode (.shape [0b00110000#8]) = .ok .tokInternal ∧
    decode (.shape [0b00110001#8, 0b00110001#8]) = .ok (.tokLeaf 0x31) ∧
    decode (.sep 0b00100000#8) = .ok (.tokSep 0x20) ∧ decode (.bit false) = .ok .tokBit0 ∧
    decode (.bit true) = .ok .tokBit1 := by decide

/-- Vectors 2.1.8, 2.1.12, 2.1.13, 2.1.14: illegal words, and R85: bytes that are no token. -/
theorem test_decode_rejects :
    decode (.cmd 0x00000004) = .error .unlistedOpcode ∧ decode (.cmd 0x00000100) = .error .reservedBits ∧
    decode (.cmd 0x00020011) = .error .reservedBits ∧ decode (.cmd 0x04000016) = .error .reservedBits ∧
    decode (.header 0x3A) = .error .badHeaderByte ∧ decode (.shape [0x32]) = .error .badMarker ∧
    decode (.shape [0x31]) = .error .truncated ∧ decode (.shape [0x30, 0x30]) = .error .trailing := by decide

/-- The table's numbering: a command word, and a leaf token whose marker is bits 15..8 (log 16, log 17). -/
theorem test_decode_tableWords :
    decodeTableWord 32 0x00020016 = some (.nodeJoin 0 1) ∧ decodeTableWord 16 0x3161 = some (.tokLeaf 0x61) ∧
    decodeTableWord 8 0x39 = some (.tokDigit 9) ∧ decodeTableWord 8 0x20 = some (.tokSep 0x20) := by decide

/-! ### Small states -/

/-- Some fields of the next state, none where there is no next state. -/
def got {α : Type} (o : Host.Outcome State Fault Refusal) (f : State → α) : Option α :=
  match o with
  | .next t => some (f t)
  | _ => none

/-- Reset with both ports attached and the given source. -/
def ports (src : List Byte) : State := { State.reset with srcAttached := true, src := src, snkAttached := true }

/-- A node of weight `w`. -/
def leafNode (sym : Byte) (w : Count) : Node :=
  { kind := .leaf, sym := sym, weight := w, left := nilIdx, right := nilIdx, inPq := false, parented := false }

/-- Three leaves of weights 5, 2, 2, as before vector 2.2.1. -/
def threeLeaves : State := { State.reset with nodes := [leafNode 0x78 5, leafNode 0x79 2, leafNode 0x7A 2] }

/-- The three leaves inserted in the order 0, 1, 2, as after vector 2.2.3. -/
def threeQueued : State :=
  { State.reset with
    nodes := [{ leafNode 0x78 5 with inPq := true }, { leafNode 0x79 2 with inPq := true },
      { leafNode 0x7A 2 with inPq := true }]
    pq := [PqEntry.mk 0 0, PqEntry.mk 1 1, PqEntry.mk 2 2], seq := 3 }

/-- The tree of "aabb" as vector 2.3.13 has it. -/
def aabbTree (src : List Byte) : State :=
  { ports src with
    nodes := [{ leafNode 0x61 2 with parented := true }, { leafNode 0x62 2 with parented := true },
      { kind := .internal, sym := 0, weight := 4, left := 0, right := 1, inPq := false, parented := false }]
    root := 2, treeValid := true, seq := 3 }

/-- The same with its codes a = "0", b = "1". -/
def aabbCodes (src : List Byte) : State :=
  { aabbTree src with
    codesValid := true, codes := ((Vector.replicate 256 none).set 0x61 (some [false])).set 0x62 (some [true]) }

/-! ### Control -/

/-- 2.1.1. -/
theorem test_nop : got (exec .nop { State.reset with res := 7, pqEmpty := true }) (fun t => (t.res, t.status)) =
    some (0, 0) := by decide

/-- 2.1.2: the sink and SRC_POS stay, the tree goes. -/
theorem test_softReset : got (exec .softReset { aabbCodes [1, 2] with srcPos := 1, snk := [0x34], total := 4 })
    (fun t => (t.status, t.root, t.snk, t.srcPos, t.total)) = some (0, 0x1FF, [0x34], 1, 0) := by decide

/-- 2.1.11. -/
theorem test_clearErr : got (exec .clearErr { State.reset with errCode := some .illegalCmd, errOp := 4, cmdDropped := true })
    (fun t => (t.status, t.errOp)) = some (0, 0) := by decide

/-- 2.1.6 and 2.1.7. -/
theorem test_srcRewind : got (exec .srcRewind { ports [0x6E, 0x8A] with srcPos := 1, cur := 0x6E, nleft := 5 })
      (fun t => (t.status, t.srcPos, t.brState)) = some (0, 0, 0x56E) ∧
    got (exec .srcRewind State.reset) (fun t => (t.status, t.errOp)) = some (0x102, 0x03) := by decide

/-! ### Priority structure and arena -/

/-- R100: the queue is emptied, the nodes stay. -/
theorem test_pqClear : got (exec .pqClear threeQueued) (fun t => (t.pqState, (t.node 1).inPq, t.nodes.length)) =
    some (0, false, 3) := by decide

/-- 2.2.1. -/
theorem test_pqInsert : got (exec (.pqInsert 0) threeLeaves) (fun t => (t.status, t.res, t.resAux, t.pqState)) =
    some (0, 5, 0, 0x00010001) := by decide

/-- 2.2.7, 2.2.9 and 2.2.15. -/
theorem test_pqInsert_refused :
    got (exec (.pqInsert 0) threeQueued) (fun t => (t.status, t.errOp)) = some (0x602, 0x11) ∧
    got (exec (.pqInsert 511) threeLeaves) (fun t => (t.status, t.errOp)) = some (0x602, 0x11) ∧
    got (exec (.pqInsert 0) { threeLeaves with seq := 0xFFFF }) (fun t => (t.status, t.pqState)) =
      some (0x702, 0xFFFF0000) := by decide

/-- 2.2.4: node 1 has weight 2 and is first of the two ties. -/
theorem test_pqExtractMin : got (exec .pqExtractMin threeQueued) (fun t => (t.status, t.res, t.resAux, t.pqState)) =
    some (0, 2, 0x00010001, 0x00030002) := by decide

/-- 2.2.6. -/
theorem test_pqExtractMin_empty : got (exec .pqExtractMin threeLeaves) (fun t => (t.status, t.res, t.resAux)) =
    some (0x004, 0, 0x1FF) := by decide

/-- 2.2.14. -/
theorem test_arenaClear : got (exec .arenaClear (aabbCodes [])) (fun t => (t.status, t.nodes.length, t.root, t.pqState)) =
    some (0, 0, 0x1FF, 0) := by decide

/-- R104's example, and 2.2.29. -/
theorem test_nodeLeaf :
    got (exec (.nodeLeaf 0x61) { State.reset with arg := 5 }) (fun t => (t.res, t.resAux, t.nodes)) =
      some (5, 0, [leafNode 0x61 5]) ∧
    got (exec (.nodeLeaf 1) (aabbCodes [])) (fun t => (t.status, t.res, t.resAux, t.root)) = some (0, 0, 3, 0x1FF) := by
  decide

/-- 2.2.17. -/
theorem test_nodeLeaf_full :
    got (exec (.nodeLeaf 1) { State.reset with nodes := List.replicate 511 (leafNode 0 1) })
      (fun t => (t.status, t.errOp, t.nodes.length)) = some (0x702, 0x15, 511) := by decide +kernel

/-- 2.2.26 and 2.2.27: the operands' order. -/
theorem test_nodeJoin : got (exec (.nodeJoin 1 0) { State.reset with nodes := [leafNode 0x61 3, leafNode 0x62 4] })
    (fun t => (t.res, t.resAux, (t.node 2).left, (t.node 2).right, (t.node 0).parented)) = some (7, 2, 1, 0, true) := by
  decide

/-- 2.2.22, 2.2.23 and 2.2.25. -/
theorem test_nodeJoin_refused :
    got (exec (.nodeJoin 0 0) threeLeaves) (fun t => (t.status, t.errOp)) = some (0x602, 0x16) ∧
    got (exec (.nodeJoin 0 1) threeQueued) (fun t => (t.status, t.errOp)) = some (0x602, 0x16) ∧
    got (exec (.nodeJoin 0 1) { State.reset with nodes := [leafNode 0 0xFFFFFFFFFFFFFFFF, leafNode 1 1] })
      (fun t => (t.status, t.nodes.length)) = some (0x702, 2) := by decide

/-- 2.2.20 and 2.2.19. -/
theorem test_nodeRead :
    got (exec (.nodeRead 0) (aabbTree [])) (fun t => (t.res, t.resAux)) = some (2, 0x1587FFFF) ∧
    got (exec (.nodeRead 2) (aabbTree [])) (fun t => (t.res, t.resAux)) = some (4, 0x00000200) ∧
    got (exec (.nodeRead 3) (aabbTree [])) (fun t => (t.status, t.errOp)) = some (0x60A, 0x17) := by decide

/-! ### Histogram and tree builder -/

/-- 2.3.16. -/
theorem test_histClear : got (exec .histClear { aabbTree [] with total := 4, hist := Vector.replicate 256 1 })
    (fun t => (t.status, t.total, t.histAt 0xFF)) = some (0x008, 0, 0) := by decide +kernel

/-- 2.3.8, and 2.3.10. -/
theorem test_histAdd :
    got (exec (.histAdd 0x61) { State.reset with total := 1, hist := (Vector.replicate 256 0).set 0x61 1 })
      (fun t => (t.res, t.total, t.histAt 0x61)) = some (2, 2, 2) ∧
    got (exec (.histAdd 0x61) { State.reset with total := 0xFFFFFFFFFFFFFFFF }) (fun t => (t.status, t.total)) =
      some (0x702, 0xFFFFFFFFFFFFFFFF) := by decide +kernel

/-- 2.3.1, on the first five bytes of its source. -/
theorem test_histScan : got (exec .histScan (ports [0x61, 0x62, 0x72, 0x61, 0x63]))
    (fun t => (t.res, t.total, t.histAt 0x61, t.srcPos)) = some (5, 5, 2, 5) := by decide +kernel

/-- 2.3.11 and 2.3.12. -/
theorem test_histScan_refused :
    got (exec .histScan { ports [0x61, 0x62] with total := 0xFFFFFFFFFFFFFFFF }) (fun t => (t.status, t.errPos)) =
      some (0x702, 1) ∧
    got (exec .histScan State.reset) (fun t => (t.status, t.errPos)) = some (0x102, 0) := by decide +kernel

/-- 2.3.2. -/
theorem test_histRead : got (exec (.histRead 0x72) { State.reset with hist := (Vector.replicate 256 0).set 0x72 2 })
    (fun t => t.res) = some 2 := by decide +kernel

/-- 2.3.5: the joins of "abracadabra". -/
theorem test_treeBuild :
    got (exec .treeBuild { State.reset with
        total := 11
        hist := (((((Vector.replicate 256 0).set 0x61 5).set 0x62 2).set 0x63 1).set 0x64 1).set 0x72 2 })
      (fun t => (t.resAux, t.pqState, (t.nodes.drop 5).map fun n => (n.weight, n.left, n.right))) =
    some (8, 0x00090000, [(2, 2, 3), (4, 1, 4), (6, 5, 6), (11, 0, 7)]) := by decide +kernel

/-- 2.3.7. -/
theorem test_treeBuild_empty : got (exec .treeBuild State.reset) (fun t => (t.status, t.errOp)) = some (0x302, 0x24) := by
  decide

/-! ### Code table -/

/-- 2.4.14's codes on the tree of "aabb". -/
theorem test_codeGen : got (exec .codeGen (aabbTree [])) (fun t => (t.res, t.resAux, t.codeAt 0x61, t.codeAt 0x62)) =
    some (2, 1, some [false], some [true]) := by decide +kernel

/-- 2.4.13: two leaves with one symbol. -/
theorem test_codeGen_duplicate :
    got (exec .codeGen { aabbTree [] with
        nodes := [leafNode 0x61 0, leafNode 0x61 0,
          { kind := .internal, sym := 0, weight := 0, left := 0, right := 1, inPq := false, parented := false }] })
      (fun t => (t.status, t.errOp)) = some (0x60A, 0x28) := by decide +kernel

/-- 2.4.11 and 2.4.12: the code of 38 ones and a 0, windows 0 and 1. -/
theorem test_codeLookup :
    got (exec (.codeLookup 0) { State.reset with
        codesValid := true, codes := (Vector.replicate 256 none).set 0 (some (List.replicate 38 true ++ [false])) })
      (fun t => (t.res, t.resAux)) = some (0xFFFFFFFF, 0x127) ∧
    got (exec (.codeLookup 0) { State.reset with
        arg := 9, codesValid := true
        codes := (Vector.replicate 256 none).set 0 (some (List.replicate 38 true ++ [false])) })
      (fun t => (t.res, t.resAux)) = some (0xFC000000, 0x127) := by decide +kernel

/-- 2.4.6 and 2.4.9. -/
theorem test_codeLookup_refused :
    got (exec (.codeLookup 0x7A) (aabbCodes [])) (fun t => (t.status, t.errOp)) = some (0x81A, 0x29) ∧
    got (exec (.codeLookup 0x61) (aabbTree [])) (fun t => (t.status, t.errOp)) = some (0x50A, 0x29) := by decide +kernel

/-! ### Container -/

/-- 2.5.1's header, of weight 11. -/
theorem test_hdrWrite : got (exec .hdrWrite { ports [] with nodes := [leafNode 0x61 11], root := 0, treeValid := true })
    (fun t => (t.status, t.res, t.snk)) = some (0x008, 3, [0x31, 0x31, 0x2C]) := by decide +kernel

/-- 2.5.5 and 2.5.8. -/
theorem test_hdrWrite_refused :
    got (exec .hdrWrite { aabbTree [] with nacc := 1 }) (fun t => (t.status, t.errOp)) = some (0x50A, 0x30) ∧
    got (exec .hdrWrite { aabbTree [] with draws := [true, false] }) (fun t => (t.status, t.snk)) =
      some (0x10A, [0x34]) := by decide +kernel

/-- P2's shape bytes. -/
theorem test_shapeWrite : got (exec .shapeWrite (aabbTree [])) (fun t => (t.status, t.res, t.snk)) =
    some (0x008, 5, [0x30, 0x31, 0x61, 0x31, 0x62]) := by decide +kernel

/-- 2.5.3 and 2.5.6. -/
theorem test_sepWrite :
    got (exec .sepWrite (ports [])) (fun t => (t.res, t.snk)) = some (1, [0x20]) ∧
    got (exec .sepWrite { aabbTree [] with nacc := 1 }) (fun t => (t.status, t.errOp)) = some (0x50A, 0x32) := by decide

/-- 2.6.13: NLEFT is cleared, CUR kept. -/
theorem test_hdrRead : got (exec .hdrRead { ports [0xAB, 0x34, 0x2C] with srcPos := 1, cur := 0xAB, nleft := 5 })
    (fun t => (t.status, t.res, t.decl, t.remain, t.srcPos, t.brState)) = some (0, 4, 4, 4, 3, 0x0AB) := by
  decide +kernel

/-- 2.6.4, 2.6.5 and 2.6.6. -/
theorem test_hdrRead_refused :
    got (exec .hdrRead (ports [0x2C])) (fun t => (t.status, t.errPos)) = some (0x202, 1) ∧
    got (exec .hdrRead (ports [0x34, 0x61, 0x2C])) (fun t => (t.status, t.errPos)) = some (0x202, 2) ∧
    got (exec .hdrRead (ports [0x31, 0x32])) (fun t => (t.status, t.errPos)) = some (0x202, 2) := by decide +kernel

/-- 2.6.16: symbol bytes are raw. -/
theorem test_shapeRead : got (exec .shapeRead (ports [0x30, 0x31, 0x20, 0x31, 0x2C]))
    (fun t => (t.status, t.res, t.resAux, t.nodes.map Node.sym, (t.node 0).right)) =
    some (0x008, 3, 0, [0, 0x20, 0x2C], 2) := by decide +kernel

/-- 2.6.19. -/
theorem test_shapeRead_truncated : got (exec .shapeRead (ports [0x30, 0x31, 0x61]))
    (fun t => (t.status, t.errPos, t.nodes.length, t.root)) = some (0x202, 3, 2, 0x1FF) := by decide +kernel

/-- 2.6.26 and 2.6.27. -/
theorem test_sepRead :
    got (exec .sepRead (ports [0x58])) (fun t => (t.status, t.res, t.srcPos)) = some (0, 0x58, 1) ∧
    got (exec .sepRead (ports [])) (fun t => (t.status, t.errOp)) = some (0x202, 0x3A) := by decide

/-! ### Payload bits -/

/-- 2.7.9. -/
theorem test_bwReset : got (exec .bwReset { ports [] with acc := 0x30, nacc := 4 }) (fun t => (t.bwState, t.snk)) =
    some (0, []) := by decide

/-- 2.7.2: "101" pending and five bits fill a byte. -/
theorem test_bwPut : got (exec (.bwPut 5) { ports [] with acc := 0xA0, nacc := 3, arg := 0xF0000000 })
    (fun t => (t.res, t.snk, t.bwState)) = some (5, [0xBE], 0) := by decide +kernel

/-- 2.7.3 and 2.7.4. -/
theorem test_bwPut_count :
    got (exec (.bwPut 33) (ports [])) (fun t => (t.status, t.errOp)) = some (0x602, 0x41) ∧
    got (exec (.bwPut 32) { ports [] with arg := 0x12345678 }) (fun t => t.snk) = some [0x12, 0x34, 0x56, 0x78] := by
  decide +kernel

/-- 2.7.10's last command, and 2.7.11. -/
theorem test_encSymbol :
    got (exec (.encSymbol 0x62) { aabbCodes [] with acc := 0x20, nacc := 3 }) (fun t => (t.status, t.res, t.bwState)) =
      some (0x018, 1, 0x430) ∧
    got (exec (.encSymbol 0x7A) (aabbCodes [])) (fun t => (t.status, t.errOp)) = some (0x81A, 0x42) := by decide +kernel

/-- P2's ENC_SCAN of "aabb", and 2.7.17. -/
theorem test_encScan :
    got (exec .encScan (aabbCodes [0x61, 0x61, 0x62, 0x62])) (fun t => (t.res, t.bwState, t.srcPos)) = some (4, 0x430, 4) ∧
    got (exec .encScan (aabbCodes [0x61, 0x62, 0x63])) (fun t => (t.status, t.errPos, t.bwState)) =
      some (0x81A, 3, 0x240) := by decide +kernel

/-- 2.7.6 and 2.7.7. -/
theorem test_bwFlush :
    got (exec .bwFlush (ports [])) (fun t => (t.res, t.resAux, t.snk)) = some (1, 8, [0]) ∧
    got (exec .bwFlush { ports [] with acc := 0x30, nacc := 4 }) (fun t => (t.resAux, t.snk, t.bwState)) =
      some (4, [0x30], 0) := by decide

/-- 2.8.7. -/
theorem test_brReset : got (exec .brReset { ports [0xAB] with srcPos := 1, cur := 0xAB, nleft := 4 })
    (fun t => (t.brState, t.srcPos)) = some (0, 1) := by decide

/-- 2.8.1 and 2.8.4. -/
theorem test_brGet :
    got (exec (.brGet 3) (ports [0x6E])) (fun t => (t.res, t.brState, t.srcPos)) = some (3, 0x56E, 1) ∧
    got (exec (.brGet 32) (ports [0x12, 0x34, 0x56, 0x78, 0x9A])) (fun t => (t.res, t.brState, t.srcPos)) =
      some (0x12345678, 0x078, 4) := by decide +kernel

/-- 2.8.3 and 2.8.6. -/
theorem test_brGet_refused :
    got (exec (.brGet 1) { ports [0x6E] with srcPos := 1, cur := 0x6E }) (fun t => (t.status, t.errPos)) =
      some (0x202, 1) ∧
    got (exec (.brGet 33) (ports [])) (fun t => (t.status, t.errOp)) = some (0x602, 0x49) := by decide +kernel

/-- 2.8.8, on the tree TREE_BUILD makes, where leaf 'a' is node 0. -/
theorem test_decSymbol : got (exec .decSymbol { aabbTree [0x30] with remain := 4 })
    (fun t => (t.res, t.resAux, t.snk, t.remain, t.brState)) = some (0x61, 0, [0x61], 3, 0x730) := by decide +kernel

/-- 2.8.12: a single leaf reads no bit; 2.8.10. -/
theorem test_decSymbol_leaf :
    got (exec .decSymbol { ports [] with nodes := [leafNode 0x61 0], root := 0, treeValid := true, remain := 2 })
      (fun t => (t.status, t.res, t.snk, t.remain)) = some (0x008, 0x61, [0x61], 1) ∧
    got (exec .decSymbol (aabbTree [])) (fun t => (t.status, t.errOp)) = some (0x50A, 0x4A) := by decide +kernel

/-- 2.8.9, on the tree TREE_BUILD makes, where leaf 'b' is node 1; and 2.8.14. -/
theorem test_decRun :
    got (exec .decRun { aabbTree [] with remain := 3, cur := 0x30, nleft := 7 })
      (fun t => (t.res, t.resAux, t.snk, t.remain, t.brState)) = some (3, 1, [0x61, 0x62, 0x62], 0, 0x430) ∧
    got (exec .decRun { aabbTree [] with remain := 3 }) (fun t => (t.status, t.errOp, t.remain)) =
      some (0x20A, 0x4B, 3) := by decide +kernel

/-! ### Codec -/

/-- Table 2.9, row "a". -/
theorem test_compress : got (exec .compress (ports [0x61])) (fun t => (t.snk, t.origSize, t.compSize, t.status)) =
    some ([0x31, 0x2C, 0x31, 0x61, 0x20, 0x00], 1, 6, 0x018) := by decide +kernel

/-- Table 2.9, row "", and 2.9.1. -/
theorem test_compress_empty :
    got (exec .compress (ports [])) (fun t => (t.snk, t.compSize, t.status)) = some ([0x30, 0x2C], 2, 0) ∧
    got (exec .compress { ports [0x61] with srcPos := 1 }) (fun t => (t.status, t.errPos)) = some (0x502, 1) := by
  decide +kernel

/-- Table 2.9, row "aabb". -/
theorem test_decompress : got (exec .decompress (ports [0x34, 0x2C, 0x30, 0x31, 0x61, 0x31, 0x62, 0x20, 0x30]))
    (fun t => (t.snk, t.origSize, t.compSize, t.status)) = some ([0x61, 0x61, 0x62, 0x62], 4, 9, 0x008) := by
  decide +kernel

/-- 2.9.5. -/
theorem test_decompress_truncated : got (exec .decompress (ports [0x34, 0x2C, 0x30, 0x31, 0x61]))
    (fun t => (t.status, t.errOp, t.errPos, t.nodes.length, t.snk)) = some (0x202, 0x51, 5, 2, []) := by decide +kernel

/-! ### Tokens: their commands' rules, one token each -/

/-- R128: `v <- 10*v + (b - 0x30)`. -/
theorem test_tokDigit : got (exec (.tokDigit 7) { State.reset with busy := true, parse := .header 12 2 }) State.parse =
    some (.header 127 3) := by decide

/-- R128: the comma ends the header. -/
theorem test_tokHdrEnd : got (exec .tokHdrEnd { State.reset with busy := true, parse := .header 127 3 })
    (fun t => (t.parse, t.decl, t.remain)) = some (.idle, 127, 127) := by decide

/-- R129: an internal node, its left subtree to come. -/
theorem test_tokInternal : got (exec .tokInternal { State.reset with busy := true, parse := .shape [] })
    (fun t => (t.parse, t.nodes.length)) = some (.shape [Frame.mk 0 .left], 1) := by decide

/-- R129 on "01a1b": the last leaf ends the shape with ROOT = 0. -/
theorem test_tokLeaf :
    got (exec (.tokLeaf 0x62) { State.reset with
        busy := true, parse := .shape [Frame.mk 0 .right]
        nodes := [{ kind := .internal, sym := 0, weight := 0, left := 1, right := nilIdx, inPq := false,
                    parented := false }, { leafNode 0x61 0 with parented := true }] })
      (fun t => (t.parse, t.root, t.res, (t.node 0).right, (t.node 2).parented)) = some (.idle, 0, 3, 2, true) := by decide

/-- R132: the separator's value is not checked. -/
theorem test_tokSep : got (exec (.tokSep 0x58) { State.reset with busy := true, parse := .sep })
    (fun t => (t.parse, t.res)) = some (.idle, 0x58) := by decide

/-- R145: left on 0, right on 1. -/
theorem test_tokBits :
    got (exec .tokBit0 { aabbTree [] with parse := .payload 2 }) State.parse = some (.payload 0) ∧
    got (exec .tokBit1 { aabbTree [] with parse := .payload 2 }) State.parse = some (.payload 1) := by decide

/-! ### Steps -/

/-- 2.1.9: in the error state COMPRESS is dropped. -/
theorem test_step_dropped :
    got (step { State.reset with errCode := some .illegalCmd, errOp := 4, script := [.memWrite 0x08 4 0x50] })
      (fun t => (t.status, t.errOp)) = some (0x422, 4) := by decide

/-- 2.1.8: an unlisted opcode. -/
theorem test_step_illegal : got (step { State.reset with script := [.memWrite 0x08 4 0x04] })
    (fun t => (t.status, t.errOp, t.busy)) = some (0x402, 4, false) := by decide

/-- A command runs as the first instruction after reset. -/
theorem test_step_withFetchWord :
    got (step (State.reset.withFetchWord 32 0x00006115)) (fun t => (t.nodes, t.busy)) =
      some ([leafNode 0x61 0], true) := by decide

/-! ### Witnesses: states and operands that meet the hypotheses of each obligation, clause by clause -/

/-- DecodeUndoesEncode, at the largest digit. -/
theorem witness_decodeUndoesEncode : (Instr.tokDigit 9).WellFormed = true := by decide

/-- EncodeUndoesDecode. -/
theorem witness_encodeUndoesDecode : decode (.cmd 0x03FFFF16) = .ok (.nodeJoin 511 511) := by decide

/-- A write to CMD next, REG_BASE 0. -/
def writing (w : Word) (s : State) : State := { s with script := [.memWrite 0x08 4 w, .engine] }

/-- StepRunsTheCommandWritten: outside the error state, and the three commands inside it. -/
theorem witness_stepRunsTheCommandWritten :
    ((writing 0x0001FF11 threeLeaves).script = .memWrite ((writing 0x0001FF11 threeLeaves).regBase + 0x08) 4 0x0001FF11 :: [.engine] ∧
      (writing 0x0001FF11 threeLeaves).busy = false ∧ (writing 0x0001FF11 threeLeaves).errCode = none ∧
      decode (.cmd 0x0001FF11) = .ok (.pqInsert 511)) ∧
    ((writing 2 { threeLeaves with errCode := some .badOperand }).busy = false ∧ decode (.cmd 0) = .ok .nop ∧
      decode (.cmd 1) = .ok .softReset ∧ decode (.cmd 2) = .ok .clearErr) := by decide

/-- The engine's turn inside a container reader at `p`, the source at `src`. -/
def reading (p : Parse) (src : List Byte) : State :=
  { aabbTree src with script := [.engine], busy := true, parse := p, draws := [true] }

/-- StepRunsTheTokenFetched, clause by clause: the last header byte, an internal marker, a leaf at 510 nodes, a separator at the
end of the source, and the first and the last bit of a byte. -/
theorem witness_stepRunsTheTokenFetched :
    (Willing (reading (.header 0 0) [0x39]) ∧ (reading (.header 0 0) [0x39]).src[0]? = some 0x39 ∧
      decode (.header 0x39) = .ok (.tokDigit 9)) ∧
    (Willing (reading (.shape []) [0x30]) ∧ (reading (.shape []) [0x30]).src[0]? = some 0x30) ∧
    (Willing { reading (.shape []) [0x31, 0x31] with nodes := List.replicate 510 blankNode } ∧
      { reading (.shape []) [0x31, 0x31] with nodes := List.replicate 510 blankNode }.nodes.length < 511 ∧
      (reading (.shape []) [0x31, 0x31]).src[1]? = some 0x31) ∧
    (Willing (reading .sep [0x00]) ∧ (reading .sep [0x00]).src[0]? = some 0x00) ∧
    ((reading (.payload 2) []).node? 2 = some (Node.mk .internal 0 4 0 1 false false) ∧
      { reading (.payload 2) [] with nleft := 8 }.nleft.val = (7 : Fin 9).val + 1 ∧
      { reading (.payload 2) [] with nleft := 1 }.nleft.val = (0 : Fin 9).val + 1) ∧
    (reading (.payload 2) []).busy = true ∧ (reading (.payload 2) []).srcAttached = true := by decide +kernel

/-- UnexecutedWords: the first unlisted opcode, a reserved bit, and a word while BUSY = 1. -/
theorem witness_unexecutedWords :
    QuietReader (writing 0x04 State.reset) ∧ (writing 0x04 State.reset).busy = false ∧
    (writing 0x04 State.reset).errCode = none ∧ decode (.cmd 0x04) = .error .unlistedOpcode ∧
    decode (.cmd 0x80000000) = .error .reservedBits ∧ { writing 0x04 State.reset with busy := true }.busy = true :=
  ⟨⟨rfl, fun _ => rfl⟩, rfl, rfl, by decide, by decide, rfl⟩

/-- ErrorStateAdmission: the error state, with a word that is dropped, the three that run, and the three ways out. -/
theorem witness_errorStateAdmission :
    QuietReader { State.reset with errCode := some .capacity } ∧
    { State.reset with errCode := some .capacity }.errCode.isSome = true ∧ (3#32).toNat ∉ [0, 1, 2] ∧
    0#32 = encN (opcode .nop) ∧ 1#32 = encN (opcode .softReset) ∧ 2#32 = encN (opcode .clearErr) ∧
    got (step (writing 1 { State.reset with errCode := some .capacity })) State.errCode = some none ∧
    got (step (writing 2 { State.reset with errCode := some .capacity })) State.errCode = some none ∧
    got (step { State.reset with errCode := some .capacity, script := [.hwReset] }) State.errCode = some none :=
  ⟨⟨rfl, fun _ => rfl⟩, rfl, by decide, by decide, by decide, by decide, by decide, by decide, by decide⟩

/-- EngineTurnCompletesOrIdles: a running command, an idle engine, and an empty schedule. -/
theorem witness_engineTurn :
    (reading .idle []).script = [.engine] ∧ (reading .idle []).busy = true ∧ (reading .idle []).parse = .idle ∧
    State.reset.script = [] ∧ State.reset.busy = false := by decide

/-- RaiseRecordsOpcodeAndPosition: a token is none, and a command raises from the end of its source. -/
theorem witness_raiseRecords :
    isToken .sepRead = false ∧ (ports []).errCode = none ∧
    got (exec .sepRead (ports [])) State.errCode = some (some .formatError) := by decide

/-- ExecutedCommandFlags: PQ_EXTRACT_MIN sets PQ_EMPTY, and CLEAR_ERR clears CMD_DROPPED. -/
theorem witness_executedCommandFlags :
    isToken .pqExtractMin = false ∧ got (exec .pqExtractMin State.reset) State.pqEmpty = some true ∧
    got (exec .clearErr { State.reset with cmdDropped := true }) State.cmdDropped = some false ∧
    got (exec .nop { State.reset with cmdDropped := true }) State.cmdDropped = some true := by decide

/-- WritersOfSharedState: an instruction outside the list that answers a next state. -/
theorem witness_writersOfSharedState :
    Instr.nodeLeaf 1 ∉ [Instr.histClear, .histScan, .compress, .softReset] ∧
    (∀ sym, Instr.nodeLeaf 1 ≠ .histAdd sym) ∧ (got (exec (.nodeLeaf 1) threeLeaves) State.total).isSome = true :=
  ⟨by decide, (fun _ h => by cases h), by decide⟩

/-- Resets: the hardware reset while a command runs. -/
theorem witness_resets : { reading .sep [] with script := [.hwReset] }.script = .hwReset :: [] := by decide

/-- RegisterMap: the full queue and the full arena. -/
theorem witness_registerMap :
    { State.reset with pq := List.replicate 256 (PqEntry.mk 0 0) }.pq.length ≤ 256 ∧
    { State.reset with nodes := List.replicate 511 blankNode }.nodes.length ≤ 511 ∧
    { State.reset with srcPos := 2 ^ 64 - 1 }.srcPos < 2 ^ 64 ∧ (ports []).snk.length < 2 ^ 64 := by decide +kernel

/-- RegisterWrites: ARG_LO, ARG_HI, and the first and the last offset that ignores a write. -/
theorem witness_registerWrites :
    ∀ off ∈ [0x10, 0x14, 0x00, 0xFC], off % 4 = 0 ∧ off < 0x100 ∧ off ≠ 0x08 ∧
      { State.reset with script := [.memWrite (0 + off) 4 7] }.script = .memWrite (State.reset.regBase + off) 4 7 :: [] := by
  decide

/-- RegisterReads: STATUS and the last offset at BUSY = 0, and STATUS and the last register at BUSY = 1. -/
theorem witness_registerReads :
    (∀ off ∈ [0x0C, 0xFC], off % 4 = 0 ∧ off < 0x100) ∧ State.reset.busy = false ∧
    (∀ off ∈ [0x0C, 0x7C], off % 4 = 0 ∧ off ≤ 0x7C) ∧ (reading .idle []).busy = true ∧
    { State.reset with script := [.memRead (0 + 0x7C) 4] }.script = .memRead (State.reset.regBase + 0x7C) 4 :: [] := by decide

/-- HostPortMoves: each action at BUSY = 0, the three kinds of unadmitted access, and an action at BUSY = 1. -/
theorem witness_hostPortMoves :
    State.reset.busy = false ∧ [1#8].length < 2 ^ 64 ∧
    (∀ p ∈ [(0, 2), (2, 4), (0x100, 4)],
      ¬ (p.2 = 4 ∧ State.reset.regBase ≤ p.1 ∧ (p.1 - State.reset.regBase) % 4 = 0 ∧ p.1 - State.reset.regBase < 0x100)) ∧
    (∀ e ∈ [Event.attachSource [1], .detachSource, .attachSink, .detachSink, .readSink],
      { State.reset with script := [e] }.script = e :: []) ∧ (reading .idle []).busy = true := by decide

/-- SrcRewind: its three cases. -/
theorem witness_srcRewind :
    State.reset.srcAttached = false ∧ (ports []).srcAttached = true ∧
    { ports [] with draws := [false] }.draws.head? = some false ∧ (ports []).draws.head? ≠ some false := by decide

/-- NopAndClearErr: a NOP word with its last reserved bit set. -/
theorem witness_nop : (0x80000000#32).extractLsb' 0 8 = 0 ∧ (0x80000000#32) ≠ 0 := by decide

/-- PqInsert: each branch at its edge. -/
theorem witness_pqInsert :
    threeLeaves.nodes.length ≤ (3 : NodeIdx).toNat ∧ (threeQueued.node 0).inPq = true ∧
    ((aabbTree []).node 0).parented = true ∧ ¬ threeLeaves.nodes.length ≤ (2 : NodeIdx).toNat ∧
    256 ≤ { threeLeaves with pq := List.replicate 256 (PqEntry.mk 0 0) }.pq.length ∧
    { threeLeaves with seq := 0xFFFF }.seq = 0xFFFF ∧
    ¬ ((threeLeaves.node 2).inPq = true ∨ (threeLeaves.node 2).parented = true) ∧
    ¬ (256 ≤ { threeLeaves with pq := List.replicate 255 (PqEntry.mk 0 0) }.pq.length ∨ threeLeaves.seq = 0xFFFF) := by
  decide +kernel

/-- PqExtractMin: the empty queue, and three entries of distinct seqs. -/
theorem witness_pqExtractMin :
    threeLeaves.pq = [] ∧ threeQueued.pq ≠ [] ∧ (threeQueued.pq.map PqEntry.seq).Nodup := by decide

/-- NodeLeaf: the arena full, and one entry left. -/
theorem witness_nodeLeaf :
    511 ≤ { State.reset with nodes := List.replicate 511 blankNode }.nodes.length ∧
    ¬ 511 ≤ { State.reset with nodes := List.replicate 510 blankNode }.nodes.length := by decide +kernel

/-- NodeJoin: each branch at its edge; the largest sum that fits is 2^64 - 1. -/
theorem witness_nodeJoin :
    threeLeaves.nodes.length ≤ (3 : NodeIdx).toNat ∧ (threeQueued.node 1).inPq = true ∧
    ((aabbTree []).node 1).parented = true ∧ 2 ^ 64 ≤ (0xFFFFFFFFFFFFFFFF : Count).toNat + (1 : Count).toNat ∧
    ¬ 2 ^ 64 ≤ (0xFFFFFFFFFFFFFFFE : Count).toNat + (1 : Count).toNat ∧
    ¬ (threeLeaves.nodes.length ≤ (2 : NodeIdx).toNat ∨ (0 : NodeIdx) = 2) := by decide

/-- NodeRead: the last entry, and the first index past it. -/
theorem witness_nodeRead :
    ¬ threeLeaves.nodes.length ≤ (2 : NodeIdx).toNat ∧ threeLeaves.nodes.length ≤ (3 : NodeIdx).toNat := by decide

/-- HistogramCommands: TOTAL at its largest value, and one below. -/
theorem witness_histogramCommands :
    (0xFFFFFFFFFFFFFFFF : Count).toNat = 2 ^ 64 - 1 ∧ (0xFFFFFFFFFFFFFFFE : Count).toNat < 2 ^ 64 - 1 := by decide

/-- HistScan: the last total that fits, no source, a read that fails after one byte, and the count that overflows. -/
theorem witness_histScan :
    ((ports [1, 2]).srcAttached = true ∧ Willing (ports [1, 2]) ∧ (ports [1, 2]).srcPos ≤ (ports [1, 2]).src.length ∧
      (0xFFFFFFFFFFFFFFFD : Count).toNat + (ports [1, 2]).rest.length ≤ 2 ^ 64 - 1) ∧
    State.reset.srcAttached = false ∧
    ({ ports [1, 2] with draws := [true, false, true] }.draws = List.replicate 1 true ++ false :: [true] ∧
      1 < (ports [1, 2]).rest.length ∧ (ports [1, 2]).total.toNat + 1 ≤ 2 ^ 64 - 1) ∧
    (1 < (ports [1, 2]).rest.length ∧ (0xFFFFFFFFFFFFFFFE : Count).toNat + 1 = 2 ^ 64 - 1) := by decide

/-- One symbol counted twice. -/
def counted : State := { State.reset with hist := (Vector.replicate 256 0).set 0x61 2, total := 2 }

/-- Two symbols of equal count. -/
def countedTwo : State := { State.reset with hist := ((Vector.replicate 256 0).set 0x61 2).set 0x62 2, total := 4 }

/-- TreeBuildShape: the empty histogram, one symbol, and two that are joined. -/
theorem witness_treeBuildShape :
    State.reset.total = 0 ∧ (TotalAgrees counted ∧ counted.total ≠ 0) ∧ TotalAgrees countedTwo ∧ countedTwo.total ≠ 0 :=
  ⟨by decide, ⟨⟨rfl, by decide +kernel⟩, by decide⟩, ⟨rfl, by decide +kernel⟩, by decide⟩

/-- CodeGenRecordsPaths and CodesArePrefixFree: no tree, a tree of distinct symbols, and one of equal symbols. -/
theorem witness_codeGen :
    State.reset.treeValid = false ∧ (aabbTree []).treeValid = true ∧
    (aabbTree []).treeAt (aabbTree []).root = some (.node (.leaf 0x61) (.leaf 0x62)) ∧
    (CodeTree.node (.leaf 0x61) (.leaf 0x62)).leaves.Nodup ∧ ¬ (CodeTree.node (.leaf 0x61) (.leaf 0x61)).leaves.Nodup ∧
    { aabbTree [] with nodes := [leafNode 0x61 0, leafNode 0x61 0, Node.mk .internal 0 0 0 1 false false] }.treeAt 2 =
      some (.node (.leaf 0x61) (.leaf 0x61)) ∧
    got (exec .codeGen (aabbTree [])) State.codesValid = some true := by decide +kernel

/-- CodesArePrefixFree's own premises on the codes: a code and itself. -/
theorem witness_codesArePrefixFree :
    got (exec .codeGen (aabbTree [])) (fun t => t.codeAt 0x61) = some (some [false]) ∧ [false] <+: [false] := by
  decide +kernel

/-- CodeLookupWindow: no table, an absent symbol, and a present one. -/
theorem witness_codeLookup :
    State.reset.codesValid = false ∧ (aabbCodes []).codesValid = true ∧ (aabbCodes []).codeAt 0x63 = none ∧
    (aabbCodes []).codeAt 0x61 = some [false] := by decide +kernel

/-- ContainerWrites: no tree, a pending bit, and the tree of "aabb" with room. -/
theorem witness_containerWrites :
    State.reset.treeValid = false ∧ { aabbTree [] with nacc := 1 }.nacc ≠ 0 ∧ (aabbTree []).nacc = 0 ∧
    (aabbTree []).snkAttached = true ∧ Willing (aabbTree []) ∧ (aabbTree []).treeValid = true ∧
    (aabbTree []).node? (aabbTree []).root = some (Node.mk .internal 0 4 0 1 false false) ∧
    Room (dec 4 ++ [0x2C]).length (aabbTree []) ∧
    (aabbTree []).treeAt (aabbTree []).root = some (.node (.leaf 0x61) (.leaf 0x62)) ∧
    Room (3 * (CodeTree.node (.leaf 0x61) (.leaf 0x62)).leaves.length - 1) (aabbTree []) ∧ Room 1 (aabbTree []) := by
  decide +kernel

/-- ContainerWrites, the failing sink: detached, at the first byte, and at the last byte of the shape. -/
theorem witness_containerWrites_failing :
    { aabbTree [] with snkAttached := false }.snkAttached = false ∧
    { aabbTree [] with draws := [false, true] }.draws = List.replicate 0 true ++ false :: [true] ∧
    { aabbTree [] with draws := [true, true, true, true, false] }.draws = List.replicate 4 true ++ false :: [] ∧
    4 < (CodeTree.node (.leaf 0x61) (.leaf 0x62)).shapeBytes.length ∧ 1 < (dec 4 ++ [0x2C]).length ∧
    Room 4 (aabbTree []) := by decide +kernel

/-- The digits of 2^64 - 1, and of 2^64. -/
def maxDigits : List Byte := (dec 0xFFFFFFFFFFFFFFFF).take 19

/-- HdrRead: the largest header; a byte that is no token, a comma with no digit, the digit that overflows, and the end of the
source. -/
theorem witness_hdrRead :
    (maxDigits ++ [0x35] ≠ [] ∧ (∀ b ∈ maxDigits ++ [0x35], isDigit b = true) ∧
      digitsValue (maxDigits ++ [0x35]) = 2 ^ 64 - 1 ∧
      (ports (maxDigits ++ [0x35] ++ 0x2C :: [])).rest = (maxDigits ++ [0x35]) ++ 0x2C :: []) ∧
    ((ports [0x34, 0x3A]).rest = [0x34] ++ 0x3A :: [] ∧ isDigit 0x3A = false ∧ isDigit 0x2F = false) ∧
    ((ports [0x2C]).rest = [] ++ 0x2C :: [] ∧ isDigit 0x2C = false ∧ digitsValue [] < 2 ^ 64) ∧
    (digitsValue maxDigits < 2 ^ 64 ∧ isDigit 0x36 = true ∧ 2 ^ 64 ≤ digitsValue (maxDigits ++ [0x36])) ∧
    ((ports []).rest = [] ∧ Willing (ports []) ∧ (ports []).srcAttached = true) := by decide +kernel

/-- HdrRead, the failing read: before the first byte, and after one digit. -/
theorem witness_hdrRead_failing :
    ((ports [0x34, 0x2C]).rest = [] ++ [0x34, 0x2C] ∧ { ports [] with draws := [false] }.draws = List.replicate 0 true ++ false :: []) ∧
    ((ports [0x34, 0x2C]).rest = [0x34] ++ [0x2C] ∧ isDigit 0x34 = true ∧
      { ports [] with draws := [true, false] }.draws = List.replicate 1 true ++ false :: []) := by decide

/-- ShapeRead: a tree of three nodes, and its bytes cut by one and cut to none. -/
theorem witness_shapeRead :
    (CodeTree.node (.leaf 0x61) (.leaf 0x62)).size ≤ 511 ∧
    (ports [0x30, 0x31, 0x61, 0x31, 0x62, 9]).rest = (CodeTree.node (.leaf 0x61) (.leaf 0x62)).shapeBytes ++ [9] ∧
    ((ports [0x30, 0x31, 0x61, 0x31]).rest <+: (CodeTree.node (.leaf 0x61) (.leaf 0x62)).shapeBytes ∧
      (ports [0x30, 0x31, 0x61, 0x31]).rest ≠ (CodeTree.node (.leaf 0x61) (.leaf 0x62)).shapeBytes) ∧
    ((ports []).rest <+: (CodeTree.leaf 0x61).shapeBytes ∧ (ports []).rest ≠ (CodeTree.leaf 0x61).shapeBytes) ∧
    (ports []).srcPos ≤ (ports []).src.length ∧ Willing (ports []) ∧ (ports []).srcAttached = true := by decide

/-- The tree of `n` internal nodes down its right side. -/
def comb : Nat → CodeTree
  | 0 => .leaf 0
  | n + 1 => .node (.leaf 0) (comb n)

/-- ShapeRead, the other failures: a bad marker at once and as the last token, a marker of the 512th node of a tree of 513, and
a read that fails at the last byte. -/
theorem witness_shapeRead_failing :
    (0 < (CodeTree.leaf 0x61).size ∧ (ports [0x32]).rest = ((CodeTree.leaf 0x61).shapeTokens.take 0).flatten ++ 0x32 :: []) ∧
    (2 < (CodeTree.node (.leaf 0x61) (.leaf 0x62)).size ∧
      (ports [0x30, 0x31, 0x61, 0x32]).rest =
        ((CodeTree.node (.leaf 0x61) (.leaf 0x62)).shapeTokens.take 2).flatten ++ 0x32 :: []) ∧
    (511 < (comb 256).size ∧
      (ports (((comb 256).shapeTokens.take 511).flatten ++ [0x30])).rest = ((comb 256).shapeTokens.take 511).flatten ++ 0x30 :: []) ∧
    (4 < (CodeTree.node (.leaf 0x61) (.leaf 0x62)).shapeBytes.length ∧
      (ports [0x30, 0x31, 0x61, 0x31, 0x62]).rest =
        (CodeTree.node (.leaf 0x61) (.leaf 0x62)).shapeBytes.take 4 ++ [0x62] ∧
      { ports [] with draws := [true, true, true, true, false] }.draws = List.replicate 4 true ++ false :: []) := by
  decide +kernel

/-- SepReadDiscardsOneByte. -/
theorem witness_sepRead :
    (ports [0x58]).rest = 0x58 :: [] ∧ (ports []).rest = [] ∧ Willing (ports [0x58]) ∧ (ports [0x58]).srcAttached = true := by
  decide

/-- BwPutAppendsBits: the first count refused and the last accepted, with seven bits pending. -/
theorem witness_bwPut :
    32 < (33 : Byte).toNat ∧ (32 : Byte).toNat ≤ 32 ∧ (ports []).snkAttached = true ∧ Willing (ports []) ∧
    Room 5 (ports []) ∧ { ports [] with nacc := 7 }.nacc = 7 := by decide

/-- EncodersAppendCodes: the checks, one code, a source of two symbols, and a byte with no code. -/
theorem witness_encoders :
    State.reset.codesValid = false ∧ (aabbCodes []).codeAt 0x63 = none ∧ (aabbCodes []).codesValid = true ∧
    (aabbCodes []).codeAt 0x62 = some [true] ∧ (aabbCodes []).snkAttached = true ∧ Willing (aabbCodes []) ∧
    Room ([true].length + 1) (aabbCodes []) ∧ (aabbCodes [0x61, 0x62]).srcPos ≤ (aabbCodes [0x61, 0x62]).src.length ∧
    (aabbCodes [0x61, 0x62]).rest.map (aabbCodes [0x61, 0x62]).codeAt = [[false], [true]].map some ∧
    Room ([[false], [true]].flatten.length + 1) (aabbCodes [0x61, 0x62]) ∧
    (aabbCodes [0x63]).rest = 0x63 :: [] := by decide +kernel

/-- EncodersAppendCodes: a byte with no code after two encoded ones (vector 2.7.17). -/
theorem witness_encoders_absent :
    (aabbCodes [0x61, 0x62, 0x63]).rest = [0x61, 0x62] ++ 0x63 :: [] ∧
    [0x61, 0x62].map (aabbCodes [0x61, 0x62, 0x63]).codeAt = [[false], [true]].map some ∧
    (aabbCodes [0x61, 0x62, 0x63]).codeAt 0x63 = none ∧
    Room ([[false], [true]].flatten.length + 1) (aabbCodes [0x61, 0x62, 0x63]) := by decide +kernel

/-- BwFlushAlwaysWritesOneByte: its three cases. -/
theorem witness_bwFlush :
    (ports []).snkAttached = true ∧ (ports []).draws.head? ≠ some false ∧ Room 1 (ports []) ∧
    { ports [] with draws := [false] }.draws.head? = some false ∧ State.reset.snkAttached = false := by decide

/-- BrGetTakesBits: the first count refused; all the bits there are; one bit more. -/
theorem witness_brGet :
    32 < (33 : Byte).toNat ∧ (8 : Byte).toNat ≤ (ports [0x6E]).upcoming.length ∧
    (ports [0x6E]).upcoming.length < (9 : Byte).toNat ∧ (9 : Byte).toNat ≤ 32 ∧ Willing (ports [0x6E]) ∧
    (ports [0x6E]).srcAttached = true := by decide

/-- DecSymbolDecodesOne: its two refusals, and a path of one bit at the end of a byte. -/
theorem witness_decSymbol :
    State.reset.treeValid = false ∧ (aabbTree []).remain = 0 ∧ { aabbTree [] with remain := 1 }.remain ≠ 0 ∧
    (aabbTree []).treeAt (aabbTree []).root = some (.node (.leaf 0x61) (.leaf 0x62)) ∧
    ((0x62 : Byte), [true]) ∈ (CodeTree.node (.leaf 0x61) (.leaf 0x62)).paths ∧
    { aabbTree [] with remain := 1, cur := 0x01, nleft := 1 }.upcoming = [true] ++ [] ∧
    (aabbTree []).srcAttached = true ∧ (aabbTree []).snkAttached = true ∧ Willing (aabbTree []) ∧ Room 1 (aabbTree []) := by
  decide +kernel

/-- DecRunDecodesRemain: no tree, REMAIN = 0, and two symbols. -/
theorem witness_decRun :
    State.reset.treeValid = false ∧ ((aabbTree []).treeValid = true ∧ (aabbTree []).remain = 0) ∧
    (∀ p ∈ [((0x61 : Byte), [false]), (0x62, [true])], p ∈ (CodeTree.node (.leaf 0x61) (.leaf 0x62)).paths) ∧
    (2 : Count).toNat = [((0x61 : Byte), [false]), (0x62, [true])].length ∧
    { aabbTree [] with remain := 2, cur := 0x01, nleft := 2 }.upcoming =
      ([((0x61 : Byte), [false]), (0x62, [true])].map Prod.snd).flatten ++ [] ∧ Room 2 (aabbTree []) := by decide +kernel

/-- DecSymbolDecodesOne and DecRunDecodesRemain: the source that ends at once, and after one symbol; the last symbol's path in
the arena. -/
theorem witness_decode_cut :
    { aabbTree [] with remain := 2 }.upcoming = ([] : List (Byte × Code)).flatMap Prod.snd ++ [] ∧
    ((0x62 : Byte), [true]) ∈ (CodeTree.node (.leaf 0x61) (.leaf 0x62)).paths ∧ [] <+: [true] ∧ [] ≠ [true] ∧
    { aabbTree [] with remain := 2, cur := 0x01, nleft := 1 }.upcoming = ([((0x62 : Byte), [true])].map Prod.snd).flatten ++ [] ∧
    [((0x62 : Byte), [true])].length < (2 : Count).toNat ∧ [((0x62 : Byte), [true])].getLast? = some (0x62, [true]) ∧
    (aabbTree []).follow (aabbTree []).root [true] = some 1 := by decide

/-- Compress: SRC_POS at 1, the empty source, and a source of one byte; and CompressThenDecompressIsIdentity. -/
theorem witness_compress :
    { ports [1] with srcPos := 1 }.srcPos ≠ 0 ∧
    ((ports []).srcPos = 0 ∧ (ports []).srcAttached = true ∧ (ports []).src = [] ∧ (ports []).snkAttached = true ∧
      Willing (ports []) ∧ Room 2 (ports [])) ∧
    ((ports [1]).src ≠ [] ∧ (ports [1]).src.length < 2 ^ 64 ∧ Room (32 * (ports [1]).src.length + 1024) (ports [1])) ∧
    ((ports [1]).snk = [] ∧ 32 * (ports [1]).src.length + 1024 < 2 ^ 64) := by decide

/-- CompressThenDecompressIsIdentity's second state, at the container of "a" (table 2.9). -/
theorem witness_roundTrip :
    got (exec .compress (ports [0x61])) State.snk = some (ports [0x31, 0x2C, 0x31, 0x61, 0x20, 0x00]).src ∧
    (ports [0x31, 0x2C, 0x31, 0x61, 0x20, 0x00]).snk = [] ∧ Willing (ports [0x31, 0x2C, 0x31, 0x61, 0x20, 0x00]) := by
  decide +kernel

/-- DecompressReadsTheContainer: a header of value 0, and the container of "aabb". -/
theorem witness_decompress :
    (digitsValue [0x30] = 0 ∧ isDigit 0x30 = true ∧ (ports [0x30, 0x2C, 9]).rest = [0x30] ++ 0x2C :: [9]) ∧
    (digitsValue [0x32] = [((0x61 : Byte), [false]), (0x62, [true])].length ∧
      (ports [0x32, 0x2C, 0x30, 0x31, 0x61, 0x31, 0x62, 0x20, 0x40]).rest =
        [0x32] ++ 0x2C :: ((CodeTree.node (.leaf 0x61) (.leaf 0x62)).shapeBytes ++ 0x20 :: [0x40]) ∧
      bytesBits [0x40] = ([((0x61 : Byte), [false]), (0x62, [true])].map Prod.snd).flatten ++ List.replicate 6 false ∧
      (∀ p ∈ [((0x61 : Byte), [false]), (0x62, [true])], p ∈ (CodeTree.node (.leaf 0x61) (.leaf 0x62)).paths) ∧
      Room 2 (ports [])) := by decide +kernel

/-- TokenEffects, clause by clause: the largest value that fits and the first that does not, the comma after a digit and
without one, the last free arena entry and none, and the three places a leaf takes. -/
theorem witness_tokenEffects :
    (0xFFFFFFFFFFFFFFFF : Count).toNat = 10 * (1844674407370955161 : Count).toNat + (5 : BitVec 4).toNat ∧
    2 ^ 64 ≤ 10 * (1844674407370955161 : Count).toNat + (6 : BitVec 4).toNat ∧
    (reading (.header 4 1) []).parse = .header 4 1 ∧ (reading (.header 0 0) []).parse = .header 0 0 ∧
    { reading (.shape []) [] with nodes := List.replicate 510 blankNode }.nodes.length < 511 ∧
    511 ≤ { reading (.shape []) [] with nodes := List.replicate 511 blankNode }.nodes.length ∧
    (reading .sep []).parse = .sep ∧ (reading (.payload 2) []).node? 2 = some (Node.mk .internal 0 4 0 1 false false) ∧
    (reading (.shape []) []).parse = .shape [] ∧
    (reading (.shape [Frame.mk 2 .left]) []).parse = .shape (Frame.mk 2 .left :: []) ∧
    (reading (.shape [Frame.mk 2 .right]) []).parse = .shape [Frame.mk 2 .right] ∧
    (2 : NodeIdx).toNat < (reading (.shape []) []).nodes.length := by decide +kernel

/-- TokensOutOfPhaseAreRefused: an idle reader, and the cursor at a leaf. -/
theorem witness_tokensOutOfPhase :
    (∀ v nd, State.reset.parse ≠ .header v nd) ∧ (∀ st, State.reset.parse ≠ .shape st) ∧ State.reset.parse ≠ .sep ∧
    (∀ c, State.reset.parse ≠ .payload c) ∧
    (reading (.payload 0) []).node? 0 = some (Node.mk .leaf 0x61 2 nilIdx nilIdx false true) :=
  ⟨(fun _ _ h => by cases h), (fun _ h => by cases h), by decide, (fun _ h => by cases h), by decide⟩

/-- ReadersAreTheirTokens. -/
theorem witness_readersAreTheirTokens :
    (ports [0x34, 0x2C]).parse = .idle ∧ (got (exec .hdrRead (ports [0x34, 0x2C])) State.decl).isSome = true ∧
    (got (exec .shapeRead (ports [0x31, 0x61])) State.root).isSome = true := by decide +kernel

/-- PortFailuresRaiseIoError: a command that raises it; each port detached, and refusing its first access; the cursor's root
internal and a leaf, eight bits to write. -/
theorem witness_portFailures :
    got (exec .sepRead State.reset) State.errCode = some (some .ioError) ∧ State.reset.errCode = none ∧
    (State.reset.srcAttached = false ∧ State.reset.snkAttached = false) ∧
    ((ports [1]).srcAttached = true ∧ (ports [1]).rest ≠ [] ∧ { ports [1] with draws := [false] }.draws = false :: []) ∧
    (ports [1]).srcPos = 0 ∧ (ports [1]).nleft = 0 ∧ 0 < (1 : Byte).toNat ∧
    ((aabbCodes []).codesValid = true ∧ { aabbTree [] with remain := 1 }.remain ≠ 0 ∧
      (aabbTree []).node? (aabbTree []).root = some (Node.mk .internal 0 4 0 1 false false)) ∧
    { aabbTree [] with root := 1 }.node? 1 = some (Node.mk .leaf 0x62 2 nilIdx nilIdx false true) ∧
    8 ≤ (ports []).nacc.val + (8 : Byte).toNat ∧ { aabbCodes [] with nacc := 7 }.codeAt 0x61 = some [false] ∧
    8 ≤ (7 : Fin 8).val + [false].length := by decide +kernel

/-- StepKeepsRegisterInvariants: a state with codes, pending bits and an error record, whose next step answers. -/
theorem witness_registerInvariants :
    QuietReader (aabbCodes [1]) ∧ FlagsAgree (aabbCodes [1]) ∧
    ErrorRecordAgrees { aabbCodes [1] with errCode := some .capacity, errOp := 0x21, errPos := 1 } ∧
    AccPadded { ports [] with acc := 0xA0, nacc := 3 } ∧ got (step (aabbCodes [1])) State.busy = some false :=
  ⟨⟨rfl, fun _ => rfl⟩, ⟨rfl, fun _ => rfl, fun h => by cases h⟩, ⟨rfl, fun h => by cases h⟩, ⟨rfl, by decide⟩, by decide⟩

/-- StepKeepsTotalTheSumOfHist, StepKeepsPortsInRange and StepKeepsTreePresent: a counted symbol, a source read to its end, a
tree. -/
theorem witness_dataInvariants :
    TotalAgrees counted ∧ got (step counted) State.total = some 2 ∧
    PortsInRange { ports [1, 2] with srcPos := 2, snk := [3] } ∧ TreePresent (aabbTree [1]) ∧
    got (step (aabbTree [1])) State.busy = some false :=
  ⟨⟨rfl, by decide +kernel⟩, by decide, ⟨rfl, by decide, by decide, by decide⟩, ⟨rfl, by decide, fun _ => by decide⟩,
    by decide⟩

/-- StepKeepsQueueAgreeing: three nodes queued. -/
theorem witness_queueAgrees : QueueAgrees threeQueued ∧ got (step threeQueued) State.busy = some false := by
  refine ⟨⟨rfl, by decide, by decide, by decide, by decide, by decide, fun i hi => ?_⟩, by decide⟩
  have h : i.toNat < 3 := by simpa [State.allocated, threeQueued] using hi
  obtain rfl | rfl | rfl : i = 0 ∨ i = 1 ∨ i = 2 := by bv_omega
  all_goals decide

/-- StepKeepsArenaOwned: the tree of "aabb", whose root owns both leaves. -/
theorem witness_arenaOwned : ArenaOwned (aabbTree []) ∧ got (step (aabbTree [])) State.busy = some false := by
  have hc : ∀ c p, (aabbTree []).childOf c p → p = 2 ∧ c ≠ 2 := by
    rintro c p ⟨n, hn, hk, hc, hl⟩
    have h : p.toNat < 3 := by
      have := (List.getElem?_eq_some_iff.mp hn).1
      simpa [aabbTree] using this
    obtain rfl | rfl | rfl : p = 0 ∨ p = 1 ∨ p = 2 := by bv_omega
    · cases hn; cases hk
    · cases hn; cases hk
    · cases hn
      refine ⟨rfl, ?_⟩
      rintro rfl
      revert hl
      decide
  refine ⟨⟨⟨rfl, by decide, by decide, by decide, by decide, by decide, fun i hi => ?_⟩, by decide, by decide,
    fun i hi => ?_, by decide, fun i hi => ?_⟩, by decide⟩
  · have h : i.toNat < 3 := by simpa [State.allocated, aabbTree] using hi
    obtain rfl | rfl | rfl : i = 0 ∨ i = 1 ∨ i = 2 := by bv_omega
    all_goals decide
  · have h : i.toNat < 3 := by simpa [State.allocated, aabbTree] using hi
    obtain rfl | rfl | rfl : i = 0 ∨ i = 1 ∨ i = 2 := by bv_omega
    all_goals decide
  · obtain ⟨x, hx, _⟩ := Relation.TransGen.head'_iff.mp hi
    obtain ⟨y, _, hy⟩ := Relation.TransGen.tail'_iff.mp hi
    exact (hc _ _ hx).2 (hc _ _ hy).1

end Sys2Proof.Tests
end

section
/-! PROOF. The two streams: a run of bytes read from the source and a run of bytes written to the sink, each as one
operation on the state. -/

namespace Sys2Proof.Machine

/-- The state after `n` bytes have been read from a willing source. -/
def State.skip (n : Nat) (s : State) : State := { s with srcPos := s.srcPos + n, draws := s.draws.drop n }

/-- The state after the bytes have been written to a willing sink. -/
def State.wrote (bs : List Byte) (s : State) : State := { s with snk := s.snk ++ bs, draws := s.draws.drop bs.length }

@[simp] theorem skip_src (n : Nat) (s : State) : (s.skip n).src = s.src := rfl
@[simp] theorem skip_srcPos (n : Nat) (s : State) : (s.skip n).srcPos = s.srcPos + n := rfl
@[simp] theorem skip_srcAttached (n : Nat) (s : State) : (s.skip n).srcAttached = s.srcAttached := rfl
@[simp] theorem skip_snkAttached (n : Nat) (s : State) : (s.skip n).snkAttached = s.snkAttached := rfl
@[simp] theorem skip_snk (n : Nat) (s : State) : (s.skip n).snk = s.snk := rfl
@[simp] theorem skip_nodes (n : Nat) (s : State) : (s.skip n).nodes = s.nodes := rfl
@[simp] theorem skip_total (n : Nat) (s : State) : (s.skip n).total = s.total := rfl
@[simp] theorem skip_nacc (n : Nat) (s : State) : (s.skip n).nacc = s.nacc := rfl
@[simp] theorem skip_errCode (n : Nat) (s : State) : (s.skip n).errCode = s.errCode := rfl
@[simp] theorem skip_codeAt (n : Nat) (s : State) (sym : Byte) : (s.skip n).codeAt sym = s.codeAt sym := rfl

@[simp] theorem skip_zero (s : State) : s.skip 0 = s := rfl

@[simp] theorem skip_skip (m n : Nat) (s : State) : (s.skip m).skip n = s.skip (m + n) := by
  simp [State.skip, Nat.add_assoc]

@[simp] theorem skip_rest (n : Nat) (s : State) : (s.skip n).rest = s.rest.drop n := by
  simp [State.rest]

theorem Willing.skip {s : State} (h : Willing s) (n : Nat) : Willing (s.skip n) :=
  fun d hd => h d (List.mem_of_mem_drop hd)

@[simp] theorem wrote_src (bs : List Byte) (s : State) : (s.wrote bs).src = s.src := rfl
@[simp] theorem wrote_srcPos (bs : List Byte) (s : State) : (s.wrote bs).srcPos = s.srcPos := rfl
@[simp] theorem wrote_srcAttached (bs : List Byte) (s : State) : (s.wrote bs).srcAttached = s.srcAttached := rfl
@[simp] theorem wrote_snkAttached (bs : List Byte) (s : State) : (s.wrote bs).snkAttached = s.snkAttached := rfl
@[simp] theorem wrote_snk (bs : List Byte) (s : State) : (s.wrote bs).snk = s.snk ++ bs := rfl
@[simp] theorem wrote_nacc (bs : List Byte) (s : State) : (s.wrote bs).nacc = s.nacc := rfl
@[simp] theorem wrote_errCode (bs : List Byte) (s : State) : (s.wrote bs).errCode = s.errCode := rfl
@[simp] theorem wrote_rest (bs : List Byte) (s : State) : (s.wrote bs).rest = s.rest := rfl

@[simp] theorem wrote_nil (s : State) : s.wrote [] = s := by
  simp [State.wrote]

@[simp] theorem wrote_wrote (xs ys : List Byte) (s : State) : (s.wrote xs).wrote ys = s.wrote (xs ++ ys) := by
  simp [State.wrote]

theorem Willing.wrote {s : State} (h : Willing s) (bs : List Byte) : Willing (s.wrote bs) :=
  fun d hd => h d (List.mem_of_mem_drop hd)

/-- Room left after a write. -/
theorem Room.wrote {s : State} {bs : List Byte} {n : Nat} (h : Room (bs.length + n) s) : Room n (s.wrote bs) := by
  simp only [Room, wrote_snk, List.length_append] at h ⊢
  omega

theorem Room.mono {s : State} {m n : Nat} (h : Room n s) (hmn : m ≤ n) : Room m s := by
  simp only [Room] at h ⊢
  omega

theorem rest_length (s : State) : s.rest.length = s.src.length - s.srcPos := by
  simp [State.rest]

/-- The next byte of the source is the first of the rest. -/
theorem src_getElem?_srcPos (s : State) : s.src[s.srcPos]? = s.rest.head? := by
  simp [State.rest]

/-- GetByte of an attached willing source takes the first byte of the rest. -/
theorem getByte_rest {s : State} {b : Byte} {more : List Byte} (ha : s.srcAttached = true) (hw : Willing s)
    (hr : s.rest = b :: more) : getByte s = .done b (s.skip 1) := by
  rw [getByte_done ha hw (by rw [src_getElem?_srcPos, hr]; rfl)]
  simp [State.skip]

/-- SrcRead of an attached willing source takes the first byte of the rest. -/
theorem srcRead_rest {s : State} {b : Byte} {more : List Byte} (ha : s.srcAttached = true) (hw : Willing s)
    (hr : s.rest = b :: more) : srcRead s = (.byte b, s.skip 1) := by
  have hb : s.src[s.srcPos]? = some b := by rw [src_getElem?_srcPos, hr]; rfl
  simp [srcRead, ha, hb, hw.nextDraw, State.skip]

/-- SrcRead at the end of an attached source. -/
theorem srcRead_eof {s : State} (ha : s.srcAttached = true) (hr : s.rest = []) : srcRead s = (.eof, s) := by
  have hb : s.src[s.srcPos]? = none := by rw [src_getElem?_srcPos, hr]; rfl
  simp [srcRead, ha, hb]

/-- PutByte of an attached willing sink with room. -/
theorem putByte_wrote {b : Byte} {s : State} (ha : s.snkAttached = true) (hw : Willing s) (hr : Room 1 s) :
    putByte b s = .done () (s.wrote [b]) := by
  rw [putByte_done ha hw hr]
  simp [State.wrote]

/-- PutByte of several bytes, of an attached willing sink with room. -/
theorem putBytes_wrote {bs : List Byte} {s : State} (ha : s.snkAttached = true) (hw : Willing s) (hr : Room bs.length s) :
    putBytes bs s = .done () (s.wrote bs) :=
  putBytes_done ha hw hr

end Sys2Proof.Machine
end

section
/-! PROOF. The container's header (44_container.md R124, R128): the digits written are read back as the value. -/

namespace Sys2Proof.Machine

/-! ### Decimal digits -/

theorem toNat_digit {d : Nat} (h : d < 10) : (BitVec.ofNat 8 (0x30 + d)).toNat = 0x30 + d := by
  rw [BitVec.toNat_ofNat]
  omega

theorem decDigits_isDigit (fuel v : Nat) : ∀ b ∈ decDigits fuel v, isDigit b = true := by
  have digit : ∀ d < 10, isDigit (BitVec.ofNat 8 (0x30 + d)) = true := fun d hd => by
    rw [isDigit, toNat_digit hd, decide_eq_true_eq]
    omega
  induction fuel generalizing v with
  | zero => simp [decDigits]
  | succ fuel ih =>
    unfold decDigits
    split
    · next h => simpa using digit v h
    · intro b hb
      rcases List.mem_append.mp hb with hb | hb
      · exact ih _ b hb
      · rw [List.mem_singleton.mp hb]
        exact digit _ (Nat.mod_lt _ (by decide))

theorem length_decDigits_le (fuel v : Nat) : (decDigits fuel v).length ≤ fuel := by
  induction fuel generalizing v with
  | zero => simp [decDigits]
  | succ fuel ih =>
    unfold decDigits
    split
    · simp
    · simpa using ih (v / 10)

theorem digitsValue_append_singleton (bs : List Byte) (b : Byte) :
    digitsValue (bs ++ [b]) = 10 * digitsValue bs + (b.toNat - 0x30) := by
  simp [digitsValue]

theorem digitsValue_decDigits {fuel v : Nat} (h : v < 10 ^ fuel) : digitsValue (decDigits fuel v) = v := by
  induction fuel generalizing v with
  | zero => simp only [pow_zero, Nat.lt_one_iff] at h; simp [decDigits, digitsValue, h]
  | succ fuel ih =>
    unfold decDigits
    split
    · next hv => simp only [digitsValue, List.foldl_cons, List.foldl_nil, toNat_digit hv]; omega
    · have hq : v / 10 < 10 ^ fuel := by rw [pow_succ] at h; omega
      rw [digitsValue_append_singleton, ih hq, toNat_digit (Nat.mod_lt _ (by decide))]
      omega

theorem dec_isDigit (v : Count) : ∀ b ∈ dec v, isDigit b = true := decDigits_isDigit 20 v.toNat

theorem length_dec_le (v : Count) : (dec v).length ≤ 20 := length_decDigits_le 20 v.toNat

/-- A count has at most 20 digits, so its digits have its value. -/
theorem digitsValue_dec (v : Count) : digitsValue (dec v) = v.toNat :=
  digitsValue_decDigits (by have := v.isLt; omega)

theorem dec_ne_nil (v : Count) : dec v ≠ [] := by
  unfold dec decDigits
  split <;> simp

/-! ### Reading the header -/

/-- A digit byte is the digit token of its value. -/
theorem decodeHeader_digit {b : Byte} (h : isDigit b = true) :
    ∃ d : BitVec 4, decodeHeader b = .ok (.tokDigit d) ∧ d.toNat = b.toNat - 0x30 := by
  simp only [isDigit, decide_eq_true_eq] at h
  have hne : b ≠ 0x2C := by rintro rfl; simp at h
  refine ⟨BitVec.ofNat 4 (b.toNat - 0x30), by rw [decodeHeader, if_neg hne, if_pos h], ?_⟩
  rw [BitVec.toNat_ofNat]
  omega

theorem decodeHeader_comma : decodeHeader 0x2C = .ok .tokHdrEnd := rfl

/-- The value of digits read behind a value `v`. -/
def digitsFrom (v : Nat) (ds : List Byte) : Nat := ds.foldl (fun v b => 10 * v + (b.toNat - 0x30)) v

theorem digitsFrom_zero (ds : List Byte) : digitsFrom 0 ds = digitsValue ds := rfl

theorem le_digitsFrom (v : Nat) (ds : List Byte) : v ≤ digitsFrom v ds := by
  induction ds generalizing v with
  | nil => exact le_refl _
  | cons b ds ih => exact le_trans (by omega) (ih (10 * v + (b.toNat - 0x30)))

/-- HDR_READ's loop over digits and the comma. -/
theorem hdrLoop_digits {ds more : List Byte} {fuel : Nat} {v : Count} {nd : Nat} {s : State}
    (hd : ∀ b ∈ ds, isDigit b = true) (hv : digitsFrom v.toNat ds < 2 ^ 64) (hf : ds.length < fuel)
    (ha : s.srcAttached = true) (hw : Willing s) (hr : s.rest = ds ++ 0x2C :: more) :
    hdrLoop fuel v nd s =
      headerEnd (BitVec.ofNat 64 (digitsFrom v.toNat ds)) (nd + ds.length) (s.skip (ds.length + 1)) := by
  induction ds generalizing fuel v nd s with
  | nil =>
    obtain ⟨fuel, rfl⟩ : ∃ k, fuel = k + 1 := ⟨fuel - 1, by simp at hf; omega⟩
    simp only [hdrLoop, getByte_rest ha hw hr, andThen_done, decodeHeader_comma]
    simp [digitsFrom]
  | cons b ds ih =>
    obtain ⟨fuel, rfl⟩ : ∃ k, fuel = k + 1 := ⟨fuel - 1, by simp at hf; omega⟩
    obtain ⟨d, hdec, hdv⟩ := decodeHeader_digit (hd b (by simp))
    have hle : 10 * v.toNat + d.toNat < 2 ^ 64 := by
      rw [hdv]; exact lt_of_le_of_lt (le_digitsFrom _ ds) hv
    have hfit : headerDigit v d.toNat = some (BitVec.ofNat 64 (10 * v.toNat + d.toNat)) := by
      simp [headerDigit, Nat.le_sub_one_of_lt hle]
    have hval : (BitVec.ofNat 64 (10 * v.toNat + d.toNat)).toNat = 10 * v.toNat + (b.toNat - 0x30) := by
      rw [BitVec.toNat_ofNat, Nat.mod_eq_of_lt hle, hdv]
    have step := ih (fuel := fuel) (v := BitVec.ofNat 64 (10 * v.toNat + d.toNat)) (nd := nd + 1) (s := s.skip 1)
      (fun b hb => hd b (by simp [hb])) (by rw [hval]; exact hv) (by simpa using hf) ha (hw.skip 1) (by simp [hr])
    rw [hval] at step
    simp only [hdrLoop, getByte_rest ha hw hr, andThen_done, hdec, hfit, step, skip_skip, List.length_cons]
    rw [show nd + 1 + ds.length = nd + (ds.length + 1) by omega, show 1 + (ds.length + 1) = ds.length + 1 + 1 by omega]
    rfl

/-- The header's value taken over, as the lines after the comma do. -/
def State.declared (v : Count) (s : State) : State := { s with decl := v, remain := v, res := v }

@[simp] theorem declared_decl (v : Count) (s : State) : (s.declared v).decl = v := rfl
@[simp] theorem declared_remain (v : Count) (s : State) : (s.declared v).remain = v := rfl
@[simp] theorem declared_srcAttached (v : Count) (s : State) : (s.declared v).srcAttached = s.srcAttached := rfl
@[simp] theorem declared_snkAttached (v : Count) (s : State) : (s.declared v).snkAttached = s.snkAttached := rfl
@[simp] theorem declared_snk (v : Count) (s : State) : (s.declared v).snk = s.snk := rfl
@[simp] theorem declared_errCode (v : Count) (s : State) : (s.declared v).errCode = s.errCode := rfl
@[simp] theorem declared_rest (v : Count) (s : State) : (s.declared v).rest = s.rest := rfl

/-- HDR_READ's body on digits and the comma. -/
theorem hdrReadBody_done {ds more : List Byte} {s : State} (ha : s.srcAttached = true) (hw : Willing s)
    (hr : s.rest = ds ++ 0x2C :: more) (hne : ds ≠ []) (hd : ∀ b ∈ ds, isDigit b = true)
    (hv : digitsValue ds < 2 ^ 64) :
    hdrReadBody s =
      .done () (((dropBits s).skip (ds.length + 1)).declared (BitVec.ofNat 64 (digitsValue ds))) := by
  have hfuel : ds.length < s.readsLeft := by
    have := congrArg List.length hr
    rw [rest_length] at this
    simp only [List.length_append, List.length_cons] at this
    unfold State.readsLeft
    omega
  have hpos : ds.length ≠ 0 := by simpa using hne
  rw [hdrReadBody, hdrLoop_digits (v := 0) (s := dropBits s) hd hv hfuel ha hw hr]
  simp [headerEnd, hpos, setRes, State.declared, digitsFrom_zero]

end Sys2Proof.Machine
end

section
/-! PROOF. A tree stands in the arena below an index: the relation behind `readTree`, the changes it does not depend on, and
the shape bytes it is written to and rebuilt from. -/

namespace Sys2Proof.Machine

/-! ### Sizes of a tree -/

theorem CodeTree.depth_lt_leaves (tree : CodeTree) : tree.depth < tree.leaves.length := by
  induction tree with
  | leaf sym => simp [CodeTree.depth, CodeTree.leaves]
  | node l r ihl ihr => simp only [CodeTree.depth, CodeTree.leaves, List.length_append]; omega

theorem CodeTree.leaves_length_le_size (tree : CodeTree) : tree.leaves.length ≤ tree.size := by
  have := tree.size_add_one
  have := tree.size_pos
  omega

theorem CodeTree.path_length_le_depth {tree : CodeTree} {p : Byte × Code} (h : p ∈ tree.paths) :
    p.2.length ≤ tree.depth := by
  induction tree generalizing p with
  | leaf sym => simp only [CodeTree.paths, List.mem_singleton] at h; simp [h]
  | node l r ihl ihr =>
    simp only [CodeTree.paths, List.mem_append, List.mem_map] at h
    simp only [CodeTree.depth]
    rcases h with ⟨q, hq, rfl⟩ | ⟨q, hq, rfl⟩
    · have := ihl hq; simp only [List.length_cons]; omega
    · have := ihr hq; simp only [List.length_cons]; omega

/-- The symbols of the paths are the leaves. -/
theorem CodeTree.map_fst_paths (tree : CodeTree) : tree.paths.map Prod.fst = tree.leaves := by
  induction tree with
  | leaf sym => rfl
  | node l r ihl ihr => simp [CodeTree.paths, CodeTree.leaves, ← ihl, ← ihr, Function.comp_def]

theorem CodeTree.exists_path_of_mem_leaves {tree : CodeTree} {sym : Byte} (h : sym ∈ tree.leaves) :
    ∃ c, (sym, c) ∈ tree.paths := by
  rw [← tree.map_fst_paths, List.mem_map] at h
  obtain ⟨⟨_, c⟩, hp, rfl⟩ := h
  exact ⟨c, hp⟩

/-! ### The tree below an index -/

/-- The tree stands below index `i`: what `readTree` reads there, with no bound on the depth. -/
def HoldsTree (nodes : List Node) : CodeTree → NodeIdx → Prop
  | .leaf sym, i => ∃ n, nodes[i.toNat]? = some n ∧ n.kind = .leaf ∧ n.sym = sym
  | .node l r, i =>
    ∃ n, nodes[i.toNat]? = some n ∧ n.kind = .internal ∧ HoldsTree nodes l n.left ∧ HoldsTree nodes r n.right

/-- The root of a tree that stands in the arena is allocated. -/
theorem HoldsTree.lt_length {nodes : List Node} {tree : CodeTree} {i : NodeIdx} (h : HoldsTree nodes tree i) :
    i.toNat < nodes.length := by
  cases tree with
  | leaf sym => obtain ⟨n, hn, _⟩ := h; exact (List.getElem?_eq_some_iff.mp hn).1
  | node l r => obtain ⟨n, hn, _⟩ := h; exact (List.getElem?_eq_some_iff.mp hn).1

/-- A tree that stands in the arena is read with fuel above its depth. -/
theorem HoldsTree.reads {nodes : List Node} {tree : CodeTree} {i : NodeIdx} {fuel : Nat} (h : HoldsTree nodes tree i)
    (hf : tree.depth < fuel) : readTree nodes fuel i = some tree := by
  induction tree generalizing fuel i with
  | leaf sym =>
    obtain ⟨n, hn, hk, rfl⟩ := h
    obtain ⟨fuel, rfl⟩ := Nat.exists_eq_add_one_of_ne_zero (Nat.ne_zero_of_lt hf)
    simp [readTree, hn, hk]
  | node l r ihl ihr =>
    obtain ⟨n, hn, hk, hl, hr⟩ := h
    simp only [CodeTree.depth] at hf
    obtain ⟨fuel, rfl⟩ := Nat.exists_eq_add_one_of_ne_zero (Nat.ne_zero_of_lt hf)
    simp [readTree, hn, hk, ihl hl (by omega : l.depth < fuel), ihr hr (by omega : r.depth < fuel)]

/-- A tree that fits in the arena and stands there is read whole. -/
theorem HoldsTree.treeAt {s : State} {tree : CodeTree} {i : NodeIdx} (h : HoldsTree s.nodes tree i)
    (hsize : tree.size ≤ s.nodes.length) : s.treeAt i = some tree :=
  h.reads (by have := tree.depth_lt_leaves; have := tree.leaves_length_le_size; omega)

/-! ### Changes to the arena that no tree depends on -/

/-- Every record is still there, at most with other `in_pq` and `parented` bits. -/
def NodesKeep (ns ns' : List Node) : Prop :=
  ∀ (i : Nat) (n : Node), ns[i]? = some n → ∃ p q, ns'[i]? = some { n with inPq := p, parented := q }

theorem NodesKeep.refl (ns : List Node) : NodesKeep ns ns := fun _ n h => ⟨n.inPq, n.parented, h⟩

theorem NodesKeep.trans {a b c : List Node} (h : NodesKeep a b) (h' : NodesKeep b c) : NodesKeep a c := fun i n hn => by
  obtain ⟨p, q, hb⟩ := h i n hn
  obtain ⟨p', q', hc⟩ := h' i _ hb
  exact ⟨p', q', hc⟩

theorem nodesKeep_append (ns more : List Node) : NodesKeep ns (ns ++ more) := fun i n h =>
  ⟨n.inPq, n.parented, by rw [List.getElem?_append_left (List.getElem?_eq_some_iff.mp h).1, h]⟩

theorem nodesKeep_modify_inPq (ns : List Node) (k : Nat) (b : Bool) :
    NodesKeep ns (ns.modify k fun n => { n with inPq := b }) := fun i n h => by
  rw [List.getElem?_modify, h]
  by_cases hk : k = i
  · exact ⟨b, n.parented, by simp [hk]⟩
  · exact ⟨n.inPq, n.parented, by simp [hk]⟩

theorem nodesKeep_modify_parented (ns : List Node) (k : Nat) (b : Bool) :
    NodesKeep ns (ns.modify k fun n => { n with parented := b }) := fun i n h => by
  rw [List.getElem?_modify, h]
  by_cases hk : k = i
  · exact ⟨n.inPq, b, by simp [hk]⟩
  · exact ⟨n.inPq, n.parented, by simp [hk]⟩

theorem HoldsTree.keep {ns ns' : List Node} {tree : CodeTree} {i : NodeIdx} (hk : NodesKeep ns ns')
    (h : HoldsTree ns tree i) : HoldsTree ns' tree i := by
  induction tree generalizing i with
  | leaf sym =>
    obtain ⟨n, hn, hkind, hsym⟩ := h
    obtain ⟨p, q, hn'⟩ := hk _ n hn
    exact ⟨_, hn', hkind, hsym⟩
  | node l r ihl ihr =>
    obtain ⟨n, hn, hkind, hl, hr⟩ := h
    obtain ⟨p, q, hn'⟩ := hk _ n hn
    exact ⟨_, hn', hkind, ihl hl, ihr hr⟩

/-! ### The records SHAPE_READ makes (44_container.md R129) -/

theorem ofNat9_toNat {n : Nat} (h : n < 512) : (BitVec.ofNat 9 n).toNat = n := by
  rw [BitVec.toNat_ofNat]
  omega

/-- The record of a leaf read from a shape. -/
def leafRecord (sym : Byte) (parented : Bool) : Node :=
  { kind := .leaf, sym := sym, weight := 0, left := nilIdx, right := nilIdx, inPq := false, parented := parented }

/-- The record of an internal node read from a shape. -/
def internalRecord (l r : NodeIdx) (parented : Bool) : Node :=
  { kind := .internal, sym := 0, weight := 0, left := l, right := r, inPq := false, parented := parented }

@[simp] theorem internalRecord_left (l r : NodeIdx) (parented : Bool) : (internalRecord l r parented).left = l := rfl
@[simp] theorem internalRecord_right (l r : NodeIdx) (parented : Bool) : (internalRecord l r parented).right = r := rfl

theorem CodeTree.preorder_leaf (sym : Byte) (base : Nat) (parented : Bool) :
    (CodeTree.leaf sym).preorder base parented = [leafRecord sym parented] := rfl

theorem CodeTree.preorder_node (l r : CodeTree) (base : Nat) (parented : Bool) :
    (CodeTree.node l r).preorder base parented =
      internalRecord (BitVec.ofNat 9 (base + 1)) (BitVec.ofNat 9 (base + 1 + l.size)) parented ::
        (l.preorder (base + 1) true ++ r.preorder (base + 1 + l.size) true) := rfl

/-- The records of a decoded tree, wherever they stand in the arena, hold that tree. -/
theorem holdsTree_preorder (tree : CodeTree) (pre post : List Node) (parented : Bool)
    (h : pre.length + tree.size ≤ 511) :
    HoldsTree (pre ++ tree.preorder pre.length parented ++ post) tree (BitVec.ofNat 9 pre.length) := by
  induction tree generalizing pre post parented with
  | leaf sym =>
    refine ⟨leafRecord sym parented, ?_, rfl, rfl⟩
    simp only [CodeTree.size] at h
    simp [ofNat9_toNat (show pre.length < 512 by omega), CodeTree.preorder_leaf]
  | node l r ihl ihr =>
    simp only [CodeTree.size] at h
    let n := internalRecord (BitVec.ofNat 9 (pre.length + 1)) (BitVec.ofNat 9 (pre.length + 1 + l.size)) parented
    refine ⟨n, ?_, rfl, ?_, ?_⟩
    · simp [ofNat9_toNat (show pre.length < 512 by omega), CodeTree.preorder_node, n]
    · have := ihl (pre ++ [n]) (r.preorder (pre.length + 1 + l.size) true ++ post) true (by simp; omega)
      simpa [CodeTree.preorder_node, n] using this
    · have := ihr (pre ++ [n] ++ l.preorder (pre.length + 1) true) post true (by simp; omega)
      rw [List.length_append, List.length_append, List.length_singleton, CodeTree.length_preorder] at this
      simpa [CodeTree.preorder_node, n] using this

/-! ### SHAPE_READ rebuilds the tree (44_container.md R129) -/

theorem modify_append_cons {α : Type} (xs ys : List α) (y : α) (f : α → α) :
    (xs ++ y :: ys).modify xs.length f = xs ++ f y :: ys := by
  induction xs with
  | nil => rfl
  | cons x xs ih => simp [ih]

/-- A subtree's root becomes parented. -/
theorem modify_preorder_parented (tree : CodeTree) (pre post : List Node) :
    (pre ++ tree.preorder pre.length false ++ post).modify pre.length (fun n => { n with parented := true }) =
      pre ++ tree.preorder pre.length true ++ post := by
  rw [List.append_assoc, List.append_assoc]
  cases tree with
  | leaf sym => exact modify_append_cons pre post (leafRecord sym false) _
  | node l r => exact modify_append_cons pre _ (internalRecord _ _ false) _

/-- The state with another arena. -/
def State.withNodes (ns : List Node) (s : State) : State := { s with nodes := ns }

@[simp] theorem withNodes_nodes (ns : List Node) (s : State) : (s.withNodes ns).nodes = ns := rfl
@[simp] theorem withNodes_srcAttached (ns : List Node) (s : State) : (s.withNodes ns).srcAttached = s.srcAttached := rfl
@[simp] theorem withNodes_rest (ns : List Node) (s : State) : (s.withNodes ns).rest = s.rest := rfl
@[simp] theorem withNodes_skip (ns : List Node) (n : Nat) (s : State) : (s.withNodes ns).skip n = (s.skip n).withNodes ns :=
  rfl
@[simp] theorem withNodes_withNodes (ns ns' : List Node) (s : State) : (s.withNodes ns).withNodes ns' = s.withNodes ns' :=
  rfl

/-- The left subtree parsed behind its parent at the arena's end takes its place. -/
theorem attach_left_preorder (l : CodeTree) (pre : List Node) (s : State) (h : pre.length + 1 < 512) :
    attach (BitVec.ofNat 9 pre.length) .left (BitVec.ofNat 9 (pre.length + 1))
        (s.withNodes (pre ++ internalRecord nilIdx nilIdx false :: l.preorder (pre.length + 1) false)) =
      s.withNodes
        (pre ++ internalRecord (BitVec.ofNat 9 (pre.length + 1)) nilIdx false :: l.preorder (pre.length + 1) true) := by
  have hl := modify_preorder_parented l (pre ++ [internalRecord (BitVec.ofNat 9 (pre.length + 1)) nilIdx false]) []
  simp only [List.append_assoc, List.cons_append, List.nil_append, List.append_nil, List.length_append,
    List.length_singleton] at hl
  simp only [attach, setNode, State.withNodes, ofNat9_toNat h, ofNat9_toNat (show pre.length < 512 by omega),
    modify_append_cons]
  rw [← hl]
  rfl

/-- The right subtree parsed behind its sibling takes its place. -/
theorem attach_right_preorder (l r : CodeTree) (pre : List Node) (s : State) (h : pre.length + 1 + l.size < 512) :
    attach (BitVec.ofNat 9 pre.length) .right (BitVec.ofNat 9 (pre.length + 1 + l.size))
        (s.withNodes (pre ++ internalRecord (BitVec.ofNat 9 (pre.length + 1)) nilIdx false ::
          (l.preorder (pre.length + 1) true ++ r.preorder (pre.length + 1 + l.size) false))) =
      s.withNodes (pre ++ (CodeTree.node l r).preorder pre.length false) := by
  have hr := modify_preorder_parented r (pre ++ internalRecord (BitVec.ofNat 9 (pre.length + 1))
    (BitVec.ofNat 9 (pre.length + 1 + l.size)) false :: l.preorder (pre.length + 1) true) []
  simp only [List.append_assoc, List.cons_append, List.append_nil, List.length_append, List.length_cons,
    CodeTree.length_preorder, show pre.length + (l.size + 1) = pre.length + 1 + l.size by omega] at hr
  simp only [attach, setNode, State.withNodes, ofNat9_toNat h, ofNat9_toNat (show pre.length < 512 by omega),
    modify_append_cons, CodeTree.preorder_node]
  rw [← hr]
  rfl

theorem arenaFull_eq_false {s : State} (h : s.nodes.length < 511) : s.arenaFull = false :=
  decide_eq_false (Nat.not_le.mpr h)

/-- Parse on the shape bytes of a tree: its records, in preorder, behind the arena. -/
theorem parseShape_done {tree : CodeTree} {more : List Byte} {fuel : Nat} {s : State} (ha : s.srcAttached = true)
    (hw : Willing s) (hr : s.rest = tree.shapeBytes ++ more) (hsize : s.nodes.length + tree.size ≤ 511)
    (hf : tree.depth < fuel) :
    parseShape fuel s = .done (BitVec.ofNat 9 s.nodes.length)
      ((s.skip tree.shapeBytes.length).withNodes (s.nodes ++ tree.preorder s.nodes.length false)) := by
  induction tree generalizing more fuel s with
  | leaf sym =>
    obtain ⟨fuel, rfl⟩ := Nat.exists_eq_add_one_of_ne_zero (Nat.ne_zero_of_lt hf)
    simp only [CodeTree.shapeBytes, List.cons_append, List.nil_append] at hr
    simp only [CodeTree.size] at hsize
    have hfull : (s.skip 1).arenaFull = false := arenaFull_eq_false (by simp; omega)
    have hsym : getByte (s.skip 1) = .done sym (s.skip 2) := by
      rw [getByte_rest (s := s.skip 1) (b := sym) (more := more) ha (hw.skip 1) (by simp [hr]), skip_skip]
    simp only [parseShape, getByte_rest ha hw hr, andThen_done, hfull, hsym]
    rfl
  | node l r ihl ihr =>
    obtain ⟨fuel, rfl⟩ := Nat.exists_eq_add_one_of_ne_zero (Nat.ne_zero_of_lt hf)
    simp only [CodeTree.shapeBytes, List.cons_append, List.append_assoc] at hr
    simp only [CodeTree.size] at hsize
    simp only [CodeTree.depth] at hf
    have hinternal : shapeInternal (s.skip 1) = .done (BitVec.ofNat 9 s.nodes.length)
        ((s.skip 1).withNodes (s.nodes ++ [internalRecord nilIdx nilIdx false])) := by
      have hfull : (s.skip 1).arenaFull = false := arenaFull_eq_false (by simp; omega)
      simp only [shapeInternal, hfull]
      rfl
    have hleft := ihl (fuel := fuel) (more := r.shapeBytes ++ more)
      (s := (s.skip 1).withNodes (s.nodes ++ [internalRecord nilIdx nilIdx false])) ha (hw.skip 1) (by simp [hr])
      (by simp; omega) (by omega)
    have hright := ihr (fuel := fuel) (more := more)
      (s := (s.skip (1 + l.shapeBytes.length)).withNodes (s.nodes ++
        internalRecord (BitVec.ofNat 9 (s.nodes.length + 1)) nilIdx false :: l.preorder (s.nodes.length + 1) true))
      ha (hw.skip _) (by simp [hr, ← List.drop_drop]) (by simp; omega) (by omega)
    simp only [withNodes_nodes, withNodes_skip, withNodes_withNodes, skip_skip, List.length_append,
      List.length_cons, CodeTree.length_preorder, List.length_nil, Nat.zero_add,
      List.append_assoc, List.cons_append, List.nil_append] at hleft hright
    rw [show s.nodes.length + (l.size + 1) = s.nodes.length + 1 + l.size by omega] at hright
    simp only [parseShape, getByte_rest ha hw hr, andThen_done, hinternal, hleft,
      attach_left_preorder l s.nodes _ (by omega), hright, attach_right_preorder l r s.nodes _ (by omega),
      CodeTree.shapeBytes, List.length_cons, List.length_append]
    rw [show 1 + l.shapeBytes.length + r.shapeBytes.length = l.shapeBytes.length + r.shapeBytes.length + 1 by omega]
    rfl

/-! ### SHAPE_WRITE (44_container.md R126) -/

/-- Emit writes the shape bytes. -/
theorem emitShape_done {tree : CodeTree} {k : Nat} {s : State} (ha : s.snkAttached = true) (hw : Willing s)
    (hr : Room tree.shapeBytes.length s) :
    emitShape tree k s = .done (k + tree.shapeBytes.length) (s.wrote tree.shapeBytes) := by
  induction tree generalizing k s with
  | leaf sym =>
    have h2 : Room (1 + 1) s := hr
    have hsym := putByte_wrote (b := sym) (s := s.wrote [0x31]) ha (hw.wrote _) (Room.wrote h2)
    simp only [emitShape, putByte_wrote ha hw (h2.mono (by omega)), andThen_done, hsym, wrote_wrote]
    rfl
  | node l r ihl ihr =>
    have h3 : Room ([0x30].length + (l.shapeBytes.length + r.shapeBytes.length)) s :=
      hr.mono (by simp [CodeTree.shapeBytes]; omega)
    have hl := ihl (k := k + 1) (s := s.wrote [0x30]) ha (hw.wrote _) (h3.wrote.mono (by omega))
    have hr' := ihr (k := k + 1 + l.shapeBytes.length) (s := (s.wrote [0x30]).wrote l.shapeBytes) ha
      ((hw.wrote _).wrote _) h3.wrote.wrote
    simp only [emitShape, putByte_wrote ha hw (h3.mono (by simp)), andThen_done, hl, hr', CodeTree.shapeBytes,
      List.length_cons, List.length_append]
    rw [wrote_wrote, wrote_wrote, show k + 1 + l.shapeBytes.length + r.shapeBytes.length =
      k + (l.shapeBytes.length + r.shapeBytes.length + 1) by omega]
    rfl

end Sys2Proof.Machine
end

section
/-! PROOF. The payload writer (45_bitstream.md R133 to R139): the bits written and pending are those put, in order. -/

namespace Sys2Proof.Machine

/-! ### The bits of a byte -/

theorem take_byteBits (b : Byte) {n : Nat} (h : n ≤ 8) :
    (byteBits b).take n = (List.range n).map fun k => b.getLsbD (7 - k) := by
  rw [byteBits, ← List.map_take, List.take_range, Nat.min_eq_left h]

theorem drop_byteBits (b : Byte) {n : Nat} (h : n < 8) :
    (byteBits b).drop n = b.getLsbD (7 - n) :: (byteBits b).drop (n + 1) := by
  rw [List.drop_eq_getElem_cons (by simpa using h)]
  simp [byteBits]

/-- A bit put into the accumulator stands behind those already there. -/
theorem take_byteBits_accWith (acc : Byte) (x : Bool) {n : Nat} (h : n < 8) :
    (byteBits (accWith acc n x)).take (n + 1) = (byteBits acc).take n ++ [x] := by
  rw [take_byteBits _ (by omega), take_byteBits _ (by omega), List.range_succ, List.map_append, List.map_singleton,
    accWith_getLsbD acc n x h, if_pos rfl]
  congr 1
  refine List.map_congr_left fun k hk => ?_
  have hk : k < n := List.mem_range.mp hk
  rw [accWith_getLsbD acc n x h, if_neg (by omega)]

/-! ### Appending bits -/

/-- `t` is `s` with the bits `xs` appended to those pending: whole bytes in SNK, the rest in the BitWriter. -/
def BitsAppended (s : State) (xs : List Bool) (t : State) : Prop :=
  ∃ a n bs, t = { s.wrote bs with acc := a, nacc := n } ∧ bytesBits bs ++ t.pending = s.pending ++ xs

theorem BitsAppended.refl (s : State) : BitsAppended s [] s :=
  ⟨s.acc, s.nacc, [], by simp, by simp [bytesBits]⟩

theorem BitsAppended.trans {s t u : State} {xs ys : List Bool} (h : BitsAppended s xs t) (h' : BitsAppended t ys u) :
    BitsAppended s (xs ++ ys) u := by
  obtain ⟨a, n, bs, rfl, hb⟩ := h
  obtain ⟨a', n', cs, rfl, hc⟩ := h'
  refine ⟨a', n', bs ++ cs, by rw [← wrote_wrote]; rfl, ?_⟩
  rw [bytesBits_append, List.append_assoc, hc, ← List.append_assoc, hb, List.append_assoc]

/-- The source may be read before or after. -/
theorem BitsAppended.skip {s t : State} {xs : List Bool} (h : BitsAppended s xs t) (m : Nat) :
    BitsAppended (s.skip m) xs (t.skip m) := by
  obtain ⟨a, n, bs, rfl, hb⟩ := h
  refine ⟨a, n, bs, ?_, hb⟩
  simp [State.skip, State.wrote, Nat.add_comm]

theorem BitsAppended.length_eq {s t : State} {xs : List Bool} (h : BitsAppended s xs t) :
    8 * t.snk.length + t.nacc.val = 8 * s.snk.length + (s.nacc.val + xs.length) := by
  obtain ⟨a, n, bs, rfl, hb⟩ := h
  have hlen := congrArg List.length hb
  have := n.isLt
  have := s.nacc.isLt
  simp only [State.pending, List.length_append, length_bytesBits, List.length_take, length_byteBits] at hlen
  simp only [wrote_snk, List.length_append]
  omega

/-- Room for the bytes that `n` more bits fill. -/
def BitRoom (n : Nat) (s : State) : Prop := Room ((s.nacc.val + n) / 8) s

theorem BitsAppended.bitRoom {s t : State} {xs : List Bool} {n : Nat} (h : BitsAppended s xs t)
    (hr : BitRoom (xs.length + n) s) : BitRoom n t := by
  have := h.length_eq
  simp only [BitRoom, Room] at hr ⊢
  omega

theorem BitRoom.mono {s : State} {m n : Nat} (h : BitRoom n s) (hmn : m ≤ n) : BitRoom m s :=
  Room.mono h (by omega)

theorem BitsAppended.willing {s t : State} {xs : List Bool} (h : BitsAppended s xs t) (hw : Willing s) : Willing t := by
  obtain ⟨a, n, bs, rfl, _⟩ := h
  exact hw.wrote bs

theorem BitsAppended.snkAttached {s t : State} {xs : List Bool} (h : BitsAppended s xs t) :
    t.snkAttached = s.snkAttached := by
  obtain ⟨a, n, bs, rfl, _⟩ := h; rfl

theorem BitsAppended.srcAttached {s t : State} {xs : List Bool} (h : BitsAppended s xs t) :
    t.srcAttached = s.srcAttached := by
  obtain ⟨a, n, bs, rfl, _⟩ := h; rfl

theorem BitsAppended.rest {s t : State} {xs : List Bool} (h : BitsAppended s xs t) : t.rest = s.rest := by
  obtain ⟨a, n, bs, rfl, _⟩ := h; rfl

theorem BitsAppended.codeAt {s t : State} {xs : List Bool} (h : BitsAppended s xs t) (sym : Byte) :
    t.codeAt sym = s.codeAt sym := by
  obtain ⟨a, n, bs, rfl, _⟩ := h; rfl

/-- PutBit appends its bit. -/
theorem putBit_done {x : Bool} {s : State} (ha : s.snkAttached = true) (hw : Willing s) (hr : BitRoom 1 s) :
    ∃ t, putBit x s = .done () t ∧ BitsAppended s [x] t := by
  by_cases h : s.nacc.val + 1 < 8
  · exact ⟨_, putBit_kept h, _, _, [], by rw [wrote_nil], take_byteBits_accWith s.acc x s.nacc.isLt⟩
  · have h7 : s.nacc.val = 7 := by have := s.nacc.isLt; omega
    have hroom : Room 1 s := by simpa [BitRoom, h7] using hr
    refine ⟨_, (putBit_full h7).trans (putByte_wrote (s := { s with acc := 0, nacc := 0 }) ha hw hroom), 0, 0,
      [accWith s.acc 7 x], rfl, ?_⟩
    have := take_byteBits_accWith s.acc x (n := 7) (by decide)
    rw [List.take_of_length_le (by simp)] at this
    show bytesBits [accWith s.acc 7 x] ++ (byteBits 0).take 0 = (byteBits s.acc).take s.nacc.val ++ [x]
    simp [bytesBits, h7, this]

/-- PutBit of several bits appends them. -/
theorem putBits_done {xs : List Bool} {s : State} (ha : s.snkAttached = true) (hw : Willing s)
    (hr : BitRoom xs.length s) : ∃ t, putBits xs s = .done () t ∧ BitsAppended s xs t := by
  induction xs generalizing s with
  | nil => exact ⟨s, rfl, .refl s⟩
  | cons x xs ih =>
    obtain ⟨t, ht, hx⟩ := putBit_done (x := x) ha hw (hr.mono (by simp))
    obtain ⟨u, hu, hxs⟩ := ih (hx.snkAttached.trans ha) (hx.willing hw)
      (hx.bitRoom (by rwa [List.length_singleton, Nat.add_comm]))
    exact ⟨u, by simp [putBits, ht, hu], hx.trans hxs⟩

/-- ENC_SCAN's loop appends the codes of the remaining source bytes (45_bitstream.md R138). -/
theorem encScanLoop_done {cs : List Code} {fuel k : Nat} {s : State} (hsrc : s.srcAttached = true)
    (hsnk : s.snkAttached = true) (hw : Willing s) (hc : s.rest.map s.codeAt = cs.map some)
    (hr : BitRoom cs.flatten.length s) (hf : cs.length < fuel) :
    ∃ t, encScanLoop fuel k s = .done (k + cs.length) t ∧ BitsAppended (s.skip cs.length) cs.flatten t := by
  induction cs generalizing fuel k s with
  | nil =>
    obtain ⟨fuel, rfl⟩ := Nat.exists_eq_add_one_of_ne_zero (Nat.ne_zero_of_lt hf)
    have hrest : s.rest = [] := by simpa using hc
    exact ⟨s, by simp [encScanLoop, srcRead_eof hsrc hrest], .refl s⟩
  | cons c cs ih =>
    obtain ⟨fuel, rfl⟩ := Nat.exists_eq_add_one_of_ne_zero (Nat.ne_zero_of_lt hf)
    obtain ⟨b, more, hrest, hb, hmore⟩ := List.map_eq_cons_iff.mp hc
    obtain ⟨t, ht, hbits⟩ := putBits_done (xs := c) (s := s.skip 1) hsnk (hw.skip 1)
      (BitRoom.mono (n := (c :: cs).flatten.length) hr (by simp))
    have htrest : t.rest = more := by rw [hbits.rest, skip_rest, hrest]; rfl
    have htcode : t.codeAt = s.codeAt := funext hbits.codeAt
    obtain ⟨u, hu, hbits'⟩ := ih (fuel := fuel) (k := k + 1) (s := t) (hbits.srcAttached.trans hsrc)
      (hbits.snkAttached.trans hsnk) (hbits.willing (hw.skip 1)) (by rw [htrest, htcode, hmore])
      (hbits.bitRoom (show BitRoom _ s by simpa using hr)) (by simpa using hf)
    refine ⟨u, ?_, ?_⟩
    · simp only [encScanLoop, srcRead_rest hsrc hw hrest, skip_codeAt, hb, ht, andThen_done, hu, List.length_cons]
      rw [show k + 1 + cs.length = k + (cs.length + 1) by omega]
    · have := (hbits.skip cs.length).trans hbits'
      rwa [skip_skip, Nat.add_comm 1] at this

/-- BW_FLUSH writes the bits pending, padded to a byte (45_bitstream.md R139). -/
theorem bwFlushBody_done {s : State} (ha : s.snkAttached = true) (hw : Willing s) (hr : Room 1 s) :
    ∃ b pad, bwFlushBody s = .done () (setAux 0 4 (8 - s.nacc.val) (setRes 1 ((bwReset s).wrote [b]))) ∧
      byteBits b = s.pending ++ pad := by
  refine ⟨s.acc, (byteBits s.acc).drop s.nacc.val, ?_, (List.take_append_drop _ _).symm⟩
  rw [bwFlushBody, putByte_wrote (s := bwReset s) ha hw hr]
  rfl

end Sys2Proof.Machine
end

section
/-! PROOF. The payload reader (45_bitstream.md R141 to R147): a path's bits lead to its leaf. -/

namespace Sys2Proof.Machine

/-- The loop bound of the walks is the number of bits to come, and one more. -/
theorem bitsLeft_eq (s : State) : s.bitsLeft = s.upcoming.length + 1 := by
  have := s.nleft.isLt
  simp only [State.bitsLeft, State.upcoming, List.length_append, List.length_drop, length_byteBits, length_bytesBits,
    rest_length]
  omega

/-- `t` is `s` after the bits before `more` have been taken from a willing source. -/
def BitsTaken (s : State) (more : List Bool) (t : State) : Prop :=
  OnlyReader s t ∧ Willing t ∧ t.upcoming = more

theorem BitsTaken.trans {s t u : State} {xs ys : List Bool} (h : BitsTaken s xs t) (h' : BitsTaken t ys u) :
    BitsTaken s ys u := by
  obtain ⟨hst, _, _⟩ := h
  obtain ⟨htu, hw, hu⟩ := h'
  exact ⟨hst.trans htu, hw, hu⟩

theorem OnlyReader.srcAttached {s t : State} (h : OnlyReader s t) : t.srcAttached = s.srcAttached := by
  obtain ⟨c, n, p, d, rfl⟩ := h; rfl

theorem OnlyReader.snkAttached {s t : State} (h : OnlyReader s t) : t.snkAttached = s.snkAttached := by
  obtain ⟨c, n, p, d, rfl⟩ := h; rfl

theorem OnlyReader.nodes {s t : State} (h : OnlyReader s t) : t.nodes = s.nodes := by
  obtain ⟨c, n, p, d, rfl⟩ := h; rfl

theorem OnlyReader.node {s t : State} (h : OnlyReader s t) (i : NodeIdx) : t.node i = s.node i := by
  obtain ⟨c, n, p, d, rfl⟩ := h; rfl

theorem OnlyReader.snk {s t : State} (h : OnlyReader s t) : t.snk = s.snk := by
  obtain ⟨c, n, p, d, rfl⟩ := h; rfl

/-- With no bit of CUR left, the bits to come are those of the rest of the source. -/
theorem upcoming_eq_of_nleft {s : State} (h : s.nleft.val = 0) : s.upcoming = bytesBits s.rest := by
  simp [State.upcoming, h, List.drop_of_length_le]

/-- GetBit takes the first bit to come. -/
theorem getBit_done {x : Bool} {more : List Bool} {s : State} (ha : s.srcAttached = true) (hw : Willing s)
    (hu : s.upcoming = x :: more) : ∃ t, getBit s = .done x t ∧ BitsTaken s more t := by
  by_cases h0 : s.nleft.val = 0
  · have hup := upcoming_eq_of_nleft h0
    cases hrest : s.rest with
    | nil => simp [hup, hrest, bytesBits] at hu
    | cons b bs =>
      have hbits : b.getLsbD 7 :: ((byteBits b).drop 1 ++ bytesBits bs) = x :: more := by
        rw [← hu, hup, hrest, ← List.cons_append, ← drop_byteBits b (n := 0) (by decide)]
        rfl
      obtain ⟨rfl, rfl⟩ := List.cons.inj hbits
      refine ⟨_, by rw [getBit_fetched h0, getByte_rest ha hw hrest]; rfl, ⟨b, 7, _, _, rfl⟩, hw.skip 1, ?_⟩
      show (byteBits b).drop (8 - 7) ++ bytesBits (s.skip 1).rest = _
      rw [skip_rest, hrest]
      rfl
  · obtain ⟨k, hk⟩ : ∃ k : Fin 9, s.nleft.val = k.val + 1 :=
      ⟨⟨s.nleft.val - 1, by omega⟩, (Nat.sub_add_cancel (Nat.pos_of_ne_zero h0)).symm⟩
    have hk8 : k.val < 8 := by have := s.nleft.isLt; omega
    have hbits : s.cur.getLsbD k.val :: ((byteBits s.cur).drop (8 - k.val) ++ bytesBits s.rest) = x :: more := by
      rw [← hu, State.upcoming, hk, drop_byteBits s.cur (n := 8 - (k.val + 1)) (by omega),
        show 7 - (8 - (k.val + 1)) = k.val by omega, show 8 - (k.val + 1) + 1 = 8 - k.val by omega, List.cons_append]
    obtain ⟨rfl, rfl⟩ := List.cons.inj hbits
    exact ⟨_, getBit_buffered hk, ⟨s.cur, k, s.srcPos, s.draws, rfl⟩, hw, rfl⟩

/-- The cursor's walk along a path of the tree: it takes the path's bits and ends at a leaf of its symbol. -/
theorem decWalk_done {tree : CodeTree} {sym : Byte} {path more : List Bool} {fuel : Nat} {c : NodeIdx} {s : State}
    (ht : HoldsTree s.nodes tree c) (hp : (sym, path) ∈ tree.paths) (hu : s.upcoming = path ++ more)
    (hf : path.length < fuel) (ha : s.srcAttached = true) (hw : Willing s) :
    ∃ i t, decWalk fuel c s = .done i t ∧ (t.node i).sym = sym ∧ BitsTaken s more t := by
  obtain ⟨fuel, rfl⟩ := Nat.exists_eq_add_one_of_ne_zero (Nat.ne_zero_of_lt hf)
  induction tree generalizing path fuel c s with
  | leaf sym' =>
    obtain ⟨n, hn, hk, hs⟩ := ht
    simp only [CodeTree.paths, List.mem_singleton, Prod.mk.injEq] at hp
    obtain ⟨rfl, rfl⟩ := hp
    have hn : s.node? c = some n := hn
    exact ⟨c, s, by simp [decWalk, hn, hk], by simp [State.node, hn, hs], ⟨s.cur, s.nleft, s.srcPos, s.draws, rfl⟩, hw,
      hu⟩
  | node l r ihl ihr =>
    obtain ⟨n, hn, hk, hl, hr⟩ := ht
    have hn : s.node? c = some n := hn
    obtain ⟨x, q, rfl⟩ : ∃ x q, path = x :: q := by
      simp only [CodeTree.paths, List.mem_append, List.mem_map, Prod.mk.injEq] at hp
      rcases hp with ⟨p, _, _, rfl⟩ | ⟨p, _, _, rfl⟩ <;> exact ⟨_, _, rfl⟩
    obtain ⟨t, hbit, htaken⟩ := getBit_done ha hw hu
    have hreader := htaken.1
    obtain ⟨fuel, rfl⟩ := Nat.exists_eq_add_one_of_ne_zero (n := fuel) (by simp at hf; omega)
    have hwalk : ∃ i u, decWalk (fuel + 1) (descend n x) t = .done i u ∧ (u.node i).sym = sym ∧
        BitsTaken t more u := by
      simp only [CodeTree.paths, List.mem_append, List.mem_map, Prod.mk.injEq, List.cons.injEq] at hp
      rcases hp with ⟨p, hp, rfl, rfl, rfl⟩ | ⟨p, hp, rfl, rfl, rfl⟩
      · exact ihl (by rw [hreader.nodes]; exact hl) hp htaken.2.2 (hreader.srcAttached.trans ha) htaken.2.1 fuel
          (by simpa using hf)
      · exact ihr (by rw [hreader.nodes]; exact hr) hp htaken.2.2 (hreader.srcAttached.trans ha) htaken.2.1 fuel
          (by simpa using hf)
    obtain ⟨i, u, hwalk, hsym, htaken'⟩ := hwalk
    refine ⟨i, u, ?_, hsym, htaken.trans htaken'⟩
    rw [decWalk, hn]
    simp only [hk, hbit, andThen_done, hwalk]

/-- `t` is `s` after the symbols `out` have been decoded, with the bits `more` to come. -/
def Decoded (s : State) (out : List Byte) (more : List Bool) (t : State) : Prop :=
  (∃ c n p d res aux, t = { s with
    cur := c, nleft := n, srcPos := p, draws := d, snk := s.snk ++ out
    remain := s.remain - BitVec.ofNat 64 out.length, res := res, resAux := aux }) ∧
  Willing t ∧ t.upcoming = more

theorem Decoded.refl {s : State} (hw : Willing s) : Decoded s [] s.upcoming s :=
  ⟨⟨s.cur, s.nleft, s.srcPos, s.draws, s.res, s.resAux, by simp⟩, hw, rfl⟩

theorem Decoded.trans {s t u : State} {xs ys : List Byte} {a b : List Bool} (h : Decoded s xs a t) (h' : Decoded t ys b u) :
    Decoded s (xs ++ ys) b u := by
  obtain ⟨⟨_, _, _, _, _, _, rfl⟩, _, _⟩ := h
  obtain ⟨⟨c, n, p, d, res, aux, rfl⟩, hw, hu⟩ := h'
  refine ⟨⟨c, n, p, d, res, aux, ?_⟩, hw, hu⟩
  simp [BitVec.ofNat_add, BitVec.sub_sub]

theorem Decoded.snk {s t : State} {out : List Byte} {more : List Bool} (h : Decoded s out more t) :
    t.snk = s.snk ++ out := by
  obtain ⟨⟨c, n, p, d, res, aux, rfl⟩, _, _⟩ := h; rfl

theorem Decoded.errCode {s t : State} {out : List Byte} {more : List Bool} (h : Decoded s out more t) :
    t.errCode = s.errCode := by
  obtain ⟨⟨c, n, p, d, res, aux, rfl⟩, _, _⟩ := h; rfl

/-- DEC_SYMBOL after its checks decodes one path (45_bitstream.md R145). -/
theorem decSymbolCore_done {tree : CodeTree} {sym : Byte} {path more : List Bool} {s : State}
    (ht : HoldsTree s.nodes tree s.root) (hp : (sym, path) ∈ tree.paths) (hu : s.upcoming = path ++ more)
    (hsrc : s.srcAttached = true) (hsnk : s.snkAttached = true) (hw : Willing s) (hr : Room 1 s) :
    ∃ t, decSymbolCore s = .done () t ∧ Decoded s [sym] more t := by
  obtain ⟨i, t, hwalk, hsym, hreader, hwt, hut⟩ := decWalk_done (fuel := s.bitsLeft) ht hp hu
    (by rw [bitsLeft_eq, hu, List.length_append]; omega) hsrc hw
  have hput := putByte_wrote (b := (t.node i).sym) (s := t) (hreader.snkAttached.trans hsnk) hwt
    (by simpa [Room, hreader.snk] using hr)
  rw [hsym] at hput
  obtain ⟨c, n, p, d, rfl⟩ := hreader
  refine ⟨_, ?_, ⟨c, n, p, d.drop 1, sym.setWidth 64, putField s.resAux 0 9 i.toNat, rfl⟩, hwt.wrote [sym], hut⟩
  simp only [decSymbolCore, hwalk, andThen_done, emitLeaf, hsym, hput]
  rfl

/-- DEC_RUN's loop decodes REMAIN paths (45_bitstream.md R147). -/
theorem decRunLoop_done {tree : CodeTree} {ps : List (Byte × Code)} {more : List Bool} {k : Nat} {s : State}
    (ht : HoldsTree s.nodes tree s.root) (hp : ∀ p ∈ ps, p ∈ tree.paths) (hrem : s.remain.toNat = ps.length)
    (hu : s.upcoming = (ps.map Prod.snd).flatten ++ more) (hsrc : s.srcAttached = true) (hsnk : s.snkAttached = true)
    (hw : Willing s) (hr : Room ps.length s) :
    ∃ t, decRunLoop ps.length k s = .done (k + ps.length) t ∧ Decoded s (ps.map Prod.fst) more t := by
  induction ps generalizing k s with
  | nil =>
    refine ⟨s, rfl, ?_⟩
    have : s.upcoming = more := by simpa using hu
    exact this ▸ .refl hw
  | cons p ps ih =>
    have hne : s.remain ≠ 0 := by rintro h; simp [h] at hrem
    obtain ⟨t, hsym, hdec⟩ := decSymbolCore_done (sym := p.1) (path := p.2)
      (more := (ps.map Prod.snd).flatten ++ more) ht (hp p (by simp)) (by simpa using hu) hsrc hsnk hw (hr.mono (by simp))
    have htail : ∃ u, decRunLoop ps.length (k + 1) t = .done (k + 1 + ps.length) u ∧
        Decoded t (ps.map Prod.fst) more u := by
      obtain ⟨⟨_, _, _, _, _, _, rfl⟩, hwt, hut⟩ := hdec
      refine ih ht (fun q hq => hp q (by simp [hq])) ?_ hut hsrc hsnk hwt ?_
      · simp only [List.length_cons] at hrem
        simp only [List.length_singleton]
        bv_omega
      · simp only [Room, List.length_append, List.length_cons, List.length_nil] at hr ⊢
        omega
    obtain ⟨u, hloop, hdec'⟩ := htail
    refine ⟨u, ?_, hdec.trans hdec'⟩
    simp only [List.length_cons, decRunLoop, if_neg hne, hsym, andThen_done, hloop]
    rw [show k + 1 + ps.length = k + (ps.length + 1) by omega]

/-- DEC_RUN after its check decodes REMAIN paths. -/
theorem decRunCore_done {tree : CodeTree} {ps : List (Byte × Code)} {more : List Bool} {s : State}
    (ht : HoldsTree s.nodes tree s.root) (hp : ∀ p ∈ ps, p ∈ tree.paths) (hrem : s.remain.toNat = ps.length)
    (hu : s.upcoming = (ps.map Prod.snd).flatten ++ more) (hsrc : s.srcAttached = true) (hsnk : s.snkAttached = true)
    (hw : Willing s) (hr : Room ps.length s) :
    ∃ t, decRunCore s = .done () t ∧ Decoded s (ps.map Prod.fst) more t := by
  obtain ⟨t, hloop, ⟨c, n, p, d, res, aux, rfl⟩, hwt, hut⟩ := decRunLoop_done (k := 0) ht hp hrem hu hsrc hsnk hw hr
  refine ⟨_, ?_, ⟨c, n, p, d, BitVec.ofNat 64 (0 + ps.length), aux, rfl⟩, hwt, hut⟩
  rw [decRunCore, hrem, hloop]
  rfl

end Sys2Proof.Machine
end

section
/-! PROOF. The histogram scan (42_tree_builder.md R109): every symbol's count is its number of occurrences. -/

namespace Sys2Proof.Machine

theorem mem_allSymbols (sym : Byte) : sym ∈ allSymbols :=
  List.mem_map.mpr ⟨sym.toNat, List.mem_range.mpr sym.isLt, BitVec.ofNat_toNat 8 sym⟩

theorem nodup_allSymbols : allSymbols.Nodup := by
  refine List.Nodup.map_on (fun a ha b hb h => ?_) List.nodup_range
  have := congrArg BitVec.toNat h
  simp only [List.mem_range] at ha hb
  simpa [Nat.mod_eq_of_lt ha, Nat.mod_eq_of_lt hb] using this

/-- Every byte of the string counted. -/
def countAll (bs : List Byte) (s : State) : State := bs.foldl (fun t b => countSymbol b t) s

theorem countAll_cons (b : Byte) (bs : List Byte) (s : State) : countAll (b :: bs) s = countAll bs (countSymbol b s) := rfl

/-- Counting changes HIST and TOTAL alone. -/
theorem countAll_frame (bs : List Byte) (s : State) : ∃ h n, countAll bs s = { s with hist := h, total := n } := by
  induction bs generalizing s with
  | nil => exact ⟨s.hist, s.total, rfl⟩
  | cons b bs ih =>
    obtain ⟨h, n, heq⟩ := ih (countSymbol b s)
    exact ⟨h, n, heq⟩

theorem histAt_countSymbol (b sym : Byte) (s : State) :
    (countSymbol b s).histAt sym = if b = sym then s.histAt sym + 1 else s.histAt sym := by
  simp only [State.histAt, countSymbol_hist, Vector.getElem_set, BitVec.toNat_inj]
  split
  · next h => subst h; rfl
  · rfl

theorem histAt_countAll (bs : List Byte) (sym : Byte) (s : State) :
    (countAll bs s).histAt sym = s.histAt sym + BitVec.ofNat 64 (bs.count sym) := by
  induction bs generalizing s with
  | nil => simp [countAll]
  | cons b bs ih =>
    rw [countAll_cons, ih, histAt_countSymbol, List.count_cons]
    by_cases h : b = sym
    · simp only [h, if_true, beq_self_eq_true, Nat.add_comm (bs.count sym), BitVec.ofNat_add, BitVec.add_assoc]
      rfl
    · simp [h]

theorem total_countAll (bs : List Byte) (s : State) : (countAll bs s).total = s.total + BitVec.ofNat 64 bs.length := by
  induction bs generalizing s with
  | nil => simp [countAll]
  | cons b bs ih =>
    rw [countAll_cons, ih, List.length_cons, Nat.add_comm, BitVec.ofNat_add, ← BitVec.add_assoc]
    rfl

/-- HIST_SCAN's loop counts the rest of the source. -/
theorem histScanLoop_done {bs : List Byte} {fuel k : Nat} {s : State} (ha : s.srcAttached = true) (hw : Willing s)
    (hr : s.rest = bs) (htot : s.total.toNat + bs.length ≤ Config.maxCount) (hf : bs.length < fuel) :
    histScanLoop fuel k s = .done (k + bs.length) (countAll bs (s.skip bs.length)) := by
  induction bs generalizing fuel k s with
  | nil =>
    obtain ⟨fuel, rfl⟩ := Nat.exists_eq_add_one_of_ne_zero (Nat.ne_zero_of_lt hf)
    simp [histScanLoop, srcRead_eof ha hr, countAll]
  | cons b bs ih =>
    obtain ⟨fuel, rfl⟩ := Nat.exists_eq_add_one_of_ne_zero (Nat.ne_zero_of_lt hf)
    simp only [List.length_cons, Config.maxCount] at htot
    have hfull : (s.skip 1).totalFull = false := decide_eq_false (by simp only [skip_total, Config.maxCount]; omega)
    have htot' : (s.total + 1).toNat = s.total.toNat + 1 := by bv_omega
    have hstep := ih (fuel := fuel) (k := k + 1) (s := countSymbol b (s.skip 1)) ha (hw.skip 1)
      ((skip_rest 1 s).trans (by rw [hr]; rfl))
      (by simp only [countSymbol_total, skip_total, htot', Config.maxCount]; omega) (by simpa using hf)
    have hskip : (countSymbol b (s.skip 1)).skip bs.length = countSymbol b (s.skip (bs.length + 1)) := by
      rw [Nat.add_comm, ← skip_skip]
      rfl
    simp only [histScanLoop, srcRead_rest ha hw hr, hfull, hstep, hskip, countAll_cons, List.length_cons]
    rw [show k + 1 + bs.length = k + (bs.length + 1) by omega]
    rfl

/-- HIST_SCAN's body counts the rest of the source. -/
theorem histScanBody_done {s : State} (ha : s.srcAttached = true) (hw : Willing s)
    (htot : s.total.toNat + s.rest.length ≤ Config.maxCount) :
    histScanBody s =
      .done () (setRes (BitVec.ofNat 64 s.rest.length) (countAll s.rest (s.skip s.rest.length))) := by
  rw [histScanBody, histScanLoop_done ha hw rfl htot (by rw [rest_length, State.readsLeft]; omega), Nat.zero_add]
  rfl

/-- The symbols present after a scan from a cleared histogram are the bytes of the source, each once. -/
theorem present_perm_dedup {s : State} {src : List Byte} (hlen : src.length < 2 ^ 64)
    (h : ∀ sym, s.histAt sym = BitVec.ofNat 64 (src.count sym)) : s.present.Perm src.dedup := by
  refine (List.perm_ext_iff_of_nodup (nodup_allSymbols.filter _) src.nodup_dedup).mpr fun sym => ?_
  have hle : src.count sym < 2 ^ 64 := lt_of_le_of_lt List.count_le_length hlen
  have hne : (BitVec.ofNat 64 (src.count sym) ≠ 0) ↔ src.count sym ≠ 0 := by
    rw [Ne, ← BitVec.toNat_inj, BitVec.toNat_ofNat, Nat.mod_eq_of_lt hle]
    rfl
  simp only [List.mem_filter, mem_allSymbols, true_and, h, decide_eq_true_eq, hne, List.mem_dedup,
    ← Nat.pos_iff_ne_zero, List.count_pos_iff]

/-- Their counts sum to the number of bytes. -/
theorem sum_histAt_present {s : State} {src : List Byte} (hlen : src.length < 2 ^ 64)
    (h : ∀ sym, s.histAt sym = BitVec.ofNat 64 (src.count sym)) :
    (s.present.map s.histAt).sum = BitVec.ofNat 64 src.length := by
  have sum_ofNat (ns : List Nat) : (ns.map (BitVec.ofNat 64)).sum = BitVec.ofNat 64 ns.sum := by
    induction ns with
    | nil => rfl
    | cons n ns ih => simp [ih, BitVec.ofNat_add]
  calc (s.present.map s.histAt).sum
      = (src.dedup.map s.histAt).sum := ((present_perm_dedup hlen h).map _).sum_eq
    _ = ((src.dedup.map fun sym => src.count sym).map (BitVec.ofNat 64)).sum := by
      rw [List.map_map]; exact congrArg List.sum (List.map_congr_left fun sym _ => h sym)
    _ = BitVec.ofNat 64 src.length := by rw [sum_ofNat, List.sum_map_count_dedup_eq_length]

theorem length_present_le (s : State) : s.present.length ≤ 256 :=
  le_trans (List.length_filter_le _ _) (by simp [allSymbols])

end Sys2Proof.Machine
end

section
/-! PROOF. TREE_BUILD (42_tree_builder.md R112 to R115): PQ holds a forest over the symbols present, which the joins make one
tree. -/

namespace Sys2Proof.Machine

/-! ### Changes to the arena and PQ -/

/-- Only the arena, PQ and SEQ differ, and every record is kept. -/
def ArenaGrown (s t : State) : Prop :=
  (∃ ns q n, t = { s with nodes := ns, pq := q, seq := n }) ∧ NodesKeep s.nodes t.nodes

theorem ArenaGrown.refl (s : State) : ArenaGrown s s := ⟨⟨s.nodes, s.pq, s.seq, rfl⟩, .refl _⟩

theorem ArenaGrown.trans {s t u : State} (h : ArenaGrown s t) (h' : ArenaGrown t u) : ArenaGrown s u := by
  obtain ⟨⟨ns, q, n, rfl⟩, hk⟩ := h
  obtain ⟨⟨ns', q', n', rfl⟩, hk'⟩ := h'
  exact ⟨⟨ns', q', n', rfl⟩, hk.trans hk'⟩

theorem ArenaGrown.histAt {s t : State} (h : ArenaGrown s t) : t.histAt = s.histAt := by
  obtain ⟨⟨ns, q, n, rfl⟩, _⟩ := h; rfl

/-- A kept record keeps its weight. -/
theorem ArenaGrown.weight {s t : State} {i : NodeIdx} (h : ArenaGrown s t) (hi : i.toNat < s.nodes.length) :
    (t.node i).weight = (s.node i).weight := by
  obtain ⟨p, q, hn⟩ := h.2 i.toNat _ (List.getElem?_eq_getElem hi)
  simp [State.node, State.node?, hn, List.getElem?_eq_getElem hi]

theorem alloc_grown (k : NodeKind) (sym : Byte) (w : Count) (l r : NodeIdx) (s : State) :
    ArenaGrown s (alloc k sym w l r s) :=
  ⟨⟨_, s.pq, s.seq, rfl⟩, nodesKeep_append _ _⟩

theorem pqInsert_grown (i : NodeIdx) (s : State) : ArenaGrown s (pqInsert i s) :=
  ⟨⟨_, _, _, rfl⟩, nodesKeep_modify_inPq _ _ _⟩

/-- What Join does after its Alloc. -/
theorem alloc_join_grown (a b : NodeIdx) (s : State) :
    ArenaGrown (alloc .internal 0 ((s.node a).weight + (s.node b).weight) a b s) (join a b s) :=
  ⟨⟨_, s.pq, s.seq, rfl⟩, (nodesKeep_modify_parented _ a.toNat true).trans (nodesKeep_modify_parented _ b.toNat true)⟩

theorem pqExtractMin_grown {s t : State} {e : PqEntry} (h : pqExtractMin s = some (e, t)) :
    ArenaGrown s t ∧ t.nodes.length = s.nodes.length ∧ t.pq = s.pq.filter fun x => decide (x ≠ e) := by
  obtain ⟨_, rfl⟩ := pqExtractMin_eq_some.mp h
  exact ⟨⟨⟨_, _, s.seq, rfl⟩, nodesKeep_modify_inPq _ _ _⟩, by simp, rfl⟩

/-- PqExtractMin finds an entry in a queue that is not empty. -/
theorem pqExtractMin_exists {s : State} (h : s.pq ≠ []) : ∃ e t, pqExtractMin s = some (e, t) := by
  cases hl : s.leastOf s.pq with
  | none => exact absurd (leastOf_eq_none.mp hl) h
  | some e => exact ⟨e, _, pqExtractMin_eq_some.mpr ⟨hl, rfl⟩⟩

/-! ### The forest in PQ -/

/-- PQ's entries, each with the tree that stands at its node. -/
structure Grove (s : State) (f : List (PqEntry × CodeTree)) : Prop where
  entries : (f.map Prod.fst).Perm s.pq
  nodup : (f.map fun p => p.1.node).Nodup
  holds : ∀ p ∈ f, HoldsTree s.nodes p.2 p.1.node

/-- The sum of the roots' weights. -/
def groveWeight (s : State) (f : List (PqEntry × CodeTree)) : Count := (f.map fun p => (s.node p.1.node).weight).sum

theorem groveWeight_cons (s : State) (p : PqEntry × CodeTree) (f : List (PqEntry × CodeTree)) :
    groveWeight s (p :: f) = (s.node p.1.node).weight + groveWeight s f := by
  rw [groveWeight, List.map_cons, List.sum_cons, groveWeight]

theorem groveWeight_perm {f f' : List (PqEntry × CodeTree)} (s : State) (h : f.Perm f') :
    groveWeight s f = groveWeight s f' :=
  (h.map _).sum_eq

theorem groveWeight_grown {s t : State} {f : List (PqEntry × CodeTree)} (hf : ∀ p ∈ f, HoldsTree s.nodes p.2 p.1.node)
    (ht : ArenaGrown s t) : groveWeight t f = groveWeight s f :=
  congrArg List.sum (List.map_congr_left fun p hp => ht.weight (hf p hp).lt_length)

/-- PqExtractMin takes one tree out of the forest. -/
theorem Grove.extract {s t : State} {e : PqEntry} {f : List (PqEntry × CodeTree)} (h : Grove s f)
    (he : pqExtractMin s = some (e, t)) : ∃ tree f', f.Perm ((e, tree) :: f') ∧ Grove t f' := by
  obtain ⟨hgrown, _, hpq⟩ := pqExtractMin_grown he
  have hmem := h.entries.mem_iff.mpr (leastOf_mem (pqExtractMin_eq_some.mp he).1)
  obtain ⟨⟨e', tree⟩, hp, he'⟩ := List.mem_map.mp hmem
  obtain rfl : e' = e := he'
  obtain ⟨xs, ys, rfl⟩ := List.append_of_mem hp
  have hperm := List.perm_middle (a := (e', tree)) (l₁ := xs) (l₂ := ys)
  have hnodup := (hperm.map fun p => p.1.node).nodup_iff.mp h.nodup
  rw [List.map_cons, List.nodup_cons] at hnodup
  refine ⟨tree, xs ++ ys, hperm, ?_, hnodup.2, fun p hp => (h.holds p (hperm.mem_iff.mpr (by simp [hp]))).keep hgrown.2⟩
  have hkeep : ((xs ++ ys).map Prod.fst).filter (fun x => decide (x ≠ e')) = (xs ++ ys).map Prod.fst :=
    List.filter_eq_self.mpr fun x hx => decide_eq_true fun hxe => by
      obtain ⟨p, hp, rfl⟩ := List.mem_map.mp hx
      exact hnodup.1 (List.mem_map.mpr ⟨p, hp, congrArg PqEntry.node hxe⟩)
  have hentries := (((hperm.map Prod.fst).symm.trans h.entries).filter fun x => decide (x ≠ e'))
  rw [List.map_cons, List.filter_cons_of_neg (by simp), hkeep, ← hpq] at hentries
  exact hentries

/-- A new node put into PQ is a new tree of the forest. -/
theorem Grove.insert {s t : State} {i : NodeIdx} {tree : CodeTree} {f : List (PqEntry × CodeTree)} (h : Grove s f)
    (hs : ArenaGrown s t) (hpq : t.pq = s.pq) (hi : i.toNat = s.nodes.length) (ht : HoldsTree t.nodes tree i) :
    Grove (pqInsert i t) ((⟨i, t.seq⟩, tree) :: f) where
  entries := by
    rw [pqInsert_pq, hpq]
    exact (h.entries.cons _).trans (List.perm_append_singleton _ _).symm
  nodup := by
    rw [List.map_cons, List.nodup_cons]
    refine ⟨fun hmem => ?_, h.nodup⟩
    obtain ⟨p, hp, hpi⟩ := List.mem_map.mp hmem
    have := (h.holds p hp).lt_length
    rw [hpi, hi] at this
    exact lt_irrefl _ this
  holds := by
    have hkeep := (pqInsert_grown i t).2
    rintro p (_ | ⟨_, hp⟩)
    · exact ht.keep hkeep
    · exact (h.holds p hp).keep (hs.2.trans hkeep)

/-- The forest's leaves are the symbols `syms`, its roots' weights sum to `w`, and the arena holds nothing else. -/
structure Planted (s : State) (f : List (PqEntry × CodeTree)) (syms : List Byte) (w : Count) : Prop where
  grove : Grove s f
  leaves : (f.flatMap fun p => p.2.leaves).Perm syms
  weight : groveWeight s f = w
  count : s.nodes.length + f.length = 2 * syms.length

theorem Planted.perm_syms {s : State} {f : List (PqEntry × CodeTree)} {syms syms' : List Byte} {w : Count}
    (h : Planted s f syms w) (hp : syms.Perm syms') : Planted s f syms' w :=
  { h with leaves := h.leaves.trans hp, count := hp.length_eq ▸ h.count }

theorem nextIdx_toNat {s : State} (h : s.nodes.length < 512) : s.nextIdx.toNat = s.nodes.length := ofNat9_toNat h

/-- The record Alloc makes. -/
theorem alloc_getElem?_nextIdx {k : NodeKind} {sym : Byte} {w : Count} {l r : NodeIdx} {s : State}
    (h : s.nodes.length < 512) : (alloc k sym w l r s).nodes[s.nextIdx.toNat]? =
      some { kind := k, sym := sym, weight := w, left := l, right := r, inPq := false, parented := false } := by
  rw [nextIdx_toNat h, alloc_nodes, List.getElem?_append_right (le_refl _)]
  simp

theorem weight_alloc_nextIdx {k : NodeKind} {sym : Byte} {w : Count} {l r : NodeIdx} {s : State}
    (h : s.nodes.length < 512) : ((alloc k sym w l r s).node s.nextIdx).weight = w := by
  rw [State.node, State.node?, alloc_getElem?_nextIdx h]
  rfl

/-- A leaf put into PQ is planted. -/
theorem Planted.leaf {s : State} {f : List (PqEntry × CodeTree)} {syms : List Byte} {w : Count} (h : Planted s f syms w)
    (hlen : syms.length < 256) (sym : Byte) (c : Count) :
    ∃ f', Planted (pqInsert s.nextIdx (alloc .leaf sym c nilIdx nilIdx s)) f' (sym :: syms) (c + w) := by
  have hcount := h.count
  have hn : s.nodes.length < 512 := by omega
  have hgrown := alloc_grown .leaf sym c nilIdx nilIdx s
  have hrec := alloc_getElem?_nextIdx (k := .leaf) (sym := sym) (w := c) (l := nilIdx) (r := nilIdx) hn
  have hlt : s.nextIdx.toNat < (alloc .leaf sym c nilIdx nilIdx s).nodes.length := (List.getElem?_eq_some_iff.mp hrec).1
  have hgrown' := hgrown.trans (pqInsert_grown s.nextIdx _)
  refine ⟨_, h.grove.insert hgrown rfl (nextIdx_toNat hn) (tree := .leaf sym) ⟨_, hrec, rfl, rfl⟩, ?_, ?_, ?_⟩
  · simpa [CodeTree.leaves] using h.leaves
  · rw [groveWeight_cons, groveWeight_grown h.grove.holds hgrown', h.weight, (pqInsert_grown s.nextIdx _).weight hlt,
      weight_alloc_nextIdx hn]
  · simp
    omega

/-- The symbols of a list whose count is nonzero. -/
def State.presentIn (s : State) (xs : List Byte) : List Byte := xs.filter fun sym => s.histAt sym ≠ 0

theorem presentIn_allSymbols (s : State) : s.presentIn allSymbols = s.present := rfl

theorem presentIn_cons_absent {s : State} {sym : Byte} (xs : List Byte) (h : s.histAt sym = 0) :
    s.presentIn (sym :: xs) = s.presentIn xs :=
  List.filter_cons_of_neg (by simpa using h)

theorem presentIn_cons_present {s : State} {sym : Byte} (xs : List Byte) (h : s.histAt sym ≠ 0) :
    s.presentIn (sym :: xs) = sym :: s.presentIn xs :=
  List.filter_cons_of_pos (by simpa using h)

theorem ArenaGrown.presentIn {s t : State} (h : ArenaGrown s t) (xs : List Byte) : t.presentIn xs = s.presentIn xs := by
  rw [State.presentIn, h.histAt, State.presentIn]

/-- The seeding plants one leaf per symbol counted (R112). -/
theorem Planted.seeded {s : State} {f : List (PqEntry × CodeTree)} {syms : List Byte} {w : Count} (xs : List Byte)
    (h : Planted s f syms w) (hlen : syms.length + (s.presentIn xs).length ≤ 256) :
    ArenaGrown s (seedLeaves xs s) ∧
      ∃ f', Planted (seedLeaves xs s) f' (syms ++ s.presentIn xs) (w + ((s.presentIn xs).map s.histAt).sum) := by
  induction xs generalizing s f syms w with
  | nil => exact ⟨.refl s, f, by simpa [seedLeaves, State.presentIn] using h⟩
  | cons sym xs ih =>
    by_cases hz : s.histAt sym = 0
    · rw [presentIn_cons_absent xs hz] at hlen ⊢
      rw [seedLeaves, if_pos hz]
      exact ih h hlen
    · rw [presentIn_cons_present xs hz, List.length_cons] at hlen
      rw [presentIn_cons_present xs hz, seedLeaves, if_neg hz]
      obtain ⟨f', hf'⟩ := h.leaf (by omega) sym (s.histAt sym)
      have hgrown := (alloc_grown .leaf sym (s.histAt sym) nilIdx nilIdx s).trans (pqInsert_grown s.nextIdx _)
      obtain ⟨hrest, f'', hf''⟩ := ih hf' (by rw [hgrown.presentIn, List.length_cons]; omega)
      rw [hgrown.presentIn, hgrown.histAt] at hf''
      have hw : s.histAt sym + w + ((s.presentIn xs).map s.histAt).sum =
          w + ((sym :: s.presentIn xs).map s.histAt).sum := by
        rw [List.map_cons, List.sum_cons, ← add_assoc, add_comm w]
      exact ⟨hgrown.trans hrest, f'', hw ▸ hf''.perm_syms List.perm_middle.symm⟩

/-- One join (R112): the two trees taken out become the subtrees of a new one. -/
theorem Planted.joined {s t u : State} {a b : PqEntry} {f : List (PqEntry × CodeTree)} {syms : List Byte} {w : Count}
    (h : Planted s f syms w) (hlen : syms.length ≤ 256) (ha : pqExtractMin s = some (a, t))
    (hb : pqExtractMin t = some (b, u)) :
    ArenaGrown s (pqInsert u.nextIdx (join a.node b.node u)) ∧ ∃ f', f'.length + 1 = f.length ∧
      Planted (pqInsert u.nextIdx (join a.node b.node u)) f' syms w := by
  obtain ⟨ta, f₁, hf₁, hg₁⟩ := h.grove.extract ha
  obtain ⟨tb, f₂, hf₂, hg₂⟩ := hg₁.extract hb
  obtain ⟨hst, hnt, _⟩ := pqExtractMin_grown ha
  obtain ⟨htu, hnu, _⟩ := pqExtractMin_grown hb
  have hsu := hst.trans htu
  have hperm : f.Perm ((a, ta) :: (b, tb) :: f₂) := hf₁.trans (hf₂.cons _)
  have hcount := h.count
  rw [hperm.length_eq, List.length_cons, List.length_cons] at hcount
  have hn : u.nodes.length < 512 := by omega
  have hholds : ∀ p ∈ (a, ta) :: (b, tb) :: f₂, HoldsTree s.nodes p.2 p.1.node := fun p hp =>
    h.grove.holds p (hperm.mem_iff.mpr hp)
  have hta : HoldsTree s.nodes ta a.node := hholds (a, ta) (by simp)
  have htb : HoldsTree s.nodes tb b.node := hholds (b, tb) (by simp)
  let v := alloc .internal 0 ((u.node a.node).weight + (u.node b.node).weight) a.node b.node u
  have hrec : v.nodes[u.nextIdx.toNat]? = some _ := alloc_getElem?_nextIdx hn
  have huv : ArenaGrown u v := alloc_grown _ _ _ _ _ u
  have hvj : ArenaGrown v (join a.node b.node u) := alloc_join_grown a.node b.node u
  have huj := huv.trans hvj
  have htree : HoldsTree v.nodes (.node ta tb) u.nextIdx :=
    ⟨_, hrec, rfl, hta.keep (hsu.trans huv).2, htb.keep (hsu.trans huv).2⟩
  have hvp := hvj.trans (pqInsert_grown u.nextIdx _)
  refine ⟨(hsu.trans huv).trans hvp, _, ?_, hg₂.insert huj rfl (nextIdx_toNat hn) (htree.keep hvj.2), ?_, ?_, ?_⟩
  · rw [hperm.length_eq]; rfl
  · refine .trans ?_ ((hperm.symm.flatMap_right _).trans h.leaves)
    simp [CodeTree.leaves]
  · have hnew : (v.node u.nextIdx).weight = (u.node a.node).weight + (u.node b.node).weight := weight_alloc_nextIdx hn
    calc groveWeight (pqInsert u.nextIdx (join a.node b.node u)) ((⟨u.nextIdx, u.seq⟩, .node ta tb) :: f₂)
        = (v.node u.nextIdx).weight + groveWeight u f₂ := by
          rw [groveWeight_cons, groveWeight_grown hg₂.holds (huv.trans hvp),
            hvp.weight (List.getElem?_eq_some_iff.mp hrec).1]
      _ = groveWeight u ((a, ta) :: (b, tb) :: f₂) := by rw [hnew, groveWeight_cons, groveWeight_cons, add_assoc]
      _ = groveWeight s f := by rw [groveWeight_grown hholds hsu, groveWeight_perm s hperm]
      _ = w := h.weight
  · simp [join]
    omega

/-- The joins end with one tree (R112). -/
theorem Planted.joinedAll {s : State} {f : List (PqEntry × CodeTree)} {syms : List Byte} {w : Count} {fuel : Nat}
    (h : Planted s f syms w) (hlen : syms.length ≤ 256) (hne : f ≠ []) (hf : f.length ≤ fuel) :
    ∃ t p, joinAll fuel s = .done () t ∧ Planted t [p] syms w ∧ ArenaGrown s t := by
  induction fuel generalizing s f with
  | zero => exact absurd (List.length_eq_zero_iff.mp (Nat.le_zero.mp hf)) hne
  | succ fuel ih =>
    have hpq : s.pq.length = f.length := by rw [← h.grove.entries.length_eq, List.length_map]
    have hpos := List.length_pos_iff.mpr hne
    by_cases hone : s.pq.length ≤ 1
    · obtain ⟨p, rfl⟩ := List.length_eq_one_iff.mp (show f.length = 1 by omega)
      exact ⟨s, p, by rw [joinAll, if_pos hone], h, .refl s⟩
    · obtain ⟨a, t, ha⟩ := pqExtractMin_exists (s := s) (by rintro h0; simp [h0] at hone)
      obtain ⟨ta, f₁, hf₁, hg₁⟩ := h.grove.extract ha
      have hf₁len := hf₁.length_eq
      have ht : t.pq.length = f₁.length := by rw [← hg₁.entries.length_eq, List.length_map]
      rw [List.length_cons] at hf₁len
      obtain ⟨b, u, hb⟩ := pqExtractMin_exists (s := t) (by rintro h0; simp [h0] at ht; omega)
      obtain ⟨hgrown, f', hlen', hplanted⟩ := h.joined hlen ha hb
      obtain ⟨v, p, hv, hp, hgrown'⟩ := ih hplanted (by rintro rfl; simp at hlen'; omega) (by omega)
      refine ⟨v, p, ?_, hp, hgrown.trans hgrown'⟩
      simp only [joinAll, if_neg hone, ha, hb, hv]

/-- The last tree leaves PQ and is the root (R112). -/
theorem Planted.rooted {s : State} {p : PqEntry × CodeTree} {syms : List Byte} {w : Count} (h : Planted s [p] syms w) :
    ∃ ns, takeRoot s = .done () { s with
      nodes := ns, pq := [], root := p.1.node, treeValid := true, res := w
      resAux := putField s.resAux 0 9 p.1.node.toNat } ∧
      NodesKeep s.nodes ns ∧ ns.length = s.nodes.length := by
  have hpq : s.pq = [p.1] := (List.perm_singleton.mp h.grove.entries.symm)
  obtain ⟨e, t, he⟩ := pqExtractMin_exists (s := s) (by simp [hpq])
  obtain rfl : e = p.1 := by simpa [hpq] using leastOf_mem (pqExtractMin_eq_some.mp he).1
  obtain ⟨hgrown, hlen, htpq⟩ := pqExtractMin_grown he
  have hw : (t.node p.1.node).weight = w := by
    rw [hgrown.weight (h.grove.holds p (by simp)).lt_length, ← h.weight]
    simp [groveWeight]
  refine ⟨t.nodes, ?_, hgrown.2, hlen⟩
  rw [takeRoot, he]
  simp only [hw]
  obtain ⟨_, rfl⟩ := pqExtractMin_eq_some.mp he
  have : s.pq.filter (fun x => decide (x ≠ p.1)) = [] := by simp [hpq]
  simp only [this]
  rfl

/-- TREE_BUILD after its check, where TOTAL is the sum of the counts: a tree whose leaves are the symbols present and whose
root's weight is TOTAL. -/
theorem treeBuildCore_done {s : State} (hsum : (s.present.map s.histAt).sum = s.total) (hne : s.present ≠ []) :
    ∃ (t : State) (tree : CodeTree), treeBuildCore s = .done () t ∧
      t = { invalidate s with
        nodes := t.nodes, root := t.root, pq := [], seq := t.seq, treeValid := true, res := s.total, resAux := t.resAux } ∧
      HoldsTree t.nodes tree t.root ∧ tree.leaves.Perm s.present ∧ (t.node t.root).weight = s.total ∧
      tree.size = t.nodes.length := by
  have hempty : Planted (arenaClear s) [] [] 0 := ⟨⟨.refl _, List.nodup_nil, by simp⟩, .refl _, rfl, rfl⟩
  obtain ⟨hgrown, f, hf⟩ := hempty.seeded allSymbols (by
    rw [List.length_nil, Nat.zero_add]; exact length_present_le s)
  have hf : Planted (seedLeaves allSymbols (arenaClear s)) f s.present s.total := by
    have hw : (0 : Count) + (s.present.map s.histAt).sum = s.total := by rw [hsum, zero_add]
    exact hw ▸ hf
  have hfne : f ≠ [] := by
    rintro rfl
    exact hne (List.Perm.nil_eq (by simpa using hf.leaves)).symm
  have hfuel : f.length ≤ (seedLeaves allSymbols (arenaClear s)).pq.length + 1 := by
    rw [← hf.grove.entries.length_eq, List.length_map]; omega
  obtain ⟨t, p, ht, hp, hgrown'⟩ := hf.joinedAll (length_present_le s) hfne hfuel
  obtain ⟨ns, hroot, hkeep, hnlen⟩ := hp.rooted
  have hleaves : p.2.leaves.Perm s.present := by simpa using hp.leaves
  have hcount := hp.count
  obtain ⟨⟨ns', q, n, heq⟩, _⟩ := hgrown.trans hgrown'
  refine ⟨_, p.2, by rw [treeBuildCore]; simp only [ht, andThen_done]; exact hroot, ?_,
    (hp.grove.holds p (by simp)).keep hkeep, hleaves, ?_, ?_⟩
  · rw [heq]; rfl
  · obtain ⟨a, b, hrec⟩ := hkeep p.1.node.toNat _ (List.getElem?_eq_getElem (hp.grove.holds p (by simp)).lt_length)
    rw [← hp.weight]
    simp [State.node, State.node?, hrec, groveWeight,
      List.getElem?_eq_getElem (hp.grove.holds p (by simp)).lt_length]
  · have := p.2.size_add_one
    have := hleaves.length_eq
    rw [List.length_singleton] at hcount
    show p.2.size = ns.length
    omega

end Sys2Proof.Machine
end

section
/-! PROOF. CODE_GEN (43_code_table.md R118): each leaf's path is its symbol's code. -/

namespace Sys2Proof.Machine

theorem codeAt_setCode (sym x : Byte) (c : Code) (s : State) :
    (setCode sym c s).codeAt x = if sym = x then some c else s.codeAt x := by
  simp only [State.codeAt, setCode_codes, Vector.getElem_set, BitVec.toNat_inj]

/-- Walk on a tree of distinct symbols, none of which has a code yet. -/
theorem genWalk_done {tree : CodeTree} {path : Code} {nleaf maxlen : Nat} {s : State} (hnd : tree.leaves.Nodup)
    (hnone : ∀ sym ∈ tree.leaves, s.codeAt sym = none) :
    ∃ t, genWalk tree path nleaf maxlen s =
        .done (nleaf + tree.leaves.length, max maxlen (path.length + tree.depth)) t ∧
      t = { s with codes := t.codes } ∧ (∀ p ∈ tree.paths, t.codeAt p.1 = some (path ++ p.2)) ∧
      ∀ sym, sym ∉ tree.leaves → t.codeAt sym = s.codeAt sym := by
  induction tree generalizing path nleaf maxlen s with
  | leaf sym =>
    have h := hnone sym (by simp [CodeTree.leaves])
    refine ⟨setCode sym path s, by simp [genWalk, h, CodeTree.leaves, CodeTree.depth], rfl, ?_, fun x hx => ?_⟩
    · simp [CodeTree.paths, codeAt_setCode]
    · rw [codeAt_setCode, if_neg (by simpa [CodeTree.leaves, eq_comm] using hx)]
  | node l r ihl ihr =>
    simp only [CodeTree.leaves, List.nodup_append] at hnd
    obtain ⟨hl, hr, hdisj⟩ := hnd
    simp only [CodeTree.leaves, List.mem_append] at hnone
    obtain ⟨t, ht, htf, htl, htn⟩ := ihl (path := path ++ [false]) (nleaf := nleaf) (maxlen := maxlen) hl
      fun sym h => hnone sym (.inl h)
    have hfresh : ∀ sym ∈ r.leaves, t.codeAt sym = none := fun sym h =>
      (htn sym fun hsl => hdisj sym hsl sym h rfl).trans (hnone sym (.inr h))
    obtain ⟨u, hu, huf, hur, hun⟩ := ihr (path := path ++ [true]) (nleaf := nleaf + l.leaves.length)
      (maxlen := max maxlen (path.length + 1 + l.depth)) hr hfresh
    refine ⟨u, ?_, ?_, ?_, ?_⟩
    · simp only [genWalk, ht, andThen_done, hu, CodeTree.leaves, CodeTree.depth, List.length_append, List.length_singleton]
      rw [Nat.add_assoc nleaf, Nat.max_assoc]
      congr 3
      omega
    · rw [huf, htf]
    · intro p hp
      simp only [CodeTree.paths, List.mem_append, List.mem_map] at hp
      rcases hp with ⟨q, hq, rfl⟩ | ⟨q, hq, rfl⟩
      · have hql : q.1 ∈ l.leaves := l.map_fst_paths ▸ List.mem_map_of_mem hq
        rw [hun q.1 fun hqr => hdisj q.1 hql q.1 hqr rfl, htl q hq]
        simp
      · rw [hur q hq]
        simp
    · intro sym hsym
      simp only [CodeTree.leaves, List.mem_append, not_or] at hsym
      rw [hun sym hsym.2, htn sym hsym.1]

/-- CODE_GEN after its check records the paths of the tree at ROOT. -/
theorem codeGenCore_done {tree : CodeTree} {s : State} (ht : s.treeAt s.root = some tree) (hnd : tree.leaves.Nodup) :
    ∃ t, codeGenCore s = .done () t ∧
      t = { s with
        codesValid := true, codes := t.codes, res := BitVec.ofNat 64 tree.leaves.length
        resAux := putField s.resAux 0 8 tree.depth } ∧
      ∀ p ∈ tree.paths, t.codeAt p.1 = some p.2 := by
  obtain ⟨u, hu, huf, hpaths, _⟩ := genWalk_done (tree := tree) (path := []) (nleaf := 0) (maxlen := 0)
    (s := { s with codesValid := false, codes := Vector.replicate 256 none }) hnd
    fun sym _ => Vector.getElem_replicate _
  refine ⟨setAux 0 8 tree.depth (setRes (BitVec.ofNat 64 tree.leaves.length) { u with codesValid := true }), ?_, ?_,
    hpaths⟩
  · rw [codeGenCore, ht]
    simp only [hu, andThen_done, List.length_nil, Nat.zero_add, Nat.zero_max]
  · rw [huf]
    rfl

end Sys2Proof.Machine
end

section
/-! PROOF. COMPRESS and DECOMPRESS over their component bodies (46_codec.md R149 to R155). -/

namespace Sys2Proof.Machine

/-! ### DECOMPRESS -/

/-- The state after SHAPE_READ has read a tree's shape bytes. -/
def State.shapeDone (tree : CodeTree) (s : State) : State :=
  shapeEnd 0 (((arenaClear (dropBits s)).skip tree.shapeBytes.length).withNodes (tree.preorder 0 false))

@[simp] theorem shapeDone_nodes (tree : CodeTree) (s : State) : (s.shapeDone tree).nodes = tree.preorder 0 false := rfl
@[simp] theorem shapeDone_root (tree : CodeTree) (s : State) : (s.shapeDone tree).root = 0 := rfl
@[simp] theorem shapeDone_remain (tree : CodeTree) (s : State) : (s.shapeDone tree).remain = s.remain := rfl
@[simp] theorem shapeDone_srcAttached (tree : CodeTree) (s : State) : (s.shapeDone tree).srcAttached = s.srcAttached := rfl
@[simp] theorem shapeDone_snkAttached (tree : CodeTree) (s : State) : (s.shapeDone tree).snkAttached = s.snkAttached := rfl
@[simp] theorem shapeDone_snk (tree : CodeTree) (s : State) : (s.shapeDone tree).snk = s.snk := rfl
@[simp] theorem shapeDone_errCode (tree : CodeTree) (s : State) : (s.shapeDone tree).errCode = s.errCode := rfl

@[simp] theorem shapeDone_rest (tree : CodeTree) (s : State) :
    (s.shapeDone tree).rest = s.rest.drop tree.shapeBytes.length :=
  skip_rest tree.shapeBytes.length s

theorem Willing.shapeDone {s : State} (h : Willing s) (tree : CodeTree) : Willing (s.shapeDone tree) := h.skip _

/-- SHAPE_READ's body on the shape bytes of a tree. -/
theorem shapeReadBody_done {tree : CodeTree} {more : List Byte} {s : State} (ha : s.srcAttached = true) (hw : Willing s)
    (hr : s.rest = tree.shapeBytes ++ more) (hsize : tree.size ≤ 511) :
    shapeReadBody s = .done () (s.shapeDone tree) := by
  have hfuel : tree.depth < s.readsLeft := by
    have hlen := congrArg List.length hr
    rw [rest_length, List.length_append] at hlen
    have := tree.length_shapeBytes
    have := tree.depth_lt_leaves
    unfold State.readsLeft
    omega
  have hparse := parseShape_done (s := arenaClear (dropBits s)) ha hw hr (by simpa using hsize) hfuel
  rw [shapeReadBody, hparse]
  rfl

/-- The state after SEP_READ has discarded a byte. -/
def State.sepDone (b : Byte) (s : State) : State := sepEnd b ((dropBits s).skip 1)

@[simp] theorem sepDone_nodes (b : Byte) (s : State) : (s.sepDone b).nodes = s.nodes := rfl
@[simp] theorem sepDone_root (b : Byte) (s : State) : (s.sepDone b).root = s.root := rfl
@[simp] theorem sepDone_remain (b : Byte) (s : State) : (s.sepDone b).remain = s.remain := rfl
@[simp] theorem sepDone_nleft (b : Byte) (s : State) : (s.sepDone b).nleft = 0 := rfl
@[simp] theorem sepDone_srcAttached (b : Byte) (s : State) : (s.sepDone b).srcAttached = s.srcAttached := rfl
@[simp] theorem sepDone_snkAttached (b : Byte) (s : State) : (s.sepDone b).snkAttached = s.snkAttached := rfl
@[simp] theorem sepDone_snk (b : Byte) (s : State) : (s.sepDone b).snk = s.snk := rfl
@[simp] theorem sepDone_errCode (b : Byte) (s : State) : (s.sepDone b).errCode = s.errCode := rfl
@[simp] theorem sepDone_rest (b : Byte) (s : State) : (s.sepDone b).rest = s.rest.drop 1 := skip_rest 1 s

theorem Willing.sepDone {s : State} (h : Willing s) (b : Byte) : Willing (s.sepDone b) := h.skip 1

/-- SEP_READ's body discards one byte. -/
theorem sepReadBody_done {b : Byte} {more : List Byte} {s : State} (ha : s.srcAttached = true) (hw : Willing s)
    (hr : s.rest = b :: more) : sepReadBody s = .done () (s.sepDone b) := by
  rw [sepReadBody, getByte_rest (s := dropBits s) ha hw hr]
  rfl

/-- The steps of DECOMPRESS after a header of value other than 0. -/
theorem decompressSteps_done {tree : CodeTree} {sep : Byte} {ps : List (Byte × Code)} {more : List Byte} {pad : List Bool}
    {s : State} (hsrc : s.srcAttached = true) (hsnk : s.snkAttached = true) (hw : Willing s)
    (hsize : tree.size ≤ 511) (hp : ∀ p ∈ ps, p ∈ tree.paths) (hrem : s.remain.toNat = ps.length)
    (hr : s.rest = tree.shapeBytes ++ sep :: more) (hbits : bytesBits more = (ps.map Prod.snd).flatten ++ pad)
    (hroom : Room ps.length s) :
    ∃ t, decompressSteps s = .done () t ∧ t.snk = s.snk ++ ps.map Prod.fst ∧ t.errCode = s.errCode := by
  have hsep : (s.shapeDone tree).rest = sep :: more := by simp [hr]
  have hholds : HoldsTree (tree.preorder 0 false) tree 0 := by
    simpa using holdsTree_preorder tree [] [] false (by simpa using hsize)
  have hup : ((s.shapeDone tree).sepDone sep).upcoming = (ps.map Prod.snd).flatten ++ pad := by
    rw [upcoming_eq_of_nleft (s := (s.shapeDone tree).sepDone sep) (by simp), sepDone_rest, hsep, List.drop_one,
      List.tail_cons, hbits]
  obtain ⟨t, hrun, hdec⟩ := decRunCore_done (s := (s.shapeDone tree).sepDone sep) (by simpa using hholds) hp
    (by simpa using hrem) hup (by simpa using hsrc) (by simpa using hsnk) ((hw.shapeDone tree).sepDone sep)
    (by simpa [Room] using hroom)
  refine ⟨t, ?_, by simpa using hdec.snk, by simpa using hdec.errCode⟩
  rw [decompressSteps, shapeReadBody_done hsrc hw hr hsize, andThen_done,
    sepReadBody_done (s := s.shapeDone tree) hsrc (hw.shapeDone tree) hsep, andThen_done, hrun]

/-- The state of DECOMPRESS after a header of `n` digits of value `v`. -/
def State.headerDone (n : Nat) (v : Count) (s : State) : State :=
  ((dropBits (brReset (arenaClear s))).skip (n + 1)).declared v

@[simp] theorem headerDone_decl (n : Nat) (v : Count) (s : State) : (s.headerDone n v).decl = v := rfl
@[simp] theorem headerDone_rest (n : Nat) (v : Count) (s : State) : (s.headerDone n v).rest = s.rest.drop (n + 1) :=
  skip_rest (n + 1) s

theorem Willing.headerDone {s : State} (h : Willing s) (n : Nat) (v : Count) : Willing (s.headerDone n v) := h.skip _

theorem decompress_header {ds more : List Byte} {s : State} (hsrc : s.srcAttached = true) (hw : Willing s) (hds : ds ≠ [])
    (hd : ∀ b ∈ ds, isDigit b = true) (hv : digitsValue ds < 2 ^ 64) (hr : s.rest = ds ++ 0x2C :: more) :
    hdrReadBody (brReset (arenaClear s)) = .done () (s.headerDone ds.length (BitVec.ofNat 64 (digitsValue ds))) :=
  hdrReadBody_done (s := brReset (arenaClear s)) hsrc hw hr hds hd hv

/-- DECOMPRESS's body on a container of at least one symbol (R152). -/
theorem decompressBody_done {ds more : List Byte} {tree : CodeTree} {sep : Byte} {ps : List (Byte × Code)} {pad : List Bool}
    {s : State} (hsrc : s.srcAttached = true) (hsnk : s.snkAttached = true) (hw : Willing s) (hds : ds ≠ [])
    (hd : ∀ b ∈ ds, isDigit b = true) (hv : digitsValue ds = ps.length) (hlen : ps.length < 2 ^ 64) (hne : ps ≠ [])
    (hsize : tree.size ≤ 511) (hp : ∀ p ∈ ps, p ∈ tree.paths)
    (hr : s.rest = ds ++ 0x2C :: (tree.shapeBytes ++ sep :: more))
    (hbits : bytesBits more = (ps.map Prod.snd).flatten ++ pad) (hroom : Room ps.length s) :
    ∃ t, decompressBody s = .done () t ∧ t.snk = s.snk ++ ps.map Prod.fst ∧ t.errCode = s.errCode := by
  have hval : (BitVec.ofNat 64 ps.length).toNat = ps.length := by rw [BitVec.toNat_ofNat, Nat.mod_eq_of_lt hlen]
  have hdecl : BitVec.ofNat 64 ps.length ≠ 0 := by
    intro h
    rw [h] at hval
    exact hne (List.length_eq_zero_iff.mp hval.symm)
  have hhdr := decompress_header hsrc hw hds hd (hv ▸ hlen) hr
  rw [hv] at hhdr
  obtain ⟨t, hsteps, hout, herr⟩ := decompressSteps_done (sep := sep) (more := more)
    (s := s.headerDone ds.length (BitVec.ofNat 64 ps.length)) hsrc hsnk (hw.headerDone _ _) hsize hp hval
    (by simp [hr, ← List.drop_drop]) hbits hroom
  refine ⟨sizes t.decl (t.readSince s.srcPos) t.decl t, ?_, hout, herr⟩
  rw [decompressBody, hhdr, andThen_done, headerDone_decl, if_neg hdecl, hsteps, andThen_done]

/-- DECOMPRESS's body on a header of value 0 writes nothing (R153). -/
theorem decompressBody_zero {ds more : List Byte} {s : State} (hsrc : s.srcAttached = true) (hw : Willing s)
    (hds : ds ≠ []) (hd : ∀ b ∈ ds, isDigit b = true) (hv : digitsValue ds = 0) (hr : s.rest = ds ++ 0x2C :: more) :
    ∃ t, decompressBody s = .done () t ∧ t.snk = s.snk ∧ t.errCode = s.errCode := by
  have hhdr := decompress_header hsrc hw hds hd (by rw [hv]; decide) hr
  rw [hv] at hhdr
  refine ⟨sizes 0 ((s.headerDone ds.length 0).readSince s.srcPos) 0 (s.headerDone ds.length 0), ?_, rfl, rfl⟩
  rw [decompressBody, hhdr, andThen_done]
  exact if_pos rfl

/-! ### COMPRESS, the single steps -/

theorem andThen_assoc {α β γ : Type} (r : Ran α) (k : α → State → Ran β) (k' : β → State → Ran γ) :
    (r.andThen k).andThen k' = r.andThen fun a s => (k a s).andThen k' := by
  cases r <;> rfl

/-- Step (4) of COMPRESS: header, shape, separator. -/
def compressHead (s : State) : Ran Unit :=
  (hdrWriteCore s).andThen fun _ s => (shapeWriteCore s).andThen fun _ s => sepWriteCore s

/-- Step (5) of COMPRESS: the payload, and its last byte. -/
def compressPayload (s : State) : Ran Unit := (encScanCore s).andThen fun _ s => bwFlushBody s

theorem compressSteps_eq (s : State) : compressSteps s =
    (srcRewindBody s).andThen fun _ s => (treeBuildCore s).andThen fun _ s => (codeGenCore s).andThen fun _ s =>
      (compressHead s).andThen fun _ s => compressPayload s := by
  simp only [compressSteps, compressHead, compressPayload, andThen_assoc]

/-- SRC_REWIND's body, when the host fails no access. -/
theorem srcRewindBody_done {s : State} (ha : s.srcAttached = true) (hw : Willing s) :
    srcRewindBody s = .done () { s with srcPos := 0, draws := s.draws.tail } := by
  simp [srcRewindBody, srcRewind, ha, hw.nextDraw]

/-- HDR_WRITE after its checks writes the root's weight in digits and a comma. -/
theorem hdrWriteCore_done {w : Count} {s : State} (hroot : s.root.toNat < s.nodes.length)
    (hweight : (s.node s.root).weight = w) (ha : s.snkAttached = true) (hw : Willing s)
    (hr : Room (dec w ++ [0x2C]).length s) :
    hdrWriteCore s = .done () (setRes (BitVec.ofNat 64 (dec w ++ [0x2C]).length) (s.wrote (dec w ++ [0x2C]))) := by
  have hn : s.node? s.root = some (s.nodes[s.root.toNat]) := List.getElem?_eq_getElem hroot
  rw [State.node, hn, Option.getD_some] at hweight
  simp only [hdrWriteCore, hn, hweight, putBytes_wrote ha hw hr, andThen_done]

/-- SHAPE_WRITE after its checks writes the shape bytes of the tree at ROOT. -/
theorem shapeWriteCore_done {tree : CodeTree} {s : State} (ht : s.treeAt s.root = some tree) (ha : s.snkAttached = true)
    (hw : Willing s) (hr : Room tree.shapeBytes.length s) :
    shapeWriteCore s = .done () (setRes (BitVec.ofNat 64 tree.shapeBytes.length) (s.wrote tree.shapeBytes)) := by
  simp only [shapeWriteCore, ht, emitShape_done ha hw hr, andThen_done, Nat.zero_add]

/-- SEP_WRITE after its check writes the space. -/
theorem sepWriteCore_done {s : State} (ha : s.snkAttached = true) (hw : Willing s) (hr : Room 1 s) :
    sepWriteCore s = .done () (setRes 1 (s.wrote [0x20])) := by
  rw [sepWriteCore, putByte_wrote ha hw hr]
  rfl

/-- The state after `n` source bytes have been encoded from an empty BitWriter and the bits flushed. -/
def State.encoded (n : Nat) (payload : List Byte) (res : Count) (aux : Word) (s : State) : State :=
  { (s.skip n).wrote payload with acc := 0, nacc := 0, res := res, resAux := aux }

@[simp] theorem encoded_snk (n : Nat) (payload : List Byte) (res : Count) (aux : Word) (s : State) :
    (s.encoded n payload res aux).snk = s.snk ++ payload := rfl
@[simp] theorem encoded_errCode (n : Nat) (payload : List Byte) (res : Count) (aux : Word) (s : State) :
    (s.encoded n payload res aux).errCode = s.errCode := rfl

/-- The payload steps (5) of COMPRESS, from an empty BitWriter: the codes of the source's bytes, padded. -/
theorem compressPayload_done {cs : List Code} {s : State} (hsrc : s.srcAttached = true) (hsnk : s.snkAttached = true)
    (hw : Willing s) (hnacc : s.nacc = 0) (hc : s.rest.map s.codeAt = cs.map some)
    (hr : Room (cs.flatten.length / 8 + 1) s) :
    ∃ payload pad res aux, compressPayload s = .done () (s.encoded cs.length payload res aux) ∧
      bytesBits payload = cs.flatten ++ pad := by
  have hlen : cs.length = s.rest.length := by simpa using (congrArg List.length hc).symm
  have hbr : BitRoom cs.flatten.length s := hr.mono (by simp [hnacc])
  obtain ⟨t, hloop, hbits⟩ := encScanLoop_done (fuel := s.readsLeft) (k := 0) hsrc hsnk hw hc hbr
    (by rw [hlen, rest_length, State.readsLeft]; omega)
  have hroom : Room 1 t := by
    have := hbits.length_eq
    simp only [Room, skip_snk, skip_nacc, hnacc] at this hr ⊢
    omega
  obtain ⟨b, pad, hflush, hb⟩ := bwFlushBody_done (s := setRes (BitVec.ofNat 64 (0 + cs.length)) t)
    (hbits.snkAttached.trans hsnk) (hbits.willing (hw.skip _)) hroom
  obtain ⟨a, n, bs, rfl, heq⟩ := hbits
  have hpending : (s.skip cs.length).pending = [] := by simp [State.pending, State.skip, hnacc]
  refine ⟨bs ++ [b], pad, 1, putField s.resAux 0 4 (8 - n.val), ?_, ?_⟩
  · rw [compressPayload, encScanCore, hloop, andThen_done, andThen_done, hflush, State.encoded, ← wrote_wrote]
    simp only [setAux, setRes, bwReset, State.wrote, State.skip]
  · rw [bytesBits_append, show bytesBits [b] = byteBits b by simp [bytesBits], hb, ← List.append_assoc]
    rw [hpending, List.nil_append] at heq
    rw [← heq]
    rfl

/-! ### COMPRESS, the tree and the codes -/

/-- Neither the streams nor the bits pending nor the error record differ. -/
structure SamePorts (s t : State) : Prop where
  srcAttached : t.srcAttached = s.srcAttached
  src : t.src = s.src
  srcPos : t.srcPos = s.srcPos
  snkAttached : t.snkAttached = s.snkAttached
  snk : t.snk = s.snk
  draws : t.draws = s.draws
  nacc : t.nacc = s.nacc
  errCode : t.errCode = s.errCode

theorem SamePorts.trans {s t u : State} (h : SamePorts s t) (h' : SamePorts t u) : SamePorts s u :=
  ⟨h'.1.trans h.1, h'.2.trans h.2, h'.3.trans h.3, h'.4.trans h.4, h'.5.trans h.5, h'.6.trans h.6, h'.7.trans h.7,
    h'.8.trans h.8⟩

theorem SamePorts.rest {s t : State} (h : SamePorts s t) : t.rest = s.rest := by
  rw [State.rest, h.src, h.srcPos, State.rest]

theorem SamePorts.willing {s t : State} (h : SamePorts s t) (hw : Willing s) : Willing t := by
  rw [Willing, h.draws]
  exact hw

theorem SamePorts.room {s t : State} {n : Nat} (h : SamePorts s t) (hr : Room n s) : Room n t := by
  rw [Room, h.snk]
  exact hr

/-- TREE_BUILD and CODE_GEN after a scan of the source: a tree of the source's bytes, each once, with their paths as codes
and the source's length as the root's weight. -/
theorem buildCodes_done {s : State} {src : List Byte} (hlen : src.length < 2 ^ 64) (hne : src ≠ [])
    (hhist : ∀ sym, s.histAt sym = BitVec.ofNat 64 (src.count sym)) (htot : s.total = BitVec.ofNat 64 src.length) :
    ∃ t u tree, treeBuildCore s = .done () t ∧ codeGenCore t = .done () u ∧ SamePorts s u ∧
      u.root.toNat < u.nodes.length ∧ (u.node u.root).weight = BitVec.ofNat 64 src.length ∧
      u.treeAt u.root = some tree ∧ tree.leaves.Perm src.dedup ∧ (∀ p ∈ tree.paths, u.codeAt p.1 = some p.2) := by
  have hperm := present_perm_dedup hlen hhist
  have hpresent : s.present ≠ [] := by
    intro h
    rw [h] at hperm
    exact hne ((List.dedup_eq_nil _).mp hperm.nil_eq.symm)
  obtain ⟨t, tree, ht, htf, hholds, hleaves, hweight, hsize⟩ :=
    treeBuildCore_done (htot ▸ sum_histAt_present hlen hhist) hpresent
  have htree : t.treeAt t.root = some tree := hholds.treeAt hsize.le
  obtain ⟨u, hu, huf, hcodes⟩ := codeGenCore_done htree ((hleaves.trans hperm).nodup_iff.mpr src.nodup_dedup)
  have hst : SamePorts s t := by constructor <;> rw [htf] <;> rfl
  have htu : SamePorts t u := by constructor <;> rw [huf]
  have hnodes : u.nodes = t.nodes := by rw [huf]
  have hroot : u.root = t.root := by rw [huf]
  refine ⟨t, u, tree, ht, hu, hst.trans htu, ?_, ?_, ?_, hleaves.trans hperm, hcodes⟩
  · rw [hnodes, hroot]; exact hholds.lt_length
  · rw [State.node, State.node?, hnodes, hroot, ← htot]; exact hweight
  · rw [State.treeAt, hnodes, hroot]; exact htree

/-- The bytes of a container before its payload: the length, the tree's shape, and the separator. -/
def containerHead (len : Nat) (tree : CodeTree) : List Byte :=
  dec (BitVec.ofNat 64 len) ++ [0x2C] ++ tree.shapeBytes ++ [0x20]

theorem length_containerHead_le {tree : CodeTree} (len : Nat) (h : tree.leaves.length ≤ 256) :
    (containerHead len tree).length ≤ 800 := by
  have := length_dec_le (BitVec.ofNat 64 len)
  have := tree.length_shapeBytes
  simp only [containerHead, List.length_append, List.length_singleton]
  omega

/-- RES between two writes is lost. -/
theorem setRes_wrote_setRes (v v' : Count) (xs ys : List Byte) (s : State) :
    setRes v ((setRes v' (s.wrote xs)).wrote ys) = setRes v (s.wrote (xs ++ ys)) := by
  simp [setRes, State.wrote]

/-- The three writes of COMPRESS before the payload. -/
theorem compressHead_done {tree : CodeTree} {len : Nat} {s : State} (hroot : s.root.toNat < s.nodes.length)
    (hweight : (s.node s.root).weight = BitVec.ofNat 64 len) (ht : s.treeAt s.root = some tree) (ha : s.snkAttached = true)
    (hw : Willing s) (hr : Room (containerHead len tree).length s) :
    compressHead s = .done () (setRes 1 (s.wrote (containerHead len tree))) := by
  let hdr := dec (BitVec.ofNat 64 len) ++ [0x2C]
  simp only [containerHead, List.length_append] at hr
  have hr₁ : Room hdr.length s := hr.mono (by simp only [hdr, List.length_append]; omega)
  have hr₂ : Room tree.shapeBytes.length (s.wrote hdr) :=
    Room.wrote (hr.mono (by simp only [hdr, List.length_append]; omega))
  have hr₃ : Room 1 (s.wrote (hdr ++ tree.shapeBytes)) :=
    Room.wrote (hr.mono (by simp only [hdr, List.length_append, List.length_singleton]; omega))
  have hshape := shapeWriteCore_done (s := setRes (BitVec.ofNat 64 hdr.length) (s.wrote hdr)) ht ha (hw.wrote _) hr₂
  have hsep := sepWriteCore_done (s := setRes (BitVec.ofNat 64 tree.shapeBytes.length) (s.wrote (hdr ++ tree.shapeBytes)))
    ha (hw.wrote _) hr₃
  rw [setRes_wrote_setRes] at hshape hsep
  rw [compressHead, hdrWriteCore_done hroot hweight ha hw hr₁, andThen_done, hshape, andThen_done, hsep]
  rfl

/-! ### COMPRESS, assembled -/

/-- Bytes that are leaves of the tree, each with its path. -/
theorem exists_paths_of_subset {tree : CodeTree} {xs : List Byte} (h : ∀ b ∈ xs, b ∈ tree.leaves) :
    ∃ ps : List (Byte × Code), ps.map Prod.fst = xs ∧ ∀ p ∈ ps, p ∈ tree.paths := by
  induction xs with
  | nil => exact ⟨[], rfl, by simp⟩
  | cons b xs ih =>
    obtain ⟨ps, rfl, hps⟩ := ih fun b' hb' => h b' (by simp [hb'])
    obtain ⟨c, hc⟩ := tree.exists_path_of_mem_leaves (h b (by simp))
    exact ⟨(b, c) :: ps, rfl, by simpa using ⟨hc, fun x y hp => hps _ hp⟩⟩

/-- The codes of `n` symbols are at most `n` times the depth long. -/
theorem length_codes_le {tree : CodeTree} {ps : List (Byte × Code)} (h : ∀ p ∈ ps, p ∈ tree.paths) :
    (ps.map Prod.snd).flatten.length ≤ tree.depth * ps.length := by
  induction ps with
  | nil => simp
  | cons p ps ih =>
    have hp := CodeTree.path_length_le_depth (h p (by simp))
    have := ih fun q hq => h q (by simp [hq])
    rw [List.map_cons, List.flatten_cons, List.length_append, List.length_cons, Nat.mul_succ]
    omega

/-- `bytes` is a container of the non-empty source `src`: its length, the shape of a tree, and the paths of its bytes as
payload. -/
def CodedContainer (src bytes : List Byte) : Prop :=
  ∃ (tree : CodeTree) (ps : List (Byte × Code)) (payload : List Byte) (pad : List Bool),
    bytes = containerHead src.length tree ++ payload ∧ tree.size ≤ 511 ∧ (∀ p ∈ ps, p ∈ tree.paths) ∧
      ps.map Prod.fst = src ∧ bytesBits payload = (ps.map Prod.snd).flatten ++ pad

/-- The head and the payload of COMPRESS, the tree built and its codes generated, write a container. -/
theorem writeContainer_done {src : List Byte} {tree : CodeTree} {s : State} (hroot : s.root.toNat < s.nodes.length)
    (hweight : (s.node s.root).weight = BitVec.ofNat 64 src.length) (ht : s.treeAt s.root = some tree)
    (hleaves : tree.leaves.Perm src.dedup) (hcount : tree.leaves.length ≤ 256)
    (hcodes : ∀ p ∈ tree.paths, s.codeAt p.1 = some p.2) (hrest : s.rest = src) (hsrc : s.srcAttached = true)
    (hsnk : s.snkAttached = true) (hw : Willing s) (hnacc : s.nacc = 0) (hr : Room (32 * src.length + 1024) s) :
    ∃ t bytes, ((compressHead s).andThen fun _ s => compressPayload s) = .done () t ∧ CodedContainer src bytes ∧
      t.snk = s.snk ++ bytes ∧ t.errCode = s.errCode := by
  obtain ⟨ps, hfst, hps⟩ := exists_paths_of_subset (tree := tree) (xs := src)
    fun b hb => hleaves.mem_iff.mpr (List.mem_dedup.mpr hb)
  have hbits : (ps.map Prod.snd).flatten.length ≤ 255 * src.length := by
    have := tree.depth_lt_leaves
    rw [← hfst, List.length_map]
    exact (length_codes_le hps).trans (Nat.mul_le_mul_right _ (by omega))
  have hheadlen := length_containerHead_le src.length hcount
  let q := setRes 1 (s.wrote (containerHead src.length tree))
  have hhead : compressHead s = .done () q := compressHead_done hroot hweight ht hsnk hw (hr.mono (by omega))
  have hq : q.rest.map q.codeAt = (ps.map Prod.snd).map some := by
    show s.rest.map s.codeAt = _
    rw [hrest, ← hfst, List.map_map, List.map_map]
    exact List.map_congr_left fun p hp => hcodes p (hps p hp)
  have hroom : Room ((ps.map Prod.snd).flatten.length / 8 + 1) (s.wrote (containerHead src.length tree)) :=
    Room.wrote (hr.mono (by omega))
  obtain ⟨payload, pad, res, aux, hpay, hpaybits⟩ := compressPayload_done (s := q) (by simpa [q] using hsrc)
    (by simpa [q] using hsnk) (hw.wrote _) (by simpa [q] using hnacc) hq (by simpa [q] using hroom)
  have hsize : tree.size ≤ 511 := by have := tree.size_add_one; omega
  exact ⟨q.encoded (ps.map Prod.snd).length payload res aux, containerHead src.length tree ++ payload,
    by rw [hhead, andThen_done, hpay], ⟨tree, ps, payload, pad, rfl, hsize, hps, hfst, hpaybits⟩, by simp [q],
    by simp [q]⟩

/-- The state after SRC_REWIND. -/
def State.rewound (s : State) : State := { s with srcPos := 0, draws := s.draws.tail }

theorem rewound_rest (s : State) : s.rewound.rest = s.src := rfl

/-- The steps of COMPRESS on a source of at least one byte that has been scanned write a container of it. -/
theorem compressSteps_done {s : State} (hlen : s.src.length < 2 ^ 64) (hne : s.src ≠ [])
    (hhist : ∀ sym, s.histAt sym = BitVec.ofNat 64 (s.src.count sym)) (htot : s.total = BitVec.ofNat 64 s.src.length)
    (hsrc : s.srcAttached = true) (hsnk : s.snkAttached = true) (hw : Willing s) (hnacc : s.nacc = 0)
    (hr : Room (32 * s.src.length + 1024) s) :
    ∃ t bytes, compressSteps s = .done () t ∧ CodedContainer s.src bytes ∧ t.snk = s.snk ++ bytes ∧
      t.errCode = s.errCode := by
  have hrewind : srcRewindBody s = .done () s.rewound := srcRewindBody_done hsrc hw
  obtain ⟨t, u, tree, ht, hu, hports, hroot, hweight, htree, hleaves, hcodes⟩ :=
    buildCodes_done (s := s.rewound) hlen hne hhist htot
  have hcount : tree.leaves.length ≤ 256 := by
    rw [hleaves.length_eq, ← (present_perm_dedup hlen hhist).length_eq]
    exact length_present_le s
  have huw : Willing u := hports.willing fun d hd => hw d (List.mem_of_mem_tail hd)
  obtain ⟨v, bytes, hv, hbytes, hsnk', herr⟩ := writeContainer_done hroot hweight htree hleaves hcount hcodes
    (hports.rest.trans (rewound_rest s)) (hports.srcAttached.trans hsrc) (hports.snkAttached.trans hsnk) huw
    (hports.nacc.trans hnacc) (hports.room hr)
  refine ⟨v, bytes, ?_, hbytes, hsnk'.trans (congrArg (· ++ bytes) hports.snk), herr.trans hports.errCode⟩
  rw [compressSteps_eq, hrewind, andThen_done, ht, andThen_done, hu, andThen_done, hv]

/-- The state of COMPRESS after its scan: the whole source counted. -/
def State.scanned (s : State) : State :=
  setRes (BitVec.ofNat 64 s.src.length) (countAll s.src ((bwReset (histReset (arenaClear s))).skip s.src.length))

/-- What the scan leaves: the counts, the ports, an empty BitWriter and the error record. -/
theorem scanned_ports (s : State) :
    s.scanned.src = s.src ∧ s.scanned.srcAttached = s.srcAttached ∧ s.scanned.snkAttached = s.snkAttached ∧
      s.scanned.snk = s.snk ∧ s.scanned.draws = s.draws.drop s.src.length ∧ s.scanned.nacc = 0 ∧
      s.scanned.errCode = s.errCode := by
  obtain ⟨h, n, heq⟩ := countAll_frame s.src ((bwReset (histReset (arenaClear s))).skip s.src.length)
  rw [State.scanned, heq]
  exact ⟨rfl, rfl, rfl, rfl, rfl, rfl, rfl⟩

theorem scanned_histAt (s : State) (sym : Byte) : s.scanned.histAt sym = BitVec.ofNat 64 (s.src.count sym) := by
  have h := histAt_countAll s.src sym ((bwReset (histReset (arenaClear s))).skip s.src.length)
  have hzero : ((bwReset (histReset (arenaClear s))).skip s.src.length).histAt sym = 0 := Vector.getElem_replicate _
  rw [hzero, zero_add] at h
  exact h

theorem scanned_total (s : State) : s.scanned.total = BitVec.ofNat 64 s.src.length := by
  have h := total_countAll s.src ((bwReset (histReset (arenaClear s))).skip s.src.length)
  have hzero : ((bwReset (histReset (arenaClear s))).skip s.src.length).total = 0 := rfl
  rw [hzero, zero_add] at h
  exact h

/-- The scan of COMPRESS from the start of the source. -/
theorem compress_scan {s : State} (hpos : s.srcPos = 0) (hsrc : s.srcAttached = true) (hw : Willing s)
    (hlen : s.src.length < 2 ^ 64) : histScanBody (bwReset (histReset (arenaClear s))) = .done () s.scanned := by
  have hrest : (bwReset (histReset (arenaClear s))).rest = s.src := by
    show s.src.drop s.srcPos = s.src
    rw [hpos, List.drop_zero]
  have h := histScanBody_done (s := bwReset (histReset (arenaClear s))) hsrc hw (by
    rw [hrest]
    show 0 + s.src.length ≤ Config.maxCount
    rw [Config.maxCount]
    omega)
  rw [hrest] at h
  exact h

/-- COMPRESS's body on a source of at least one byte writes a container of it (R149). -/
theorem compressBody_done {s : State} (hpos : s.srcPos = 0) (hne : s.src ≠ []) (hlen : s.src.length < 2 ^ 64)
    (hsrc : s.srcAttached = true) (hsnk : s.snkAttached = true) (hw : Willing s) (hr : Room (32 * s.src.length + 1024) s) :
    ∃ t bytes, compressBody s = .done () t ∧ CodedContainer s.src bytes ∧ t.snk = s.snk ++ bytes ∧
      t.errCode = s.errCode := by
  obtain ⟨hsrc', hsrcA, hsnkA, hsnk', hdraws, hnacc, herr⟩ := scanned_ports s
  have htot : s.scanned.total ≠ 0 := by
    intro h
    have := congrArg BitVec.toNat ((scanned_total s).symm.trans h)
    rw [BitVec.toNat_ofNat, Nat.mod_eq_of_lt hlen] at this
    exact hne (List.length_eq_zero_iff.mp this)
  obtain ⟨t, bytes, hsteps, hbytes, ht, hte⟩ := compressSteps_done (s := s.scanned) (by rwa [hsrc']) (by rwa [hsrc'])
    (by rw [hsrc']; exact scanned_histAt s) (by rw [hsrc']; exact scanned_total s) (hsrcA.trans hsrc) (hsnkA.trans hsnk)
    (by rw [Willing, hdraws]; exact fun d hd => hw d (List.mem_of_mem_drop hd)) hnacc
    (by rw [hsrc', Room, hsnk']; exact hr)
  rw [hsrc'] at hbytes
  refine ⟨sizes t.total (t.writtenSince s.snk.length) (t.writtenSince s.snk.length) t, bytes, ?_, hbytes,
    ht.trans (congrArg (· ++ bytes) hsnk'), hte.trans herr⟩
  rw [compressBody, if_neg (not_not.mpr hpos), compress_scan hpos hsrc hw hlen, andThen_done, if_neg htot, hsteps,
    andThen_done]

/-- COMPRESS's body on an empty source writes "0," (R151). -/
theorem compressBody_empty {s : State} (hpos : s.srcPos = 0) (hnil : s.src = []) (hsrc : s.srcAttached = true)
    (hsnk : s.snkAttached = true) (hw : Willing s) (hr : Room 2 s) :
    ∃ t, compressBody s = .done () t ∧ t.snk = s.snk ++ [0x30, 0x2C] ∧ t.errCode = s.errCode := by
  obtain ⟨_, _, hsnkA, hsnk', hdraws, _, herr⟩ := scanned_ports s
  have htot : s.scanned.total = 0 := by rw [scanned_total, hnil]; rfl
  have hput := putBytes_wrote (bs := [0x30, 0x2C]) (s := s.scanned) (hsnkA.trans hsnk)
    (by rw [Willing, hdraws]; exact fun d hd => hw d (List.mem_of_mem_drop hd)) (by rw [Room, hsnk']; exact hr)
  let u := s.scanned.wrote [0x30, 0x2C]
  refine ⟨sizes 0 (u.writtenSince s.snk.length) (u.writtenSince s.snk.length) u, ?_,
    congrArg (· ++ [0x30, 0x2C]) hsnk', herr⟩
  rw [compressBody, if_neg (not_not.mpr hpos), compress_scan hpos hsrc hw (by rw [hnil]; decide), andThen_done, if_pos htot,
    hput, andThen_done]

/-! ### The round trip -/

/-- DECOMPRESS's body gives back a source of at least one byte. -/
theorem decompressBody_of_coded {src : List Byte} {u : State} (h : CodedContainer src u.rest) (hne : src ≠ [])
    (hlen : src.length < 2 ^ 64) (hsrc : u.srcAttached = true) (hsnk : u.snkAttached = true) (hw : Willing u)
    (hr : Room src.length u) :
    ∃ v, decompressBody u = .done () v ∧ v.snk = u.snk ++ src ∧ v.errCode = u.errCode := by
  obtain ⟨tree, ps, payload, pad, hrest, hsize, hps, rfl, hbits⟩ := h
  rw [List.length_map] at hlen hr hrest
  refine decompressBody_done (sep := 0x20) hsrc hsnk hw (dec_ne_nil (BitVec.ofNat 64 ps.length)) (dec_isDigit _) ?_ hlen
    (fun h => hne (by rw [h]; rfl)) hsize hps ?_ hbits hr
  · rw [digitsValue_dec, BitVec.toNat_ofNat, Nat.mod_eq_of_lt hlen]
  · simp [hrest, containerHead]

/-- `bytes` is a container of the source `src` (R150, R151). -/
def ContainerOf (src bytes : List Byte) : Prop :=
  (src = [] ∧ bytes = [0x30, 0x2C]) ∨ (src ≠ [] ∧ CodedContainer src bytes)

/-- COMPRESS's body writes a container of the source. -/
theorem compressBody_writes_container {s : State} (hpos : s.srcPos = 0) (hlen : s.src.length < 2 ^ 64)
    (hsrc : s.srcAttached = true) (hsnk : s.snkAttached = true) (hw : Willing s) (hr : Room (32 * s.src.length + 1024) s) :
    ∃ t bytes, compressBody s = .done () t ∧ ContainerOf s.src bytes ∧ t.snk = s.snk ++ bytes ∧
      t.errCode = s.errCode := by
  by_cases hnil : s.src = []
  · obtain ⟨t, ht, hout, herr⟩ := compressBody_empty hpos hnil hsrc hsnk hw (hr.mono (by omega))
    exact ⟨t, _, ht, .inl ⟨hnil, rfl⟩, hout, herr⟩
  · obtain ⟨t, bytes, ht, hbytes, hout, herr⟩ := compressBody_done hpos hnil hlen hsrc hsnk hw hr
    exact ⟨t, bytes, ht, .inr ⟨hnil, hbytes⟩, hout, herr⟩

/-- DECOMPRESS's body gives back the source of a container. -/
theorem decompressBody_of_container {src : List Byte} {u : State} (h : ContainerOf src u.rest) (hlen : src.length < 2 ^ 64)
    (hsrc : u.srcAttached = true) (hsnk : u.snkAttached = true) (hw : Willing u) (hr : Room src.length u) :
    ∃ v, decompressBody u = .done () v ∧ v.snk = u.snk ++ src ∧ v.errCode = u.errCode := by
  rcases h with ⟨rfl, hrest⟩ | ⟨hne, hcoded⟩
  · rw [List.append_nil]
    exact decompressBody_zero (ds := [0x30]) hsrc hw (by simp) (by decide) (by decide) hrest
  · exact decompressBody_of_coded hcoded hne hlen hsrc hsnk hw hr

/-- A command is done where its body is, with the body's sink and error record. -/
theorem runCommand_next {op : Byte} {body : State → Ran Unit} {s t : State} (h : body (accept op s) = .done () t) :
    ∃ u, runCommand op body s = .next u ∧ u.snk = t.snk ∧ u.errCode = t.errCode :=
  ⟨complete t, runCommand_done h, rfl, rfl⟩

/-- Settles O49: COMPRESS writes a container of the source, and DECOMPRESS gives back the source of a container. -/
theorem compressThenDecompressIsIdentity : Obligations.CompressThenDecompressIsIdentity := by
  unfold Obligations.CompressThenDecompressIsIdentity
  intro s hpos hsrc hsnk hnil hw hlen
  have hlen64 : s.src.length < 2 ^ 64 := by omega
  have hroom : ∀ u : State, u.snk = [] → Room (32 * s.src.length + 1024) u := fun u h => by
    rw [Room, h, List.length_nil, Config.maxCount]
    omega
  obtain ⟨b, bytes, hb, hbytes, hbsnk, hberr⟩ := compressBody_writes_container (s := accept (opcode .compress) s) hpos
    hlen64 hsrc hsnk hw (hroom s hnil)
  obtain ⟨t, ht, htsnk, hterr⟩ := runCommand_next hb
  refine ⟨t, ht, hterr.trans hberr, fun u husrc hu hupos husnk hunil huw => ?_⟩
  have hrest : u.rest = bytes := by
    rw [State.rest, hupos, List.drop_zero, hu, htsnk, hbsnk, accept_snk, hnil, List.nil_append]
  obtain ⟨c, hc, hcsnk, hcerr⟩ := decompressBody_of_container (src := s.src) (u := accept (opcode .decompress) u)
    (hrest ▸ hbytes) hlen64 husrc husnk huw ((hroom u hunil).mono (by omega))
  obtain ⟨v, hv, hvsnk, hverr⟩ := runCommand_next hc
  exact ⟨v, hv, hverr.trans hcerr, by rw [hvsnk, hcsnk, accept_snk, hunil, List.nil_append]⟩

end Sys2Proof.Machine
end

section
/-! PROOF. Lists of node records (10_state.md R40, R41): what marking, appending and adopting a record changes of the links, of
the ownership of children and of PQ's marks. -/

namespace Sys2Proof.Machine

/-! ### Marks -/

/-- A field that a change of one record leaves alone. -/
theorem map_modify_of_forall {α β : Type} {g : α → β} {f : α → α} (h : ∀ x, g (f x) = g x) (xs : List α) (k : Nat) :
    (xs.modify k f).map g = xs.map g := by
  refine List.ext_getElem? fun i => ?_
  rw [List.getElem?_map, List.getElem?_map, List.getElem?_modify]
  cases xs[i]? with
  | none => rfl
  | some x => by_cases hk : k = i <;> simp [hk, h]

theorem exists_of_map_eq {α β : Type} {g : α → β} {xs ys : List α} (h : ys.map g = xs.map g) {i : Nat} {y : α}
    (hy : ys[i]? = some y) : ∃ x, xs[i]? = some x ∧ g y = g x := by
  have hi : (xs.map g)[i]? = some (g y) := by rw [← h, List.getElem?_map, hy]; rfl
  rw [List.getElem?_map, Option.map_eq_some_iff] at hi
  obtain ⟨x, hx, hg⟩ := hi
  exact ⟨x, hx, hg.symm⟩

/-- The bit `g` is set in exactly the allocated records of `S`. -/
def Marked (g : Node → Bool) (ns : List Node) (S : NodeIdx → Prop) : Prop :=
  ∀ (i : NodeIdx) (n : Node), ns[i.toNat]? = some n → (g n = true ↔ S i)

section
variable {g : Node → Bool} {f : Node → Node} {ns ns' : List Node} {S S' : NodeIdx → Prop}

theorem Marked.congr (h : Marked g ns S) (hmap : ns'.map g = ns.map g) : Marked g ns' S := fun i n hn => by
  obtain ⟨m, hm, hg⟩ := exists_of_map_eq hmap hn
  rw [hg]
  exact h i m hm

theorem Marked.of_iff (h : Marked g ns S) (hS : ∀ i, S i ↔ S' i) : Marked g ns S' := fun i n hn =>
  (h i n hn).trans (hS i)

/-- The bit `b` written to the record of `c`. -/
theorem Marked.write {b : Bool} (h : Marked g ns S) (c : NodeIdx) (hf : ∀ x, g (f x) = b) :
    Marked g (ns.modify c.toNat f) fun i => if i = c then b = true else S i := fun i n hn => by
  rw [List.getElem?_modify, Option.map_eq_map, Option.map_eq_some_iff] at hn
  obtain ⟨m, hm, hn⟩ := hn
  dsimp only
  by_cases hi : i = c
  · rw [if_pos (congrArg BitVec.toNat hi.symm)] at hn
    rw [← hn, hf, if_pos hi]
  · rw [if_neg fun h => hi (BitVec.eq_of_toNat_eq h.symm)] at hn
    rw [← hn, if_neg hi]
    exact h i m hm

/-- A record appended without the bit. -/
theorem Marked.append {n : Node} (h : Marked g ns S) (hn : g n = false) (hS : ∀ i, S i → i.toNat < ns.length) :
    Marked g (ns ++ [n]) S := fun i m hm => by
  rcases Nat.lt_or_ge i.toNat ns.length with hi | hi
  · exact h i m (by rwa [List.getElem?_append_left hi] at hm)
  · rw [List.getElem?_append_right hi, List.getElem?_singleton] at hm
    split at hm
    · rw [← Option.some.inj hm, hn]
      exact ⟨nofun, fun h => absurd (hS i h) (Nat.not_lt.mpr hi)⟩
    · cases hm

theorem marked_nil (g : Node → Bool) (S : NodeIdx → Prop) : Marked g [] S := fun i n hn => by simp at hn

end

/-! ### Links -/

/-- The children a record names, NIL aside. -/
def Node.childRefs (n : Node) : List NodeIdx :=
  if n.kind = .internal then [n.left, n.right].filter (fun i => i ≠ nilIdx) else []

/-- The children an arena's records name. -/
def arenaRefs (ns : List Node) : List NodeIdx := ns.flatMap Node.childRefs

theorem childRefs_eq_arenaRefs (s : State) : s.childRefs = arenaRefs s.nodes := rfl

/-- A record without its two marks: what the tree below it is read from. -/
def Node.core (n : Node) : Node := { n with inPq := false, parented := false }

theorem Node.childRefs_core (n : Node) : n.core.childRefs = n.childRefs := rfl

theorem Node.childRefs_of_ne {n : Node} (hk : n.kind = .internal) (hl : n.left ≠ nilIdx) (hr : n.right ≠ nilIdx) :
    n.childRefs = [n.left, n.right] := by
  rw [Node.childRefs, if_pos hk, List.filter_eq_self]
  rintro c hc
  rcases List.mem_pair.mp hc with rfl | rfl
  · exact decide_eq_true hl
  · exact decide_eq_true hr

theorem arenaRefs_append (ns : List Node) (n : Node) : arenaRefs (ns ++ [n]) = arenaRefs ns ++ n.childRefs := by
  simp [arenaRefs]

/-- `ns'` has the records of `ns` with other marks. -/
def SameLinks (ns ns' : List Node) : Prop := ns'.map Node.core = ns.map Node.core

theorem SameLinks.trans {a b c : List Node} (h : SameLinks a b) (h' : SameLinks b c) : SameLinks a c := Eq.trans h' h

theorem sameLinks_inPq (ns : List Node) (k : Nat) (b : Bool) : SameLinks ns (ns.modify k fun x => { x with inPq := b }) :=
  map_modify_of_forall (f := fun x : Node => { x with inPq := b }) (fun _ => rfl) ns k

theorem sameLinks_parented (ns : List Node) (k : Nat) (b : Bool) :
    SameLinks ns (ns.modify k fun x => { x with parented := b }) :=
  map_modify_of_forall (f := fun x : Node => { x with parented := b }) (fun _ => rfl) ns k

theorem map_parented_inPq (ns : List Node) (k : Nat) (b : Bool) :
    (ns.modify k fun x => { x with inPq := b }).map Node.parented = ns.map Node.parented :=
  map_modify_of_forall (f := fun x : Node => { x with inPq := b }) (fun _ => rfl) ns k

theorem map_inPq_parented (ns : List Node) (k : Nat) (b : Bool) :
    (ns.modify k fun x => { x with parented := b }).map Node.inPq = ns.map Node.inPq :=
  map_modify_of_forall (f := fun x : Node => { x with parented := b }) (fun _ => rfl) ns k

section
variable {ns ns' : List Node}

theorem SameLinks.length_eq (h : SameLinks ns ns') : ns'.length = ns.length := by
  simpa using congrArg List.length h

theorem SameLinks.arenaRefs (h : SameLinks ns ns') : arenaRefs ns' = arenaRefs ns := by
  have core (ms : List Node) : Machine.arenaRefs (ms.map Node.core) = Machine.arenaRefs ms := by
    rw [Machine.arenaRefs, List.flatMap_map]
    rfl
  rw [← core, h, core]

theorem SameLinks.readTree (h : SameLinks ns ns') (fuel : Nat) (i : NodeIdx) : readTree ns' fuel i = readTree ns fuel i := by
  induction fuel generalizing i with
  | zero => rfl
  | succ fuel ih =>
    have hi : (ns'[i.toNat]?).map Node.core = (ns[i.toNat]?).map Node.core := by
      rw [← List.getElem?_map, h, List.getElem?_map]
    simp only [Machine.readTree, ih]
    cases hn : ns[i.toNat]? with
    | none =>
      rw [hn] at hi
      rw [Option.map_eq_none_iff.mp hi]
    | some n =>
      rw [hn, Option.map_some, Option.map_eq_some_iff] at hi
      obtain ⟨m, hm, hc⟩ := hi
      simp only [Node.core, Node.mk.injEq] at hc
      obtain ⟨hkind, hsym, -, hleft, hright, -⟩ := hc
      simp only [hm, hkind, hsym, hleft, hright]

/-- `c` is a child that the record of `p` names. -/
def ChildOf (ns : List Node) (c p : NodeIdx) : Prop := ∃ n, ns[p.toNat]? = some n ∧ c ∈ n.childRefs

theorem mem_childRefs {n : Node} {c : NodeIdx} :
    c ∈ n.childRefs ↔ n.kind = .internal ∧ c ≠ nilIdx ∧ (n.left = c ∨ n.right = c) := by
  unfold Node.childRefs
  split
  · next h =>
    simp only [List.mem_filter, List.mem_cons, List.not_mem_nil, or_false, decide_eq_true_eq, h, true_and]
    rw [and_comm, eq_comm, eq_comm (a := c)]
  · next h => simp [h]

theorem childOf_iff (s : State) (c p : NodeIdx) : s.childOf c p ↔ ChildOf s.nodes c p :=
  exists_congr fun _ => and_congr Iff.rfl mem_childRefs.symm

theorem ChildOf.mem_arenaRefs {c p : NodeIdx} (h : ChildOf ns c p) : c ∈ arenaRefs ns := by
  obtain ⟨n, hn, hc⟩ := h
  exact List.mem_flatMap.mpr ⟨n, List.mem_of_getElem? hn, hc⟩

theorem SameLinks.childOf (h : SameLinks ns ns') {c p : NodeIdx} (hc : ChildOf ns' c p) : ChildOf ns c p := by
  obtain ⟨n, hn, hc⟩ := hc
  obtain ⟨m, hm, hcore⟩ := exists_of_map_eq h hn
  refine ⟨m, hm, ?_⟩
  rwa [← Node.childRefs_core, ← hcore, Node.childRefs_core]

theorem ChildOf.of_append {n : Node} {c p : NodeIdx} (h : ChildOf (ns ++ [n]) c p) :
    ChildOf ns c p ∨ (p.toNat = ns.length ∧ c ∈ n.childRefs) := by
  obtain ⟨m, hm, hc⟩ := h
  rcases Nat.lt_or_ge p.toNat ns.length with hp | hp
  · exact .inl ⟨m, by rwa [List.getElem?_append_left hp] at hm, hc⟩
  · rw [List.getElem?_append_right hp, List.getElem?_singleton] at hm
    split at hm
    · next h0 => exact .inr ⟨by omega, by rwa [Option.some.inj hm]⟩
    · cases hm

/-- No node is its own descendant. -/
def Acyclic (ns : List Node) : Prop := ∀ i : NodeIdx, ¬ Relation.TransGen (ChildOf ns) i i

/-- Links added from new records to old ones alone close no cycle. -/
theorem Acyclic.extend (h : Acyclic ns) (hold : ∀ c p, ChildOf ns' c p → p.toNat < ns.length → ChildOf ns c p)
    (hlt : ∀ c p, ChildOf ns' c p → c.toNat < ns.length) : Acyclic ns' := by
  have descend {c p : NodeIdx} (hcp : Relation.TransGen (ChildOf ns') c p) :
      p.toNat < ns.length → Relation.TransGen (ChildOf ns) c p := by
    induction hcp with
    | single hc => exact fun hp => .single (hold _ _ hc hp)
    | tail _ hc ih => exact fun hp => .tail (ih (hlt _ _ hc)) (hold _ _ hc hp)
  intro i hi
  obtain ⟨p, hip, _⟩ := Relation.TransGen.head'_iff.mp hi
  exact h i (descend hi (hlt i p hip))

/-- A record appended whose children, like all, are among the old records. -/
theorem Acyclic.append {n : Node} (h : Acyclic ns) (hn : ∀ c ∈ n.childRefs, c.toNat < ns.length)
    (hns : ∀ c ∈ arenaRefs ns, c.toNat < ns.length) : Acyclic (ns ++ [n]) := by
  refine h.extend (fun c p hcp hp => ?_) fun c p hcp => ?_
  · exact hcp.of_append.resolve_right fun hp' => absurd hp'.1 (Nat.ne_of_lt hp)
  · exact hcp.of_append.elim (fun hc => hns c hc.mem_arenaRefs) fun hc => hn c hc.2

theorem Acyclic.congr (h : Acyclic ns) (hs : SameLinks ns ns') : Acyclic ns' := fun i hi =>
  h i (Relation.TransGen.mono (fun _ _ hc => hs.childOf hc) _ _ hi)

/-- Where each child comes after its parent there is no cycle. -/
theorem acyclic_of_upward (h : ∀ (i : Nat) (n : Node), ns[i]? = some n → ∀ c ∈ n.childRefs, i < c.toNat) :
    Acyclic ns := by
  have ascend {c p : NodeIdx} (hcp : Relation.TransGen (ChildOf ns) c p) : p.toNat < c.toNat := by
    induction hcp with
    | single hc => obtain ⟨n, hn, hc⟩ := hc; exact h _ n hn _ hc
    | tail _ hc ih => obtain ⟨n, hn, hc⟩ := hc; exact lt_trans (h _ n hn _ hc) ih
  exact fun i hi => lt_irrefl _ (ascend hi)

/-! ### Ownership -/

/-- An allocated node is not NIL. -/
theorem ne_nilIdx {a : NodeIdx} (h : a.toNat < ns.length) (hlen : ns.length ≤ Config.nodeCap) :
    a ≠ nilIdx := by
  rintro rfl
  exact absurd (lt_of_lt_of_le h hlen) (by decide)

/-- No node is named as a child twice, every child named is allocated, and `parented` says which nodes are named. -/
structure Owned (ns : List Node) : Prop where
  nodup : (arenaRefs ns).Nodup
  allocated : ∀ i ∈ arenaRefs ns, i.toNat < ns.length
  parented : Marked Node.parented ns fun i => i ∈ arenaRefs ns

theorem owned_nil : Owned [] := ⟨List.nodup_nil, List.forall_mem_nil _, marked_nil _ _⟩

theorem Owned.congr (h : Owned ns) (hs : SameLinks ns ns') (hp : ns'.map Node.parented = ns.map Node.parented) :
    Owned ns' where
  nodup := by rw [hs.arenaRefs]; exact h.nodup
  allocated := by rw [hs.arenaRefs, hs.length_eq]; exact h.allocated
  parented := by
    rw [hs.arenaRefs]
    exact Marked.congr h.parented hp

/-- A record without children or parent appended. -/
theorem Owned.append {n : Node} (h : Owned ns) (hc : n.childRefs = []) (hp : n.parented = false) : Owned (ns ++ [n]) := by
  have hrefs : arenaRefs (ns ++ [n]) = arenaRefs ns := by rw [arenaRefs_append, hc, List.append_nil]
  refine ⟨hrefs ▸ h.nodup, ?_, ?_⟩
  · rw [hrefs, List.length_append]
    exact fun i hi => Nat.lt_add_right _ (h.allocated i hi)
  · rw [hrefs]
    exact Marked.append h.parented hp h.allocated

/-- Nodes without a parent become children, and are marked so. -/
theorem Owned.adopt {cs : List NodeIdx} (h : Owned ns) (hlen : ns.length ≤ ns'.length) (hnd : cs.Nodup)
    (hcs : ∀ c ∈ cs, c.toNat < ns.length ∧ c ∉ arenaRefs ns) (hrefs : (arenaRefs ns').Perm (cs ++ arenaRefs ns))
    (hp : Marked Node.parented ns' fun i => i ∈ cs ∨ i ∈ arenaRefs ns) : Owned ns' where
  nodup := hrefs.nodup_iff.mpr
    (List.nodup_append.mpr ⟨hnd, h.nodup, fun _ ha _ hb hab => (hcs _ ha).2 (hab ▸ hb)⟩)
  allocated i hi := by
    rcases List.mem_append.mp (hrefs.mem_iff.mp hi) with hi | hi
    · exact lt_of_lt_of_le (hcs i hi).1 hlen
    · exact lt_of_lt_of_le (h.allocated i hi) hlen
  parented := hp.of_iff fun i => by rw [hrefs.mem_iff, List.mem_append]

/-! ### Arenas of SHAPE_READ (44_container.md R129) -/

/-- An arena as SHAPE_READ leaves it, its tree complete or not: no node is in PQ, and each child comes after its parent. -/
structure ShapeArena (ns : List Node) : Prop where
  length_le : ns.length ≤ Config.nodeCap
  owned : Owned ns
  inPq : Marked Node.inPq ns fun _ => False
  upward : ∀ (i : Nat) (n : Node), ns[i]? = some n → ∀ c ∈ n.childRefs, i < c.toNat

theorem shapeArena_nil : ShapeArena [] := ⟨Nat.zero_le _, owned_nil, marked_nil _ _, by simp⟩

/-- A node without children or parent is made. -/
theorem ShapeArena.append {n : Node} (h : ShapeArena ns) (hlen : ns.length < Config.nodeCap) (hc : n.childRefs = [])
    (hp : n.parented = false) (hq : n.inPq = false) : ShapeArena (ns ++ [n]) where
  length_le := by rw [List.length_append]; exact hlen
  owned := h.owned.append hc hp
  inPq := h.inPq.append hq nofun
  upward i m hm c hcm := by
    rcases Nat.lt_or_ge i ns.length with hi | hi
    · exact h.upward i m (by rwa [List.getElem?_append_left hi] at hm) c hcm
    · rw [List.getElem?_append_right hi, List.getElem?_singleton] at hm
      split at hm
      · rw [← Option.some.inj hm, hc] at hcm
        cases hcm
      · cases hm

/-- The child of a record on a side. -/
def Node.childOn (side : Side) (n : Node) : NodeIdx :=
  match side with
  | .left => n.left
  | .right => n.right

/-- A record with another child on a side. -/
def Node.setChild (side : Side) (c : NodeIdx) (n : Node) : Node :=
  match side with
  | .left => { n with left := c }
  | .right => { n with right := c }

theorem attach_nodes (i : NodeIdx) (side : Side) (c : NodeIdx) (s : State) : (attach i side c s).nodes =
    (s.nodes.modify i.toNat (Node.setChild side c)).modify c.toNat fun n => { n with parented := true } := rfl

theorem childRefs_setChild {n : Node} {side : Side} {c : NodeIdx} (hk : n.kind = .internal)
    (hnil : n.childOn side = nilIdx) (hc : c ≠ nilIdx) : (n.setChild side c).childRefs.Perm (c :: n.childRefs) := by
  have hc : ¬c = 511#9 := hc
  cases side with
  | left =>
    replace hnil : n.left = 511#9 := hnil
    simp [Node.childRefs, Node.setChild, hk, hnil, List.filter_cons, hc]
  | right =>
    replace hnil : n.right = 511#9 := hnil
    by_cases hl : n.left = 511#9 <;>
      simp [Node.childRefs, Node.setChild, hk, hnil, hl, hc, List.Perm.swap]

/-- One child more in one record. -/
theorem arenaRefs_modify {f : Node → Node} {k : Nat} {n : Node} {c : NodeIdx} (hn : ns[k]? = some n)
    (hf : (f n).childRefs.Perm (c :: n.childRefs)) : (arenaRefs (ns.modify k f)).Perm (c :: arenaRefs ns) := by
  induction ns generalizing k with
  | nil => simp at hn
  | cons m ns ih =>
    cases k with
    | zero =>
      obtain rfl : m = n := by simpa using hn
      exact hf.append_right (arenaRefs ns)
    | succ k => exact ((ih (by simpa using hn)).append_left m.childRefs).trans List.perm_middle

/-- A complete subtree takes its place below a node made before it. -/
theorem ShapeArena.attach {s : State} {i c : NodeIdx} {side : Side} {n m : Node} (h : ShapeArena s.nodes)
    (hi : s.nodes[i.toNat]? = some n) (hk : n.kind = .internal) (hnil : n.childOn side = nilIdx)
    (hc : s.nodes[c.toNat]? = some m) (hm : m.parented = false) (hlt : i.toNat < c.toNat) :
    ShapeArena (attach i side c s).nodes := by
  have hcl : c.toNat < s.nodes.length := (List.getElem?_eq_some_iff.mp hc).1
  have hchild := childRefs_setChild hk hnil (ne_nilIdx hcl h.length_le)
  have hlinks : SameLinks (s.nodes.modify i.toNat (Node.setChild side c)) (Machine.attach i side c s).nodes :=
    sameLinks_parented _ _ _
  have hrefs : (arenaRefs (Machine.attach i side c s).nodes).Perm ([c] ++ arenaRefs s.nodes) :=
    hlinks.arenaRefs ▸ arenaRefs_modify hi hchild
  have hlen : (Machine.attach i side c s).nodes.length = s.nodes.length := by
    rw [attach_nodes, List.length_modify, List.length_modify]
  have hfree : c ∉ arenaRefs s.nodes := fun hmem => by
    rw [(h.owned.parented c m hc).mpr hmem] at hm
    cases hm
  have hparented : (s.nodes.modify i.toNat (Node.setChild side c)).map Node.parented = s.nodes.map Node.parented :=
    map_modify_of_forall (fun _ => by cases side <;> rfl) _ _
  have hinPq : (s.nodes.modify i.toNat (Node.setChild side c)).map Node.inPq = s.nodes.map Node.inPq :=
    map_modify_of_forall (fun _ => by cases side <;> rfl) _ _
  refine ⟨hlen ▸ h.length_le, ?_, h.inPq.congr ((map_inPq_parented _ _ _).trans hinPq), fun j x hx d hd => ?_⟩
  · refine h.owned.adopt hlen.ge (List.nodup_singleton c) (fun d hd => ?_) hrefs ?_
    · rw [List.mem_singleton.mp hd]
      exact ⟨hcl, hfree⟩
    · refine ((h.owned.parented.congr hparented).write (f := fun x => { x with parented := true }) c
        fun _ => rfl).of_iff fun j => ?_
      by_cases hj : j = c <;> simp [hj]
  · obtain ⟨y, hy, hcore⟩ := exists_of_map_eq hlinks hx
    rw [← Node.childRefs_core, hcore, Node.childRefs_core] at hd
    rw [List.getElem?_modify, Option.map_eq_map, Option.map_eq_some_iff] at hy
    obtain ⟨z, hz, rfl⟩ := hy
    by_cases hj : i.toNat = j
    · subst hj
      obtain rfl : n = z := Option.some.inj (hi.symm.trans hz)
      rw [if_pos rfl, hchild.mem_iff, List.mem_cons] at hd
      exact hd.elim (fun h => h ▸ hlt) fun hd => h.upward _ n hi d hd
    · rw [if_neg hj] at hd
      exact h.upward j z hz d hd

/-! ### PQ and its marks -/

/-- PQ over an arena, with the next seq (10_state.md R41). -/
structure QueueOk (ns : List Node) (pq : List PqEntry) (seq : Seq) : Prop where
  arena_le : ns.length ≤ Config.nodeCap
  length_le : pq.length ≤ Config.pqCap
  distinct : pq.Pairwise fun x y => x.seq < y.seq ∧ x.node ≠ y.node
  below : ∀ e ∈ pq, e.seq < seq
  allocated : ∀ e ∈ pq, e.node.toNat < ns.length
  inPq : Marked Node.inPq ns fun i => ∃ e ∈ pq, e.node = i

/-- An empty PQ, with no node marked. -/
theorem queueOk_empty (hlen : ns.length ≤ Config.nodeCap) (hns : Marked Node.inPq ns fun _ => False) (seq : Seq) :
    QueueOk ns [] seq :=
  ⟨hlen, Nat.zero_le _, .nil, by simp, by simp, hns.of_iff (by simp)⟩

variable {pq : List PqEntry} {seq : Seq}

theorem QueueOk.congr (h : QueueOk ns pq seq) (hmap : ns'.map Node.inPq = ns.map Node.inPq) : QueueOk ns' pq seq := by
  have hlen : ns'.length = ns.length := by simpa using congrArg List.length hmap
  exact { h with
    arena_le := hlen ▸ h.arena_le, allocated := hlen ▸ h.allocated, inPq := h.inPq.congr hmap }

theorem QueueOk.append {n : Node} (h : QueueOk ns pq seq) (hlen : ns.length < Config.nodeCap) (hn : n.inPq = false) :
    QueueOk (ns ++ [n]) pq seq where
  arena_le := by rw [List.length_append]; exact hlen
  length_le := h.length_le
  distinct := h.distinct
  below := h.below
  allocated e he := by rw [List.length_append]; exact Nat.lt_add_right _ (h.allocated e he)
  inPq := h.inPq.append hn fun i ⟨e, he, hei⟩ => hei ▸ h.allocated e he

/-- A node of no entry enters PQ with the next seq. -/
theorem QueueOk.insert {a : NodeIdx} (h : QueueOk ns pq seq) (ha : a.toNat < ns.length) (hnew : ∀ e ∈ pq, e.node ≠ a)
    (hlen : pq.length < Config.pqCap) (hseq : seq ≠ Config.seqLimit) :
    QueueOk (ns.modify a.toNat fun x => { x with inPq := true }) (pq ++ [⟨a, seq⟩]) (seq + 1) := by
  have hlt : seq < seq + 1 := by
    have : seq.toNat ≠ 65535 := fun h => hseq (BitVec.eq_of_toNat_eq h)
    bv_omega
  refine ⟨by rw [List.length_modify]; exact h.arena_le, by rw [List.length_append]; exact hlen, ?_, ?_, ?_, ?_⟩
  · refine List.pairwise_append.mpr ⟨h.distinct, List.pairwise_singleton _ _, fun x hx y hy => ?_⟩
    rw [List.mem_singleton.mp hy]
    exact ⟨h.below x hx, hnew x hx⟩
  · intro e he
    rcases List.mem_append.mp he with he | he
    · exact BitVec.lt_trans (h.below e he) hlt
    · rw [List.mem_singleton.mp he]
      exact hlt
  · intro e he
    rw [List.length_modify]
    rcases List.mem_append.mp he with he | he
    · exact h.allocated e he
    · rw [List.mem_singleton.mp he]
      exact ha
  · refine (h.inPq.write (f := fun x => { x with inPq := true }) a fun _ => rfl).of_iff fun i => ?_
    by_cases hi : i = a
    · simp [hi]
    · simp [hi, Ne.symm hi]

/-- An entry of PQ's node is in no other entry. -/
theorem QueueOk.eq_of_node_eq {x y : PqEntry} (h : QueueOk ns pq seq) (hx : x ∈ pq) (hy : y ∈ pq)
    (hxy : x.node = y.node) : x = y := by
  have hnodup : (pq.map PqEntry.node).Nodup := List.pairwise_map.mpr (h.distinct.imp fun h => h.2)
  exact List.inj_on_of_nodup_map hnodup hx hy hxy

/-- An entry leaves PQ. -/
theorem QueueOk.remove {e : PqEntry} (h : QueueOk ns pq seq) (he : e ∈ pq) :
    QueueOk (ns.modify e.node.toNat fun x => { x with inPq := false }) (pq.filter fun x => decide (x ≠ e)) seq where
  arena_le := by rw [List.length_modify]; exact h.arena_le
  length_le := le_trans (List.length_filter_le _ _) h.length_le
  distinct := h.distinct.filter _
  below x hx := h.below x (List.mem_of_mem_filter hx)
  allocated x hx := by rw [List.length_modify]; exact h.allocated x (List.mem_of_mem_filter hx)
  inPq := by
    refine (h.inPq.write (f := fun x => { x with inPq := false }) e.node fun _ => rfl).of_iff fun i => ?_
    simp only [List.mem_filter, decide_eq_true_eq]
    by_cases hi : i = e.node
    · rw [if_pos hi]
      exact ⟨nofun, fun ⟨x, ⟨hx, hne⟩, hxi⟩ => absurd (h.eq_of_node_eq hx he (hxi.trans hi)) hne⟩
    · rw [if_neg hi]
      exact exists_congr fun x => ⟨fun ⟨hx, hxi⟩ => ⟨⟨hx, fun hxe => hi (by rw [← hxi, hxe])⟩, hxi⟩,
        fun ⟨hx, hxi⟩ => ⟨hx.1, hxi⟩⟩

end

/-! ### PQ_CLEAR (41_priority_queue.md R100) -/

/-- The nodes of some entries taken out of PQ, as PQ_CLEAR does (41_priority_queue.md R100). -/
def unmark (xs : List PqEntry) (s : State) : State :=
  xs.foldl (fun t e => setNode e.node (fun x => { x with inPq := false }) t) s

theorem pqClear_eq (s : State) : pqClear s = { s with nodes := (unmark s.pq s).nodes, pq := [], seq := 0 } := by
  have frame (xs : List PqEntry) (t : State) : ∃ ns, unmark xs t = { t with nodes := ns } := by
    induction xs generalizing t with
    | nil => exact ⟨t.nodes, rfl⟩
    | cons e xs ih => exact ih _
  obtain ⟨ns, h⟩ := frame s.pq s
  show { unmark s.pq s with pq := [], seq := 0 } = _
  rw [h]

theorem unmark_links (xs : List PqEntry) (s : State) : SameLinks s.nodes (unmark xs s).nodes := by
  induction xs generalizing s with
  | nil => rfl
  | cons e xs ih => exact (sameLinks_inPq _ _ _).trans (ih _)

theorem unmark_parented (xs : List PqEntry) (s : State) :
    (unmark xs s).nodes.map Node.parented = s.nodes.map Node.parented := by
  induction xs generalizing s with
  | nil => rfl
  | cons e xs ih => exact (ih _).trans (map_parented_inPq _ _ _)

theorem unmark_inPq {xs : List PqEntry} {s : State} {S : NodeIdx → Prop} (h : Marked Node.inPq s.nodes S) :
    Marked Node.inPq (unmark xs s).nodes fun i => S i ∧ ∀ e ∈ xs, e.node ≠ i := by
  induction xs generalizing s S with
  | nil => exact h.of_iff (by simp)
  | cons e xs ih =>
    refine (ih (s := setNode e.node (fun x => { x with inPq := false }) s) (h.write e.node fun _ => rfl)).of_iff
      fun i => ?_
    by_cases hi : i = e.node
    · simp [hi]
    · simp [hi, Ne.symm hi]

end Sys2Proof.Machine
end

section
/-! PROOF. What can happen to the state, said once: `Effect` lists the changes a command body or a move of the schedule is made
of, and every body and every step is a sequence of them. An invariant is then a property that each effect keeps. -/

namespace Sys2Proof.Machine

/-! ### Effects -/

/-- What an effect belongs to: any command's work; the writers of HIST, of the sizes and of PQ_EMPTY; CLEAR_ERR; SOFT_RESET;
acceptance and completion; the host. -/
inductive Kind where
  | work
  | count
  | sizes
  | empty
  | clear
  | reset
  | control
  | host

/-- One change of the state, with what the model has checked where it makes it. -/
inductive Effect : Kind → State → State → Prop where
  | results (s : State) (r : Count) (x : Word) : Effect .work s { s with res := r, resAux := x }
  | reader (s : State) (c : Byte) (n : Fin 9) : Effect .work s { s with cur := c, nleft := n }
  | declared (s : State) (m d : Count) : Effect .work s { s with remain := m, decl := d }
  | source (s : State) (p : Nat) (d : List Bool) (hp : s.srcPos ≤ s.src.length → p ≤ s.src.length)
      (hd : d <:+ s.draws) : Effect .work s { s with srcPos := p, draws := d }
  | sink (s : State) (bs : List Byte) (d : List Bool)
      (hb : s.snk.length ≤ Config.maxCount → (s.snk ++ bs).length ≤ Config.maxCount) (hd : d <:+ s.draws) :
      Effect .work s { s with snk := s.snk ++ bs, draws := d }
  | bit (s : State) (x : Bool) (h : s.nacc.val + 1 < 8) :
      Effect .work s { s with acc := accWith s.acc s.nacc.val x, nacc := ⟨s.nacc.val + 1, h⟩ }
  | bwReset (s : State) : Effect .work s (bwReset s)
  | codes (s : State) (c : Vector (Option Code) 256) (v : Bool) (hv : v = true → s.treeValid = true) :
      Effect .work s { s with codes := c, codesValid := v }
  | arenaClear (s : State) : Effect .work s (arenaClear s)
  | invalidate (s : State) : Effect .work s (invalidate s)
  | pqClear (s : State) : Effect .work s { s with nodes := (unmark s.pq s).nodes, pq := [], seq := 0 }
  | pqInsert (s : State) (a : NodeIdx) (ha : s.allocated a = true) (ht : s.taken a = false)
      (hlen : s.pq.length < Config.pqCap) (hseq : s.seq ≠ Config.seqLimit) : Effect .work s (pqInsert a s)
  | extract (s : State) (e : PqEntry) (h : e ∈ s.pq) : Effect .work s
      (setNode e.node (fun x => { x with inPq := false }) { s with pq := s.pq.filter fun x => decide (x ≠ e) })
  | leaf (s : State) (sym : Byte) (w : Count) (hfull : s.arenaFull = false) (hv : s.treeValid = false) :
      Effect .work s (alloc .leaf sym w nilIdx nilIdx s)
  | join (s : State) (a b : NodeIdx) (ha : s.allocated a = true) (hb : s.allocated b = true) (hab : a ≠ b)
      (hta : s.taken a = false) (htb : s.taken b = false) (hfull : s.arenaFull = false) (hv : s.treeValid = false) :
      Effect .work s (join a b s)
  | shape (s : State) (ns : List Node) (hv : s.treeValid = false) (hq : s.pq = []) (h : ShapeArena ns) :
      Effect .work s { s with nodes := ns }
  | plant (s : State) (r : NodeIdx) (h : (s.treeAt r).isSome = true) :
      Effect .work s { s with root := r, treeValid := true }
  | countSymbol (s : State) (sym : Byte) (h : s.totalFull = false) : Effect .count s (countSymbol sym s)
  | histReset (s : State) : Effect .count s (histReset s)
  | sizes (s : State) (o c : Count) : Effect .sizes s { s with origSize := o, compSize := c }
  | pqEmpty (s : State) : Effect .empty s { s with pqEmpty := true }
  | clearError (s : State) : Effect .clear s (clearError s)
  | softReset (s : State) : Effect .reset s (softResetState s)
  | accept (s : State) (op : Byte) : Effect .control s (accept op s)
  | complete (s : State) : Effect .control s (complete s)
  | raise (s : State) (e : Err) (op : Byte) : Effect .control s (raise e { s with cmdOp := op })
  | hold (s : State) : Effect .control s { s with busy := true }
  | drop (s : State) : Effect .control s (dropWord s)
  | schedule (s : State) (moves : List Event) (o : List Seen) (f : Nat) :
      Effect .host s { s with script := moves, obs := o, freeCount := f }
  | argument (s : State) (v : Count) : Effect .host s { s with arg := v }
  | attachSource (s : State) (bytes : List Byte) (h : bytes.length ≤ Config.maxCount) :
      Effect .host s { s with src := bytes, srcPos := 0, srcAttached := true }
  | attachSink (s : State) : Effect .host s { s with snk := [], snkAttached := true }
  | detach (s : State) (a b : Bool) : Effect .host s { s with srcAttached := a, snkAttached := b }
  | hardReset (s : State) : Effect .host s (hardReset s)

/-- Some of the source may have been read. -/
def SourceRead (s t : State) : Prop :=
  ∃ p d, (s.srcPos ≤ s.src.length → p ≤ s.src.length) ∧ d <:+ s.draws ∧ t = { s with srcPos := p, draws := d }

theorem SourceRead.trans {s t u : State} (h : SourceRead s t) (h' : SourceRead t u) : SourceRead s u := by
  obtain ⟨p, d, hp, hd, rfl⟩ := h
  obtain ⟨q, e, hq, he, rfl⟩ := h'
  exact ⟨q, e, fun h => hq (hp h), he.trans hd, rfl⟩

theorem srcRead_sourceRead (s : State) : SourceRead s (srcRead s).2 := by
  obtain ⟨k, hk, d, h, hlt, hd⟩ := srcRead_state s
  refine ⟨s.srcPos + k, d, fun hp => ?_, hd, h⟩
  rcases Nat.le_one_iff_eq_zero_or_eq_one.mp hk with rfl | rfl
  · exact hp
  · exact hlt rfl

theorem getByte_sourceRead (s : State) : (getByte s).Ends (SourceRead s) := by
  have h := srcRead_sourceRead s
  unfold getByte
  split <;> (rename_i heq; rw [heq] at h; exact h)

/-- A sequence of effects, each of some command's work or of a kind in `K`. -/
def Reach (K : Set Kind) : State → State → Prop :=
  Relation.ReflTransGen fun s t => ∃ k, (k = .work ∨ k ∈ K) ∧ Effect k s t

section
variable {K : Set Kind}

theorem Reach.refl (s : State) : Reach K s s := Relation.ReflTransGen.refl

theorem Reach.trans {s t u : State} (h : Reach K s t) (h' : Reach K t u) : Reach K s u := Relation.ReflTransGen.trans h h'

theorem Reach.mono {K' : Set Kind} {s t : State} (hK : K ⊆ K') (h : Reach K s t) : Reach K' s t :=
  Relation.ReflTransGen.mono (fun _ _ ⟨k, hk, h⟩ => ⟨k, hk.imp_right fun hk => hK hk, h⟩) _ _ h

theorem Effect.reach {s t : State} (h : Effect .work s t) : Reach K s t := .single ⟨.work, .inl rfl, h⟩

theorem Effect.reachOf {k : Kind} {s t : State} (h : Effect k s t) (hk : k ∈ K) : Reach K s t := .single ⟨k, .inr hk, h⟩

/-- A property that the effects keep holds after any sequence of them. -/
theorem Reach.keeps {P : State → Prop} {s t : State} (h : Reach K s t)
    (hP : ∀ k s t, (k = .work ∨ k ∈ K) → Effect k s t → P s → P t) (hs : P s) : P t := by
  induction h with
  | refl => exact hs
  | tail _ hk ih =>
    obtain ⟨k, hk, he⟩ := hk
    exact hP k _ _ hk he ih

/-- A sequence of two pieces, the second from where the first is done. -/
theorem ends_reach_andThen {α β : Type} {r : Ran α} {k : α → State → Ran β} {s : State} (hr : r.Ends (Reach K s))
    (hk : ∀ a t, r = .done a t → (k a t).Ends (Reach K t)) : (r.andThen k).Ends (Reach K s) := by
  cases r with
  | done a t => exact (hk a t rfl).imp fun _ h => Reach.trans hr h
  | raised e t => exact hr
  | fault f => trivial

/-- A piece behind some effects. -/
theorem Reach.ends {α : Type} {r : Ran α} {s t : State} (h : Reach K s t) (hr : r.Ends (Reach K t)) :
    r.Ends (Reach K s) :=
  hr.imp fun _ h' => h.trans h'

/-- A check in front of a piece. -/
theorem ends_reach_check {α : Type} {c : Prop} [Decidable c] {e : Err} {r : Ran α} {s : State}
    (h : ¬c → r.Ends (Reach K s)) : (if c then .raised e s else r).Ends (Reach K s) := by
  split
  · exact .refl s
  · next hc => exact h hc

/-! ### The shared operations -/

theorem setRes_reach (v : Count) (s : State) : Reach K s (setRes v s) := (Effect.results s v s.resAux).reach

theorem setAux_reach (lo width v : Nat) (s : State) : Reach K s (setAux lo width v s) :=
  (Effect.results s s.res _).reach

theorem setAux_setRes_reach (lo width n : Nat) (v : Count) (s : State) : Reach K s (setAux lo width n (setRes v s)) :=
  (setRes_reach v s).trans (setAux_reach lo width n _)

theorem SourceRead.reach {s t : State} (h : SourceRead s t) : Reach K s t := by
  obtain ⟨p, d, hp, hd, rfl⟩ := h
  exact (Effect.source s p d hp hd).reach

theorem srcRead_reach (s : State) : Reach K s (srcRead s).2 := (srcRead_sourceRead s).reach

theorem getByte_reach (s : State) : (getByte s).Ends (Reach K s) := (getByte_sourceRead s).imp fun _ h => h.reach

theorem srcRewindBody_reach (s : State) : (srcRewindBody s).Ends (Reach K s) := by
  unfold srcRewindBody srcRewind
  split_ifs
  · exact (Effect.source s 0 _ (fun _ => Nat.zero_le _) (List.tail_suffix _)).reach
  · exact (Effect.source s s.srcPos _ id (List.tail_suffix _)).reach
  · exact .refl s

theorem putByte_reach (b : Byte) (s : State) : (putByte b s).Ends (Reach K s) := by
  unfold putByte snkWrite
  split_ifs with _ h
  · refine (Effect.sink s [b] _ (fun _ => ?_) (List.tail_suffix _)).reach
    rw [Bool.and_eq_true, decide_eq_true_eq] at h
    simpa using h.2
  · exact (Effect.source s s.srcPos _ id (List.tail_suffix _)).reach
  · exact .refl s

theorem putBytes_reach (bs : List Byte) (s : State) : (putBytes bs s).Ends (Reach K s) := by
  induction bs generalizing s with
  | nil => exact .refl s
  | cons b bs ih => exact ends_reach_andThen (putByte_reach b s) fun _ t _ => ih t

theorem putBit_reach (x : Bool) (s : State) : (putBit x s).Ends (Reach K s) := by
  unfold putBit
  split
  · next h => exact (Effect.bit s x h).reach
  · exact (Effect.bwReset s).reach.ends (putByte_reach _ _)

theorem putBits_reach (xs : List Bool) (s : State) : (putBits xs s).Ends (Reach K s) := by
  induction xs generalizing s with
  | nil => exact .refl s
  | cons x xs ih => exact ends_reach_andThen (putBit_reach x s) fun _ t _ => ih t

theorem getBit_reach (s : State) : (getBit s).Ends (Reach K s) := by
  unfold getBit
  split
  · exact ends_reach_andThen (getByte_reach s) fun b t _ => (Effect.reader t b 7).reach
  · exact (Effect.reader s s.cur _).reach

theorem getBits_reach (n v : Nat) (s : State) : (getBits n v s).Ends (Reach K s) := by
  induction n generalizing v s with
  | zero => exact .refl s
  | succ n ih => exact ends_reach_andThen (getBit_reach s) fun x t _ => ih _ t

/-! ### Bit stream, histogram and container bodies -/

theorem bwPutBody_reach (n : Byte) (s : State) : (bwPutBody n s).Ends (Reach K s) :=
  ends_reach_check fun _ => ends_reach_andThen (putBits_reach _ s) fun _ t _ => setRes_reach _ t

theorem encSymbolBody_reach (sym : Byte) (s : State) : (encSymbolBody sym s).Ends (Reach K s) := by
  refine ends_reach_check fun _ => ?_
  split
  · exact .refl s
  · exact ends_reach_andThen (putBits_reach _ s) fun _ t _ => setRes_reach _ t

theorem encScanLoop_reach (fuel k : Nat) (s : State) : (encScanLoop fuel k s).Ends (Reach K s) := by
  induction fuel generalizing k s with
  | zero => trivial
  | succ fuel ih =>
    have h := srcRead_reach (K := K) s
    unfold encScanLoop
    split <;> rename_i heq <;> rw [heq] at h
    · exact h
    · exact h
    · split
      · exact h
      · exact h.ends (ends_reach_andThen (putBits_reach _ _) fun _ u _ => ih _ u)

theorem encScanCore_reach (s : State) : (encScanCore s).Ends (Reach K s) :=
  ends_reach_andThen (encScanLoop_reach _ _ s) fun _ t _ => setRes_reach _ t

theorem encScanBody_reach (s : State) : (encScanBody s).Ends (Reach K s) :=
  ends_reach_check fun _ => encScanCore_reach s

theorem bwFlushBody_reach (s : State) : (bwFlushBody s).Ends (Reach K s) :=
  ends_reach_andThen ((Effect.bwReset s).reach.ends (putByte_reach _ _)) fun _ t _ => setAux_setRes_reach _ _ _ _ t

theorem brReset_reach (s : State) : Reach K s (brReset s) := (Effect.reader s 0 0).reach

theorem dropBits_reach (s : State) : Reach K s (dropBits s) := (Effect.reader s s.cur 0).reach

theorem brGetBody_reach (n : Byte) (s : State) : (brGetBody n s).Ends (Reach K s) :=
  ends_reach_check fun _ => ends_reach_andThen (getBits_reach _ _ s) fun _ t _ => setRes_reach _ t

theorem decWalk_reach (fuel : Nat) (c : NodeIdx) (s : State) : (decWalk fuel c s).Ends (Reach K s) := by
  induction fuel generalizing c s with
  | zero => trivial
  | succ fuel ih =>
    unfold decWalk
    split
    · trivial
    · split
      · exact .refl s
      · exact ends_reach_andThen (getBit_reach s) fun _ t _ => ih _ t

theorem emitLeaf_reach (c : NodeIdx) (s : State) : (emitLeaf c s).Ends (Reach K s) :=
  ends_reach_andThen (putByte_reach _ s) fun _ t _ =>
    (Effect.declared t (t.remain - 1) t.decl).reach.trans (setAux_setRes_reach _ _ _ _ _)

theorem decSymbolCore_reach (s : State) : (decSymbolCore s).Ends (Reach K s) :=
  ends_reach_andThen (decWalk_reach _ _ s) fun c t _ => emitLeaf_reach c t

theorem decSymbolBody_reach (s : State) : (decSymbolBody s).Ends (Reach K s) :=
  ends_reach_check fun _ => ends_reach_check fun _ => decSymbolCore_reach s

theorem decRunLoop_reach (fuel k : Nat) (s : State) : (decRunLoop fuel k s).Ends (Reach K s) := by
  induction fuel generalizing k s with
  | zero => exact .refl s
  | succ fuel ih =>
    unfold decRunLoop
    split
    · exact .refl s
    · exact ends_reach_andThen (decSymbolCore_reach s) fun _ t _ => ih _ t

theorem decRunCore_reach (s : State) : (decRunCore s).Ends (Reach K s) :=
  ends_reach_andThen (decRunLoop_reach _ _ s) fun _ t _ => setRes_reach _ t

theorem decRunBody_reach (s : State) : (decRunBody s).Ends (Reach K s) :=
  ends_reach_check fun _ => decRunCore_reach s

theorem histAddBody_reach (hK : .count ∈ K) (sym : Byte) (s : State) : (histAddBody sym s).Ends (Reach K s) :=
  ends_reach_check fun h =>
    ((Effect.countSymbol s sym (Bool.eq_false_of_not_eq_true h)).reachOf hK).trans (setRes_reach _ _)

theorem histScanLoop_reach (hK : .count ∈ K) (fuel k : Nat) (s : State) :
    (histScanLoop fuel k s).Ends (Reach K s) := by
  induction fuel generalizing k s with
  | zero => trivial
  | succ fuel ih =>
    have h := srcRead_reach (K := K) s
    unfold histScanLoop
    split <;> rename_i heq <;> rw [heq] at h
    · exact h
    · exact h
    · split
      · exact h
      · next hfull =>
        exact (h.trans ((Effect.countSymbol _ _ (Bool.eq_false_of_not_eq_true hfull)).reachOf hK)).ends (ih _ _)

theorem histScanBody_reach (hK : .count ∈ K) (s : State) : (histScanBody s).Ends (Reach K s) :=
  ends_reach_andThen (histScanLoop_reach hK _ _ s) fun _ t _ => setRes_reach _ t

theorem genWalk_reach {tree : CodeTree} {path : Code} {nleaf maxlen : Nat} {s : State} (hv : s.codesValid = false) :
    (genWalk tree path nleaf maxlen s).Ends fun t => Reach K s t ∧ t.codesValid = false ∧ t.treeValid = s.treeValid := by
  induction tree generalizing path nleaf maxlen s with
  | leaf sym =>
    unfold genWalk
    split
    · exact ⟨.refl s, hv, rfl⟩
    · exact ⟨(Effect.codes s _ s.codesValid (by simp [hv])).reach, hv, rfl⟩
  | node l r ihl ihr =>
    exact ends_andThen (ihl hv) (fun _ h => h) fun k t h => (ihr h.2.1).imp fun u h' =>
      ⟨h.1.trans h'.1, h'.2.1, h'.2.2.trans h.2.2⟩

theorem codeGenCore_reach {s : State} (hv : s.treeValid = true) : (codeGenCore s).Ends (Reach K s) := by
  unfold codeGenCore
  split
  · trivial
  · have hclear : Reach K s { s with codesValid := false, codes := Vector.replicate 256 none } :=
      (Effect.codes s (Vector.replicate 256 none) false (by simp)).reach
    exact ends_andThen (genWalk_reach rfl) (fun _ h => hclear.trans h.1) fun k t h =>
      (hclear.trans h.1).trans (((Effect.codes t t.codes true fun _ => h.2.2.trans hv).reach).trans
        (setAux_setRes_reach _ _ _ _ _))

theorem codeGenBody_reach (s : State) : (codeGenBody s).Ends (Reach K s) :=
  ends_reach_check fun h => codeGenCore_reach (Bool.eq_true_of_not_eq_false h)

theorem codeLookupBody_reach (sym : Byte) (s : State) : (codeLookupBody sym s).Ends (Reach K s) := by
  refine ends_reach_check fun _ => ?_
  split
  · exact .refl s
  · exact (setAux_setRes_reach _ _ _ _ s).trans (setAux_reach _ _ _ _)

theorem hdrWriteCore_reach (s : State) : (hdrWriteCore s).Ends (Reach K s) := by
  unfold hdrWriteCore
  split
  · trivial
  · exact ends_reach_andThen (putBytes_reach _ s) fun _ t _ => setRes_reach _ t

theorem hdrWriteBody_reach (s : State) : (hdrWriteBody s).Ends (Reach K s) :=
  ends_reach_check fun _ => ends_reach_check fun _ => hdrWriteCore_reach s

theorem emitShape_reach (tree : CodeTree) (k : Nat) (s : State) : (emitShape tree k s).Ends (Reach K s) := by
  induction tree generalizing k s with
  | leaf sym =>
    exact ends_reach_andThen (putByte_reach _ s) fun _ t _ =>
      ends_reach_andThen (putByte_reach _ t) fun _ u _ => .refl u
  | node l r ihl ihr =>
    exact ends_reach_andThen (putByte_reach _ s) fun _ t _ => ends_reach_andThen (ihl _ t) fun _ u _ => ihr _ u

theorem shapeWriteCore_reach (s : State) : (shapeWriteCore s).Ends (Reach K s) := by
  unfold shapeWriteCore
  split
  · trivial
  · exact ends_reach_andThen (emitShape_reach _ _ s) fun _ t _ => setRes_reach _ t

theorem shapeWriteBody_reach (s : State) : (shapeWriteBody s).Ends (Reach K s) :=
  ends_reach_check fun _ => ends_reach_check fun _ => shapeWriteCore_reach s

theorem sepWriteCore_reach (s : State) : (sepWriteCore s).Ends (Reach K s) :=
  ends_reach_andThen (putByte_reach _ s) fun _ t _ => setRes_reach _ t

theorem sepWriteBody_reach (s : State) : (sepWriteBody s).Ends (Reach K s) :=
  ends_reach_check fun _ => sepWriteCore_reach s

theorem headerEnd_reach (v : Count) (nd : Nat) (s : State) : (headerEnd v nd s).Ends (Reach K s) :=
  ends_reach_check fun _ => (Effect.declared s v v).reach.trans (setRes_reach _ _)

theorem hdrLoop_reach (fuel : Nat) (v : Count) (nd : Nat) (s : State) : (hdrLoop fuel v nd s).Ends (Reach K s) := by
  induction fuel generalizing v nd s with
  | zero => trivial
  | succ fuel ih =>
    refine ends_reach_andThen (getByte_reach s) fun b t _ => ?_
    split
    · exact .refl t
    · split
      · exact .refl t
      · exact ih _ _ t
    · exact headerEnd_reach v nd t

theorem hdrReadBody_reach (s : State) : (hdrReadBody s).Ends (Reach K s) :=
  (dropBits_reach s).ends (hdrLoop_reach _ _ _ _)

theorem sepReadBody_reach (s : State) : (sepReadBody s).Ends (Reach K s) :=
  (dropBits_reach s).ends (ends_reach_andThen (getByte_reach _) fun _ t _ => setRes_reach _ t)

/-! ### Arena and priority structure bodies -/

theorem pqInsertBody_reach (a : NodeIdx) (s : State) : (pqInsertBody a s).Ends (Reach K s) := by
  refine ends_reach_check fun ha => ends_reach_check fun ht => ends_reach_check fun hroom => ?_
  rw [not_or, Nat.not_le] at hroom
  exact ((Effect.pqInsert s a (Bool.eq_true_of_not_eq_false ha) (Bool.eq_false_of_not_eq_true ht) hroom.1
    hroom.2).reach.trans (setAux_setRes_reach _ _ _ _ _)).trans (setAux_reach _ _ _ _)

theorem pqClear_reach (s : State) : Reach K s (pqClear s) := by
  rw [pqClear_eq]
  exact (Effect.pqClear s).reach

theorem pqExtractMin_reach {e : PqEntry} {s t : State} (h : pqExtractMin s = some (e, t)) : Reach K s t := by
  obtain ⟨hleast, rfl⟩ := pqExtractMin_eq_some.mp h
  exact (Effect.extract s e (leastOf_mem hleast)).reach

theorem pqExtractMinBody_reach (hK : .empty ∈ K) (s : State) : (pqExtractMinBody s).Ends (Reach K s) := by
  unfold pqExtractMinBody
  split
  · exact ((Effect.pqEmpty s).reachOf hK).trans (setAux_reach _ _ _ _)
  · next h => exact ((pqExtractMin_reach h).trans (setAux_setRes_reach _ _ _ _ _)).trans (setAux_reach _ _ _ _)

theorem nodeLeafBody_reach (sym : Byte) (s : State) : (nodeLeafBody sym s).Ends (Reach K s) :=
  ends_reach_check fun h => ((Effect.invalidate s).reach.trans
    (Effect.leaf (invalidate s) sym s.arg (Bool.eq_false_of_not_eq_true h) rfl).reach).trans
      (setAux_setRes_reach _ _ _ _ _)

theorem nodeJoinBody_reach (a b : NodeIdx) (s : State) : (nodeJoinBody a b s).Ends (Reach K s) := by
  refine ends_reach_check fun halloc => ends_reach_check fun hab => ends_reach_check fun htaken =>
    ends_reach_check fun hroom => ?_
  simp only [not_or, Bool.not_eq_false, Bool.not_eq_true] at halloc htaken hroom
  exact ((Effect.invalidate s).reach.trans
    (Effect.join (invalidate s) a b halloc.1 halloc.2 hab htaken.1 htaken.2 hroom.1 rfl).reach).trans
      (setAux_setRes_reach _ _ _ _ _)

theorem nodeReadBody_reach (a : NodeIdx) (s : State) : (nodeReadBody a s).Ends (Reach K s) :=
  ends_reach_check fun _ => (Effect.results s _ _).reach

end

end Sys2Proof.Machine
end

section
/-! PROOF. The invariants of 10_state.md, each kept by every effect. A case that is not named is an effect on fields the
invariant does not look at. -/

namespace Sys2Proof.Machine

/-! ### Registers -/

/-- No opcode is kept at BUSY = 0. -/
theorem Effect.keeps_cmdOp {k : Kind} {s t : State} (h : Effect k s t) (hs : s.busy = false → s.cmdOp = 0) :
    t.busy = false → t.cmdOp = 0 := by
  cases h with
  | softReset | complete | raise | hardReset => exact fun _ => rfl
  | accept | hold => nofun
  | _ => exact hs

/-- CODES_VALID implies TREE_VALID, and without a tree ROOT is NIL (R46). -/
theorem Effect.keeps_flags {k : Kind} {s t : State} (h : Effect k s t)
    (hs : (s.codesValid = true → s.treeValid = true) ∧ (s.treeValid = false → s.root = nilIdx)) :
    (t.codesValid = true → t.treeValid = true) ∧ (t.treeValid = false → t.root = nilIdx) := by
  cases h with
  | codes _ c v hv => exact ⟨hv, hs.2⟩
  | arenaClear | invalidate | softReset | hardReset => exact ⟨nofun, fun _ => rfl⟩
  | plant => exact ⟨fun _ => rfl, nofun⟩
  | _ => exact hs

/-- ERR_OP and ERR_POS are 0 when ERR_CODE is 0 (R32). -/
theorem Effect.keeps_errorRecord {k : Kind} {s t : State} (h : Effect k s t)
    (hs : s.errCode = none → s.errOp = 0 ∧ s.errPos = 0) : t.errCode = none → t.errOp = 0 ∧ t.errPos = 0 := by
  cases h with
  | clearError | softReset | hardReset => exact fun _ => ⟨rfl, rfl⟩
  | raise => nofun
  | _ => exact hs

/-- The bits of ACC below the pending ones are 0 (R43). -/
theorem Effect.keeps_acc {k : Kind} {s t : State} (h : Effect k s t)
    (hs : ∀ k, k < 8 - s.nacc.val → s.acc.getLsbD k = false) : ∀ k, k < 8 - t.nacc.val → t.acc.getLsbD k = false := by
  cases h with
  | bit _ x hx =>
    intro k hk
    dsimp only at hk ⊢
    rw [accWith_getLsbD _ _ _ s.nacc.isLt, if_neg (by omega)]
    exact hs k (by omega)
  | bwReset | softReset | hardReset => exact fun k _ => BitVec.getLsbD_zero
  | _ => exact hs

/-! ### Histogram and ports -/

theorem histSum_eq_zero {s : State} (h : s.hist = Vector.replicate 256 0) : s.histSum = 0 := by
  rw [State.histSum, h, Vector.toList_replicate, List.map_replicate, List.sum_replicate]
  rfl

theorem histAt_le_histSum (s : State) (sym : Byte) : (s.histAt sym).toNat ≤ s.histSum :=
  List.le_sum_of_mem (List.mem_map_of_mem (by simp [State.histAt]))

/-- One symbol counted adds 1 to the sum, where its counter does not overflow. -/
theorem histSum_countSymbol {s : State} {sym : Byte} (h : (s.histAt sym).toNat < Config.maxCount) :
    (countSymbol sym s).histSum = s.histSum + 1 := by
  have hval : (s.histAt sym + 1).toNat = (s.histAt sym).toNat + 1 := by
    simp only [Config.maxCount] at h
    bv_omega
  have hlen : sym.toNat < (s.hist.toList.map BitVec.toNat).length := by simp [sym.isLt]
  have hsplit := List.sum_take_add_sum_drop (s.hist.toList.map BitVec.toNat) sym.toNat
  have hat : (s.hist.toList.map BitVec.toNat)[sym.toNat] = (s.histAt sym).toNat := by simp [State.histAt]
  rw [List.drop_eq_getElem_cons hlen, List.sum_cons, hat] at hsplit
  rw [State.histSum, State.histSum, countSymbol_hist, Vector.toList_set, List.map_set, List.sum_set, if_pos hlen, hval,
    ← hsplit]
  omega

/-- TOTAL is the sum of HIST (R37). -/
theorem Effect.keeps_total {k : Kind} {s t : State} (h : Effect k s t) (hs : s.total.toNat = s.histSum) :
    t.total.toNat = t.histSum := by
  cases h with
  | countSymbol _ sym hfull =>
    have hlt : s.total.toNat < Config.maxCount := by
      have := of_decide_eq_false hfull
      have := s.total.isLt
      simp only [Config.maxCount] at *
      omega
    rw [histSum_countSymbol (lt_of_le_of_lt (hs ▸ histAt_le_histSum s sym) hlt), countSymbol_total, ← hs]
    simp only [Config.maxCount] at hlt
    bv_omega
  | histReset | softReset | hardReset => exact (histSum_eq_zero rfl).symm
  | _ => exact hs

/-- SRC_POS lies within the source, and both streams are shorter than 2^64 (R44, 20_memory.md R51). -/
theorem Effect.keeps_ports {k : Kind} {s t : State} (h : Effect k s t)
    (hs : s.srcPos ≤ s.src.length ∧ s.src.length ≤ Config.maxCount ∧ s.snk.length ≤ Config.maxCount) :
    t.srcPos ≤ t.src.length ∧ t.src.length ≤ Config.maxCount ∧ t.snk.length ≤ Config.maxCount := by
  obtain ⟨hpos, hsrc, hsnk⟩ := hs
  cases h with
  | source _ p d hp => exact ⟨hp hpos, hsrc, hsnk⟩
  | sink _ bs d hb => exact ⟨hpos, hsrc, hb hsnk⟩
  | attachSource _ bytes hlen => exact ⟨Nat.zero_le _, hlen, hsnk⟩
  | attachSink => exact ⟨hpos, hsrc, Nat.zero_le _⟩
  | hardReset => exact ⟨Nat.zero_le _, Nat.zero_le _, Nat.zero_le _⟩
  | _ => exact ⟨hpos, hsrc, hsnk⟩

/-! ### Arena -/

theorem allocated_iff {s : State} {a : NodeIdx} : s.allocated a = true ↔ a.toNat < s.nodes.length := decide_eq_true_iff

theorem getElem?_node {s : State} {a : NodeIdx} (h : a.toNat < s.nodes.length) :
    s.nodes[a.toNat]? = some (s.node a) := by
  rw [State.node, State.node?, List.getElem?_eq_getElem h, Option.getD_some]

theorem length_lt_of_not_full {s : State} (h : s.arenaFull = false) : s.nodes.length < Config.nodeCap :=
  Nat.not_le.mp (of_decide_eq_false h)

/-- A free node is in no entry of PQ. -/
theorem QueueOk.ne_of_taken {s : State} {a : NodeIdx} (h : QueueOk s.nodes s.pq s.seq) (ha : a.toNat < s.nodes.length)
    (ht : s.taken a = false) : ∀ e ∈ s.pq, e.node ≠ a := fun e he hea => by
  simp [State.taken, (h.inPq a _ (getElem?_node ha)).mpr ⟨e, he, hea⟩] at ht

/-- A free node has no parent. -/
theorem Owned.not_mem_of_taken {s : State} {a : NodeIdx} (h : Owned s.nodes) (ha : a.toNat < s.nodes.length)
    (ht : s.taken a = false) : a ∉ arenaRefs s.nodes := fun hmem => by
  simp [State.taken, (h.parented a _ (getElem?_node ha)).mpr hmem] at ht

/-- Where TREE_VALID = 1 a tree can be read at ROOT, and the arena is no longer than NODE_CAP (R25, R28). -/
theorem Effect.keeps_tree {k : Kind} {s t : State} (h : Effect k s t)
    (hs : s.nodes.length ≤ Config.nodeCap ∧ (s.treeValid = true → (s.treeAt s.root).isSome = true)) :
    t.nodes.length ≤ Config.nodeCap ∧ (t.treeValid = true → (t.treeAt t.root).isSome = true) := by
  obtain ⟨hlen, htree⟩ := hs
  have marks {u : State} (hl : SameLinks s.nodes u.nodes) (hr : u.root = s.root) (hv : u.treeValid = s.treeValid) :
      u.nodes.length ≤ Config.nodeCap ∧ (u.treeValid = true → (u.treeAt u.root).isSome = true) := by
    rw [State.treeAt, hl.length_eq, hl.readTree, hr, hv]
    exact ⟨hlen, htree⟩
  cases h with
  | arenaClear | softReset | hardReset => exact ⟨Nat.zero_le _, nofun⟩
  | invalidate => exact ⟨hlen, nofun⟩
  | pqClear => exact marks (unmark_links _ _) rfl rfl
  | pqInsert _ a => exact marks (sameLinks_inPq _ _ _) rfl rfl
  | extract _ e => exact marks (sameLinks_inPq _ _ _) rfl rfl
  | leaf _ sym w hfull hv =>
    refine ⟨?_, fun h => absurd (hv.symm.trans h) (by decide)⟩
    rw [alloc_nodes, List.length_append]
    exact length_lt_of_not_full hfull
  | join _ a b _ _ _ _ _ hfull hv =>
    refine ⟨?_, fun h => absurd (hv.symm.trans h) (by decide)⟩
    simp only [Machine.join, setNode_nodes, alloc_nodes, List.length_modify, List.length_append]
    exact length_lt_of_not_full hfull
  | shape _ ns hv _ h => exact ⟨h.length_le, fun h => absurd (hv.symm.trans h) (by decide)⟩
  | plant _ r h => exact ⟨hlen, fun _ => h⟩
  | _ => exact ⟨hlen, htree⟩

/-- PQ agrees with its marks (R41). -/
theorem Effect.keeps_queue {k : Kind} {s t : State} (h : Effect k s t) (hs : QueueOk s.nodes s.pq s.seq) :
    QueueOk t.nodes t.pq t.seq := by
  cases h with
  | arenaClear | softReset | hardReset => exact queueOk_empty (Nat.zero_le _) (marked_nil _ _) 0
  | pqClear =>
    have hl := unmark_links s.pq s
    refine ⟨hl.length_eq ▸ hs.arena_le, Nat.zero_le _, .nil, nofun, nofun, ?_⟩
    exact (unmark_inPq hs.inPq).of_iff fun i => by simp
  | pqInsert _ a ha ht hlen hseq =>
    have ha := allocated_iff.mp ha
    exact hs.insert ha (hs.ne_of_taken ha ht) hlen hseq
  | extract _ e he => exact hs.remove he
  | leaf _ sym w hfull => exact hs.append (length_lt_of_not_full hfull) rfl
  | join _ a b _ _ _ _ _ hfull =>
    exact QueueOk.congr (ns := (alloc .internal 0 ((s.node a).weight + (s.node b).weight) a b s).nodes)
      (hs.append (length_lt_of_not_full hfull) rfl) ((map_inPq_parented _ _ _).trans (map_inPq_parented _ _ _))
  | shape _ ns _ hq h =>
    rw [hq]
    exact queueOk_empty h.length_le h.inPq s.seq
  | _ => exact hs

/-- The arena and PQ (R40, R41): PQ agrees with its marks, each child has one parent, no node in PQ has one, and no node is its
own descendant. -/
structure ArenaOk (s : State) : Prop where
  queue : QueueOk s.nodes s.pq s.seq
  owned : Owned s.nodes
  roots : ∀ e ∈ s.pq, e.node ∉ arenaRefs s.nodes
  acyclic : Acyclic s.nodes

theorem acyclic_nil : Acyclic [] := acyclic_of_upward (by simp)

theorem arenaOk_empty {s : State} (hns : s.nodes = []) (hq : s.pq = []) : ArenaOk s := by
  refine ⟨?_, hns ▸ owned_nil, by simp [hq], hns ▸ acyclic_nil⟩
  rw [hns, hq]
  exact queueOk_empty (Nat.zero_le _) (marked_nil _ _) _

/-- A state with the same arena but for the marks, and fewer or other roots in PQ. -/
theorem ArenaOk.marks {s t : State} (h : ArenaOk s) (hq : QueueOk t.nodes t.pq t.seq) (hl : SameLinks s.nodes t.nodes)
    (hp : t.nodes.map Node.parented = s.nodes.map Node.parented) (hr : ∀ e ∈ t.pq, e.node ∉ arenaRefs s.nodes) :
    ArenaOk t :=
  ⟨hq, h.owned.congr hl hp, by rwa [hl.arenaRefs], h.acyclic.congr hl⟩

/-- A leaf is allocated. -/
theorem ArenaOk.leaf {s : State} {sym : Byte} {w : Count} (h : ArenaOk s)
    (hq : QueueOk (alloc .leaf sym w nilIdx nilIdx s).nodes s.pq s.seq) :
    ArenaOk (alloc .leaf sym w nilIdx nilIdx s) where
  queue := hq
  owned := h.owned.append rfl rfl
  roots := by
    rw [alloc_nodes, arenaRefs_append]
    exact fun e he hmem => h.roots e he (by simpa [Node.childRefs] using hmem)
  acyclic := h.acyclic.append nofun h.owned.allocated

/-- The record Join makes. -/
def joinRecord (a b : NodeIdx) (s : State) : Node :=
  { kind := .internal, sym := 0, weight := (s.node a).weight + (s.node b).weight, left := a, right := b
    inPq := false, parented := false }

theorem join_links (a b : NodeIdx) (s : State) : SameLinks (s.nodes ++ [joinRecord a b s]) (join a b s).nodes :=
  (sameLinks_parented _ _ _).trans (sameLinks_parented _ _ _)

theorem joinRecord_childRefs {s : State} {a b : NodeIdx} (hlen : s.nodes.length ≤ Config.nodeCap)
    (ha : a.toNat < s.nodes.length) (hb : b.toNat < s.nodes.length) : (joinRecord a b s).childRefs = [a, b] :=
  Node.childRefs_of_ne rfl (ne_nilIdx ha hlen) (ne_nilIdx hb hlen)

theorem join_arenaRefs {s : State} {a b : NodeIdx} (hlen : s.nodes.length ≤ Config.nodeCap)
    (ha : a.toNat < s.nodes.length) (hb : b.toNat < s.nodes.length) :
    arenaRefs (join a b s).nodes = arenaRefs s.nodes ++ [a, b] := by
  rw [(join_links a b s).arenaRefs, arenaRefs_append, joinRecord_childRefs hlen ha hb]

/-- Two free nodes are joined below a new one. -/
theorem ArenaOk.join {s : State} {a b : NodeIdx} (h : ArenaOk s) (ha : a.toNat < s.nodes.length)
    (hb : b.toNat < s.nodes.length) (hab : a ≠ b) (hta : s.taken a = false) (htb : s.taken b = false)
    (hq : QueueOk (join a b s).nodes s.pq s.seq) : ArenaOk (join a b s) := by
  have hlinks := join_links a b s
  have hrefs := join_arenaRefs h.queue.arena_le ha hb
  have hparented : Marked Node.parented (Machine.join a b s).nodes fun i => i ∈ [a, b] ∨ i ∈ arenaRefs s.nodes := by
    refine (((Marked.append (n := joinRecord a b s) h.owned.parented rfl h.owned.allocated).write
      (f := fun x => { x with parented := true }) a fun _ => rfl).write
      (f := fun x => { x with parented := true }) b fun _ => rfl).of_iff fun i => ?_
    by_cases hia : i = a <;> by_cases hib : i = b <;> simp [hia, hib]
  refine ⟨hq, ?_, ?_, ?_⟩
  · refine h.owned.adopt (cs := [a, b]) ?_ (by simpa using hab) ?_ (hrefs ▸ List.perm_append_comm) hparented
    · rw [hlinks.length_eq, List.length_append]
      exact Nat.le_add_right _ _
    · rintro c hc
      rcases List.mem_pair.mp hc with rfl | rfl
      · exact ⟨ha, h.owned.not_mem_of_taken ha hta⟩
      · exact ⟨hb, h.owned.not_mem_of_taken hb htb⟩
  · intro e he
    rw [hrefs, List.mem_append, List.mem_pair, not_or, not_or]
    exact ⟨h.roots e he, h.queue.ne_of_taken ha hta e he, h.queue.ne_of_taken hb htb e he⟩
  · refine (h.acyclic.append ?_ h.owned.allocated).congr hlinks
    rw [joinRecord_childRefs h.queue.arena_le ha hb]
    rintro c hc
    rcases List.mem_pair.mp hc with rfl | rfl <;> assumption

/-- The arena is owned (R40). -/
theorem Effect.keeps_arena {k : Kind} {s t : State} (h : Effect k s t) (hs : ArenaOk s) : ArenaOk t := by
  have hq := h.keeps_queue hs.queue
  cases h with
  | arenaClear | softReset | hardReset => exact arenaOk_empty rfl rfl
  | pqClear => exact hs.marks hq (unmark_links _ _) (unmark_parented _ _) nofun
  | pqInsert _ a ha ht =>
    refine hs.marks hq (sameLinks_inPq _ _ _) (map_parented_inPq _ _ _) fun e he => ?_
    rcases List.mem_append.mp he with he | he
    · exact hs.roots e he
    · rw [List.mem_singleton.mp he]
      exact hs.owned.not_mem_of_taken (allocated_iff.mp ha) ht
  | extract _ e =>
    exact hs.marks hq (sameLinks_inPq _ _ _) (map_parented_inPq _ _ _) fun x hx =>
      hs.roots x (List.mem_of_mem_filter hx)
  | leaf _ sym w => exact hs.leaf hq
  | join _ a b ha hb hab hta htb => exact hs.join (allocated_iff.mp ha) (allocated_iff.mp hb) hab hta htb hq
  | shape _ ns _ hpq h => exact ⟨hq, h.owned, by simp [hpq], acyclic_of_upward h.upward⟩
  | _ => exact ⟨hs.queue, hs.owned, hs.roots, hs.acyclic⟩

end Sys2Proof.Machine
end

section
/-! PROOF. The loops that rebuild the arena are sequences of effects too: SHAPE_READ's recursion (44_container.md R129) and
TREE_BUILD's seeding and joins (42_tree_builder.md R112); with them the two composites (46_codec.md). -/

namespace Sys2Proof.Machine

/-! ### Outcomes told apart -/

/-- Done, a piece meets `D`; raised, it meets `R`. -/
def Ran.Meets {α : Type} (D : α → State → Prop) (R : State → Prop) (r : Ran α) : Prop :=
  match r with
  | .done a t => D a t
  | .raised _ t => R t
  | .fault _ => True

section
variable {α β : Type} {D : α → State → Prop} {D' : β → State → Prop} {R : State → Prop}

theorem Ran.Meets.andThen {r : Ran α} {k : α → State → Ran β} (h : r.Meets D R)
    (hk : ∀ a t, D a t → (k a t).Meets D' R) : (r.andThen k).Meets D' R := by
  cases r with
  | done a t => exact hk a t h
  | raised e t => exact h
  | fault f => trivial

theorem Ran.Meets.imp {r : Ran α} {E : α → State → Prop} {R' : State → Prop} (h : r.Meets D R)
    (hD : ∀ a t, D a t → E a t) (hR : ∀ t, R t → R' t) : r.Meets E R' := by
  cases r with
  | done a t => exact hD a t h
  | raised e t => exact hR t h
  | fault f => trivial

theorem Ran.Ends.meets {r : Ran α} {P : State → Prop} (h : r.Ends P) : r.Meets (fun _ t => P t) P := by
  cases r <;> exact h

theorem Ran.Meets.ends {r : Ran α} {P : State → Prop} (h : r.Meets D R) (hD : ∀ a t, D a t → P t) (hR : ∀ t, R t → P t) :
    r.Ends P := by
  cases r with
  | done a t => exact hD a t h
  | raised e t => exact hR t h
  | fault f => trivial

end

/-! ### SHAPE_READ -/

/-- Some of the source has been read and the records `more` stand behind the arena, which is a shape's. -/
def Shaped (s : State) (more : List Node) (t : State) : Prop :=
  ShapeArena (s.nodes ++ more) ∧ ∃ u, SourceRead s u ∧ t = u.withNodes (s.nodes ++ more)

section
variable {s t u : State} {more : List Node}

theorem Shaped.nodes (h : Shaped s more t) : t.nodes = s.nodes ++ more := by
  obtain ⟨_, _, _, rfl⟩ := h
  rfl

theorem Shaped.arena (h : Shaped s more t) : ShapeArena t.nodes := h.nodes ▸ h.1

theorem SourceRead.shaped (h : SourceRead s t) (hs : ShapeArena s.nodes) : Shaped s [] t := by
  obtain ⟨p, d, hp, hd, rfl⟩ := h
  rw [Shaped, List.append_nil]
  exact ⟨hs, _, ⟨p, d, hp, hd, rfl⟩, rfl⟩

theorem Shaped.trans {more' : List Node} (h : Shaped s more t) (h' : Shaped t more' u) : Shaped s (more ++ more') u := by
  obtain ⟨_, v, ⟨p, d, hp, hd, rfl⟩, rfl⟩ := h
  obtain ⟨ha, w, ⟨q, e, hq, he, rfl⟩, rfl⟩ := h'
  rw [withNodes_nodes, List.append_assoc] at ha
  refine ⟨ha, _, ⟨q, e, fun h => hq (hp h), he.trans hd, rfl⟩, ?_⟩
  rw [withNodes_nodes, List.append_assoc]
  rfl

/-- Another arena in place of the one reached. -/
theorem Shaped.replace {more' : List Node} (h : Shaped s more t) (ha : ShapeArena (s.nodes ++ more')) :
    Shaped s more' (t.withNodes (s.nodes ++ more')) := by
  obtain ⟨_, v, hv, rfl⟩ := h
  exact ⟨ha, v, hv, rfl⟩

theorem Shaped.reach {K : Set Kind} (h : Shaped s more t) (hv : s.treeValid = false) (hq : s.pq = []) : Reach K s t := by
  obtain ⟨ha, u, ⟨p, d, hp, hd, rfl⟩, rfl⟩ := h
  exact (Effect.source s p d hp hd).reach.trans (Effect.shape { s with srcPos := p, draws := d } _ hv hq ha).reach

end

theorem CodeTree.preorder_eq_cons (tree : CodeTree) (base : Nat) (parented : Bool) :
    ∃ n rest, tree.preorder base parented = n :: rest ∧ n.parented = parented := by
  cases tree with
  | leaf sym => exact ⟨_, _, rfl, rfl⟩
  | node l r => exact ⟨_, _, rfl, rfl⟩

/-- The left subtree takes its place. -/
theorem Shaped.attach_left {s t : State} {l : CodeTree}
    (h : Shaped s (internalRecord nilIdx nilIdx false :: l.preorder (s.nodes.length + 1) false) t) :
    Shaped s (internalRecord (BitVec.ofNat 9 (s.nodes.length + 1)) nilIdx false :: l.preorder (s.nodes.length + 1) true)
      (attach (BitVec.ofNat 9 s.nodes.length) .left (BitVec.ofNat 9 (s.nodes.length + 1)) t) := by
  obtain ⟨n, rest, hpre, hn⟩ := l.preorder_eq_cons (s.nodes.length + 1) false
  have hlen := h.1.length_le
  rw [hpre, List.length_append, List.length_cons, List.length_cons, Config.nodeCap] at hlen
  have hi := ofNat9_toNat (show s.nodes.length < 512 by omega)
  have hc := ofNat9_toNat (show s.nodes.length + 1 < 512 by omega)
  have hat : attach (BitVec.ofNat 9 s.nodes.length) .left (BitVec.ofNat 9 (s.nodes.length + 1)) t = t.withNodes
      (s.nodes ++ internalRecord (BitVec.ofNat 9 (s.nodes.length + 1)) nilIdx false ::
        l.preorder (s.nodes.length + 1) true) := by
    rw [← attach_left_preorder l s.nodes t (by omega), ← h.nodes]
    rfl
  have hshape := ShapeArena.attach (side := .left) h.arena (i := BitVec.ofNat 9 s.nodes.length)
    (c := BitVec.ofNat 9 (s.nodes.length + 1)) (n := internalRecord nilIdx nilIdx false) (m := n)
    (by rw [hi, h.nodes]; simp) rfl rfl (by rw [hc, h.nodes, hpre]; simp) hn (by rw [hi, hc]; omega)
  rw [hat] at hshape ⊢
  exact h.replace hshape

/-- The right subtree takes its place. -/
theorem Shaped.attach_right {s t : State} {l r : CodeTree}
    (h : Shaped s (internalRecord (BitVec.ofNat 9 (s.nodes.length + 1)) nilIdx false ::
      (l.preorder (s.nodes.length + 1) true ++ r.preorder (s.nodes.length + 1 + l.size) false)) t) :
    Shaped s ((CodeTree.node l r).preorder s.nodes.length false)
      (attach (BitVec.ofNat 9 s.nodes.length) .right (BitVec.ofNat 9 (s.nodes.length + 1 + l.size)) t) := by
  obtain ⟨n, rest, hpre, hn⟩ := r.preorder_eq_cons (s.nodes.length + 1 + l.size) false
  have hlen := h.1.length_le
  rw [hpre, List.length_append, List.length_cons, List.length_append, CodeTree.length_preorder, List.length_cons,
    Config.nodeCap] at hlen
  have hi := ofNat9_toNat (show s.nodes.length < 512 by omega)
  have hc := ofNat9_toNat (show s.nodes.length + 1 + l.size < 512 by omega)
  have hat : attach (BitVec.ofNat 9 s.nodes.length) .right (BitVec.ofNat 9 (s.nodes.length + 1 + l.size)) t = t.withNodes
      (s.nodes ++ (CodeTree.node l r).preorder s.nodes.length false) := by
    rw [← attach_right_preorder l r s.nodes t (by omega), ← h.nodes]
    rfl
  have hshape := ShapeArena.attach (side := .right) h.arena (i := BitVec.ofNat 9 s.nodes.length)
    (c := BitVec.ofNat 9 (s.nodes.length + 1 + l.size))
    (n := internalRecord (BitVec.ofNat 9 (s.nodes.length + 1)) nilIdx false) (m := n)
    (by rw [hi, h.nodes]; simp) rfl rfl
    (by
      rw [hc, h.nodes, hpre, List.getElem?_append_right (by omega),
        show s.nodes.length + 1 + l.size - s.nodes.length = l.size + 1 by omega, List.getElem?_cons_succ,
        List.getElem?_append_right (by simp), CodeTree.length_preorder, Nat.sub_self]
      rfl) hn (by rw [hi, hc]; omega)
  rw [hat] at hshape ⊢
  exact h.replace hshape

/-- Parse, wherever it ends, leaves a shape's arena; done, it has made the records of a tree. -/
theorem parseShape_shaped (fuel : Nat) {s : State} (h : ShapeArena s.nodes) : (parseShape fuel s).Meets
    (fun r t => r = BitVec.ofNat 9 s.nodes.length ∧
      ∃ tree : CodeTree, Shaped s (tree.preorder s.nodes.length false) t)
    (fun t => ∃ more, Shaped s more t) := by
  induction fuel generalizing s with
  | zero => trivial
  | succ fuel ih =>
    refine ((getByte_sourceRead s).meets.imp (fun _ t ht => ht.shaped h) fun t ht => ⟨[], ht.shaped h⟩).andThen
      fun m t ht => ?_
    have htn : t.nodes = s.nodes := by rw [ht.nodes, List.append_nil]
    split
    · split
      · exact ⟨[], ht⟩
      · next hfull =>
        have hlt := length_lt_of_not_full (Bool.eq_false_of_not_eq_true hfull)
        refine ((getByte_sourceRead t).meets.imp (fun _ u hu => ht.trans (hu.shaped ht.arena))
          fun u hu => ⟨[], ht.trans (hu.shaped ht.arena)⟩).andThen fun sym u hu => ?_
        have hun : u.nodes = s.nodes := by rw [hu.nodes]; simp
        refine ⟨by rw [State.nextIdx, hun], .leaf sym, ?_⟩
        have := hu.replace (more' := [leafRecord sym false]) (h.append (htn ▸ hlt) rfl rfl rfl)
        rwa [← hun] at this
    · split
      · refine Ran.Meets.andThen (D := fun i u => i = BitVec.ofNat 9 s.nodes.length ∧
          Shaped s [internalRecord nilIdx nilIdx false] u) ?_ fun i u hu => ?_
        · unfold shapeInternal
          split
          · exact ⟨[], ht⟩
          · next hfull =>
            have hlt := length_lt_of_not_full (Bool.eq_false_of_not_eq_true hfull)
            refine ⟨by rw [State.nextIdx, htn], ?_⟩
            have := ht.replace (more' := [internalRecord nilIdx nilIdx false]) (h.append (htn ▸ hlt) rfl rfl rfl)
            rwa [← htn] at this
        obtain ⟨rfl, hu⟩ := hu
        have hulen : u.nodes.length = s.nodes.length + 1 := by rw [hu.nodes]; simp
        refine ((ih hu.arena).imp (fun l v hv => hv) fun v ⟨more, hv⟩ => ⟨_, hu.trans hv⟩).andThen fun l v hv => ?_
        obtain ⟨rfl, lt, hv⟩ := hv
        rw [hulen] at hv ⊢
        have hv' := Shaped.attach_left (hu.trans hv)
        have hvlen : (attach (BitVec.ofNat 9 s.nodes.length) .left (BitVec.ofNat 9 (s.nodes.length + 1)) v).nodes.length =
            s.nodes.length + 1 + lt.size := by rw [hv'.nodes]; simp; omega
        refine ((ih hv'.arena).imp (fun r w hw => hw) fun w ⟨more, hw⟩ => ⟨_, hv'.trans hw⟩).andThen fun r w hw => ?_
        obtain ⟨rfl, rt, hw⟩ := hw
        rw [hvlen] at hw ⊢
        exact ⟨rfl, .node lt rt, Shaped.attach_right (hv'.trans hw)⟩
      · exact ⟨[], ht⟩

section
variable {K : Set Kind}

theorem shapeReadBody_reach (s : State) : (shapeReadBody s).Ends (Reach K s) := by
  have hclear : Reach K s (arenaClear (dropBits s)) := (dropBits_reach s).trans (Effect.arenaClear _).reach
  refine hclear.ends (((parseShape_shaped s.readsLeft (s := arenaClear (dropBits s)) shapeArena_nil).andThen
    (D' := fun _ t => Reach K (arenaClear (dropBits s)) t) fun r t ht => ?_).ends (fun _ _ h => h)
    fun t ⟨_, ht⟩ => ht.reach rfl rfl)
  obtain ⟨rfl, tree, ht⟩ := ht
  have hnodes : t.nodes = tree.preorder 0 false := ht.nodes
  have hsize : tree.size = t.nodes.length := by rw [hnodes, CodeTree.length_preorder]
  have hholds : HoldsTree t.nodes tree 0 := by
    rw [hnodes]
    simpa using holdsTree_preorder tree [] [] false (by simpa [hsize] using ht.arena.length_le)
  have hroot : (t.treeAt 0).isSome = true := by rw [hholds.treeAt hsize.le]; rfl
  exact (ht.reach rfl rfl).trans ((Effect.plant t 0 hroot).reach.trans (setAux_setRes_reach _ _ _ _ _))

end

/-! ### TREE_BUILD -/

/-- Every internal record's children are made before it. -/
def Downward (ns : List Node) : Prop :=
  ∀ (j : Nat) (n : Node), ns[j]? = some n → n.kind = .internal → n.left.toNat < j ∧ n.right.toNat < j

theorem Downward.congr {ns ns' : List Node} (h : Downward ns) (hl : SameLinks ns ns') : Downward ns' := by
  intro j n hn hk
  obtain ⟨m, hm, hcore⟩ := exists_of_map_eq hl hn
  simp only [Node.core, Node.mk.injEq] at hcore
  obtain ⟨hkind, -, -, hleft, hright, -⟩ := hcore
  rw [hleft, hright]
  exact h j m hm (hkind ▸ hk)

theorem Downward.append {ns : List Node} {n : Node} (h : Downward ns)
    (hn : n.kind = .internal → n.left.toNat < ns.length ∧ n.right.toNat < ns.length) : Downward (ns ++ [n]) := by
  intro j m hm hk
  rcases Nat.lt_or_ge j ns.length with hj | hj
  · exact h j m (by rwa [List.getElem?_append_left hj] at hm) hk
  · rw [List.getElem?_append_right hj, List.getElem?_singleton] at hm
    split at hm
    · rw [← Option.some.inj hm] at hk ⊢
      exact ⟨lt_of_lt_of_le (hn hk).1 hj, lt_of_lt_of_le (hn hk).2 hj⟩
    · cases hm

/-- A tree can be read below every node. -/
theorem Downward.readTree_isSome {ns : List Node} (h : Downward ns) {fuel : Nat} {i : NodeIdx} (hf : i.toNat < fuel)
    (hi : i.toNat < ns.length) : (readTree ns fuel i).isSome = true := by
  induction fuel generalizing i with
  | zero => exact absurd hf (Nat.not_lt_zero _)
  | succ fuel ih =>
    have hn := List.getElem?_eq_getElem hi
    cases hk : ns[i.toNat].kind with
    | leaf => simp [readTree, hn, hk]
    | internal =>
      obtain ⟨hl, hr⟩ := h _ _ hn hk
      obtain ⟨l, hl⟩ := Option.isSome_iff_exists.mp (ih (by omega) (lt_trans hl hi))
      obtain ⟨r, hr⟩ := Option.isSome_iff_exists.mp (ih (by omega) (lt_trans hr hi))
      simp [readTree, hn, hk, hl, hr]

/-- TREE_BUILD between two of its operations. -/
structure Building (s : State) : Prop where
  noTree : s.treeValid = false
  arena : ArenaOk s
  count : s.nodes.length + s.pq.length ≤ 512
  seq : s.seq.toNat ≤ s.nodes.length
  downward : Downward s.nodes

/-- An allocated node in no entry of PQ and with no parent. -/
structure Free (s : State) (a : NodeIdx) : Prop where
  allocated : a.toNat < s.nodes.length
  notInPq : ∀ e ∈ s.pq, e.node ≠ a
  noParent : a ∉ arenaRefs s.nodes

theorem Free.taken {s : State} {a : NodeIdx} (h : Free s a) (hs : ArenaOk s) : s.taken a = false := by
  have hn := getElem?_node h.allocated
  rw [State.taken, Bool.or_eq_false_iff]
  refine ⟨Bool.eq_false_of_not_eq_true fun hq => ?_, Bool.eq_false_of_not_eq_true fun hp => ?_⟩
  · obtain ⟨e, he, hea⟩ := (hs.queue.inPq a _ hn).mp hq
    exact h.notInPq e he hea
  · exact h.noParent ((hs.owned.parented a _ hn).mp hp)

section
variable {K : Set Kind}

/-- The node just made enters PQ. -/
theorem Building.enter {s u : State} (hs : ArenaOk s) (hpq : u.pq = s.pq) (hlen : u.nodes.length = s.nodes.length + 1)
    (hrefs : ∀ c ∈ arenaRefs u.nodes, c.toNat < s.nodes.length) (hv : u.treeValid = false) (hu : ArenaOk u)
    (hd : Downward u.nodes) (hroom : u.pq.length < Config.pqCap) (hcount : u.nodes.length + u.pq.length < 512)
    (hseq : u.seq.toNat < u.nodes.length) :
    Reach K u (pqInsert s.nextIdx u) ∧ Building (pqInsert s.nextIdx u) := by
  have hidx : s.nextIdx.toNat = s.nodes.length := nextIdx_toNat (by omega)
  have hfree : Free u s.nextIdx := by
    refine ⟨by omega, fun e he hea => ?_, fun hmem => ?_⟩
    · have := hs.queue.allocated e (hpq ▸ he)
      rw [hea, hidx] at this
      exact lt_irrefl _ this
    · have := hrefs _ hmem
      rw [hidx] at this
      exact lt_irrefl _ this
  have hlimit : u.seq ≠ Config.seqLimit := by
    rintro h
    have : u.seq.toNat = 65535 := by rw [h]; rfl
    omega
  have heff := Effect.pqInsert u s.nextIdx (allocated_iff.mpr hfree.allocated) (hfree.taken hu) hroom hlimit
  have hnodes : (pqInsert s.nextIdx u).nodes.length = u.nodes.length := (sameLinks_inPq _ _ _).length_eq
  have hseq' : (u.seq + 1).toNat = u.seq.toNat + 1 := by bv_omega
  refine ⟨heff.reach, hv, heff.keeps_arena hu, ?_, ?_, hd.congr (sameLinks_inPq _ _ _)⟩
  · rw [hnodes, pqInsert_pq, List.length_append, List.length_singleton]
    omega
  · rw [hnodes, pqInsert_seq, hseq']
    exact hseq

/-- One leaf seeded. -/
theorem Building.seed {s : State} (h : Building s) (sym : Byte) (w : Count) (hlen : s.nodes.length < 256)
    (hroom : s.pq.length < 256) :
    Reach K s (pqInsert s.nextIdx (alloc .leaf sym w nilIdx nilIdx s)) ∧
      Building (pqInsert s.nextIdx (alloc .leaf sym w nilIdx nilIdx s)) := by
  have hfull : s.arenaFull = false := arenaFull_eq_false (by omega)
  have heff := Effect.leaf s sym w hfull h.noTree
  have hnodes : (alloc .leaf sym w nilIdx nilIdx s).nodes.length = s.nodes.length + 1 := by simp
  have hseq := h.seq
  obtain ⟨hreach, hbuild⟩ := Building.enter (K := K) (u := alloc .leaf sym w nilIdx nilIdx s) h.arena rfl hnodes
    (by
      rw [alloc_nodes, arenaRefs_append]
      exact fun c hc => h.arena.owned.allocated c (by simpa [Node.childRefs] using hc))
    h.noTree (heff.keeps_arena h.arena) (h.downward.append nofun) hroom (by rw [hnodes, alloc_pq]; omega)
    (by rw [hnodes, alloc_seq]; omega)
  exact ⟨heff.reach.trans hreach, hbuild⟩

/-- The seeding. -/
theorem Building.seedLeaves {s : State} (xs : List Byte) (h : Building s) (hlen : s.nodes.length + xs.length ≤ 256)
    (hpq : s.pq.length + xs.length ≤ 256) : Reach K s (seedLeaves xs s) ∧ Building (seedLeaves xs s) := by
  induction xs generalizing s with
  | nil => exact ⟨.refl s, h⟩
  | cons sym xs ih =>
    rw [List.length_cons] at hlen hpq
    unfold Machine.seedLeaves
    split
    · exact ih h (by omega) (by omega)
    · obtain ⟨hreach, hbuild⟩ := h.seed (K := K) sym (s.histAt sym) (by omega) (by omega)
      obtain ⟨hreach', hbuild'⟩ := ih hbuild (by simp; omega) (by simp; omega)
      exact ⟨hreach.trans hreach', hbuild'⟩

theorem Free.extract {s t : State} {a : NodeIdx} {e : PqEntry} (h : Free s a) (he : pqExtractMin s = some (e, t)) :
    Free t a := by
  obtain ⟨_, rfl⟩ := pqExtractMin_eq_some.mp he
  have hl : SameLinks s.nodes (s.nodes.modify e.node.toNat fun x => { x with inPq := false }) := sameLinks_inPq _ _ _
  exact ⟨hl.length_eq ▸ h.allocated, fun x hx => h.notInPq x (List.mem_of_mem_filter hx), hl.arenaRefs ▸ h.noParent⟩

/-- The node of the least entry is taken out of PQ and is free. -/
theorem Building.extract {s t : State} {e : PqEntry} (h : Building s) (he : pqExtractMin s = some (e, t)) :
    Reach K s t ∧ Building t ∧ Free t e.node ∧ t.nodes.length = s.nodes.length ∧ t.pq.length < s.pq.length := by
  obtain ⟨hleast, rfl⟩ := pqExtractMin_eq_some.mp he
  have hmem := leastOf_mem hleast
  have heff := Effect.extract s e hmem
  have hl : SameLinks s.nodes (s.nodes.modify e.node.toNat fun x => { x with inPq := false }) := sameLinks_inPq _ _ _
  have hlt : (s.pq.filter fun x => decide (x ≠ e)).length < s.pq.length :=
    List.length_filter_lt_length_iff_exists.mpr ⟨e, hmem, by simp⟩
  have hcount := h.count
  refine ⟨heff.reach, ⟨h.noTree, heff.keeps_arena h.arena, ?_, hl.length_eq ▸ h.seq, h.downward.congr hl⟩, ⟨?_, ?_, ?_⟩,
    hl.length_eq, hlt⟩
  · rw [setNode_nodes, setNode_pq, hl.length_eq]
    dsimp only
    omega
  · rw [setNode_nodes, hl.length_eq]
    exact h.arena.queue.allocated e hmem
  · intro x hx hxe
    obtain ⟨hx, hne⟩ := List.mem_filter.mp hx
    exact of_decide_eq_true hne (h.arena.queue.eq_of_node_eq hx hmem hxe)
  · rw [setNode_nodes, hl.arenaRefs]
    exact h.arena.roots e hmem

/-- Two free nodes are joined below a new one, which enters PQ. -/
theorem Building.join {s : State} {a b : NodeIdx} (h : Building s) (ha : Free s a) (hb : Free s b) (hab : a ≠ b)
    (hcount : s.nodes.length + s.pq.length + 2 ≤ 512) (hroom : s.pq.length < 256) :
    Reach K s (pqInsert s.nextIdx (join a b s)) ∧ Building (pqInsert s.nextIdx (join a b s)) := by
  have heff := Effect.join s a b (allocated_iff.mpr ha.allocated) (allocated_iff.mpr hb.allocated) hab
    (ha.taken h.arena) (hb.taken h.arena) (arenaFull_eq_false (by omega)) h.noTree
  have hl := join_links a b s
  have hnodes : (Machine.join a b s).nodes.length = s.nodes.length + 1 := by simp [hl.length_eq]
  have hseq := h.seq
  obtain ⟨hreach, hbuild⟩ := Building.enter (K := K) (u := Machine.join a b s) h.arena rfl hnodes
    (by
      rw [join_arenaRefs h.arena.queue.arena_le ha.allocated hb.allocated]
      intro c hc
      rcases List.mem_append.mp hc with hc | hc
      · exact h.arena.owned.allocated c hc
      · rcases List.mem_pair.mp hc with rfl | rfl
        · exact ha.allocated
        · exact hb.allocated)
    h.noTree (heff.keeps_arena h.arena)
    ((h.downward.append fun _ => ⟨ha.allocated, hb.allocated⟩).congr hl) hroom
    (by rw [hnodes]; show s.nodes.length + 1 + s.pq.length < 512; omega)
    (by rw [hnodes]; show s.seq.toNat < s.nodes.length + 1; omega)
  exact ⟨heff.reach.trans hreach, hbuild⟩

/-- The joins. -/
theorem Building.joinAll {s : State} (fuel : Nat) (h : Building s) :
    (joinAll fuel s).Ends fun t => Reach K s t ∧ Building t := by
  induction fuel generalizing s with
  | zero => trivial
  | succ fuel ih =>
    unfold Machine.joinAll
    split
    · exact ⟨.refl s, h⟩
    · split
      · trivial
      · next a t ha =>
        split
        · trivial
        · next b u hb =>
          obtain ⟨hst, ht, hfree, hnt, hpt⟩ := h.extract (K := K) ha
          obtain ⟨htu, hu, hfree', hnu, hpu⟩ := ht.extract (K := K) hb
          have hab : a.node ≠ b.node := fun hab =>
            hfree.notInPq b (leastOf_mem (pqExtractMin_eq_some.mp hb).1) hab.symm
          have hcount := h.count
          have hle := h.arena.queue.length_le
          simp only [Config.pqCap] at hle
          obtain ⟨huv, hv⟩ := hu.join (K := K) (hfree.extract hb) hfree' hab (by omega) (by omega)
          exact (ih hv).imp fun w ⟨hvw, hw⟩ => ⟨(hst.trans (htu.trans huv)).trans hvw, hw⟩

/-- The root leaves PQ, and a tree stands there. -/
theorem Building.takeRoot {s : State} (h : Building s) :
    (takeRoot s).Meets (fun _ t => Reach K s t ∧ t.treeValid = true) (Reach K s) := by
  unfold Machine.takeRoot
  split
  · trivial
  · next e t he =>
    obtain ⟨hreach, ht, hfree, _, _⟩ := h.extract (K := K) he
    have hroot : (t.treeAt e.node).isSome = true := ht.downward.readTree_isSome hfree.allocated hfree.allocated
    exact ⟨hreach.trans ((Effect.plant t e.node hroot).reach.trans (setAux_setRes_reach _ _ _ _ _)), rfl⟩

theorem building_arenaClear (s : State) : Building (arenaClear s) :=
  ⟨rfl, arenaOk_empty rfl rfl, Nat.zero_le _, Nat.zero_le _, fun j n hn => by simp at hn⟩

theorem treeBuildCore_reach (s : State) :
    (treeBuildCore s).Meets (fun _ t => Reach K s t ∧ t.treeValid = true) (Reach K s) := by
  obtain ⟨hseed, hbuild⟩ := (building_arenaClear s).seedLeaves (K := K) allSymbols (by simp [allSymbols])
    (by simp [allSymbols])
  have hseeded := (Effect.arenaClear s).reach.trans hseed
  refine ((hbuild.joinAll (K := K) _).meets.imp (fun _ t ht => ht) fun t ht => hseeded.trans ht.1).andThen
    fun _ t ht => ?_
  have hst := hseeded.trans ht.1
  exact ht.2.takeRoot.imp (fun _ u hu => ⟨hst.trans hu.1, hu.2⟩) fun u hu => hst.trans hu

theorem treeBuildBody_reach (s : State) : (treeBuildBody s).Ends (Reach K s) :=
  ends_reach_check fun _ => (treeBuildCore_reach s).ends (fun _ _ h => h.1) fun _ h => h

/-! ### The composites -/

theorem compressSteps_reach (s : State) : (compressSteps s).Ends (Reach K s) := by
  refine ends_reach_andThen (srcRewindBody_reach s) fun _ s _ => ?_
  refine ((treeBuildCore_reach s).andThen (D' := fun _ t => Reach K s t) fun _ t ht => ?_).ends (fun _ _ h => h) fun _ h => h
  refine (ht.1.ends ?_).meets
  refine ends_reach_andThen (codeGenCore_reach ht.2) fun _ s _ => ?_
  refine ends_reach_andThen (hdrWriteCore_reach s) fun _ s _ => ?_
  refine ends_reach_andThen (shapeWriteCore_reach s) fun _ s _ => ?_
  refine ends_reach_andThen (sepWriteCore_reach s) fun _ s _ => ?_
  exact ends_reach_andThen (encScanCore_reach s) fun _ s _ => bwFlushBody_reach s

theorem sizes_reach (hK : .sizes ∈ K) (o c r : Count) (s : State) : Reach K s (sizes o c r s) :=
  ((Effect.sizes s o c).reachOf hK).trans (Effect.results _ r 0).reach

theorem compressBody_reach (hc : .count ∈ K) (hs : .sizes ∈ K) (s : State) : (compressBody s).Ends (Reach K s) := by
  refine ends_reach_check fun _ => ?_
  have hstart : Reach K s (bwReset (histReset (arenaClear s))) :=
    (Effect.arenaClear s).reach.trans (((Effect.histReset _).reachOf hc).trans (Effect.bwReset _).reach)
  refine hstart.ends (ends_reach_andThen (histScanBody_reach hc _) fun _ t _ => ?_)
  split
  · exact ends_reach_andThen (putBytes_reach _ t) fun _ u _ => sizes_reach hs _ _ _ u
  · exact ends_reach_andThen (compressSteps_reach t) fun _ u _ => sizes_reach hs _ _ _ u

theorem decompressSteps_reach (s : State) : (decompressSteps s).Ends (Reach K s) := by
  refine ends_reach_andThen (shapeReadBody_reach s) fun _ s _ => ?_
  exact ends_reach_andThen (sepReadBody_reach s) fun _ s _ => decRunCore_reach s

theorem decompressBody_reach (hs : .sizes ∈ K) (s : State) : (decompressBody s).Ends (Reach K s) := by
  have hstart : Reach K s (brReset (arenaClear s)) := (Effect.arenaClear s).reach.trans (brReset_reach _)
  refine hstart.ends (ends_reach_andThen (hdrReadBody_reach _) fun _ t _ => ?_)
  split
  · exact sizes_reach hs _ _ _ t
  · exact ends_reach_andThen (decompressSteps_reach t) fun _ u _ => sizes_reach hs _ _ _ u

end

end Sys2Proof.Machine
end

section
/-! PROOF. Every command and every step is a sequence of effects, so every step keeps what the effects keep. -/

namespace Sys2Proof.Machine

/-! ### Commands -/

/-- The kinds of effect a command has beside any command's. -/
def ownKinds : Instr → Set Kind
  | .histClear => {.count}
  | .histAdd _ => {.count}
  | .histScan => {.count}
  | .compress => {.count, .sizes}
  | .decompress => {.sizes}
  | .pqExtractMin => {.empty}
  | .clearErr => {.clear}
  | .softReset => {.reset}
  | _ => ∅

/-- `t` is the end of a command whose body has reached `u`: completed or raised. -/
def EndsAt (u t : State) : Prop := t = complete u ∨ ∃ e, t = raise e u

theorem runCommand_reach {K : Set Kind} {op : Byte} {body : State → Ran Unit} {s t : State}
    (hbody : ∀ s, (body s).Ends (Reach K s)) (h : runCommand op body s = .next t) :
    ∃ u, Reach K (accept op s) u ∧ EndsAt u t := by
  have hends := hbody (accept op s)
  rcases runCommand_eq_next.mp h with ⟨u, hu, rfl⟩ | ⟨e, u, hu, rfl⟩ <;> rw [hu] at hends
  · exact ⟨u, hends, .inl rfl⟩
  · exact ⟨u, hends, .inr ⟨e, rfl⟩⟩

/-- A command whose body is one update of the state. -/
theorem runUpdate_reach {K : Set Kind} {op : Byte} {f : State → State} {s t : State} (hf : ∀ s, Reach K s (f s))
    (h : runCommand op (fun s => .done () (f s)) s = .next t) : ∃ u, Reach K (accept op s) u ∧ EndsAt u t :=
  runCommand_reach (body := fun s => .done () (f s)) hf h

/-- What a command can do (40_control.md R89, R90): acceptance, effects of its own kinds, completion or a raise. -/
theorem exec_reach {i : Instr} {s t : State} (hi : isToken i = false) (h : exec i s = .next t) :
    ∃ u, Reach (ownKinds i) (accept (opcode i) s) u ∧ EndsAt u t := by
  cases i with
  | nop => exact runUpdate_reach Reach.refl h
  | softReset => exact runUpdate_reach (fun s => (Effect.softReset s).reachOf (Set.mem_singleton _)) h
  | clearErr => exact runUpdate_reach (fun s => (Effect.clearError s).reachOf (Set.mem_singleton _)) h
  | srcRewind => exact runCommand_reach srcRewindBody_reach h
  | pqClear => exact runUpdate_reach pqClear_reach h
  | pqInsert a => exact runCommand_reach (pqInsertBody_reach a) h
  | pqExtractMin => exact runCommand_reach (pqExtractMinBody_reach (Set.mem_singleton _)) h
  | arenaClear => exact runUpdate_reach (fun s => (Effect.arenaClear s).reach) h
  | nodeLeaf sym => exact runCommand_reach (nodeLeafBody_reach sym) h
  | nodeJoin a b => exact runCommand_reach (nodeJoinBody_reach a b) h
  | nodeRead a => exact runCommand_reach (nodeReadBody_reach a) h
  | histClear => exact runUpdate_reach (fun s => (Effect.histReset s).reachOf (Set.mem_singleton _)) h
  | histAdd sym => exact runCommand_reach (histAddBody_reach (Set.mem_singleton _) sym) h
  | histScan => exact runCommand_reach (histScanBody_reach (Set.mem_singleton _)) h
  | histRead sym => exact runUpdate_reach (fun s => setRes_reach _ s) h
  | treeBuild => exact runCommand_reach treeBuildBody_reach h
  | codeGen => exact runCommand_reach codeGenBody_reach h
  | codeLookup sym => exact runCommand_reach (codeLookupBody_reach sym) h
  | hdrWrite => exact runCommand_reach hdrWriteBody_reach h
  | shapeWrite => exact runCommand_reach shapeWriteBody_reach h
  | sepWrite => exact runCommand_reach sepWriteBody_reach h
  | hdrRead => exact runCommand_reach hdrReadBody_reach h
  | shapeRead => exact runCommand_reach shapeReadBody_reach h
  | sepRead => exact runCommand_reach sepReadBody_reach h
  | bwReset => exact runUpdate_reach (fun s => (Effect.bwReset s).reach) h
  | bwPut n => exact runCommand_reach (bwPutBody_reach n) h
  | encSymbol sym => exact runCommand_reach (encSymbolBody_reach sym) h
  | encScan => exact runCommand_reach encScanBody_reach h
  | bwFlush => exact runCommand_reach bwFlushBody_reach h
  | brReset => exact runUpdate_reach brReset_reach h
  | brGet n => exact runCommand_reach (brGetBody_reach n) h
  | decSymbol => exact runCommand_reach decSymbolBody_reach h
  | decRun => exact runCommand_reach decRunBody_reach h
  | compress => exact runCommand_reach (compressBody_reach (Set.mem_insert _ _) (Set.mem_insert_of_mem _ (Set.mem_singleton _))) h
  | decompress => exact runCommand_reach (decompressBody_reach (Set.mem_singleton _)) h
  | _ => cases hi

/-! ### Steps -/

/-- Effects of every kind. -/
abbrev ReachAny : State → State → Prop := Reach Set.univ

theorem Effect.reachAny {k : Kind} {s t : State} (h : Effect k s t) : ReachAny s t := h.reachOf (Set.mem_univ k)

theorem EndsAt.reachAny {u t : State} (h : EndsAt u t) : ReachAny u t := by
  rcases h with rfl | ⟨e, rfl⟩
  · exact (Effect.complete u).reachAny
  · exact (Effect.raise u e u.cmdOp).reachAny

theorem exec_reachAny {i : Instr} {s t : State} (hi : isToken i = false) (h : exec i s = .next t) : ReachAny s t := by
  obtain ⟨u, hu, ht⟩ := exec_reach hi h
  exact (Effect.accept s (opcode i)).reachAny.trans ((hu.mono (Set.subset_univ _)).trans ht.reachAny)

theorem acceptWord_reachAny {w : Word} {s t : State} (h : acceptWord exec w s = .next t) : ReachAny s t := by
  rcases acceptWord_cases w s with hd | ⟨_, _, _, hr⟩ | ⟨_, i, hi, _, hx⟩
  · rw [hd] at h
    cases h
    exact (Effect.drop s).reachAny
  · rw [hr] at h
    cases h
    exact (Effect.raise s .illegalCmd (opOf w)).reachAny
  · rw [hx] at h
    cases he : exec i s with
    | next u =>
      rw [he] at h
      cases h
      exact (exec_reachAny (decodeCmd_not_token hi) he).trans (Effect.hold u).reachAny
    | fault f =>
      rw [he] at h
      cases h
    | refused r =>
      rw [he] at h
      cases h

theorem writeReg_reachAny {off : Nat} {v : Word} {s t : State} (h : writeReg exec off v s = .next t) : ReachAny s t := by
  unfold writeReg at h
  split_ifs at h
  · exact acceptWord_reachAny h
  · cases h
    exact (Effect.argument s _).reachAny
  · cases h
    exact (Effect.argument s _).reachAny
  · cases h
    exact .refl s

theorem readRegTo_reachAny (off : Nat) (s : State) : ReachAny s (readRegTo off s) := by
  unfold readRegTo
  split
  · exact (Effect.schedule s s.script _ _).reachAny
  · exact (Effect.schedule s s.script _ s.freeCount).reachAny

theorem portAction_reachAny {f : State → State} {s t : State} (hf : ReachAny s (f s))
    (h : portAction f s = .next t) : ReachAny s t := by
  unfold portAction at h
  split at h
  · cases h
  · cases h
    exact hf

/-- The engine's turn, its container reader idle, is completion or nothing. -/
theorem engineTurn_reachAny {s t : State} (hs : s.parse = .idle) (h : engineTurn exec s = .next t) : ReachAny s t := by
  unfold engineTurn at h
  rw [hs] at h
  split at h <;> cases h
  · exact (Effect.complete s).reachAny
  · exact .refl s

theorem move_reachAny {e : Event} {s t : State} (hs : s.parse = .idle) (h : move exec e s = .next t) : ReachAny s t := by
  cases e with
  | engine => exact engineTurn_reachAny hs h
  | memWrite addr size v =>
    simp only [move, hostWrite] at h
    split at h
    · exact writeReg_reachAny h
    · cases h
  | memRead addr size =>
    simp only [move, hostRead] at h
    split at h
    · cases h
      exact readRegTo_reachAny _ s
    · cases h
  | attachSource bytes =>
    simp only [move, attachSource] at h
    split at h
    · next hlen => exact portAction_reachAny (Effect.attachSource s bytes hlen).reachAny h
    · cases h
  | detachSource =>
    simp only [move] at h
    exact portAction_reachAny (Effect.detach s false s.snkAttached).reachAny h
  | attachSink =>
    simp only [move] at h
    exact portAction_reachAny (Effect.attachSink s).reachAny h
  | detachSink =>
    simp only [move] at h
    exact portAction_reachAny (Effect.detach s s.srcAttached false).reachAny h
  | readSink =>
    simp only [move] at h
    exact portAction_reachAny (Effect.schedule s s.script _ s.freeCount).reachAny h
  | hwReset =>
    cases h
    exact (Effect.hardReset s).reachAny

/-- A step, the container reader idle, is a sequence of effects. -/
theorem step_reachAny {s t : State} (hs : s.parse = .idle) (h : step s = .next t) : ReachAny s t := by
  cases hscript : s.script with
  | nil => exact engineTurn_reachAny hs (step_nil hscript ▸ h)
  | cons e moves =>
    rw [step_cons hscript] at h
    exact (Effect.schedule s moves s.obs s.freeCount).reachAny.trans (move_reachAny hs h)

/-- No effect starts the container reader. -/
theorem Effect.keeps_idle {k : Kind} {s t : State} (h : Effect k s t) (hs : s.parse = .idle) : t.parse = .idle := by
  cases h with
  | softReset | hardReset | raise => rfl
  | _ => exact hs

/-- What every effect keeps, every step keeps, and the container reader stays idle. -/
theorem step_keeps {P : State → Prop} (hP : ∀ {k s t}, Effect k s t → P s → P t) {s t : State}
    (hs : s.parse = .idle ∧ P s) (h : step s = .next t) : t.parse = .idle ∧ P t := by
  have hreach := step_reachAny hs.1 h
  exact ⟨hreach.keeps (P := fun s => s.parse = .idle) (fun _ _ _ _ he => he.keeps_idle) hs.1,
    hreach.keeps (fun _ _ _ _ he => hP he) hs.2⟩

/-! ### The invariants every step keeps -/

/-- Settles O54: each of the four is kept by every effect. -/
theorem stepKeepsRegisterInvariants : Obligations.StepKeepsRegisterInvariants :=
  ⟨fun _ _ hs h => step_keeps Effect.keeps_cmdOp hs h, fun _ _ hs h => step_keeps Effect.keeps_flags hs h,
    fun _ _ hs h => step_keeps Effect.keeps_errorRecord hs h, fun _ _ hs h => step_keeps Effect.keeps_acc hs h⟩

/-- Settles O55: HIST_ADD and HIST_SCAN count a symbol only below TOTAL's largest value, so neither sum overflows. -/
theorem stepKeepsTotalTheSumOfHist : Obligations.StepKeepsTotalTheSumOfHist :=
  fun _ _ hs h => step_keeps Effect.keeps_total hs h

/-- Settles O56: a read moves within the source, and a write has room in the sink. -/
theorem stepKeepsPortsInRange : Obligations.StepKeepsPortsInRange :=
  fun _ _ hs h => step_keeps Effect.keeps_ports hs h

/-- Settles O57: TREE_VALID is set only where a tree stands, and the arena changes only with TREE_VALID = 0. -/
theorem stepKeepsTreePresent : Obligations.StepKeepsTreePresent :=
  fun _ _ hs h => step_keeps Effect.keeps_tree hs h

/-- What holds of every allocated node's record. -/
theorem forall_allocated {s : State} {Q : NodeIdx → Node → Prop} :
    (∀ i, s.allocated i = true → Q i (s.node i)) ↔ ∀ (i : NodeIdx) (n : Node), s.nodes[i.toNat]? = some n → Q i n := by
  refine ⟨fun h i n hn => ?_, fun h i hi => h i _ (getElem?_node (allocated_iff.mp hi))⟩
  have hi := (List.getElem?_eq_some_iff.mp hn).1
  rw [getElem?_node hi] at hn
  exact Option.some.inj hn ▸ h i (allocated_iff.mpr hi)

theorem queueAgrees_iff {s : State} : QueueAgrees s ↔ s.parse = .idle ∧ QueueOk s.nodes s.pq s.seq := by
  refine and_congr_right fun _ => ⟨?_, fun h => ?_⟩
  · rintro ⟨harena, hlen, hdistinct, hbelow, halloc, hmarks⟩
    exact ⟨harena, hlen, hdistinct, hbelow, fun e he => allocated_iff.mp (halloc e he), forall_allocated.mp hmarks⟩
  · exact ⟨h.arena_le, h.length_le, h.distinct, h.below, fun e he => allocated_iff.mpr (h.allocated e he),
      forall_allocated.mpr h.inPq⟩

/-- Settles O58: a node enters PQ free and with the next seq, and its mark comes and goes with its entry. -/
theorem stepKeepsQueueAgreeing : Obligations.StepKeepsQueueAgreeing := fun _ _ hs h =>
  queueAgrees_iff.mpr (step_keeps (P := fun s => QueueOk s.nodes s.pq s.seq) Effect.keeps_queue
    (queueAgrees_iff.mp hs) h)

theorem arenaOwned_iff {s : State} : ArenaOwned s ↔ s.parse = .idle ∧ ArenaOk s := by
  have hchild : s.childOf = ChildOf s.nodes := funext₂ fun c p => propext (childOf_iff s c p)
  have hroots (hq : QueueOk s.nodes s.pq s.seq) (hp : Marked Node.parented s.nodes fun i => i ∈ arenaRefs s.nodes) :
      (∀ e ∈ s.pq, (s.node e.node).parented = false) ↔ ∀ e ∈ s.pq, e.node ∉ arenaRefs s.nodes :=
    forall₂_congr fun e he => by
      rw [← Bool.not_eq_true, hp e.node _ (getElem?_node (hq.allocated e he))]
  rw [ArenaOwned, queueAgrees_iff, childRefs_eq_arenaRefs, hchild]
  constructor
  · rintro ⟨⟨hidle, hq⟩, hnodup, halloc, hparented, hr, hacyclic⟩
    have hp : Marked Node.parented s.nodes fun i => i ∈ arenaRefs s.nodes := forall_allocated.mp hparented
    exact ⟨hidle, hq, ⟨hnodup, fun i hi => allocated_iff.mp (halloc i hi), hp⟩, (hroots hq hp).mp hr, hacyclic⟩
  · rintro ⟨hidle, hq, hown, hr, hacyclic⟩
    exact ⟨⟨hidle, hq⟩, hown.nodup, fun i hi => allocated_iff.mpr (hown.allocated i hi),
      forall_allocated.mpr hown.parented, (hroots hq hown.parented).mpr hr, hacyclic⟩

/-- Settles O59: only nodes without a parent become children, and no new link closes a cycle. -/
theorem stepKeepsArenaOwned : Obligations.StepKeepsArenaOwned := fun _ _ hs h =>
  arenaOwned_iff.mpr (step_keeps Effect.keeps_arena (arenaOwned_iff.mp hs) h)

end Sys2Proof.Machine
end

section
/-! PROOF. Who writes what (10_state.md R28, R30, R33, R35, R36, 40_control.md R90, R93): the kinds of effect a command has
say which registers it can change, and a token changes the container reader's alone. -/

namespace Sys2Proof.Machine

/-! ### Which commands have which effects -/

theorem not_mem_ownKinds (i : Instr) : Kind.control ∉ ownKinds i ∧ Kind.host ∉ ownKinds i := by
  cases i <;> simp [ownKinds]

theorem count_mem_ownKinds {i : Instr} (h : Kind.count ∈ ownKinds i) :
    i ∈ [Instr.histClear, .histScan, .compress, .softReset] ∨ ∃ sym, i = .histAdd sym := by
  cases i <;> simp [ownKinds] at h ⊢

theorem sizes_mem_ownKinds {i : Instr} (h : Kind.sizes ∈ ownKinds i) : i = .compress ∨ i = .decompress := by
  cases i <;> simp [ownKinds] at h ⊢

theorem empty_mem_ownKinds {i : Instr} (h : Kind.empty ∈ ownKinds i) : i = .pqExtractMin := by
  cases i <;> simp [ownKinds] at h ⊢

theorem clear_mem_ownKinds {i : Instr} (h : Kind.clear ∈ ownKinds i) : i = .clearErr := by
  cases i <;> simp [ownKinds] at h ⊢

theorem reset_mem_ownKinds {i : Instr} (h : Kind.reset ∈ ownKinds i) : i = .softReset := by
  cases i <;> simp [ownKinds] at h ⊢

/-! ### What the kinds leave alone -/

section
variable {K : Set Kind} {s t : State}

/-- A sequence of effects without acceptance, completion or host moves, as a body's is. -/
structure BodyKinds (K : Set Kind) : Prop where
  noControl : .control ∉ K
  noHost : .host ∉ K

theorem bodyKinds (i : Instr) : BodyKinds (ownKinds i) := ⟨(not_mem_ownKinds i).1, (not_mem_ownKinds i).2⟩

theorem Reach.hist (h : Reach K s t) (hK : BodyKinds K) (hc : .count ∉ K) (hr : .reset ∉ K) :
    t.hist = s.hist ∧ t.total = s.total := by
  refine h.keeps (P := fun u => u.hist = s.hist ∧ u.total = s.total) (fun k u v hk he hu => ?_) ⟨rfl, rfl⟩
  cases he with
  | countSymbol | histReset => exact absurd (hk.resolve_left nofun) hc
  | softReset => exact absurd (hk.resolve_left nofun) hr
  | hardReset => exact absurd (hk.resolve_left nofun) hK.noHost
  | _ => exact hu

theorem Reach.arg (h : Reach K s t) (hK : BodyKinds K) (hr : .reset ∉ K) : t.arg = s.arg := by
  refine h.keeps (P := fun u => u.arg = s.arg) (fun k u v hk he hu => ?_) rfl
  cases he with
  | softReset => exact absurd (hk.resolve_left nofun) hr
  | argument | hardReset => exact absurd (hk.resolve_left nofun) hK.noHost
  | _ => exact hu

theorem Reach.sizes (h : Reach K s t) (hK : BodyKinds K) (hs : .sizes ∉ K) (hr : .reset ∉ K) :
    t.origSize = s.origSize ∧ t.compSize = s.compSize := by
  refine h.keeps (P := fun u => u.origSize = s.origSize ∧ u.compSize = s.compSize) (fun k u v hk he hu => ?_) ⟨rfl, rfl⟩
  cases he with
  | sizes => exact absurd (hk.resolve_left nofun) hs
  | softReset => exact absurd (hk.resolve_left nofun) hr
  | hardReset => exact absurd (hk.resolve_left nofun) hK.noHost
  | _ => exact hu

theorem Reach.pqEmpty (h : Reach K s t) (he : .empty ∉ K) (hs : s.pqEmpty = false) : t.pqEmpty = false := by
  refine h.keeps (P := fun u => u.pqEmpty = false) (fun k u v hk heff hu => ?_) hs
  cases heff with
  | pqEmpty => exact absurd (hk.resolve_left nofun) he
  | softReset | hardReset | accept => rfl
  | _ => exact hu

theorem Reach.cmdDropped (h : Reach K s t) (hK : BodyKinds K) (hc : .clear ∉ K) (hr : .reset ∉ K) :
    t.cmdDropped = s.cmdDropped := by
  refine h.keeps (P := fun u => u.cmdDropped = s.cmdDropped) (fun k u v hk he hu => ?_) rfl
  cases he with
  | clearError => exact absurd (hk.resolve_left nofun) hc
  | softReset => exact absurd (hk.resolve_left nofun) hr
  | drop => exact absurd (hk.resolve_left nofun) hK.noControl
  | hardReset => exact absurd (hk.resolve_left nofun) hK.noHost
  | _ => exact hu

/-- SRC, the port attachments and the host's side are the same; SNK has only grown and draws have only been used up. -/
def HostSideKept (s t : State) : Prop :=
  t.src = s.src ∧ t.srcAttached = s.srcAttached ∧ t.snkAttached = s.snkAttached ∧ s.snk <+: t.snk ∧
    t.draws <:+ s.draws ∧ t.regBase = s.regBase ∧ t.script = s.script ∧ t.obs = s.obs ∧ t.freeCount = s.freeCount

theorem HostSideKept.refl (s : State) : HostSideKept s s :=
  ⟨rfl, rfl, rfl, List.prefix_refl _, List.suffix_refl _, rfl, rfl, rfl, rfl⟩

theorem Reach.hostSide (h : Reach K s t) (hK : BodyKinds K) : HostSideKept s t := by
  refine h.keeps (P := HostSideKept s) (fun k u v hk he hu => ?_) (.refl s)
  obtain ⟨hsrc, hsrcA, hsnkA, hsnk, hdraws, hhost⟩ := hu
  cases he with
  | source _ p d _ hd => exact ⟨hsrc, hsrcA, hsnkA, hsnk, hd.trans hdraws, hhost⟩
  | sink _ bs d _ hd => exact ⟨hsrc, hsrcA, hsnkA, hsnk.trans (List.prefix_append _ _), hd.trans hdraws, hhost⟩
  | schedule | argument | attachSource | attachSink | detach | hardReset =>
    exact absurd (hk.resolve_left nofun) hK.noHost
  | _ => exact ⟨hsrc, hsrcA, hsnkA, hsnk, hdraws, hhost⟩

end

/-! ### Tokens -/

/-- The state with everything blanked that a token can write: the arena with its tree, the header's registers, the results,
the error record and the reader itself. -/
def State.outsideReader (s : State) : State :=
  { s with
    nodes := [], root := nilIdx, treeValid := false, remain := 0, decl := 0, res := 0, resAux := 0, parse := .idle
    busy := false, errCode := none, errOp := 0, errPos := 0, cmdOp := 0 }

theorem closeSubtree_outsideReader (st : List Frame) (r : NodeIdx) (s : State) :
    (closeSubtree st r s).outsideReader = s.outsideReader := by
  induction st generalizing r s with
  | nil => rfl
  | cons f st ih =>
    unfold closeSubtree
    split
    · rfl
    · exact ih _ _

theorem headerEnd_outsideReader (v : Count) (nd : Nat) (s : State) :
    (headerEnd v nd s).Ends fun t => t.outsideReader = s.outsideReader := by
  unfold headerEnd
  split <;> rfl

theorem tokenOutcome_outsideReader {r : Ran Unit} {s t : State} (hr : r.Ends fun u => u.outsideReader = s.outsideReader)
    (h : tokenOutcome r = .next t) : t.outsideReader = s.outsideReader := by
  cases r with
  | done _ u => cases h; exact hr
  | raised e u => cases h; exact hr
  | fault f => cases h

theorem moveCursor_outsideReader {x : Bool} {s t : State} (h : moveCursor x s = .next t) :
    t.outsideReader = s.outsideReader := by
  unfold moveCursor at h
  split at h
  · split at h
    · cases h
    · split at h <;> cases h
      rfl
  · cases h

/-- A token writes the container reader's part of the state alone (44_container.md R128, R129). -/
theorem token_outsideReader {i : Instr} {s t : State} (hi : isToken i = true) (h : exec i s = .next t) :
    t.outsideReader = s.outsideReader := by
  cases i with
  | tokDigit d =>
    simp only [exec, execTokDigit] at h
    split at h
    · split at h <;> cases h <;> rfl
    · cases h
  | tokHdrEnd =>
    simp only [exec, execTokHdrEnd] at h
    split at h
    · exact tokenOutcome_outsideReader (s := s) (headerEnd_outsideReader _ _ { s with parse := .idle }) h
    · cases h
  | tokInternal =>
    simp only [exec, execTokInternal] at h
    split at h
    · refine tokenOutcome_outsideReader ?_ h
      unfold shapeInternal
      split <;> rfl
    · cases h
  | tokLeaf sym =>
    simp only [exec, execTokLeaf] at h
    split at h
    · split at h <;> cases h
      · rfl
      · exact closeSubtree_outsideReader _ _ _
    · cases h
  | tokSep b =>
    simp only [exec, execTokSep] at h
    split at h <;> cases h
    rfl
  | tokBit0 => exact moveCursor_outsideReader h
  | tokBit1 => exact moveCursor_outsideReader h
  | _ => cases hi

/-- A field that is not blanked is the same. -/
theorem eq_of_outsideReader {β : Type} {f : State → β} {s t : State} (h : t.outsideReader = s.outsideReader)
    (hf : ∀ u : State, f u.outsideReader = f u := by intro; rfl) : f t = f s := by
  rw [← hf, h, hf]

theorem token_hostSide {s t : State} (h : t.outsideReader = s.outsideReader) : HostSideKept s t := by
  have hsnk : t.snk = s.snk := eq_of_outsideReader h
  have hdraws : t.draws = s.draws := eq_of_outsideReader h
  exact ⟨eq_of_outsideReader h, eq_of_outsideReader h, eq_of_outsideReader h, hsnk ▸ List.prefix_refl _,
    hdraws ▸ List.suffix_refl _, eq_of_outsideReader h, eq_of_outsideReader h, eq_of_outsideReader h,
    eq_of_outsideReader h⟩

/-! ### The obligations -/

/-- Settles O12: acceptance clears PQ_EMPTY, completion and `raise` end BUSY, and only three commands have an effect that
writes PQ_EMPTY or CMD_DROPPED. -/
theorem executedCommandFlags : Obligations.ExecutedCommandFlags := by
  intro i s t hi h
  obtain ⟨u, hu, ht⟩ := exec_reach hi h
  have hend : t.busy = false ∧ t.pqEmpty = u.pqEmpty ∧ t.cmdDropped = u.cmdDropped := by
    rcases ht with rfl | ⟨e, rfl⟩ <;> exact ⟨rfl, rfl, rfl⟩
  refine ⟨hend.1, fun hq => ?_, ?_, fun hsoft hclear => ?_⟩
  · by_contra hne
    have := hu.pqEmpty (fun h => hne (empty_mem_ownKinds h)) rfl
    rw [hend.2.1, this] at hq
    cases hq
  · rintro (rfl | rfl) <;> cases h <;> rfl
  · exact hend.2.2.trans (hu.cmdDropped (bodyKinds i) (fun h => hclear (clear_mem_ownKinds h))
      fun h => hsoft (reset_mem_ownKinds h))

/-- Settles O13: a command changes what its kinds of effect change, and a token the container reader's part alone. -/
theorem writersOfSharedState : Obligations.WritersOfSharedState := by
  refine ⟨fun i s t h hi hadd => ?_, fun i s t h => ?_, fun i s t h => ?_⟩
  · cases htok : isToken i with
    | true =>
      have hr := token_outsideReader htok h
      exact ⟨eq_of_outsideReader hr, eq_of_outsideReader hr⟩
    | false =>
      obtain ⟨u, hu, ht⟩ := exec_reach htok h
      have hend : t.hist = u.hist ∧ t.total = u.total := by rcases ht with rfl | ⟨e, rfl⟩ <;> exact ⟨rfl, rfl⟩
      rw [hend.1, hend.2]
      refine hu.hist (bodyKinds i) (fun hc => ?_) fun hr => hi (by rw [reset_mem_ownKinds hr]; simp)
      exact (count_mem_ownKinds hc).elim hi fun ⟨sym, hsym⟩ => hadd sym hsym
  · cases htok : isToken i with
    | true =>
      have hr := token_outsideReader htok h
      exact ⟨fun _ => eq_of_outsideReader hr, fun _ _ _ => ⟨eq_of_outsideReader hr, eq_of_outsideReader hr⟩⟩
    | false =>
      obtain ⟨u, hu, ht⟩ := exec_reach htok h
      have hend : t.arg = u.arg ∧ t.origSize = u.origSize ∧ t.compSize = u.compSize := by
        rcases ht with rfl | ⟨e, rfl⟩ <;> exact ⟨rfl, rfl, rfl⟩
      rw [hend.1, hend.2.1, hend.2.2]
      exact ⟨fun hsoft => hu.arg (bodyKinds i) fun hr => hsoft (reset_mem_ownKinds hr),
        fun hsoft hcomp hdecomp => hu.sizes (bodyKinds i) (fun hs => (sizes_mem_ownKinds hs).elim hcomp hdecomp)
          fun hr => hsoft (reset_mem_ownKinds hr)⟩
  · cases htok : isToken i with
    | true => exact token_hostSide (token_outsideReader htok h)
    | false =>
      obtain ⟨u, hu, ht⟩ := exec_reach htok h
      have hkept : HostSideKept s u := hu.hostSide (bodyKinds i)
      rcases ht with rfl | ⟨e, rfl⟩ <;> exact hkept

end Sys2Proof.Machine
end

section
/-! PROOF. The register block as the host reads and writes it, and the reset state (10_state.md R26 to R31, R49). -/

namespace Sys2Proof.Machine

/-! ### Words and fields -/

/-- The two words of a 64-bit register. -/
theorem hiWord_append_loWord (c : Count) : hiWord c ++ loWord c = c :=
  (BitVec.extractLsb'_append_extractLsb'_eq_extractLsb' rfl).trans BitVec.extractLsb'_eq_self

theorem loWord_append (x y : Word) : loWord (x ++ y) = y := BitVec.extractLsb'_append_eq_right

theorem hiWord_append (x y : Word) : hiWord (x ++ y) = x := BitVec.extractLsb'_append_eq_left

/-- A field of a word above another. -/
theorem toNat_or_shiftLeft {x y : Word} {k : Nat} (hx : x.toNat < 2 ^ k) (hy : y.toNat * 2 ^ k < 2 ^ 32) :
    (x ||| y <<< k).toNat = x.toNat + y.toNat * 2 ^ k := by
  rw [← Nat.shiftLeft_eq] at hy ⊢
  rw [BitVec.toNat_or, BitVec.toNat_shiftLeft, Nat.mod_eq_of_lt hy, Nat.or_comm, ← Nat.shiftLeft_add_eq_or_of_lt hx,
    Nat.add_comm]

theorem toNat_setWidth_word {w : Nat} (x : BitVec w) (hw : w ≤ 32) : (x.setWidth 32).toNat = x.toNat := by
  rw [BitVec.toNat_setWidth, Nat.mod_eq_of_lt (lt_of_lt_of_le x.isLt (Nat.pow_le_pow_right (by decide) hw))]

theorem getLsbD_flagBit (b : Bool) {pos k : Nat} (h : pos < 32) :
    (flagBit b pos).getLsbD k = (decide (k = pos) && b) := by
  cases b with
  | false => simp [flagBit]
  | true =>
    simp only [flagBit, if_true, BitVec.getLsbD_shiftLeft, BitVec.getLsbD_one, Bool.and_true]
    by_cases hk : k = pos
    · simp [hk, h]
    · simp [hk]
      omega

/-! ### The register map -/

theorem pqState_toNat {s : State} (h : s.pq.length ≤ 256) : s.pqState.toNat = s.pq.length + s.seq.toNat * 2 ^ 16 := by
  have hlen : ((BitVec.ofNat 9 s.pq.length).setWidth 32).toNat = s.pq.length := by
    rw [toNat_setWidth_word _ (by decide), ofNat9_toNat (by omega)]
  have hseq : (s.seq.setWidth 32).toNat = s.seq.toNat := toNat_setWidth_word _ (by decide)
  have := s.seq.isLt
  rw [State.pqState, toNat_or_shiftLeft (by omega) (by omega), hlen, hseq]

/-- A byte with a small number above it, as BW_STATE and BR_STATE have it. -/
theorem byte_or_shiftLeft_toNat (b : Byte) {n : Nat} (h : n < 16) :
    (b.setWidth 32 ||| (BitVec.ofNat 32 n <<< 8)).toNat = b.toNat + n * 2 ^ 8 := by
  have hb : (b.setWidth 32).toNat = b.toNat := toNat_setWidth_word _ (by decide)
  have hn : (BitVec.ofNat 32 n).toNat = n := by rw [BitVec.toNat_ofNat]; omega
  have := b.isLt
  rw [toNat_or_shiftLeft (by omega) (by omega), hb, hn]

theorem portStatus_toNat (s : State) : s.portStatus.toNat = s.srcAttached.toNat + 2 * s.snkAttached.toNat := by
  unfold State.portStatus
  cases s.srcAttached <;> cases s.snkAttached <;> rfl

theorem nodeCountReg_toNat {s : State} (h : s.nodes.length ≤ 511) : s.nodeCountReg.toNat = s.nodes.length := by
  rw [State.nodeCountReg, toNat_setWidth_word _ (by decide), BitVec.toNat_ofNat]
  omega

theorem readReg_reserved (s : State) {off : Nat} (h : 0x7C < off) : s.readReg off = 0 := by
  unfold State.readReg
  split
  on_goal -1 => rfl
  all_goals omega

/-- Settles O16: each register is its field, the 64-bit ones as their two words. -/
theorem registerMap : Obligations.RegisterMap := by
  intro s
  have ofNat64 {n : Nat} (h : n < 2 ^ 64) : (BitVec.ofNat 64 n).toNat = n := by rw [BitVec.toNat_ofNat, Nat.mod_eq_of_lt h]
  have hnacc := s.nacc.isLt
  have hnleft := s.nleft.isLt
  exact ⟨rfl, rfl, rfl, hiWord_append_loWord _, hiWord_append_loWord _, rfl, rfl, hiWord_append_loWord _, pqState_toNat,
    nodeCountReg_toNat, toNat_setWidth_word _ (by decide), byte_or_shiftLeft_toNat _ (by omega),
    byte_or_shiftLeft_toNat _ (by omega), hiWord_append_loWord _, hiWord_append_loWord _, hiWord_append_loWord _,
    fun h => (congrArg _ (hiWord_append_loWord _)).trans (ofNat64 h),
    fun h => (congrArg _ (hiWord_append_loWord _)).trans (ofNat64 h), hiWord_append_loWord _, hiWord_append_loWord _,
    portStatus_toNat s, fun _ => readReg_reserved s⟩

/-! ### STATUS -/

/-- The bits of STATUS. -/
theorem getLsbD_status (s : State) {k : Nat} (h : k < 32) :
    s.status.getLsbD k = ((decide (k = 0) && s.busy) || (decide (k = 1) && s.errCode.isSome) ||
      (decide (k = 2) && s.pqEmpty) || (decide (k = 3) && s.treeValid) || (decide (k = 4) && s.codesValid) ||
      (decide (k = 5) && s.cmdDropped) || (decide (8 ≤ k) && (errCodeBits s.errCode).getLsbD (k - 8))) := by
  simp only [State.status, BitVec.getLsbD_or, getLsbD_flagBit _ (show 0 < 32 by decide),
    getLsbD_flagBit _ (show 1 < 32 by decide), getLsbD_flagBit _ (show 2 < 32 by decide),
    getLsbD_flagBit _ (show 3 < 32 by decide), getLsbD_flagBit _ (show 4 < 32 by decide),
    getLsbD_flagBit _ (show 5 < 32 by decide), BitVec.getLsbD_shiftLeft, BitVec.getLsbD_setWidth, State.errorFlag]
  by_cases h8 : k < 8
  · simp [h8, Nat.not_le.mpr h8]
  · simp [h, h8, Nat.not_lt.mp h8, show k - 8 < 32 by omega]

/-- Settles O17: bit by bit. -/
theorem statusFields : Obligations.StatusFields := by
  intro s
  have bit {k : Nat} (h : k < 32) := getLsbD_status s h
  have hlow : s.status.extractLsb' 6 2 = 0 := by
    apply BitVec.eq_of_getLsbD_eq
    intro k hk
    rw [BitVec.getLsbD_extractLsb', bit (by omega)]
    obtain rfl | rfl : k = 0 ∨ k = 1 := by omega
    all_goals simp
  have hhigh : s.status.extractLsb' 12 20 = 0 := by
    apply BitVec.eq_of_getLsbD_eq
    intro k hk
    rw [BitVec.getLsbD_extractLsb', bit (by omega), BitVec.getLsbD_of_ge _ (12 + k - 8) (by omega)]
    simp [show ∀ j, j < 8 → ¬ 12 + k = j by omega]
  have hcode : s.status.extractLsb' 8 4 = errCodeBits s.errCode := by
    apply BitVec.eq_of_getLsbD_eq
    intro k hk
    rw [BitVec.getLsbD_extractLsb', bit (by omega)]
    simp [hk, show ∀ j, j < 8 → ¬ 8 + k = j by omega]
  refine ⟨(bit (by decide)).trans (by simp), (bit (by decide)).trans (by simp), (bit (by decide)).trans (by simp),
    (bit (by decide)).trans (by simp), (bit (by decide)).trans (by simp), (bit (by decide)).trans (by simp), hlow, hhigh,
    (congrArg BitVec.toNat hcode).trans ?_⟩
  cases s.errCode with
  | none => rfl
  | some e => cases e <;> rfl

/-! ### Writes -/

/-- Settles O18: ARG_LO and ARG_HI take the word beside the other half; the other offsets take nothing. -/
theorem registerWrites : Obligations.RegisterWrites := by
  intro s off v moves hscript hal hlt hcmd
  have hstep : step s = writeReg exec off v { s with script := moves } := by
    rw [step_cons hscript]
    exact hostWrite_eq (s := { s with script := moves }) hal hlt
  rw [hstep, writeReg, if_neg hcmd]
  by_cases hlo : off = 0x10
  · rw [if_pos hlo]
    exact ⟨_, rfl, rfl, fun _ => ⟨loWord_append _ _, hiWord_append _ _⟩, by omega, by omega⟩
  · rw [if_neg hlo]
    by_cases hhi : off = 0x14
    · rw [if_pos hhi]
      exact ⟨_, rfl, rfl, by omega, fun _ => ⟨hiWord_append _ _, loWord_append _ _⟩, by omega⟩
    · rw [if_neg hhi]
      exact ⟨_, rfl, rfl, by omega, by omega, fun _ _ => rfl⟩

/-! ### Reset -/

/-- Settles O14: the reset state's fields, and ID and PARAM. -/
theorem resetValues : Obligations.ResetValues :=
  ⟨fun _ => ⟨Vector.getElem_replicate _, Vector.getElem_replicate _⟩, by decide⟩

/-- Settles O53: nothing is pending, counted, allocated or attached. -/
theorem resetMeetsTheInvariants : Obligations.ResetMeetsTheInvariants := by
  have harena : ArenaOk State.reset := arenaOk_empty rfl rfl
  exact ⟨⟨rfl, fun _ => rfl⟩, ⟨rfl, (histSum_eq_zero rfl).symm⟩, ⟨rfl, nofun, fun _ => rfl⟩, ⟨rfl, fun _ => ⟨rfl, rfl⟩⟩,
    ⟨rfl, fun _ _ => BitVec.getLsbD_zero⟩, ⟨rfl, Nat.zero_le _, Nat.zero_le _, Nat.zero_le _⟩,
    ⟨rfl, Nat.zero_le _, nofun⟩, queueAgrees_iff.mpr ⟨rfl, harena.queue⟩, arenaOwned_iff.mpr ⟨rfl, harena⟩⟩

end Sys2Proof.Machine
end

section
/-! PROOF. Ports that refuse an access (20_memory.md R56, R57), and a run of bytes as far as the sink takes it. -/

namespace Sys2Proof.Machine

/-! ### A refused access -/

/-- The next write to the sink fails and leaves the draws `d`: the sink is detached, or the host fails the write. -/
def SinkRefuses (s : State) (d : List Bool) : Prop :=
  (s.snkAttached = false ∧ d = s.draws) ∨ (s.snkAttached = true ∧ s.draws = false :: d)

/-- The next read of the source fails and leaves the draws `d`: the source is detached, or the host fails the read of a byte
that is there. -/
def SourceRefuses (s : State) (d : List Bool) : Prop :=
  (s.srcAttached = false ∧ d = s.draws) ∨ (s.srcAttached = true ∧ s.rest ≠ [] ∧ s.draws = false :: d)

theorem putByte_refused {s : State} {d : List Bool} (h : SinkRefuses s d) (b : Byte) :
    putByte b s = .raised .ioError { s with draws := d } := by
  rcases h with ⟨ha, rfl⟩ | ⟨ha, hd⟩
  · exact putByte_detached ha
  · simp [putByte, snkWrite, ha, State.nextDraw, hd]

theorem srcRead_refused {s : State} {d : List Bool} (h : SourceRefuses s d) : srcRead s = (.fail, { s with draws := d }) := by
  rcases h with ⟨ha, rfl⟩ | ⟨ha, hrest, hd⟩
  · exact if_neg (by simp [ha])
  · obtain ⟨b, more, hb⟩ := List.exists_cons_of_ne_nil hrest
    simp [srcRead, ha, src_getElem?_srcPos, hb, State.nextDraw, hd]

theorem getByte_refused {s : State} {d : List Bool} (h : SourceRefuses s d) :
    getByte s = .raised .ioError { s with draws := d } := by
  rw [getByte, srcRead_refused h]

/-! ### Bytes written one after another -/

theorem putBytes_append (xs ys : List Byte) (s : State) :
    putBytes (xs ++ ys) s = (putBytes xs s).andThen fun _ t => putBytes ys t := by
  induction xs generalizing s with
  | nil => rfl
  | cons x xs ih => simp only [List.cons_append, putBytes, ih, andThen_assoc]

/-- A sink with room takes as many bytes as the host accepts writes, whatever it draws later. -/
theorem putBytes_accepted {bs : List Byte} {s : State} {d : List Bool} (ha : s.snkAttached = true)
    (hd : s.draws = List.replicate bs.length true ++ d) (hr : Room bs.length s) :
    putBytes bs s = .done () { s with snk := s.snk ++ bs, draws := d } := by
  induction bs generalizing s with
  | nil =>
    obtain rfl : s.draws = d := hd
    rw [putBytes, List.append_nil]
  | cons b bs ih =>
    have hd : s.draws = true :: (List.replicate bs.length true ++ d) := hd
    have hroom : s.snk.length + (bs.length + 1) ≤ Config.maxCount := hr
    have hb : putByte b s = .done () { s with snk := s.snk ++ [b], draws := List.replicate bs.length true ++ d } := by
      simp [putByte, snkWrite, ha, State.nextDraw, hd, show s.snk.length < Config.maxCount by omega]
    have hbs := ih (s := { s with snk := s.snk ++ [b], draws := List.replicate bs.length true ++ d }) ha rfl
      (by simp only [Room, List.length_append, List.length_singleton]; omega)
    simp only [putBytes, hb, andThen_done, hbs, List.append_assoc, List.singleton_append]

theorem putBytes_refused {bs : List Byte} {s : State} {d : List Bool} (h : SinkRefuses s d) (hne : bs ≠ []) :
    putBytes bs s = .raised .ioError { s with draws := d } := by
  obtain ⟨b, more, rfl⟩ := List.exists_cons_of_ne_nil hne
  rw [putBytes, putByte_refused h, andThen_raised]

/-- The host fails the write after `k` bytes: those stay in the sink (20_memory.md R57). -/
theorem putBytes_refused_after {bs : List Byte} {k : Nat} {s : State} {d : List Bool} (ha : s.snkAttached = true)
    (hd : s.draws = List.replicate k true ++ false :: d) (hr : Room k s) (hk : k < bs.length) :
    putBytes bs s = .raised .ioError { s with snk := s.snk ++ bs.take k, draws := d } := by
  have hlen : (bs.take k).length = k := List.length_take_of_le hk.le
  have hpre : putBytes (bs.take k) s = .done () { s with snk := s.snk ++ bs.take k, draws := false :: d } :=
    putBytes_accepted ha (by rw [hlen, hd]) (by rwa [hlen])
  have hpost := putBytes_refused (bs := bs.drop k) (d := d)
    (s := { s with snk := s.snk ++ bs.take k, draws := false :: d }) (.inr ⟨ha, rfl⟩) (by simpa using hk)
  rw [← List.take_append_drop k bs, putBytes_append, List.take_append_drop, hpre, andThen_done, hpost]

end Sys2Proof.Machine
end

section
/-! PROOF. HDR_WRITE, SHAPE_WRITE and SEP_WRITE (44_container.md R125 to R127): each writes one run of bytes and reports their
number. -/

namespace Sys2Proof.Machine

/-! ### A command that writes bytes and reports their number -/

/-- What HDR_WRITE, SHAPE_WRITE and SEP_WRITE do after their checks (44_container.md R125, R126, R127). -/
def writeBytes (bs : List Byte) (s : State) : Ran Unit :=
  (putBytes bs s).andThen fun _ t => .done () (setRes (BitVec.ofNat 64 bs.length) t)

theorem hdrWriteCore_eq {s : State} {n : Node} (h : s.node? s.root = some n) :
    hdrWriteCore s = writeBytes (dec n.weight ++ [0x2C]) s := by
  simp only [hdrWriteCore, h, writeBytes]

/-- SHAPE_WRITE's walk is one run of PutByte. -/
theorem emitShape_eq_putBytes (tree : CodeTree) (k : Nat) (s : State) :
    emitShape tree k s = (putBytes tree.shapeBytes s).andThen fun _ t => .done (k + tree.shapeBytes.length) t := by
  induction tree generalizing k s with
  | leaf sym => simp [emitShape, CodeTree.shapeBytes, putBytes, andThen_assoc]
  | node l r ihl ihr =>
    simp only [emitShape, ihl, ihr, CodeTree.shapeBytes, putBytes, putBytes_append, andThen_assoc, andThen_done,
      List.length_cons, List.length_append]
    simp only [show k + 1 + l.shapeBytes.length + r.shapeBytes.length = k + (l.shapeBytes.length + r.shapeBytes.length + 1)
      by omega]

theorem shapeWriteCore_eq {s : State} {tree : CodeTree} (h : s.treeAt s.root = some tree) :
    shapeWriteCore s = writeBytes tree.shapeBytes s := by
  simp only [shapeWriteCore, h, emitShape_eq_putBytes, andThen_assoc, andThen_done, Nat.zero_add, writeBytes]

theorem sepWriteCore_eq (s : State) : sepWriteCore s = writeBytes [0x20] s := by
  simp only [sepWriteCore, writeBytes, putBytes, andThen_assoc, andThen_done]
  rfl

section
variable {op : Byte} {body : State → Ran Unit} {bs : List Byte} {s : State} {d : List Bool}

theorem runCommand_write_done (h : body (accept op s) = writeBytes bs (accept op s)) (ha : s.snkAttached = true)
    (hw : Willing s) (hr : Room bs.length s) :
    runCommand op body s = .next { s.fresh with
      snk := s.snk ++ bs, draws := s.draws.drop bs.length, res := BitVec.ofNat 64 bs.length } := by
  have hbody : body (accept op s) = .done () (setRes (BitVec.ofNat 64 bs.length) ((accept op s).wrote bs)) := by
    rw [h, writeBytes, putBytes_wrote (s := accept op s) ha hw hr, andThen_done]
  exact runCommand_done hbody

theorem runCommand_write_refused (h : body (accept op s) = writeBytes bs (accept op s)) (hne : bs ≠ [])
    (hd : SinkRefuses s d) : runCommand op body s = .next { s.failed op .ioError with draws := d } := by
  have hbody : body (accept op s) = .raised .ioError { accept op s with draws := d } := by
    rw [h, writeBytes, putBytes_refused (s := accept op s) hd hne, andThen_raised]
  exact runCommand_raised hbody

theorem runCommand_write_refused_after {k : Nat} (h : body (accept op s) = writeBytes bs (accept op s))
    (ha : s.snkAttached = true) (hd : s.draws = List.replicate k true ++ false :: d) (hr : Room k s)
    (hk : k < bs.length) :
    runCommand op body s = .next { s.failed op .ioError with snk := s.snk ++ bs.take k, draws := d } := by
  have hbody : body (accept op s) = .raised .ioError { accept op s with snk := s.snk ++ bs.take k, draws := d } := by
    rw [h, writeBytes, putBytes_refused_after (s := accept op s) ha hd hr hk, andThen_raised]
    rfl
  exact runCommand_raised hbody

end

/-! ### The three commands -/

theorem hdrWriteBody_writes {s : State} {n : Node} (hv : s.treeValid = true) (hacc : s.nacc = 0)
    (hn : s.node? s.root = some n) : hdrWriteBody s = writeBytes (dec n.weight ++ [0x2C]) s := by
  simp [hdrWriteBody, hv, hacc, hdrWriteCore_eq hn]

theorem shapeWriteBody_writes {s : State} {tree : CodeTree} (hv : s.treeValid = true) (hacc : s.nacc = 0)
    (ht : s.treeAt s.root = some tree) : shapeWriteBody s = writeBytes tree.shapeBytes s := by
  simp [shapeWriteBody, hv, hacc, shapeWriteCore_eq ht]

theorem sepWriteBody_writes {s : State} (hacc : s.nacc = 0) : sepWriteBody s = writeBytes [0x20] s := by
  simp [sepWriteBody, hacc, sepWriteCore_eq]

/-- R125, R126, R195: the checks of HDR_WRITE and SHAPE_WRITE. -/
theorem treeWrite_checks {s : State} (h : s.treeValid = false ∨ s.nacc ≠ 0) :
    hdrWriteBody s = .raised .badState s ∧ shapeWriteBody s = .raised .badState s := by
  cases hv : s.treeValid with
  | false => simp [hdrWriteBody, shapeWriteBody, hv]
  | true => simp [hdrWriteBody, shapeWriteBody, hv, h.resolve_left (by simp [hv])]

theorem shapeBytes_ne_nil (tree : CodeTree) : tree.shapeBytes ≠ [] := by
  cases tree <;> simp [CodeTree.shapeBytes]

/-- Settles O36: after its checks each of the three commands writes one run of bytes and reports its length. -/
theorem containerWrites : Obligations.ContainerWrites := by
  have hdr {s : State} {n : Node} (hacc : s.nacc = 0) (hv : s.treeValid = true) (hn : s.node? s.root = some n) :
      hdrWriteBody (accept 0x30 s) = writeBytes (dec n.weight ++ [0x2C]) (accept 0x30 s) :=
    hdrWriteBody_writes hv hacc hn
  have shape {s : State} {tree : CodeTree} (hacc : s.nacc = 0) (hv : s.treeValid = true)
      (ht : s.treeAt s.root = some tree) :
      shapeWriteBody (accept 0x31 s) = writeBytes tree.shapeBytes (accept 0x31 s) :=
    shapeWriteBody_writes hv hacc ht
  have sep {s : State} (hacc : s.nacc = 0) : sepWriteBody (accept 0x32 s) = writeBytes [0x20] (accept 0x32 s) :=
    sepWriteBody_writes hacc
  refine ⟨fun s => ⟨fun h => ?_, fun h => ?_⟩, fun s hacc ha hw => ⟨?_, ?_, ?_⟩, ?_, ?_, fun s hacc => ⟨?_, ?_⟩⟩
  · exact ⟨runCommand_check (treeWrite_checks (s := accept 0x30 s) h).1,
      runCommand_check (treeWrite_checks (s := accept 0x31 s) h).2⟩
  · exact runCommand_check (if_pos h)
  · rintro n h hv hn rfl hr
    exact runCommand_write_done (hdr hacc hv hn) ha hw hr
  · intro tree hv ht hr
    rw [← tree.length_shapeBytes, Nat.add_sub_cancel] at hr ⊢
    exact runCommand_write_done (shape hacc hv ht) ha hw hr
  · intro hr
    rw [← List.drop_one]
    exact runCommand_write_done (sep hacc) ha hw hr
  · intro s n tree hacc hv hn ht ha
    exact ⟨runCommand_write_refused (hdr hacc hv hn) (by simp) (.inl ⟨ha, rfl⟩),
      runCommand_write_refused (shape hacc hv ht) (shapeBytes_ne_nil tree) (.inl ⟨ha, rfl⟩)⟩
  · rintro s n tree h k more hacc hv hn rfl ht ha hd hr
    exact ⟨runCommand_write_refused_after (hdr hacc hv hn) ha hd hr,
      runCommand_write_refused_after (shape hacc hv ht) ha hd hr⟩
  · exact fun ha => runCommand_write_refused (sep hacc) (by simp) (.inl ⟨ha, rfl⟩)
  · exact fun more ha hd => runCommand_write_refused (sep hacc) (by simp) (.inr ⟨ha, hd⟩)

end Sys2Proof.Machine
end

section
/-! PROOF. BW_PUT (45_bitstream.md R137). -/

namespace Sys2Proof.Machine

theorem bwPutBody_refused {n : Byte} {s : State} (h : 32 < n.toNat) : bwPutBody n s = .raised .badOperand s :=
  if_pos (decide_eq_false (Nat.not_le.mpr h))

theorem bwPutBody_puts {n : Byte} {s : State} (h : n.toNat ≤ 32) :
    bwPutBody n s =
      (putBits (argBits s.arg n.toNat) s).andThen fun _ t => .done () (setRes (BitVec.ofNat 64 n.toNat) t) :=
  if_neg (by simp [bitCountOk, h])

theorem length_argBits (arg : Count) (n : Nat) : (argBits arg n).length = n := by
  simp [argBits]

/-- Settles O41: the bits of ARG are appended one by one, and at most 7 + 32 bits fill at most 4 bytes. -/
theorem bwPutAppendsBits : Obligations.BwPutAppendsBits := by
  refine fun s n => ⟨fun h => runCommand_check (bwPutBody_refused h), fun h ha hw hr => ?_⟩
  have hroom : BitRoom (argBits s.arg n.toNat).length (accept 0x41 s) :=
    hr.mono (by have := s.nacc.isLt; simp only [length_argBits, accept_nacc]; omega)
  obtain ⟨t, hput, a, k, bs, rfl, hbits⟩ := putBits_done (s := accept 0x41 s) ha hw hroom
  have hbody : bwPutBody n (accept 0x41 s) =
      .done () (setRes (BitVec.ofNat 64 n.toNat) { (accept 0x41 s).wrote bs with acc := a, nacc := k }) := by
    rw [bwPutBody_puts h, accept_arg, hput, andThen_done]
  exact ⟨_, bs, runCommand_done hbody, rfl, hbits⟩

end Sys2Proof.Machine
end

section
/-! PROOF. Which commands raise IO_ERROR, and what they leave behind when their first port access is refused
(60_exceptions.md R159). -/

namespace Sys2Proof.Machine

/-! ### Bodies that never raise IO_ERROR -/

/-- The piece of a body does not raise IO_ERROR. -/
def Ran.NoIo {α : Type} (r : Ran α) : Prop :=
  match r with
  | .raised e _ => e ≠ .ioError
  | _ => True

theorem Ran.NoIo.andThen {α β : Type} {r : Ran α} {k : α → State → Ran β} (h : r.NoIo) (hk : ∀ a t, (k a t).NoIo) :
    (r.andThen k).NoIo := by
  cases r with
  | done a t => exact hk a t
  | raised e t => exact h
  | fault f => trivial

/-- A check in front of a piece. -/
theorem Ran.NoIo.check {α : Type} {r : Ran α} {s : State} {c : Prop} [Decidable c] {e : Err} (he : e ≠ .ioError)
    (h : r.NoIo) : (if c then .raised e s else r).NoIo := by
  split
  · exact he
  · exact h

theorem pqInsertBody_noIo (a : NodeIdx) (s : State) : (pqInsertBody a s).NoIo :=
  .check (by decide) (.check (by decide) (.check (by decide) trivial))

theorem pqExtractMinBody_noIo (s : State) : (pqExtractMinBody s).NoIo := by
  unfold pqExtractMinBody
  split <;> trivial

theorem nodeLeafBody_noIo (sym : Byte) (s : State) : (nodeLeafBody sym s).NoIo := .check (by decide) trivial

theorem nodeJoinBody_noIo (a b : NodeIdx) (s : State) : (nodeJoinBody a b s).NoIo :=
  .check (by decide) (.check (by decide) (.check (by decide) (.check (by decide) trivial)))

theorem nodeReadBody_noIo (a : NodeIdx) (s : State) : (nodeReadBody a s).NoIo := .check (by decide) trivial

theorem histAddBody_noIo (sym : Byte) (s : State) : (histAddBody sym s).NoIo := .check (by decide) trivial

theorem joinAll_noIo (fuel : Nat) (s : State) : (joinAll fuel s).NoIo := by
  induction fuel generalizing s with
  | zero => trivial
  | succ fuel ih =>
    unfold joinAll
    split
    · trivial
    · split
      · trivial
      · split
        · trivial
        · exact ih _

theorem takeRoot_noIo (s : State) : (takeRoot s).NoIo := by
  unfold takeRoot
  split
  · trivial
  · trivial

theorem treeBuildBody_noIo (s : State) : (treeBuildBody s).NoIo :=
  .check (by decide) ((joinAll_noIo _ _).andThen fun _ t => takeRoot_noIo t)

theorem genWalk_noIo (tree : CodeTree) (path : Code) (nleaf maxlen : Nat) (s : State) :
    (genWalk tree path nleaf maxlen s).NoIo := by
  induction tree generalizing path nleaf maxlen s with
  | leaf sym => exact .check (by decide) trivial
  | node l r ihl ihr => exact (ihl _ _ _ _).andThen fun _ t => ihr _ _ _ t

theorem codeGenCore_noIo (s : State) : (codeGenCore s).NoIo := by
  unfold codeGenCore
  split
  · trivial
  · exact (genWalk_noIo _ _ _ _ _).andThen fun _ _ => trivial

theorem codeGenBody_noIo (s : State) : (codeGenBody s).NoIo := .check (by decide) (codeGenCore_noIo s)

theorem codeLookupBody_noIo (sym : Byte) (s : State) : (codeLookupBody sym s).NoIo := by
  refine .check (by decide) ?_
  split
  · exact nofun
  · trivial

/-! ### Which commands raise IO_ERROR -/

/-- A body's own effects write no error: those of CLEAR_ERR and SOFT_RESET clear it. -/
theorem Reach.errCode_none {K : Set Kind} {s t : State} (h : Reach K s t) (hK : BodyKinds K) (hs : s.errCode = none) :
    t.errCode = none := by
  refine h.keeps (P := fun u => u.errCode = none) (fun k u v hk he hu => ?_) hs
  cases he with
  | clearError | softReset => rfl
  | raise => exact absurd (hk.resolve_left nofun) hK.noControl
  | hardReset => exact absurd (hk.resolve_left nofun) hK.noHost
  | _ => exact hu

section
variable {i : Instr} {op : Byte} {s t : State}

/-- A command outside the error state, its body no source of IO_ERROR, does not end with it. -/
theorem runCommand_noIo {body : State → Ran Unit} (hreach : ∀ s, (body s).Ends (Reach (ownKinds i) s))
    (hbody : ∀ s, (body s).NoIo) (hs : s.errCode = none) (h : runCommand op body s = .next t) :
    t.errCode ≠ some .ioError := by
  have hends := hreach (accept op s)
  rcases runCommand_eq_next.mp h with ⟨u, hu, rfl⟩ | ⟨e, u, hu, rfl⟩
  · rw [hu] at hends
    have hnone : u.errCode = none := Reach.errCode_none hends (bodyKinds i) hs
    simp [hnone]
  · rintro he
    obtain rfl : e = .ioError := by simpa using he
    have hno := hbody (accept op s)
    rw [hu] at hno
    exact hno rfl

/-- A command whose body is one update of the state. -/
theorem runUpdate_noIo {f : State → State} (hf : ∀ s, Reach (ownKinds i) s (f s)) (hs : s.errCode = none)
    (h : runCommand op (fun s => .done () (f s)) s = .next t) : t.errCode ≠ some .ioError :=
  runCommand_noIo (body := fun s => .done () (f s)) hf (fun _ => trivial) hs h

/-- The commands of 60_exceptions.md R159's list for IO_ERROR. -/
def accessesPort : Instr → Bool
  | .srcRewind | .histScan | .hdrWrite | .shapeWrite | .sepWrite | .hdrRead | .shapeRead | .sepRead | .bwPut _
  | .encSymbol _ | .encScan | .bwFlush | .brGet _ | .decSymbol | .decRun | .compress | .decompress => true
  | _ => false

theorem exec_noIo (hi : isToken i = false) (hp : accessesPort i = false) (hs : s.errCode = none)
    (h : exec i s = .next t) : t.errCode ≠ some .ioError := by
  cases i with
  | nop => exact runUpdate_noIo (i := .nop) Reach.refl hs h
  | softReset =>
    exact runUpdate_noIo (i := .softReset) (fun s => (Effect.softReset s).reachOf (Set.mem_singleton _)) hs h
  | clearErr =>
    exact runUpdate_noIo (i := .clearErr) (fun s => (Effect.clearError s).reachOf (Set.mem_singleton _)) hs h
  | pqClear => exact runUpdate_noIo (i := .pqClear) pqClear_reach hs h
  | pqInsert a => exact runCommand_noIo (i := .pqInsert a) (pqInsertBody_reach a) (pqInsertBody_noIo a) hs h
  | pqExtractMin =>
    exact runCommand_noIo (i := .pqExtractMin) (pqExtractMinBody_reach (Set.mem_singleton _)) pqExtractMinBody_noIo hs h
  | arenaClear => exact runUpdate_noIo (i := .arenaClear) (fun s => (Effect.arenaClear s).reach) hs h
  | nodeLeaf sym => exact runCommand_noIo (i := .nodeLeaf sym) (nodeLeafBody_reach sym) (nodeLeafBody_noIo sym) hs h
  | nodeJoin a b => exact runCommand_noIo (i := .nodeJoin a b) (nodeJoinBody_reach a b) (nodeJoinBody_noIo a b) hs h
  | nodeRead a => exact runCommand_noIo (i := .nodeRead a) (nodeReadBody_reach a) (nodeReadBody_noIo a) hs h
  | histClear =>
    exact runUpdate_noIo (i := .histClear) (fun s => (Effect.histReset s).reachOf (Set.mem_singleton _)) hs h
  | histAdd sym =>
    exact runCommand_noIo (i := .histAdd sym) (histAddBody_reach (Set.mem_singleton _) sym) (histAddBody_noIo sym) hs h
  | histRead sym => exact runUpdate_noIo (i := .histRead sym) (fun s => setRes_reach _ s) hs h
  | treeBuild => exact runCommand_noIo (i := .treeBuild) treeBuildBody_reach treeBuildBody_noIo hs h
  | codeGen => exact runCommand_noIo (i := .codeGen) codeGenBody_reach codeGenBody_noIo hs h
  | codeLookup sym =>
    exact runCommand_noIo (i := .codeLookup sym) (codeLookupBody_reach sym) (codeLookupBody_noIo sym) hs h
  | bwReset => exact runUpdate_noIo (i := .bwReset) (fun s => (Effect.bwReset s).reach) hs h
  | brReset => exact runUpdate_noIo (i := .brReset) brReset_reach hs h
  | tokDigit | tokHdrEnd | tokInternal | tokLeaf | tokSep | tokBit0 | tokBit1 => cases hi
  | _ => cases hp

end

/-! ### Readers whose first access is refused -/

section
variable {s : State} {d : List Bool}

theorem getBit_refused (h : SourceRefuses s d) (h0 : s.nleft = 0) :
    getBit s = .raised .ioError { s with draws := d } := by
  rw [getBit_fetched (by rw [h0]; rfl), getByte_refused h, andThen_raised]

theorem hdrReadBody_refused (h : SourceRefuses s d) :
    hdrReadBody s = .raised .ioError { s with nleft := 0, draws := d } := by
  rw [hdrReadBody, State.readsLeft, hdrLoop, getByte_refused (s := dropBits s) h, andThen_raised]
  rfl

theorem sepReadBody_refused (h : SourceRefuses s d) :
    sepReadBody s = .raised .ioError { s with nleft := 0, draws := d } := by
  rw [sepReadBody, getByte_refused (s := dropBits s) h, andThen_raised]
  rfl

theorem shapeReadBody_refused (h : SourceRefuses s d) :
    shapeReadBody s = .raised .ioError { arenaClear (dropBits s) with draws := d } := by
  rw [shapeReadBody, State.readsLeft, parseShape, getByte_refused (s := arenaClear (dropBits s)) h, andThen_raised,
    andThen_raised]

theorem decompressBody_refused (h : SourceRefuses s d) :
    decompressBody s = .raised .ioError { brReset (arenaClear s) with draws := d } := by
  rw [decompressBody, hdrReadBody_refused (s := brReset (arenaClear s)) h, andThen_raised]
  rfl

theorem histScanBody_refused (h : SourceRefuses s d) : histScanBody s = .raised .ioError { s with draws := d } := by
  rw [histScanBody, State.readsLeft, histScanLoop, srcRead_refused h, andThen_raised]

theorem compressBody_refused (h : SourceRefuses s d) (hpos : s.srcPos = 0) :
    compressBody s = .raised .ioError { bwReset (histReset (arenaClear s)) with draws := d } := by
  rw [compressBody, if_neg (not_not.mpr hpos), histScanBody_refused (s := bwReset (histReset (arenaClear s))) h,
    andThen_raised]

theorem encScanBody_refused (h : SourceRefuses s d) (hv : s.codesValid = true) :
    encScanBody s = .raised .ioError { s with draws := d } := by
  rw [encScanBody, if_neg (by simp [hv]), encScanCore, State.readsLeft, encScanLoop, srcRead_refused h, andThen_raised]

theorem brGetBody_refused {n : Byte} (h : SourceRefuses s d) (h0 : s.nleft = 0) (hpos : 0 < n.toNat)
    (hle : n.toNat ≤ 32) : brGetBody n s = .raised .ioError { s with draws := d } := by
  obtain ⟨k, hk⟩ := Nat.exists_eq_add_one_of_ne_zero hpos.ne'
  rw [brGetBody, if_neg (by simp [bitCountOk, hle]), hk, getBits, getBit_refused h h0, andThen_raised, andThen_raised]

/-! ### Writers whose first access is refused -/

/-- The byte that the bits complete is lost, and the BitWriter is empty (45_bitstream.md R134). -/
theorem putBits_refused {xs : List Bool} (h : SinkRefuses s d) (hlen : 8 ≤ s.nacc.val + xs.length) :
    putBits xs s = .raised .ioError { s with acc := 0, nacc := 0, draws := d } := by
  induction xs generalizing s with
  | nil =>
    have := s.nacc.isLt
    simp at hlen
    omega
  | cons x xs ih =>
    by_cases hn : s.nacc.val + 1 < 8
    · have hrest := ih (s := { s with acc := accWith s.acc s.nacc.val x, nacc := ⟨s.nacc.val + 1, hn⟩ }) h
        (by simp only [List.length_cons] at hlen; simp only; omega)
      rw [putBits, putBit_kept hn, andThen_done, hrest]
    · have h7 : s.nacc.val = 7 := by have := s.nacc.isLt; omega
      rw [putBits, putBit_full h7, putByte_refused (s := { s with acc := 0, nacc := 0 }) h, andThen_raised]

theorem bwPutBody_sinkRefused {n : Byte} (h : SinkRefuses s d) (hn : n.toNat ≤ 32) (hlen : 8 ≤ s.nacc.val + n.toNat) :
    bwPutBody n s = .raised .ioError { s with acc := 0, nacc := 0, draws := d } := by
  rw [bwPutBody_puts hn, putBits_refused h (by rwa [length_argBits]), andThen_raised]

theorem encSymbolBody_sinkRefused {sym : Byte} {c : Code} (h : SinkRefuses s d) (hv : s.codesValid = true)
    (hc : s.codeAt sym = some c) (hlen : 8 ≤ s.nacc.val + c.length) :
    encSymbolBody sym s = .raised .ioError { s with acc := 0, nacc := 0, draws := d } := by
  simp only [encSymbolBody, hv, Bool.true_eq_false, if_false, hc, putBits_refused h hlen, andThen_raised]

/-! ### The decoder, which reads and writes -/

theorem decSymbolCore_sourceRefused {n : Node} (h : SourceRefuses s d) (hn : s.node? s.root = some n)
    (hk : n.kind = .internal) (h0 : s.nleft = 0) : decSymbolCore s = .raised .ioError { s with draws := d } := by
  simp only [decSymbolCore, State.bitsLeft, decWalk, hn, hk, getBit_refused h h0, andThen_raised]

theorem decSymbolCore_sinkRefused {n : Node} (h : SinkRefuses s d) (hn : s.node? s.root = some n)
    (hk : n.kind = .leaf) : decSymbolCore s = .raised .ioError { s with draws := d } := by
  simp only [decSymbolCore, State.bitsLeft, decWalk, hn, hk, andThen_done, emitLeaf, putByte_refused h, andThen_raised]

/-- DEC_SYMBOL and DEC_RUN end as the first symbol does. -/
theorem decodeBodies_raised {e : Err} {t : State} (hv : s.treeValid = true) (hrem : s.remain ≠ 0)
    (h : decSymbolCore s = .raised e t) : decSymbolBody s = .raised e t ∧ decRunBody s = .raised e t := by
  obtain ⟨k, hk⟩ := Nat.exists_eq_add_one_of_ne_zero fun h0 => hrem (BitVec.eq_of_toNat_eq h0)
  constructor
  · rw [decSymbolBody, if_neg (by simp [hv]), if_neg hrem, h]
  · rw [decRunBody, if_neg (by simp [hv]), decRunCore, hk, decRunLoop, if_neg hrem, h, andThen_raised, andThen_raised]

end

/-- Settles O60: the other commands' bodies never raise IO_ERROR, and a body whose first access is refused stops there. -/
theorem portFailuresRaiseIoError : Obligations.PortFailuresRaiseIoError := by
  refine ⟨fun i s t hi hs h hio => ?_, fun s d h => ?_, fun s d h => ?_⟩
  · cases hp : accessesPort i with
    | false => exact absurd hio (exec_noIo hi hp hs h)
    | true => cases i <;> simp [accessesPort] at hp ⊢
  · have refuses (op : Byte) : SourceRefuses (accept op s) d := h
    refine ⟨runCommand_raised (hdrReadBody_refused (refuses _)), runCommand_raised (sepReadBody_refused (refuses _)),
      runCommand_raised (shapeReadBody_refused (refuses _)), runCommand_raised (decompressBody_refused (refuses _)),
      fun hpos => runCommand_raised (compressBody_refused (refuses _) hpos),
      fun hv => runCommand_raised (encScanBody_refused (refuses _) hv),
      fun n h0 hpos hle => runCommand_raised (brGetBody_refused (refuses _) h0 hpos hle), fun n hv hrem hn hk h0 => ?_⟩
    have decode (op : Byte) := decodeBodies_raised (s := accept op s) hv hrem
      (decSymbolCore_sourceRefused (refuses op) hn hk h0)
    exact ⟨runCommand_raised (decode _).1, runCommand_raised (decode _).2⟩
  · have refuses (op : Byte) : SinkRefuses (accept op s) d := h
    refine ⟨fun n hn hlen => runCommand_raised (bwPutBody_sinkRefused (refuses _) hn hlen),
      fun sym c hv hc hlen => runCommand_raised (encSymbolBody_sinkRefused (refuses _) hv hc hlen),
      fun n hv hrem hn hk => ?_⟩
    have decode (op : Byte) := decodeBodies_raised (s := accept op s) hv hrem
      (decSymbolCore_sinkRefused (refuses op) hn hk)
    exact ⟨runCommand_raised (decode _).1, runCommand_raised (decode _).2⟩

end Sys2Proof.Machine
end

section
/-! PROOF. The host's register reads and port actions, and its moves that have no step (20_memory.md R52, R53, R58, R70). -/

namespace Sys2Proof.Machine

/-- The step of a register read the block admits. -/
theorem step_memRead {s : State} {off : Nat} {moves : List Event} (h : s.script = .memRead (s.regBase + off) 4 :: moves)
    (hal : off % 4 = 0) (hlt : off < 0x100) : step s = .next (readRegTo off { s with script := moves }) := by
  rw [step_cons h]
  exact hostRead_eq (s := { s with script := moves }) hal hlt

theorem readRegTo_idle {s : State} (off : Nat) (h : s.busy = false) :
    readRegTo off s = { s with obs := .word (s.readReg off) :: s.obs } :=
  if_neg (by simp [h])

theorem readRegTo_busy {s : State} {off : Nat} (hreg : off ≤ 0x7C) (h : s.busy = true) :
    readRegTo off s = { s with obs := .word (s.busyRead off) :: s.obs, freeCount := s.freeCount + 1 } :=
  if_pos (by simp [h, isRegister, hreg])

/-- The word read from STATUS while BUSY = 1 has bit 0 set, whatever the free value is. -/
theorem busyRead_status (s : State) : (s.busyRead 0x0C).getLsbD 0 = true := by
  simp [State.busyRead]

/-- Settles O19: an idle block gives its register, a busy one a free word. -/
theorem registerReads : Obligations.RegisterReads := by
  refine ⟨fun s off moves hscript hal hlt hbusy => ?_, fun s off moves hscript hal hreg hbusy => ?_⟩
  · rw [step_memRead hscript hal hlt, readRegTo_idle (s := { s with script := moves }) off hbusy]
    rfl
  · refine ⟨s.busyRead off, ?_, ?_⟩
    · rw [step_memRead hscript hal (by omega), readRegTo_busy (s := { s with script := moves }) hreg hbusy]
      rfl
    · rintro rfl
      exact busyRead_status s

theorem attachSource_short {bytes : List Byte} (s : State) (h : bytes.length < 2 ^ 64) :
    attachSource bytes s = portAction (fun s => { s with src := bytes, srcPos := 0, srcAttached := true }) s :=
  if_pos (Nat.le_sub_one_of_lt h)

/-- Settles O20: a port action checks BUSY alone, and a register access the block's window. -/
theorem hostPortMoves : Obligations.HostPortMoves := by
  refine ⟨fun s moves hbusy => ?_, fun s moves => ⟨fun addr size v hbad => ?_, fun hbusy m hm hscript => ?_,
    fun hbusy bs hlen hscript => ?_⟩⟩
  · have idle : ¬ State.busy { s with script := moves } = true := by simp [hbusy]
    exact ⟨fun bs hlen h => (step_cons h).trans ((attachSource_short _ hlen).trans (if_neg idle)),
      fun h => (step_cons h).trans (if_neg idle), fun h => (step_cons h).trans (if_neg idle),
      fun h => (step_cons h).trans (if_neg idle), fun h => (step_cons h).trans (if_neg idle)⟩
  · have refused : ¬ State.admits { s with script := moves } addr size = true := by simpa [State.admits] using hbad
    exact ⟨fun h => (step_cons h).trans (if_neg refused), fun h => (step_cons h).trans (if_neg refused)⟩
  · refine (step_cons hscript).trans ?_
    simp only [List.mem_cons, List.not_mem_nil, or_false] at hm
    rcases hm with rfl | rfl | rfl | rfl <;> exact if_pos hbusy
  · exact (step_cons hscript).trans ((attachSource_short _ hlen).trans (if_pos hbusy))

end Sys2Proof.Machine
end

section
/-! PROOF. The decoder and the encoder of command words and container tokens (30_encoding.md R76 to R86): each format's
word as a number, the formats' round trips, and the opcode map over them. -/

namespace Sys2Proof

open Machine (isDigit decodeHeader_digit decodeHeader_comma toNat_digit toNat_setWidth_word toNat_or_shiftLeft)

open Laws.OpcodeByte (opOf_encN opOf_encS opOf_encA opOf_encAB)

/-! ### Words as numbers (R78) -/

theorem toNat_encN (op : Byte) : (encN op).toNat = op.toNat := toNat_setWidth_word op (by decide)

/-- An operand above the opcode byte. -/
theorem toNat_operand_or_opcode {n : Nat} (x : BitVec n) (hn : n ≤ 24) (op : Byte) :
    (x.setWidth 32 <<< 8 ||| op.setWidth 32 : Word).toNat = x.toNat * 2 ^ 8 + op.toNat := by
  have hx : x.toNat < 2 ^ 24 := lt_of_lt_of_le x.isLt (Nat.pow_le_pow_right (by decide) hn)
  have hop := op.isLt
  rw [BitVec.or_comm, toNat_or_shiftLeft, toNat_setWidth_word x (by omega), toNat_setWidth_word op (by decide),
    Nat.add_comm]
  · rw [toNat_setWidth_word op (by decide)]; omega
  · rw [toNat_setWidth_word x (by omega)]; omega

theorem toNat_encS (op imm8 : Byte) : (encS op imm8).toNat = imm8.toNat * 2 ^ 8 + op.toNat :=
  toNat_operand_or_opcode imm8 (by decide) op

theorem toNat_encA (op : Byte) (a : NodeIdx) : (encA op a).toNat = a.toNat * 2 ^ 8 + op.toNat :=
  toNat_operand_or_opcode a (by decide) op

theorem toNat_encAB (op : Byte) (a b : NodeIdx) :
    (encAB op a b).toNat = b.toNat * 2 ^ 17 + a.toNat * 2 ^ 8 + op.toNat := by
  have ha := a.isLt
  have hb := b.isLt
  have hop := op.isLt
  have hlow : (encA op a).toNat < 2 ^ 17 := by rw [toNat_encA]; omega
  have hhigh : (b.setWidth 32 : Word).toNat * 2 ^ 17 < 2 ^ 32 := by rw [toNat_setWidth_word b (by decide)]; omega
  rw [encAB, BitVec.or_assoc, BitVec.or_comm, ← encA, toNat_or_shiftLeft hlow hhigh, toNat_encA,
    toNat_setWidth_word b (by decide)]
  omega

/-- The field of a word at bit `k`, as a number. -/
theorem toNat_field (w : Word) (k m : Nat) : (w.extractLsb' k m).toNat = w.toNat / 2 ^ k % 2 ^ m := by
  rw [BitVec.extractLsb'_toNat, Nat.shiftRight_eq_div_pow]

/-- The bits of a word from `k` up are 0 exactly when the word is below `2 ^ k`. -/
theorem reserved_eq_zero {w : Word} {k m : Nat} (h : k + m = 32) : w.extractLsb' k m = 0 ↔ w.toNat < 2 ^ k := by
  have hlt : w.toNat / 2 ^ k < 2 ^ m := by
    rw [Nat.div_lt_iff_lt_mul (by positivity), ← pow_add, Nat.add_comm, h]
    exact w.isLt
  rw [← BitVec.toNat_inj, toNat_field, Nat.mod_eq_of_lt hlt]
  simp

/-! ### The four formats (R76) -/

section
variable {w : Word} {i j : Instr}

/-- What an arm of the opcode map answers with, its reserved bits from `k` up. -/
theorem reserved_check_eq_ok {k m : Nat} {v : Instr} (h : k + m = 32) :
    (if w.extractLsb' k m = 0 then Except.ok v else Except.error Reject.reservedBits) = .ok j ↔
      w.toNat < 2 ^ k ∧ v = j := by
  rw [← reserved_eq_zero h]
  split
  · next hw => simp only [hw, true_and, Except.ok.injEq]
  · next hw => simp only [hw, false_and, reduceCtorEq]

theorem decodeN_eq_ok : decodeN w i = .ok j ↔ w.toNat < 2 ^ 8 ∧ i = j := reserved_check_eq_ok rfl

theorem decodeS_eq_ok {f : Byte → Instr} :
    decodeS w f = .ok j ↔ w.toNat < 2 ^ 16 ∧ f (w.extractLsb' 8 8) = j := reserved_check_eq_ok rfl

theorem decodeA_eq_ok {f : NodeIdx → Instr} :
    decodeA w f = .ok j ↔ w.toNat < 2 ^ 17 ∧ f (w.extractLsb' 8 9) = j := reserved_check_eq_ok rfl

theorem decodeAB_eq_ok {f : NodeIdx → NodeIdx → Instr} :
    decodeAB w f = .ok j ↔ w.toNat < 2 ^ 26 ∧ f (w.extractLsb' 8 9) (w.extractLsb' 17 9) = j :=
  reserved_check_eq_ok rfl

theorem encN_opOf (h : w.toNat < 2 ^ 8) : encN (opOf w) = w := by
  apply BitVec.eq_of_toNat_eq
  rw [toNat_encN, opOf, toNat_field]
  omega

theorem encS_fields (h : w.toNat < 2 ^ 16) : encS (opOf w) (w.extractLsb' 8 8) = w := by
  apply BitVec.eq_of_toNat_eq
  rw [toNat_encS, opOf, toNat_field, toNat_field]
  omega

theorem encA_fields (h : w.toNat < 2 ^ 17) : encA (opOf w) (w.extractLsb' 8 9) = w := by
  apply BitVec.eq_of_toNat_eq
  rw [toNat_encA, opOf, toNat_field, toNat_field]
  omega

theorem encAB_fields (h : w.toNat < 2 ^ 26) : encAB (opOf w) (w.extractLsb' 8 9) (w.extractLsb' 17 9) = w := by
  apply BitVec.eq_of_toNat_eq
  rw [toNat_encAB, opOf, toNat_field, toNat_field, toNat_field]
  omega

end

theorem decodeN_encN (op : Byte) (i : Instr) : decodeN (encN op) i = .ok i :=
  decodeN_eq_ok.mpr ⟨by rw [toNat_encN]; exact op.isLt, rfl⟩

theorem decodeS_encS (op x : Byte) (f : Byte → Instr) : decodeS (encS op x) f = .ok (f x) := by
  have hop := op.isLt
  have hx := x.isLt
  refine decodeS_eq_ok.mpr ⟨by rw [toNat_encS]; omega, congrArg f (BitVec.eq_of_toNat_eq ?_)⟩
  rw [toNat_field, toNat_encS]
  omega

theorem decodeA_encA (op : Byte) (a : NodeIdx) (f : NodeIdx → Instr) : decodeA (encA op a) f = .ok (f a) := by
  have hop := op.isLt
  have ha := a.isLt
  refine decodeA_eq_ok.mpr ⟨by rw [toNat_encA]; omega, congrArg f (BitVec.eq_of_toNat_eq ?_)⟩
  rw [toNat_field, toNat_encA]
  omega

theorem decodeAB_encAB (op : Byte) (a b : NodeIdx) (f : NodeIdx → NodeIdx → Instr) :
    decodeAB (encAB op a b) f = .ok (f a b) := by
  have hop := op.isLt
  have ha := a.isLt
  have hb := b.isLt
  refine decodeAB_eq_ok.mpr ⟨by rw [toNat_encAB]; omega,
    congrArg₂ f (BitVec.eq_of_toNat_eq ?_) (BitVec.eq_of_toNat_eq ?_)⟩
  all_goals
    rw [toNat_field, toNat_encAB]
    omega

/-! ### The opcode map (R79) -/

/-- A command's word decodes to the command: by the opcode in its low byte, in its own format. -/
theorem decode_encode_command {i : Instr} (h : isToken i = false) : decode (encode i) = .ok i := by
  cases i with
  | nodeLeaf x | histAdd x | histRead x | codeLookup x | bwPut x | encSymbol x | brGet x =>
    simp [decode, encode, decodeCmd, opcode, opOf_encS, decodeS_encS]
  | pqInsert a | nodeRead a => simp [decode, encode, decodeCmd, opcode, opOf_encA, decodeA_encA]
  | nodeJoin a b => simp [decode, encode, decodeCmd, opcode, opOf_encAB, decodeAB_encAB]
  | tokDigit _ | tokHdrEnd | tokInternal | tokLeaf _ | tokSep _ | tokBit0 | tokBit1 => cases h
  | _ => simp [decode, encode, decodeCmd, opcode, opOf_encN, decodeN_encN]

/-- An arm of the opcode map gives an instruction whose encoding has the arm's opcode and the word's fields. -/
theorem encode_of_decodeN {w : Word} {n : Nat} {i j : Instr} (h : decodeN w j = .ok i) (hop : (opOf w).toNat = n)
    (hj : encode j = .cmd (encN (.ofNat 8 n))) : encode i = .cmd w := by
  obtain ⟨hw, rfl⟩ := decodeN_eq_ok.mp h
  rw [hj, ← hop, BitVec.ofNat_toNat, BitVec.setWidth_eq, encN_opOf hw]

theorem encode_of_decodeS {w : Word} {n : Nat} {i : Instr} {f : Byte → Instr} (h : decodeS w f = .ok i)
    (hop : (opOf w).toNat = n) (hf : ∀ x, encode (f x) = .cmd (encS (.ofNat 8 n) x)) : encode i = .cmd w := by
  obtain ⟨hw, rfl⟩ := decodeS_eq_ok.mp h
  rw [hf, ← hop, BitVec.ofNat_toNat, BitVec.setWidth_eq, encS_fields hw]

theorem encode_of_decodeA {w : Word} {n : Nat} {i : Instr} {f : NodeIdx → Instr} (h : decodeA w f = .ok i)
    (hop : (opOf w).toNat = n) (hf : ∀ x, encode (f x) = .cmd (encA (.ofNat 8 n) x)) : encode i = .cmd w := by
  obtain ⟨hw, rfl⟩ := decodeA_eq_ok.mp h
  rw [hf, ← hop, BitVec.ofNat_toNat, BitVec.setWidth_eq, encA_fields hw]

theorem encode_of_decodeAB {w : Word} {n : Nat} {i : Instr} {f : NodeIdx → NodeIdx → Instr} (h : decodeAB w f = .ok i)
    (hop : (opOf w).toNat = n) (hf : ∀ x y, encode (f x y) = .cmd (encAB (.ofNat 8 n) x y)) : encode i = .cmd w := by
  obtain ⟨hw, rfl⟩ := decodeAB_eq_ok.mp h
  rw [hf, ← hop, BitVec.ofNat_toNat, BitVec.setWidth_eq, encAB_fields hw]

/-- What a word decodes to is encoded as the word, arm by arm of the opcode map. -/
theorem encode_of_decodeCmd {w : Word} {i : Instr} (h : decodeCmd w = .ok i) : encode i = .cmd w := by
  unfold decodeCmd at h
  split at h
  any_goals exact encode_of_decodeN h ‹_› rfl
  any_goals exact encode_of_decodeS h ‹_› fun _ => rfl
  any_goals exact encode_of_decodeA h ‹_› fun _ => rfl
  · exact encode_of_decodeAB h ‹_› fun _ _ => rfl
  · cases h

/-! ### Tokens (R83) -/

/-- Everything a header token can be, and its byte. -/
theorem decodeHeader_eq_ok {b : Byte} {i : Instr} (h : decodeHeader b = .ok i) :
    (i = .tokHdrEnd ∧ b = 0x2C) ∨
      ∃ d : BitVec 4, i = .tokDigit d ∧ d.toNat < 10 ∧ b = BitVec.ofNat 8 (0x30 + d.toNat) := by
  unfold decodeHeader at h
  split at h
  · next hb => cases h; exact .inl ⟨rfl, hb⟩
  · split at h
    · next hd =>
      cases h
      have hv : (BitVec.ofNat 4 (b.toNat - 0x30)).toNat = b.toNat - 0x30 := by
        rw [BitVec.toNat_ofNat]; omega
      refine .inr ⟨_, rfl, by omega, ?_⟩
      rw [hv, Nat.add_sub_cancel' hd.1, BitVec.ofNat_toNat, BitVec.setWidth_eq]
    · cases h

/-- Everything a shape token can be, and its bytes (R84). -/
theorem decodeShape_eq_ok {bs rest : List Byte} {i : Instr} (h : decodeShape bs = .ok (i, rest)) :
    (i = .tokInternal ∧ bs = 0x30 :: rest) ∨ ∃ sym, i = .tokLeaf sym ∧ bs = 0x31 :: sym :: rest := by
  cases bs with
  | nil => cases h
  | cons m bs =>
    simp only [decodeShape] at h
    split at h
    · next hm => cases h; exact .inl ⟨rfl, by rw [hm]⟩
    · split at h
      · next hm =>
        cases bs with
        | nil => cases h
        | cons sym bs => cases h; exact .inr ⟨sym, rfl, by rw [hm]⟩
      · cases h

theorem wellFormed_of_not_token {i : Instr} (h : isToken i = false) : i.WellFormed = true := by
  cases i with
  | tokDigit d => cases h
  | _ => rfl

theorem decode_digit {d : BitVec 4} (h : d.toNat < 10) :
    decode (.header (BitVec.ofNat 8 (0x30 + d.toNat))) = .ok (.tokDigit d) := by
  have hd : isDigit (BitVec.ofNat 8 (0x30 + d.toNat)) = true := by
    rw [isDigit, toNat_digit h, decide_eq_true_eq]; omega
  obtain ⟨d', hdec, hval⟩ := decodeHeader_digit hd
  rw [toNat_digit h, Nat.add_sub_cancel_left] at hval
  rw [decode, hdec, BitVec.eq_of_toNat_eq hval]

/-! ### The obligations -/

/-- Settles O1: each command by its format, each token by its bytes. -/
theorem decodeUndoesEncode : Obligations.DecodeUndoesEncode := by
  intro i hwf
  cases i with
  | tokDigit d => exact decode_digit (by simpa [Instr.WellFormed] using hwf)
  | tokHdrEnd => exact decodeHeader_comma
  | tokInternal | tokLeaf _ | tokSep _ | tokBit0 | tokBit1 => rfl
  | _ => exact decode_encode_command rfl

/-- Settles O2: a legal word is its opcode and its fields, and a token is its bytes. -/
theorem encodeUndoesDecode : Obligations.EncodeUndoesDecode := by
  intro c i h
  cases c with
  | cmd w => exact ⟨encode_of_decodeCmd h, wellFormed_of_not_token (Machine.decodeCmd_not_token h)⟩
  | header b =>
    obtain ⟨rfl, rfl⟩ | ⟨d, rfl, hd, rfl⟩ := decodeHeader_eq_ok h
    · exact ⟨rfl, rfl⟩
    · exact ⟨rfl, decide_eq_true hd⟩
  | shape bs =>
    simp only [decode] at h
    split at h <;> cases h
    next hs =>
    obtain ⟨rfl, rfl⟩ | ⟨sym, rfl, rfl⟩ := decodeShape_eq_ok hs <;> exact ⟨rfl, rfl⟩
  | sep b => cases h; exact ⟨rfl, rfl⟩
  | bit x => cases h; cases x <;> exact ⟨rfl, rfl⟩

/-- Settles O3: an arm of the opcode map accepts the words below the first reserved bit of its format. -/
theorem legalWordsAreTheOpcodeMap : Obligations.LegalWordsAreTheOpcodeMap := by
  intro w
  show (∃ i, decodeCmd w = .ok i) ↔ _
  rw [← opOf]
  unfold decodeCmd
  split
  case h_36 =>
    simp only [imp_false] at *
    simp [*]
  all_goals simp [decodeN_eq_ok, decodeS_eq_ok, decodeA_eq_ok, decodeAB_eq_ok, *]

/-- Settles O4: the four formats as numbers, and the examples evaluated. -/
theorem encodingWordsOfTheRule : Obligations.EncodingWordsOfTheRule :=
  ⟨toNat_encN, toNat_encS, toNat_encA, toNat_encAB, rfl, rfl, rfl, rfl, rfl, rfl⟩

/-- Settles O5: each word evaluated. -/
theorem sanityWordsDecode : Obligations.SanityWordsDecode :=
  ⟨rfl, rfl, rfl, rfl, rfl, rfl, rfl, rfl, rfl, rfl⟩

end Sys2Proof
end

section
/-! PROOF. The container tokens, one at a time (30_encoding.md R83 to R85): what each does in its phase and out of it, and
the engine's turn inside a reader. -/

namespace Sys2Proof.Machine

/-! ### A token in its phase -/

section
variable {s : State} {v v' : Count} {nd : Nat} {st : List Frame}

theorem exec_tokDigit_of_some {d : BitVec 4} (hp : s.parse = .header v nd) (h : headerDigit v d.toNat = some v') :
    exec (.tokDigit d) s = .next { s with parse := .header v' (nd + 1) } := by
  simp [exec, execTokDigit, hp, h]

theorem exec_tokDigit_of_none {d : BitVec 4} (hp : s.parse = .header v nd) (h : headerDigit v d.toNat = none) :
    exec (.tokDigit d) s = .next (raise .capacity s) := by
  simp [exec, execTokDigit, hp, h]

theorem exec_tokHdrEnd (hp : s.parse = .header v nd) :
    exec .tokHdrEnd s = tokenOutcome (headerEnd v nd { s with parse := .idle }) := by
  simp [exec, execTokHdrEnd, hp]

theorem exec_tokInternal (hp : s.parse = .shape st) (h : s.arenaFull = false) :
    exec .tokInternal s = .next { alloc .internal 0 0 nilIdx nilIdx s with
      parse := .shape ({ node := s.nextIdx, side := .left } :: st) } := by
  simp [exec, execTokInternal, hp, shapeInternal, h, tokenOutcome]

theorem exec_tokInternal_full (hp : s.parse = .shape st) (h : s.arenaFull = true) :
    exec .tokInternal s = .next (raise .capacity s) := by
  simp [exec, execTokInternal, hp, shapeInternal, h, tokenOutcome]

theorem exec_tokLeaf {sym : Byte} (hp : s.parse = .shape st) (h : s.arenaFull = false) :
    exec (.tokLeaf sym) s = .next (closeSubtree st s.nextIdx (shapeLeaf sym s)) := by
  simp [exec, execTokLeaf, hp, h]

theorem exec_tokLeaf_full {sym : Byte} (hp : s.parse = .shape st) (h : s.arenaFull = true) :
    exec (.tokLeaf sym) s = .next (raise .capacity s) := by
  simp [exec, execTokLeaf, hp, h]

theorem exec_tokSep {b : Byte} (hp : s.parse = .sep) : exec (.tokSep b) s = .next (sepEnd b { s with parse := .idle }) := by
  simp [exec, execTokSep, hp]

theorem moveCursor_internal {x : Bool} {c : NodeIdx} {n : Node} (hp : s.parse = .payload c) (hn : s.node? c = some n)
    (hk : n.kind = .internal) : moveCursor x s = .next { s with parse := .payload (descend n x) } := by
  simp [moveCursor, hp, hn, hk]

theorem moveCursor_leaf {x : Bool} {c : NodeIdx} {n : Node} (hp : s.parse = .payload c) (hn : s.node? c = some n)
    (hk : n.kind = .leaf) : moveCursor x s = .refused .tokenOutOfPhase := by
  simp [moveCursor, hp, hn, hk]

end

/-! ### A token out of its phase -/

section
variable {s : State}

theorem exec_tokDigit_refused (d : BitVec 4) (h : ∀ v nd, s.parse ≠ .header v nd) :
    exec (.tokDigit d) s = .refused .tokenOutOfPhase := by
  cases hp : s.parse with
  | header v nd => exact absurd hp (h v nd)
  | _ => simp [exec, execTokDigit, hp]

theorem exec_tokHdrEnd_refused (h : ∀ v nd, s.parse ≠ .header v nd) :
    exec .tokHdrEnd s = .refused .tokenOutOfPhase := by
  cases hp : s.parse with
  | header v nd => exact absurd hp (h v nd)
  | _ => simp [exec, execTokHdrEnd, hp]

theorem exec_tokInternal_refused (h : ∀ st, s.parse ≠ .shape st) :
    exec .tokInternal s = .refused .tokenOutOfPhase := by
  cases hp : s.parse with
  | shape st => exact absurd hp (h st)
  | _ => simp [exec, execTokInternal, hp]

theorem exec_tokLeaf_refused (sym : Byte) (h : ∀ st, s.parse ≠ .shape st) :
    exec (.tokLeaf sym) s = .refused .tokenOutOfPhase := by
  cases hp : s.parse with
  | shape st => exact absurd hp (h st)
  | _ => simp [exec, execTokLeaf, hp]

theorem exec_tokSep_refused (b : Byte) (h : s.parse ≠ .sep) : exec (.tokSep b) s = .refused .tokenOutOfPhase := by
  cases hp : s.parse with
  | sep => exact absurd hp h
  | _ => simp [exec, execTokSep, hp]

theorem moveCursor_refused (x : Bool) (h : ∀ c, s.parse ≠ .payload c) :
    moveCursor x s = .refused .tokenOutOfPhase := by
  cases hp : s.parse with
  | payload c => exact absurd hp (h c)
  | _ => simp [moveCursor, hp]

end

/-! ### The value of a header and the place of a leaf -/

theorem headerDigit_of_fits {v v' : Count} {d : Nat} (h : v'.toNat = 10 * v.toNat + d) : headerDigit v d = some v' := by
  have := v'.isLt
  rw [headerDigit, ← h, if_pos (by simp only [Config.maxCount]; omega), BitVec.ofNat_toNat, BitVec.setWidth_eq]

theorem headerDigit_of_overflow {v : Count} {d : Nat} (h : 2 ^ 64 ≤ 10 * v.toNat + d) : headerDigit v d = none :=
  if_neg (by simp only [Config.maxCount]; omega)

theorem modify_append_left {α : Type} {k : Nat} {xs : List α} (ys : List α) (f : α → α) (h : k < xs.length) :
    (xs ++ ys).modify k f = xs.modify k f ++ ys := by
  induction xs generalizing k with
  | nil => simp at h
  | cons x xs ih =>
    cases k with
    | zero => simp
    | succ k => simp [ih (Nat.lt_of_succ_lt_succ h)]

/-- A leaf appended to the arena and attached below an older node. -/
theorem attach_shapeLeaf {i : NodeIdx} (side : Side) (sym : Byte) {s : State} (hi : i.toNat < s.nodes.length)
    (hlen : s.nodes.length < 511) : attach i side s.nextIdx (shapeLeaf sym s) =
      s.withNodes (s.nodes.modify i.toNat (Node.setChild side s.nextIdx) ++ [leafRecord sym true]) := by
  have hnew := modify_append_cons (s.nodes.modify i.toNat (Node.setChild side s.nextIdx)) [] (leafRecord sym false)
    fun n => { n with parented := true }
  rw [List.length_modify, ← nextIdx_toNat (s := s) (by omega), ← modify_append_left _ _ hi] at hnew
  exact congrArg (State.withNodes · s) hnew

/-! ### The engine's turn inside a reader -/

section
variable {s t u : State}

/-- A header token is one byte. -/
theorem tokenTurn_header {v : Count} {nd : Nat} {b : Byte} {i : Instr} (hp : s.parse = .header v nd)
    (hb : getByte s = .done b t) (hi : decodeHeader b = .ok i) : tokenTurn exec s = exec i t := by
  simp [tokenTurn, hp, fetchHeader, hb, decodeToken, decode, hi, runFetched]

/-- A header byte that is no token (R85). -/
theorem tokenTurn_header_bad {v : Count} {nd : Nat} {b : Byte} {r : Reject} (hp : s.parse = .header v nd)
    (hb : getByte s = .done b t) (hr : decodeHeader b = .error r) :
    tokenTurn exec s = .next (raise .formatError t) := by
  simp [tokenTurn, hp, fetchHeader, hb, decodeToken, decode, hr, runFetched]

theorem tokenTurn_header_raised {v : Count} {nd : Nat} {e : Err} (hp : s.parse = .header v nd)
    (hb : getByte s = .raised e t) : tokenTurn exec s = .next (raise e t) := by
  simp [tokenTurn, hp, fetchHeader, hb, runFetched]

/-- An internal node's marker is a token of its own. -/
theorem tokenTurn_internal {st : List Frame} (hp : s.parse = .shape st) (hb : getByte s = .done 0x30 t) :
    tokenTurn exec s = exec .tokInternal t := by
  simp [tokenTurn, hp, fetchShape, hb, decodeToken, decode, decodeShape, runFetched]

/-- A leaf's marker is followed by its symbol. -/
theorem tokenTurn_leaf {st : List Frame} {sym : Byte} (hp : s.parse = .shape st) (hb : getByte s = .done 0x31 t)
    (hfull : t.arenaFull = false) (hsym : getByte t = .done sym u) : tokenTurn exec s = exec (.tokLeaf sym) u := by
  simp [tokenTurn, hp, fetchShape, hb, hfull, hsym, decodeToken, decode, decodeShape, runFetched]

theorem tokenTurn_leaf_raised {st : List Frame} {e : Err} (hp : s.parse = .shape st) (hb : getByte s = .done 0x31 t)
    (hfull : t.arenaFull = false) (hsym : getByte t = .raised e u) : tokenTurn exec s = .next (raise e u) := by
  simp [tokenTurn, hp, fetchShape, hb, hfull, hsym, runFetched]

/-- The arena is checked before a leaf's symbol is read (44_container.md R129). -/
theorem tokenTurn_leaf_full {st : List Frame} (hp : s.parse = .shape st) (hb : getByte s = .done 0x31 t)
    (hfull : t.arenaFull = true) : tokenTurn exec s = .next (raise .capacity t) := by
  simp [tokenTurn, hp, fetchShape, hb, hfull, runFetched]

/-- A byte that is no marker (R85). -/
theorem tokenTurn_shape_bad {st : List Frame} {m : Byte} (hp : s.parse = .shape st) (hb : getByte s = .done m t)
    (hl : m ≠ 0x31) (hi : m ≠ 0x30) : tokenTurn exec s = .next (raise .formatError t) := by
  have hd : decodeShape [m] = .error .badMarker := by rw [decodeShape, if_neg hi, if_neg hl]
  rw [tokenTurn, hp]
  simp only [fetchShape, hb, andThen_done, if_neg hl, decodeToken, decode, hd, runFetched]

theorem tokenTurn_shape_raised {st : List Frame} {e : Err} (hp : s.parse = .shape st) (hb : getByte s = .raised e t) :
    tokenTurn exec s = .next (raise e t) := by
  simp [tokenTurn, hp, fetchShape, hb, runFetched]

theorem tokenTurn_sep {b : Byte} (hp : s.parse = .sep) (hb : getByte s = .done b t) :
    tokenTurn exec s = exec (.tokSep b) t := by
  simp [tokenTurn, hp, fetchSep, hb, decodeToken, decode, runFetched]

/-- At an internal node one payload bit is one token. -/
theorem tokenTurn_bit {x : Bool} {c : NodeIdx} {n : Node} (hp : s.parse = .payload c) (hn : s.node? c = some n)
    (hk : n.kind = .internal) (hx : getBit s = .done x t) :
    tokenTurn exec s = exec (if x then .tokBit1 else .tokBit0) t := by
  simp [tokenTurn, hp, hn, hk, fetchBit, hx, decodeToken, decode, decodeBit, runFetched]

theorem step_token {moves : List Event} (hscript : s.script = .engine :: moves) (hbusy : s.busy = true)
    (hp : s.parse ≠ .idle) : step s = tokenTurn exec { s with script := moves } := by
  rw [step_cons hscript]
  show (if s.busy then _ else _) = _
  rw [if_pos hbusy]
  cases h : s.parse with
  | idle => exact absurd h hp
  | _ => simp

end

/-! ### The obligations -/

/-- Settles O50: each token's own rule, the leaf's by the frame it completes. -/
theorem tokenEffects : Obligations.TokenEffects := by
  refine ⟨fun s => ⟨fun d v v' nd hp h => exec_tokDigit_of_some hp (headerDigit_of_fits h),
    fun d v nd hp h => exec_tokDigit_of_none hp (headerDigit_of_overflow h), fun v nd hp hnd => ?_, fun v hp => ?_,
    fun st hp hlen => exec_tokInternal hp (arenaFull_eq_false hlen),
    fun st sym hp hlen => ?_,
    fun b hp => exec_tokSep hp,
    fun c n hp hn hk => ⟨moveCursor_internal hp hn hk, moveCursor_internal hp hn hk⟩⟩,
    fun s sym leaf hlen hleaf => ?_⟩
  · rw [exec_tokHdrEnd hp, headerEnd, if_neg (by omega)]
    rfl
  · rw [exec_tokHdrEnd hp, headerEnd, if_pos rfl]
    rfl
  · have hfull : s.arenaFull = true := decide_eq_true hlen
    exact ⟨exec_tokInternal_full hp hfull, exec_tokLeaf_full hp hfull⟩
  · subst hleaf
    refine ⟨fun hp => ?_, fun i st hp hi => ?_, fun i hp hi => ?_⟩
    all_goals rw [exec_tokLeaf hp (arenaFull_eq_false hlen)]
    · simp only [closeSubtree, shapeEnd, nextIdx_toNat (show s.nodes.length < 512 by omega), shapeLeaf, alloc_nodes,
        List.length_append, List.length_singleton]
      rfl
    · simp only [closeSubtree, attach_shapeLeaf .left sym hi hlen]
      rfl
    · simp only [closeSubtree, attach_shapeLeaf .right sym hi hlen, shapeEnd, withNodes_nodes, List.length_append,
        List.length_modify, List.length_singleton]
      rfl

/-- Settles O51: each token asks for its own phase, and the cursor for an internal node. -/
theorem tokensOutOfPhaseAreRefused : Obligations.TokensOutOfPhaseAreRefused := fun _ =>
  ⟨fun h => ⟨fun d => exec_tokDigit_refused d h, exec_tokHdrEnd_refused h⟩,
    fun h => ⟨exec_tokInternal_refused h, fun sym => exec_tokLeaf_refused sym h⟩,
    fun h b => exec_tokSep_refused b h, fun h => ⟨moveCursor_refused false h, moveCursor_refused true h⟩,
    fun _ _ hp hn hk => ⟨moveCursor_leaf hp hn hk, moveCursor_leaf hp hn hk⟩⟩

/-- Settles O7: the fetch reads the token's bytes or its bit, and the turn runs what they decode to. -/
theorem stepRunsTheTokenFetched : Obligations.StepRunsTheTokenFetched := by
  intro s moves hscript hbusy ha
  have turn : s.parse ≠ .idle → step s = tokenTurn exec { s with script := moves } := step_token hscript hbusy
  refine ⟨fun v nd b i hp hw hb hdec => ?_, fun st hp hw hb => ?_, fun st sym hp hw hlen hb hb' => ?_,
    fun b hp hw hb => ?_, fun c n k hp hn hk hleft => ?_⟩
  all_goals refine (turn (by simp [hp])).trans ?_
  · exact tokenTurn_header (s := { s with script := moves }) hp (getByte_done ha hw hb) hdec
  · exact tokenTurn_internal (s := { s with script := moves }) hp (getByte_done ha hw hb)
  · exact tokenTurn_leaf (s := { s with script := moves }) hp (getByte_done ha hw hb) (arenaFull_eq_false hlen)
      (getByte_done ha (hw.tail rfl) hb')
  · exact tokenTurn_sep (s := { s with script := moves }) hp (getByte_done ha hw hb)
  · exact tokenTurn_bit (s := { s with script := moves }) hp hn hk (getBit_buffered hleft)

end Sys2Proof.Machine
end

section
/-! PROOF. HDR_READ and SHAPE_READ as runs of their tokens (44_container.md R128, R129): each pass of the loop, and each call
of the recursion, is one turn of the container reader, with the recursion's pending calls as the frames of its stack. -/

namespace Sys2Proof.Machine

/-! ### Runs of tokens -/

/-- The state with its reader in a phase. -/
def State.inPhase (p : Parse) (s : State) : State := { s with parse := p }

@[simp] theorem inPhase_parse (p : Parse) (s : State) : (s.inPhase p).parse = p := rfl
@[simp] theorem inPhase_srcAttached (p : Parse) (s : State) : (s.inPhase p).srcAttached = s.srcAttached := rfl
@[simp] theorem inPhase_src (p : Parse) (s : State) : (s.inPhase p).src = s.src := rfl
@[simp] theorem inPhase_srcPos (p : Parse) (s : State) : (s.inPhase p).srcPos = s.srcPos := rfl

/-- A run of the container reader from `s` comes to `t`. -/
def TokensLead (s t : State) : Prop := ∃ k, ∀ n, tokenRun (k + n) s = tokenRun n t

theorem TokensLead.refl (s : State) : TokensLead s s := ⟨0, fun n => by rw [Nat.zero_add]⟩

theorem TokensLead.trans {s t u : State} (h : TokensLead s t) (h' : TokensLead t u) : TokensLead s u := by
  obtain ⟨k, hk⟩ := h
  obtain ⟨m, hm⟩ := h'
  exact ⟨k + m, fun n => by rw [Nat.add_assoc, hk, hm]⟩

theorem TokensLead.turn {s t : State} (hb : s.busy = true) (hp : s.parse ≠ .idle) (h : tokenTurn exec s = .next t) :
    TokensLead s t :=
  ⟨1, fun n => by rw [Nat.add_comm, tokenRun, if_pos ⟨hb, hp⟩, h]⟩

/-- A turn that raises, in whatever phase: `raise` leaves the reader idle. -/
theorem TokensLead.turn_raised {s t : State} {e : Err} {p : Parse} (hb : s.busy = true) (hp : s.parse ≠ .idle)
    (h : tokenTurn exec s = .next (raise e (t.inPhase p))) : TokensLead s (raise e t) :=
  .turn hb hp h

/-- A piece of a reader's body, as a run of tokens from `s`: when it is done, the run comes to what `k` makes of its end,
and when it raises, so does the run. -/
def Ran.TokensFrom {α : Type} (s : State) (k : α → State → State) (r : Ran α) : Prop :=
  match r with
  | .done a t => TokensLead s (k a t) ∧ t.busy = true
  | .raised e t => TokensLead s (raise e t)
  | .fault _ => True

theorem Ran.TokensFrom.after {α : Type} {s s' : State} {k : α → State → State} {r : Ran α} (h : r.TokensFrom s' k)
    (hs : TokensLead s s') : r.TokensFrom s k := by
  cases r with
  | done a t => exact ⟨hs.trans h.1, h.2⟩
  | raised e t => exact hs.trans h
  | fault f => trivial

theorem Ran.TokensFrom.andThen {α β : Type} {s : State} {k : α → State → State} {k' : β → State → State} {r : Ran α}
    {f : α → State → Ran β} (h : r.TokensFrom s k) (hf : ∀ a t, t.busy = true → (f a t).TokensFrom (k a t) k') :
    (r.andThen f).TokensFrom s k' := by
  cases r with
  | done a t => exact (hf a t h.2).after h.1
  | raised e t => exact h
  | fault f => trivial

/-! ### Reads in another phase -/

/-- The end of a piece in another phase. -/
def Ran.inPhase {α : Type} (p : Parse) (r : Ran α) : Ran α :=
  match r with
  | .done a t => .done a (t.inPhase p)
  | .raised e t => .raised e (t.inPhase p)
  | .fault f => .fault f

/-- SrcRead does not look at the phase. -/
theorem srcRead_inPhase (p : Parse) (s : State) :
    srcRead (s.inPhase p) = ((srcRead s).1, (srcRead s).2.inPhase p) := by
  have hdraw : (s.inPhase p).nextDraw = s.nextDraw := rfl
  cases ha : s.srcAttached with
  | false => simp [srcRead, ha]
  | true =>
    cases hb : s.src[s.srcPos]? with
    | none => simp [srcRead, ha, hb]
    | some b => cases hd : s.nextDraw <;> simp [srcRead, ha, hb, hd, hdraw] <;> rfl

/-- GetByte does not look at the phase. -/
theorem getByte_inPhase (p : Parse) (s : State) : getByte (s.inPhase p) = (getByte s).inPhase p := by
  rw [getByte, getByte, srcRead_inPhase]
  rcases srcRead s with ⟨_ | _ | _, t⟩ <;> rfl

theorem getByte_only {b : Byte} {s t : State} (h : getByte s = .done b t) : OnlySource s t := by
  have hends := getByte_ends s
  rwa [h] at hends

theorem getByte_busy {b : Byte} {s t : State} (h : getByte s = .done b t) : t.busy = s.busy := by
  obtain ⟨p, d, rfl⟩ := getByte_only h
  rfl

theorem getByte_inPhase_done (p : Parse) {b : Byte} {s t : State} (h : getByte s = .done b t) :
    getByte (s.inPhase p) = .done b (t.inPhase p) := by
  rw [getByte_inPhase, h]
  rfl

theorem getByte_inPhase_raised (p : Parse) {e : Err} {s t : State} (h : getByte s = .raised e t) :
    getByte (s.inPhase p) = .raised e (t.inPhase p) := by
  rw [getByte_inPhase, h]
  rfl

/-! ### The two readers -/

/-- HDR_READ's loop is its tokens (44_container.md R128). -/
theorem hdrLoop_tokens {fuel : Nat} {v : Count} {nd : Nat} {s : State} (hbusy : s.busy = true) :
    (hdrLoop fuel v nd s).TokensFrom (s.inPhase (.header v nd)) fun _ t => t.inPhase .idle := by
  induction fuel generalizing v nd s with
  | zero => trivial
  | succ fuel ih =>
    have hp : (s.inPhase (.header v nd)).parse ≠ .idle := by simp
    rw [hdrLoop]
    cases hget : getByte s with
    | fault f => trivial
    | raised e t => exact .turn_raised hbusy hp (tokenTurn_header_raised rfl (getByte_inPhase_raised _ hget))
    | done b t =>
      have hbyte := getByte_inPhase_done (.header v nd) hget
      have hbusy' : t.busy = true := (getByte_busy hget).trans hbusy
      rw [andThen_done]
      cases hdec : decodeHeader b with
      | error r => exact .turn_raised hbusy hp (tokenTurn_header_bad rfl hbyte hdec)
      | ok i =>
        have hturn := tokenTurn_header rfl hbyte hdec
        obtain ⟨rfl, -⟩ | ⟨d, rfl, -⟩ := decodeHeader_eq_ok hdec
        · rw [exec_tokHdrEnd rfl] at hturn
          unfold headerEnd at hturn ⊢
          by_cases hnd : nd = 0
          · simp only [if_pos hnd] at hturn ⊢
            exact .turn hbusy hp hturn
          · simp only [if_neg hnd] at hturn ⊢
            exact ⟨.turn hbusy hp hturn, hbusy'⟩
        · cases hdigit : headerDigit v d.toNat with
          | none =>
            simp only [hdigit]
            exact .turn_raised hbusy hp (hturn.trans (exec_tokDigit_of_none rfl hdigit))
          | some v' =>
            simp only [hdigit]
            exact (ih hbusy').after (.turn hbusy hp (hturn.trans (exec_tokDigit_of_some rfl hdigit)))

/-- A complete subtree takes its place whatever the phase was. -/
theorem closeSubtree_inPhase (p : Parse) (st : List Frame) (r : NodeIdx) (s : State) :
    closeSubtree st r (s.inPhase p) = closeSubtree st r s := by
  induction st generalizing r s with
  | nil => rfl
  | cons f st ih =>
    unfold closeSubtree
    cases f.side with
    | left => rfl
    | right => exact ih f.node (attach f.node .right r s)

/-- A leaf parsed is its token: the arena is checked, the symbol read and the leaf takes its place. -/
theorem parseShape_leaf_tokens {fuel : Nat} {st : List Frame} {s t : State} (hbusy : s.busy = true)
    (hget : getByte s = .done 0x31 t) :
    (parseShape (fuel + 1) s).TokensFrom (s.inPhase (.shape st)) (closeSubtree st) := by
  have hp : (s.inPhase (.shape st)).parse ≠ .idle := by simp
  have hbyte := getByte_inPhase_done (.shape st) hget
  rw [parseShape, hget, andThen_done, if_pos rfl]
  cases hfull : t.arenaFull with
  | true => exact .turn_raised hbusy hp (tokenTurn_leaf_full rfl hbyte hfull)
  | false =>
    rw [if_neg Bool.false_ne_true]
    cases hsym : getByte t with
    | fault f => trivial
    | raised e u =>
      exact .turn_raised hbusy hp (tokenTurn_leaf_raised rfl hbyte hfull (getByte_inPhase_raised _ hsym))
    | done sym u =>
      have hfull' : u.arenaFull = false := by
        obtain ⟨p, d, rfl⟩ := getByte_only hsym
        exact hfull
      have hturn := (tokenTurn_leaf rfl hbyte hfull (getByte_inPhase_done _ hsym)).trans (exec_tokLeaf rfl hfull')
      have hclose := closeSubtree_inPhase (.shape st) st u.nextIdx (shapeLeaf sym u)
      exact ⟨hclose ▸ .turn hbusy hp hturn, (getByte_busy hsym).trans ((getByte_busy hget).trans hbusy)⟩

/-- Parse is its tokens on the explicit stack: the subtree parsed takes its place below the innermost frame
(44_container.md R129). -/
theorem parseShape_tokens {fuel : Nat} {st : List Frame} {s : State} (hbusy : s.busy = true) :
    (parseShape fuel s).TokensFrom (s.inPhase (.shape st)) (closeSubtree st) := by
  induction fuel generalizing st s with
  | zero => trivial
  | succ fuel ih =>
    have hp : (s.inPhase (.shape st)).parse ≠ .idle := by simp
    cases hget : getByte s with
    | fault f => rw [parseShape, hget]; trivial
    | raised e t =>
      rw [parseShape, hget]
      exact .turn_raised hbusy hp (tokenTurn_shape_raised rfl (getByte_inPhase_raised _ hget))
    | done m t =>
      have hbyte := getByte_inPhase_done (.shape st) hget
      by_cases hleaf : m = 0x31
      · exact parseShape_leaf_tokens hbusy (hleaf ▸ hget)
      by_cases hinternal : m = 0x30
      · subst hinternal
        have hturn := tokenTurn_internal rfl hbyte
        rw [parseShape, hget, andThen_done, if_neg hleaf, if_pos rfl, shapeInternal]
        cases hfull : t.arenaFull with
        | true => exact .turn_raised hbusy hp (hturn.trans (exec_tokInternal_full rfl hfull))
        | false =>
          have hleft := ih (st := { node := t.nextIdx, side := .left } :: st)
            (s := alloc .internal 0 0 nilIdx nilIdx t) ((getByte_busy hget).trans hbusy)
          rw [if_neg Bool.false_ne_true, andThen_done]
          refine Ran.TokensFrom.after ?_ (.turn hbusy hp (hturn.trans (exec_tokInternal rfl hfull)))
          refine Ran.TokensFrom.andThen hleft fun l u hu => ?_
          exact Ran.TokensFrom.andThen (ih hu) fun r w hw => ⟨.refl _, hw⟩
      · rw [parseShape, hget, andThen_done, if_neg hleaf, if_neg hinternal]
        exact .turn_raised hbusy hp (tokenTurn_shape_bad rfl hbyte hleaf hinternal)

/-- A reader's body that is its tokens from `start` on: the command is the run of those tokens and completion. -/
theorem tokenRun_of_runCommand {op : Byte} {body : State → Ran Unit} {s t start : State}
    (hbody : (body (accept op s)).TokensFrom start fun _ u => u.inPhase .idle)
    (hreach : (body (accept op s)).Ends (Reach ∅ (accept op s))) (hidle : s.parse = .idle)
    (h : runCommand op body s = .next t) :
    ∃ n u, tokenRun n start = .next u ∧ u.parse = .idle ∧ complete u = t := by
  obtain ⟨u, hu, rfl⟩ | ⟨e, u, hu, rfl⟩ := runCommand_eq_next.mp h
  · rw [hu] at hbody hreach
    obtain ⟨⟨n, hn⟩, -⟩ := hbody
    have hquiet : u.parse = .idle :=
      hreach.keeps (P := fun s => s.parse = .idle) (fun _ _ _ _ he => he.keeps_idle) hidle
    have hself : u.inPhase .idle = u := by rw [State.inPhase, ← hquiet]
    exact ⟨n, u, (hn 0).trans (congrArg _ hself), hquiet, rfl⟩
  · rw [hu] at hbody
    obtain ⟨n, hn⟩ := hbody
    exact ⟨n, raise e u, hn 0, rfl, rfl⟩

theorem hdrReadBody_tokens {s : State} (hbusy : s.busy = true) :
    (hdrReadBody s).TokensFrom ((dropBits s).inPhase (.header 0 0)) fun _ t => t.inPhase .idle :=
  hdrLoop_tokens hbusy

theorem shapeReadBody_tokens {s : State} (hbusy : s.busy = true) :
    (shapeReadBody s).TokensFrom ((arenaClear (dropBits s)).inPhase (.shape [])) fun _ t => t.inPhase .idle :=
  (parseShape_tokens (s := arenaClear (dropBits s)) hbusy).andThen fun _ _ ht => ⟨.refl _, ht⟩

/-- Settles O52: each reader's body is the run of its tokens, raises included. -/
theorem readersAreTheirTokens : Obligations.ReadersAreTheirTokens :=
  ⟨fun _ _ => tokenRun_of_runCommand (hdrReadBody_tokens rfl) (hdrReadBody_reach _),
    fun _ _ => tokenRun_of_runCommand (shapeReadBody_tokens rfl) (shapeReadBody_reach _)⟩

end Sys2Proof.Machine
end

section
/-! PROOF. The command lifecycle (40_control.md R89, R90, 60_exceptions.md R162, R168): what a word written to CMD comes to,
by BUSY, the error state and the decoder, the engine's turn, and the moves that leave the error state. -/

namespace Sys2Proof.Machine

/-! ### A word written to CMD -/

section
variable {s t : State} {w : Word} {i : Instr}

theorem step_cmdWrite {moves : List Event} (h : s.script = .memWrite (s.regBase + 0x08) 4 w :: moves) :
    step s = acceptWord exec w { s with script := moves } := by
  rw [step_cons h]
  exact hostWrite_eq (s := { s with script := moves }) (off := 0x08) rfl (by decide)

theorem acceptWord_busy (hb : s.busy = true) : acceptWord exec w s = .next (dropWord s) := if_pos hb

theorem acceptWord_illegal {r : Reject} (hb : s.busy = false) (he : s.errCode = none)
    (hd : decode (.cmd w) = .error r) : acceptWord exec w s = .next (raiseIllegal w s) := by
  simp [acceptWord, hb, hd, he]

/-- At BUSY = 0 nothing is running that ILLEGAL_CMD could end: only the error record is new (60_exceptions.md R162). -/
theorem raiseIllegal_quiet (hquiet : QuietReader s) (hb : s.busy = false) : raiseIllegal w s =
    { s with errCode := some .illegalCmd, errOp := opOf w, errPos := s.srcPosReg } := by
  obtain ⟨hparse, hop⟩ := hquiet
  rw [raiseIllegal, raise, ← hb, ← hop hb, ← hparse]
  rfl

theorem acceptWord_executed (hb : s.busy = false) (hd : decode (.cmd w) = .ok i)
    (ha : s.errCode = none ∨ admittedInError i = true) : acceptWord exec w s = holdBusy (exec i s) := by
  rcases ha with he | ha
  · simp [acceptWord, hb, hd, he]
  · simp [acceptWord, hb, hd, ha]

/-- In the error state a word that is no admitted command is dropped, be it legal or not. -/
theorem acceptWord_dropped (he : s.errCode.isSome = true)
    (hw : ∀ i, decode (.cmd w) = .ok i → admittedInError i = false) : acceptWord exec w s = .next (dropWord s) := by
  have hne : s.errCode ≠ none := Option.isSome_iff_ne_none.mp he
  rcases acceptWord_cases w s with hdrop | ⟨_, hnone, _⟩ | ⟨_, i, hd, hnone | ha, _⟩
  · exact hdrop
  · exact absurd hnone hne
  · exact absurd hnone hne
  · rw [hw i hd] at ha
    cases ha

/-! ### The commands the error state admits (60_exceptions.md R168) -/

theorem admittedInError_iff : admittedInError i = true ↔ i = .nop ∨ i = .softReset ∨ i = .clearErr := by
  cases i <;> simp [admittedInError]

/-- The three words the error state admits. -/
theorem admitted_word (hd : decode (.cmd w) = .ok i) (ha : admittedInError i = true) :
    (i = .nop ∧ w = 0) ∨ (i = .softReset ∧ w = 1) ∨ (i = .clearErr ∧ w = 2) := by
  have hw : encode i = .cmd w := encode_of_decodeCmd hd
  rcases admittedInError_iff.mp ha with rfl | rfl | rfl
  · exact .inl ⟨rfl, (Fetched.cmd.inj hw).symm⟩
  · exact .inr (.inl ⟨rfl, (Fetched.cmd.inj hw).symm⟩)
  · exact .inr (.inr ⟨rfl, (Fetched.cmd.inj hw).symm⟩)

/-- An admitted command raises nothing: its body is done at once. -/
theorem exec_admitted (ha : admittedInError i = true) (s : State) : ∃ t, exec i s = .next t := by
  rcases admittedInError_iff.mp ha with rfl | rfl | rfl <;> exact ⟨_, rfl⟩

theorem decode_admitted (ha : admittedInError i = true) : decode (.cmd (encN (opcode i))) = .ok i := by
  rcases admittedInError_iff.mp ha with rfl | rfl | rfl <;> rfl

/-! ### The engine's turn -/

theorem engineTurn_completes (hb : s.busy = true) (hp : s.parse = .idle) : engineTurn exec s = .next (complete s) := by
  simp [engineTurn, hb, hp]

theorem engineTurn_idles (hb : s.busy = false) : engineTurn exec s = .next s := if_neg (by simp [hb])

/-- An empty schedule gives the engine the turn too. -/
theorem step_engine {moves : List Event} (h : s.script = .engine :: moves ∨ (s.script = [] ∧ moves = [])) :
    step s = engineTurn exec { s with script := moves } := by
  rcases h with h | ⟨h, rfl⟩
  · exact step_cons h
  · rw [step_nil h, ← h]

/-! ### Leaving the error state -/

theorem engineTurn_errCode (hp : s.parse = .idle) (h : engineTurn exec s = .next t) : t.errCode = s.errCode := by
  cases hb : s.busy with
  | true => rw [engineTurn_completes hb hp] at h; cases h; rfl
  | false => rw [engineTurn_idles hb] at h; cases h; rfl

theorem portAction_errCode {f : State → State} (h : portAction f s = .next t) (hf : (f s).errCode = s.errCode) :
    t.errCode = s.errCode := by
  unfold portAction at h
  split at h <;> cases h
  exact hf

theorem readRegTo_errCode (off : Nat) (s : State) : (readRegTo off s).errCode = s.errCode := by
  unfold readRegTo
  split <;> rfl

/-- In the error state a word written to CMD changes ERR_CODE only as SOFT_RESET or CLEAR_ERR, and clears it. -/
theorem acceptWord_leavesError {e : Err} (he : s.errCode = some e) (h : acceptWord exec w s = .next t)
    (hne : t.errCode ≠ some e) : t.errCode = none ∧ s.busy = false ∧ (w = 1 ∨ w = 2) := by
  rcases acceptWord_cases w s with hdrop | ⟨_, hnone, _⟩ | ⟨hb, i, hd, hnone | ha, hx⟩
  · rw [hdrop] at h
    cases h
    exact absurd he hne
  · exact absurd (he.symm.trans hnone) nofun
  · exact absurd (he.symm.trans hnone) nofun
  · rw [hx] at h
    rcases admitted_word hd ha with ⟨rfl, rfl⟩ | ⟨rfl, rfl⟩ | ⟨rfl, rfl⟩ <;> cases h
    · exact absurd he hne
    · exact ⟨rfl, hb, .inl rfl⟩
    · exact ⟨rfl, hb, .inr rfl⟩

/-- In the error state a register write changes ERR_CODE only by one of the two words at CMD. -/
theorem hostWrite_leavesError {e : Err} {addr size : Nat} (he : s.errCode = some e)
    (h : hostWrite exec addr size w s = .next t) (hne : t.errCode ≠ some e) :
    t.errCode = none ∧ s.busy = false ∧ addr = s.regBase + 0x08 ∧ size = 4 ∧ (w = 1 ∨ w = 2) := by
  unfold hostWrite at h
  split at h
  · next hadmits =>
    obtain ⟨hsize, hbase, -, -⟩ := of_decide_eq_true hadmits
    unfold writeReg at h
    split_ifs at h with hcmd
    · obtain ⟨hnone, hb, hw⟩ := acceptWord_leavesError he h hne
      exact ⟨hnone, hb, by omega, hsize, hw⟩
    all_goals
      cases h
      exact absurd he hne
  · cases h

/-- Of all moves, only the hardware reset and a write of one of the two words to CMD leave the error state. -/
theorem move_leavesError {e : Err} {m : Event} (hp : s.parse = .idle) (he : s.errCode = some e)
    (h : move exec m s = .next t) (hne : t.errCode ≠ some e) :
    t.errCode = none ∧ (m = .hwReset ∨ (s.busy = false ∧
      (m = .memWrite (s.regBase + 0x08) 4 1 ∨ m = .memWrite (s.regBase + 0x08) 4 2))) := by
  have changed : t.errCode ≠ s.errCode := he ▸ hne
  cases m with
  | hwReset =>
    cases h
    exact ⟨rfl, .inl rfl⟩
  | memWrite addr size v =>
    obtain ⟨hnone, hb, rfl, rfl, rfl | rfl⟩ := hostWrite_leavesError he h hne
    · exact ⟨hnone, .inr ⟨hb, .inl rfl⟩⟩
    · exact ⟨hnone, .inr ⟨hb, .inr rfl⟩⟩
  | engine => exact absurd (engineTurn_errCode hp h) changed
  | memRead addr size =>
    simp only [move, hostRead] at h
    split at h <;> cases h
    exact absurd (readRegTo_errCode _ s) changed
  | attachSource bytes =>
    simp only [move, attachSource] at h
    split at h
    · exact absurd (portAction_errCode h rfl) changed
    · cases h
  | detachSource | attachSink | detachSink | readSink =>
    simp only [move] at h
    exact absurd (portAction_errCode h rfl) changed

end

/-! ### The obligations -/

/-- Settles O6: outside the error state, or admitted in it, a legal word is executed and BUSY held. -/
theorem stepRunsTheCommandWritten : Obligations.StepRunsTheCommandWritten := by
  intro s w i moves hscript hbusy he hd
  rw [step_cmdWrite hscript,
    acceptWord_executed (s := { s with script := moves }) hbusy hd (he.imp_right admittedInError_iff.mpr)]
  rfl

/-- Settles O8: an illegal word raises at acceptance, and a word at BUSY = 1 is dropped. -/
theorem unexecutedWords : Obligations.UnexecutedWords := by
  refine ⟨fun s w r moves hquiet hscript hbusy he hd => ?_, fun s w moves hscript hbusy => ?_⟩
  · rw [step_cmdWrite hscript, acceptWord_illegal (s := { s with script := moves }) hbusy he hd,
      raiseIllegal_quiet (s := { s with script := moves }) hquiet hbusy]
    rfl
  · rw [step_cmdWrite hscript, acceptWord_busy (s := { s with script := moves }) hbusy]
    rfl

/-- Settles O9: the decoder gives the three admitted commands from three words alone, and of the moves only the hardware
reset and two of those words clear the error. -/
theorem errorStateAdmission : Obligations.ErrorStateAdmission := by
  refine ⟨fun s w moves hscript hbusy he => ⟨fun hw => ?_, fun i hi hw => ?_⟩, fun s t e hquiet he h hne => ?_⟩
  · have hrefused (i : Instr) (hd : decode (.cmd w) = .ok i) : admittedInError i = false := by
      by_contra ha
      rcases admitted_word hd (eq_true_of_ne_false ha) with ⟨-, rfl⟩ | ⟨-, rfl⟩ | ⟨-, rfl⟩ <;>
        exact hw (by decide)
    rw [step_cmdWrite hscript, acceptWord_dropped (s := { s with script := moves }) he hrefused]
    rfl
  · have ha : admittedInError i = true := admittedInError_iff.mpr (by simpa using hi)
    obtain ⟨t, ht⟩ := exec_admitted ha { s with script := moves }
    refine ⟨t, ht, ?_⟩
    rw [step_cmdWrite hscript,
      acceptWord_executed (s := { s with script := moves }) hbusy (hw ▸ decode_admitted ha) (.inr ha), ht]
    rfl
  · obtain ⟨hparse, -⟩ := hquiet
    cases hscript : s.script with
    | nil => exact absurd ((engineTurn_errCode hparse (step_nil hscript ▸ h)).trans he) hne
    | cons m moves =>
      rw [step_cons hscript] at h
      obtain ⟨hnone, hm⟩ := move_leavesError (s := { s with script := moves }) hparse he h hne
      exact ⟨hnone, m, moves, rfl, hm⟩

/-- Settles O10: the engine's turn is completion at BUSY = 1 and nothing at BUSY = 0. -/
theorem engineTurnCompletesOrIdles : Obligations.EngineTurnCompletesOrIdles := fun s moves hscript =>
  ⟨fun hb hp => (step_engine hscript).trans (engineTurn_completes (s := { s with script := moves }) hb hp),
    fun hb => (step_engine hscript).trans (engineTurn_idles (s := { s with script := moves }) hb)⟩

end Sys2Proof.Machine
end

section
/-! PROOF. The control commands NOP, SOFT_RESET, CLEAR_ERR and SRC_REWIND, and the hardware reset (40_control.md R92 to R95,
70_reset_and_hazards.md R183, R184). -/

namespace Sys2Proof.Machine

/-! ### NOP's words -/

/-- The only legal word whose opcode byte is 0 is 0 (30_encoding.md R76). -/
theorem decode_nop_reserved {w : Word} (hop : opOf w = 0) (hw : w ≠ 0) : decode (.cmd w) = .error .reservedBits := by
  have hbits : w.extractLsb' 8 24 ≠ 0 := fun h =>
    hw ((encN_opOf ((reserved_eq_zero rfl).mp h)).symm.trans (congrArg encN hop))
  have hnop : decode (.cmd w) = decodeN w .nop := by simp [decode, decodeCmd, hop]
  rw [hnop, decodeN, if_neg hbits]

/-! ### SRC_REWIND's body (R95, 20_memory.md R56) -/

theorem nextDraw_eq_false_iff {s : State} : s.nextDraw = false ↔ s.draws.head? = some false := by
  cases h : s.draws <;> simp [State.nextDraw, h]

theorem srcRewindBody_detached {s : State} (ha : s.srcAttached = false) :
    srcRewindBody s = .raised .ioError s := by
  simp [srcRewindBody, srcRewind, ha]

theorem srcRewindBody_refused {s : State} (ha : s.srcAttached = true) (hd : s.nextDraw = false) :
    srcRewindBody s = .raised .ioError { s with draws := s.draws.tail } := by
  simp [srcRewindBody, srcRewind, ha, hd]

theorem srcRewindBody_delivered {s : State} (ha : s.srcAttached = true) (hd : s.nextDraw = true) :
    srcRewindBody s = .done () { s with srcPos := 0, draws := s.draws.tail } := by
  simp [srcRewindBody, srcRewind, ha, hd]

/-! ### The obligations -/

/-- Settles O15: SOFT_RESET's body is the reset state but for the ports and the host, and the hardware reset's move but for
the host. -/
theorem resets : Obligations.Resets := by
  refine ⟨⟨rfl, fun s => ?_⟩, fun s moves hscript => ?_⟩
  · exact runCommand_done (op := 0x01) (body := fun s => .done () (softResetState s)) rfl
  · exact step_cons hscript

/-- Settles O21: NOP is acceptance and completion, CLEAR_ERR clears the record between them. -/
theorem nopAndClearErr : Obligations.NopAndClearErr := by
  refine ⟨rfl, rfl, fun w => decode_nop_reserved, fun s => ⟨?_, ?_⟩⟩
  · exact runCommand_done (op := 0x00) (body := fun s => .done () s) rfl
  · exact runCommand_done (op := 0x02) (body := fun s => .done () (clearError s)) rfl

/-- Settles O22: by the port and the host's draw. -/
theorem srcRewindCommand : Obligations.SrcRewind := by
  refine ⟨rfl, fun s => ?_⟩
  split_ifs with ha hd
  · exact runCommand_check (srcRewindBody_detached ha)
  · exact runCommand_raised (srcRewindBody_refused (s := accept 0x03 s) (eq_true_of_ne_false ha)
      (nextDraw_eq_false_iff.mpr hd))
  · exact runCommand_done (srcRewindBody_delivered (s := accept 0x03 s) (eq_true_of_ne_false ha)
      (eq_true_of_ne_false fun h => hd (nextDraw_eq_false_iff.mp h)))

end Sys2Proof.Machine
end

section
/-! PROOF. The commands of the priority structure and the node arena (41_priority_queue.md R100 to R106). -/

namespace Sys2Proof.Machine

/-! ### RES_AUX -/

/-- A field written above all bits that are set. -/
theorem putField_above {w : Word} {lo : Nat} (width v : Nat) (h : w.toNat < 2 ^ lo) :
    putField w lo width v = w ||| (BitVec.ofNat 32 (v % 2 ^ width) <<< lo) := by
  have hkeep : w &&& ~~~(BitVec.ofNat 32 (2 ^ width - 1) <<< lo) = w := by
    apply BitVec.eq_of_getLsbD_eq
    intro k hk
    rw [BitVec.getLsbD_and, BitVec.getLsbD_not, BitVec.getLsbD_shiftLeft]
    by_cases hlo : k < lo
    · simp [hk, hlo]
    · have hbit : w.getLsbD k = false :=
        Nat.testBit_lt_two_pow (lt_of_lt_of_le h (Nat.pow_le_pow_right (by decide) (Nat.not_lt.mp hlo)))
      rw [hbit, Bool.false_and]
  rw [putField, hkeep]

/-- RES_AUX of the commands that report a node. -/
theorem putField_node (a : NodeIdx) : putField 0 0 9 a.toNat = a.setWidth 32 := by
  rw [putField_zero, Nat.mod_eq_of_lt a.isLt, BitVec.ofNat_toNat]

/-- RES_AUX of the commands that report an entry of PQ. -/
theorem putField_entry (a : NodeIdx) (q : Seq) :
    putField (putField 0 0 9 a.toNat) 16 16 q.toNat = a.setWidth 32 ||| (q.setWidth 32 <<< 16) := by
  have ha : (a.setWidth 32).toNat = a.toNat := toNat_setWidth_word a (by decide)
  rw [putField_node, putField_above 16 _ (by omega), Nat.mod_eq_of_lt q.isLt, BitVec.ofNat_toNat]

/-- RES_AUX of the commands that report the node just made. -/
theorem putField_nextIdx {s : State} (h : s.nodes.length < 2 ^ 9) :
    putField 0 0 9 s.nextIdx.toNat = BitVec.ofNat 32 s.nodes.length := by
  rw [putField_zero, nextIdx_toNat h, Nat.mod_eq_of_lt h]

/-! ### The checks (R101, R105, R106) -/

theorem allocated_eq_false_iff {s : State} {a : NodeIdx} : s.allocated a = false ↔ s.nodes.length ≤ a.toNat := by
  rw [State.allocated, decide_eq_false_iff_not, Nat.not_lt]

theorem taken_iff {s : State} {a : NodeIdx} :
    s.taken a = true ↔ (s.node a).inPq = true ∨ (s.node a).parented = true :=
  Bool.or_eq_true_iff

theorem arenaFull_iff {s : State} : s.arenaFull = true ↔ 511 ≤ s.nodes.length := decide_eq_true_iff

theorem weightsOverflow_iff {x y : Count} : weightsOverflow x y = true ↔ 2 ^ 64 ≤ x.toNat + y.toNat := decide_eq_true_iff

/-! ### PQ_CLEAR and ARENA_CLEAR (R100, R103) -/

theorem unmark_nodes (xs : List PqEntry) (s : State) : (unmark xs s).nodes =
    s.nodes.mapIdx fun k n => if xs.any (fun e => e.node.toNat == k) then { n with inPq := false } else n := by
  induction xs generalizing s with
  | nil => exact (List.ext_getElem? fun k => by simp [unmark])
  | cons e xs ih =>
    refine (ih _).trans (List.ext_getElem? fun k => ?_)
    rw [List.getElem?_mapIdx, List.getElem?_mapIdx, setNode_nodes, List.getElem?_modify]
    cases s.nodes[k]? with
    | none => rfl
    | some n => by_cases hk : e.node.toNat = k <;> simp [hk]

/-- Settles O23: PQ_CLEAR's loop over PQ is one map over the nodes. -/
theorem queueAndArenaClear : Obligations.QueueAndArenaClear := by
  refine ⟨⟨rfl, fun s => ?_⟩, rfl, fun s => runCommand_done (op := 0x14) (body := fun s => .done () (arenaClear s)) rfl⟩
  have hrun : exec .pqClear s = .next (complete (pqClear (accept 0x10 s))) := rfl
  rw [hrun, pqClear_eq, unmark_nodes]
  rfl

/-! ### PQ_INSERT (R101) -/

theorem pqInsertBody_eq (a : NodeIdx) (s : State) : pqInsertBody a s =
    if s.nodes.length ≤ a.toNat then .raised .badOperand s
    else if (s.node a).inPq = true ∨ (s.node a).parented = true then .raised .badOperand s
    else if 256 ≤ s.pq.length ∨ s.seq = 0xFFFF then .raised .capacity s
    else .done () (setAux 16 16 s.seq.toNat (setAux 0 9 a.toNat (setRes (s.node a).weight (pqInsert a s)))) := by
  simp only [pqInsertBody, allocated_eq_false_iff, taken_iff]

/-- Settles O24: check by check. -/
theorem pqInsertCommand : Obligations.PqInsert := by
  refine ⟨fun a => rfl, fun s a => ?_⟩
  have hrun : exec (.pqInsert a) s = runCommand 0x11 (pqInsertBody a) s := rfl
  have hbody := pqInsertBody_eq a (accept 0x11 s)
  rw [hrun]
  split_ifs with halloc htaken hroom
  · exact runCommand_check (hbody.trans (if_pos halloc))
  · exact runCommand_check (hbody.trans ((if_neg halloc).trans (if_pos htaken)))
  · exact runCommand_check (hbody.trans ((if_neg halloc).trans ((if_neg htaken).trans (if_pos hroom))))
  · rw [runCommand_done (hbody.trans ((if_neg halloc).trans ((if_neg htaken).trans (if_neg hroom)))), ← putField_entry]
    rfl

/-! ### PQ_EXTRACT_MIN (R97, R102) -/

/-- The key order of R97. -/
theorem keyBelow_iff {s : State} {x y : PqEntry} : s.keyBelow x y = true ↔
    (s.node x.node).weight.toNat < (s.node y.node).weight.toNat ∨
      ((s.node x.node).weight = (s.node y.node).weight ∧ x.seq.toNat < y.seq.toNat) := by
  simp [State.keyBelow, BitVec.lt_def]

theorem keyBelow_trans {s : State} {x y z : PqEntry} (hxy : s.keyBelow x y = true) (hyz : s.keyBelow y z = true) :
    s.keyBelow x z = true := by
  rw [keyBelow_iff, ← BitVec.toNat_inj] at *
  omega

/-- Of two entries with distinct seqs one has the lower key. -/
theorem keyBelow_of_not {s : State} {x y : PqEntry} (hne : x.seq ≠ y.seq) (h : ¬ s.keyBelow y x = true) :
    s.keyBelow x y = true := by
  rw [Ne, ← BitVec.toNat_inj] at hne
  rw [keyBelow_iff, ← BitVec.toNat_inj] at *
  omega

/-- The entry found has the least key of all. -/
theorem leastOf_keyBelow {s : State} {xs : List PqEntry} {e x : PqEntry} (hd : (xs.map PqEntry.seq).Nodup)
    (h : s.leastOf xs = some e) (hx : x ∈ xs) (hne : x ≠ e) : s.keyBelow e x = true := by
  induction xs generalizing e x with
  | nil => cases hx
  | cons y ys ih =>
    obtain ⟨hy, hys⟩ := List.nodup_cons.mp hd
    rw [State.leastOf] at h
    cases hl : s.leastOf ys with
    | none =>
      obtain rfl := leastOf_eq_none.mp hl
      rw [hl] at h
      exact absurd ((List.mem_singleton.mp hx).trans (Option.some.inj h)) hne
    | some z =>
      have hseq : y.seq ≠ z.seq := fun h => hy (h ▸ List.mem_map_of_mem (leastOf_mem hl))
      simp only [hl] at h
      split_ifs at h with hzy <;> obtain rfl := Option.some.inj h
      · rcases List.mem_cons.mp hx with rfl | hx
        · exact hzy
        · exact ih hys hl hx hne
      · have hyz := keyBelow_of_not hseq hzy
        rcases List.mem_cons.mp hx with rfl | hx
        · exact absurd rfl hne
        · by_cases hxz : x = z
          · exact hxz ▸ hyz
          · exact keyBelow_trans hyz (ih hys hl hx hxz)

theorem pqExtractMinBody_done {s t : State} {e : PqEntry} (h : pqExtractMin s = some (e, t)) : pqExtractMinBody s =
    .done () (setAux 16 16 e.seq.toNat (setAux 0 9 e.node.toNat (setRes (s.node e.node).weight t))) := by
  rw [pqExtractMinBody, h]

/-- Settles O25: an empty PQ, or the entry of least key. -/
theorem pqExtractMinCommand : Obligations.PqExtractMin := by
  refine ⟨rfl, fun s => ⟨fun hempty => ?_, fun hne hseqs => ?_⟩⟩
  · have hmin : pqExtractMin (accept 0x12 s) = none := by simp [pqExtractMin, hempty, State.leastOf]
    have hbody : pqExtractMinBody (accept 0x12 s) = .done () (setAux 0 9 511 { accept 0x12 s with pqEmpty := true }) := by
      rw [pqExtractMinBody, hmin]
      rfl
    have haux : putField 0 0 9 511 = 0x1FF := by decide
    rw [← haux]
    exact runCommand_done hbody
  · obtain ⟨e, t, he⟩ := pqExtractMin_exists (s := accept 0x12 s) hne
    obtain ⟨hleast, rfl⟩ := pqExtractMin_eq_some.mp he
    refine ⟨e, leastOf_mem hleast, fun x hx hxe => ?_, ?_⟩
    · exact keyBelow_iff.mp (leastOf_keyBelow (s := accept 0x12 s) hseqs hleast hx hxe)
    · rw [← putField_entry]
      exact runCommand_done (pqExtractMinBody_done he)

/-! ### NODE_LEAF (R104) -/

/-- Settles O26: the arena is full or has room. -/
theorem nodeLeaf : Obligations.NodeLeaf := by
  refine ⟨fun sym => rfl, fun s sym => ?_⟩
  split_ifs with hfull
  · exact runCommand_check (if_pos (arenaFull_iff.mpr hfull))
  · have hbody : nodeLeafBody sym (accept 0x15 s) = .done () _ := if_neg (mt arenaFull_iff.mp hfull)
    rw [← putField_nextIdx (by omega)]
    exact runCommand_done hbody

/-! ### NODE_JOIN (R105) -/

theorem nodeJoinBody_eq (a b : NodeIdx) (s : State) : nodeJoinBody a b s =
    if s.nodes.length ≤ a.toNat ∨ s.nodes.length ≤ b.toNat ∨ a = b then .raised .badOperand s
    else if (s.node a).parented = true ∨ (s.node b).parented = true ∨ (s.node a).inPq = true ∨ (s.node b).inPq = true then
      .raised .badOperand s
    else if 511 ≤ s.nodes.length ∨ 2 ^ 64 ≤ (s.node a).weight.toNat + (s.node b).weight.toNat then .raised .capacity s
    else .done () (setAux 0 9 s.nextIdx.toNat
      (setRes ((s.node a).weight + (s.node b).weight) (join a b (invalidate s)))) := by
  have htaken : s.taken a = true ∨ s.taken b = true ↔ (s.node a).parented = true ∨ (s.node b).parented = true ∨
      (s.node a).inPq = true ∨ (s.node b).inPq = true := by
    rw [taken_iff, taken_iff]
    tauto
  simp only [nodeJoinBody, allocated_eq_false_iff, htaken, arenaFull_iff, weightsOverflow_iff, ← or_assoc, ite_or]

theorem join_nodes {a b : NodeIdx} {s : State} (ha : a.toNat < s.nodes.length) (hb : b.toNat < s.nodes.length) :
    (join a b s).nodes =
      (s.nodes.mapIdx fun k n => if k = a.toNat ∨ k = b.toNat then { n with parented := true } else n) ++
        [joinRecord a b s] := by
  have happend : (join a b s).nodes = ((s.nodes.modify a.toNat fun n => { n with parented := true }).modify b.toNat
      fun n => { n with parented := true }) ++ [joinRecord a b s] := by
    rw [← modify_append_left _ _ (by simpa using hb), ← modify_append_left _ _ ha]
    rfl
  rw [happend, List.append_left_inj]
  refine List.ext_getElem? fun k => ?_
  rw [List.getElem?_mapIdx, List.getElem?_modify, List.getElem?_modify]
  cases s.nodes[k]? with
  | none => rfl
  | some n => by_cases hka : a.toNat = k <;> by_cases hkb : b.toNat = k <;> simp [hka, hkb, eq_comm (a := k)]

/-- Settles O27: check by check. -/
theorem nodeJoin : Obligations.NodeJoin := by
  refine ⟨fun a b => rfl, fun s a b => ?_⟩
  have hrun : exec (.nodeJoin a b) s = runCommand 0x16 (nodeJoinBody a b) s := rfl
  have hbody := nodeJoinBody_eq a b (accept 0x16 s)
  rw [hrun]
  split_ifs with hoperands htaken hroom
  · exact runCommand_check (hbody.trans (if_pos hoperands))
  · exact runCommand_check (hbody.trans ((if_neg hoperands).trans (if_pos htaken)))
  · exact runCommand_check (hbody.trans ((if_neg hoperands).trans ((if_neg htaken).trans (if_pos hroom))))
  · rw [runCommand_done (hbody.trans ((if_neg hoperands).trans ((if_neg htaken).trans (if_neg hroom))))]
    simp only [not_or, Nat.not_le] at hoperands hroom
    refine ⟨(s.node a).weight + (s.node b).weight, BitVec.toNat_add_of_lt hroom.2, ?_⟩
    have hnodes : (join a b (invalidate (accept 0x16 s))).nodes = _ := join_nodes hoperands.1 hoperands.2.1
    have haux : putField 0 0 9 s.nextIdx.toNat = BitVec.ofNat 32 s.nodes.length := putField_nextIdx (by omega)
    have hnext : complete (setAux 0 9 s.nextIdx.toNat (setRes ((s.node a).weight + (s.node b).weight)
        (join a b (invalidate (accept 0x16 s))))) = { (invalidate s).fresh with
          nodes := (join a b (invalidate (accept 0x16 s))).nodes, res := (s.node a).weight + (s.node b).weight
          resAux := putField 0 0 9 s.nextIdx.toNat } := rfl
    rw [hnodes, haux] at hnext
    exact congrArg _ hnext

/-! ### NODE_READ (R106) -/

theorem nodeReadAux_eq (n : Node) : nodeReadAux n =
    n.left.setWidth 32 ||| (n.right.setWidth 32 <<< 9) ||| (n.sym.setWidth 32 <<< 18) |||
      flagBit (decide (n.kind = .leaf)) 26 ||| flagBit n.inPq 27 ||| flagBit n.parented 28 := by
  simp only [nodeReadAux, flagBit, decide_eq_true_eq]

/-- The bits of RES_AUX after NODE_READ: the fields side by side. -/
theorem getLsbD_nodeReadAux (n : Node) {k : Nat} (h : k < 32) : (nodeReadAux n).getLsbD k =
    (n.left.getLsbD k || (decide (9 ≤ k) && n.right.getLsbD (k - 9)) || (decide (18 ≤ k) && n.sym.getLsbD (k - 18)) ||
      (decide (k = 26) && decide (n.kind = .leaf)) || (decide (k = 27) && n.inPq) ||
      (decide (k = 28) && n.parented)) := by
  simp only [nodeReadAux_eq, BitVec.getLsbD_or, getLsbD_flagBit _ (show 26 < 32 by decide),
    getLsbD_flagBit _ (show 27 < 32 by decide), getLsbD_flagBit _ (show 28 < 32 by decide), BitVec.getLsbD_shiftLeft,
    BitVec.getLsbD_setWidth, h, decide_true, Bool.true_and, ← decide_not, Nat.not_lt, show k - 9 < 32 by omega,
    show k - 18 < 32 by omega]

/-- RES_AUX after NODE_READ, field by field (R106). -/
theorem nodeReadAux_fields (n : Node) : (nodeReadAux n).extractLsb' 0 9 = n.left ∧
    (nodeReadAux n).extractLsb' 9 9 = n.right ∧ (nodeReadAux n).extractLsb' 18 8 = n.sym ∧
    ((nodeReadAux n).getLsbD 26 = true ↔ n.kind = .leaf) ∧ (nodeReadAux n).getLsbD 27 = n.inPq ∧
    (nodeReadAux n).getLsbD 28 = n.parented ∧ (nodeReadAux n).extractLsb' 29 3 = 0 := by
  have bit {k : Nat} (h : k < 32) := getLsbD_nodeReadAux n h
  refine ⟨?_, ?_, ?_, by rw [bit (by decide)]; simp, by rw [bit (by decide)]; simp, by rw [bit (by decide)]; simp, ?_⟩
  all_goals
    apply BitVec.eq_of_getLsbD_eq
    intro k hk
    rw [BitVec.getLsbD_extractLsb', bit (by omega)]
  · simp [hk, show ¬ 9 ≤ k by omega, show ¬ 18 ≤ k by omega, show ∀ j, 9 ≤ j → ¬ k = j by omega]
  · rw [BitVec.getLsbD_of_ge n.left _ (by omega)]
    simp [hk, show ¬ 18 ≤ 9 + k by omega, show ∀ j, 18 ≤ j → ¬ 9 + k = j by omega]
  · rw [BitVec.getLsbD_of_ge n.left _ (by omega), BitVec.getLsbD_of_ge n.right _ (by omega)]
    simp [hk, show ∀ j, 26 ≤ j → ¬ 18 + k = j by omega]
  · rw [BitVec.getLsbD_of_ge n.left _ (by omega), BitVec.getLsbD_of_ge n.right _ (by omega),
      BitVec.getLsbD_of_ge n.sym _ (by omega)]
    simp [show ∀ j, j < 29 → ¬ 29 + k = j by omega]

/-- Settles O28: RES_AUX is made of the fields. -/
theorem nodeRead : Obligations.NodeRead := by
  refine ⟨fun a => rfl, fun s a => ?_⟩
  split_ifs with halloc
  · exact runCommand_check (if_pos (allocated_eq_false_iff.mpr halloc))
  · have hbody : nodeReadBody a (accept 0x17 s) = .done () _ := if_neg (mt allocated_eq_false_iff.mp halloc)
    exact ⟨nodeReadAux (s.node a), runCommand_done hbody, nodeReadAux_fields (s.node a)⟩

end Sys2Proof.Machine
end

section
/-! PROOF. The nodes TREE_BUILD has made (42_tree_builder.md R112, R115): leaves, then joins, each of the two nodes of least key
that waited when it was made. -/

namespace Sys2Proof.Machine

/-! ### What a change of the marks leaves of an arena -/

/-- A kept record read back. -/
theorem NodesKeep.back {ns ns' : List Node} {i : Nat} {n : Node} (h : NodesKeep ns ns') (hi : i < ns.length)
    (hn : ns'[i]? = some n) : ∃ m, ns[i]? = some m ∧ n.core = m.core := by
  obtain ⟨p, q, hn'⟩ := h i _ (List.getElem?_eq_getElem hi)
  exact ⟨_, List.getElem?_eq_getElem hi, by rw [← Option.some.inj (hn'.symm.trans hn)]; rfl⟩

theorem Node.core_eq {m n : Node} (h : n.core = m.core) :
    n.kind = m.kind ∧ n.sym = m.sym ∧ n.weight = m.weight ∧ n.left = m.left ∧ n.right = m.right := by
  simp only [Node.core, Node.mk.injEq] at h
  obtain ⟨hkind, hsym, hweight, hleft, hright, -⟩ := h
  exact ⟨hkind, hsym, hweight, hleft, hright⟩

theorem Node.weight_eq_of_core {m n : Node} (h : n.core = m.core) : n.weight = m.weight := by
  obtain ⟨-, -, hweight, -⟩ := Node.core_eq h
  exact hweight

section
variable {s t : State} {k : Nat} {a b x : NodeIdx}

theorem ArenaGrown.waitingAt (h : ArenaGrown s t) (hk : k ≤ s.nodes.length) : t.waitingAt k x ↔ s.waitingAt k x := by
  refine and_congr_right fun _ => ⟨fun hw j m hj hm => ?_, fun hw j m hj hm => ?_⟩
  · obtain ⟨p, q, hn⟩ := h.2 j m hm
    have hchildren := hw j _ hj hn
    exact hchildren
  · obtain ⟨n, hn, hcore⟩ := h.2.back (lt_of_lt_of_le hj hk) hm
    obtain ⟨-, -, -, hleft, hright⟩ := Node.core_eq hcore
    rw [hleft, hright]
    exact hw j n hj hn

theorem ArenaGrown.keyLess (h : ArenaGrown s t) (ha : a.toNat < s.nodes.length) (hb : b.toNat < s.nodes.length) :
    t.keyLess a b ↔ s.keyLess a b := by
  rw [State.keyLess, h.weight ha, h.weight hb, State.keyLess]

/-- Whether `a` and `b` are the two least of the nodes waiting at `k` is settled before node `k` is made. -/
theorem ArenaGrown.twoLeast (h : ArenaGrown s t) (hk : k ≤ s.nodes.length) (hs : s.twoLeast k a b) :
    t.twoLeast k a b := by
  obtain ⟨ha, hb, hab, hleast⟩ := hs
  have ha' := lt_of_lt_of_le ha.1 hk
  have hb' := lt_of_lt_of_le hb.1 hk
  refine ⟨(h.waitingAt hk).mpr ha, (h.waitingAt hk).mpr hb, (h.keyLess ha' hb').mpr hab, fun x hx hxa hxb => ?_⟩
  have hx' := (h.waitingAt hk).mp hx
  exact (h.keyLess hb' (lt_of_lt_of_le hx'.1 hk)).mpr (hleast x hx' hxa hxb)

end

/-! ### The nodes made so far -/

/-- The record of a leaf, its marks aside. -/
def leafCore (sym : Byte) (w : Count) : Node :=
  { kind := .leaf, sym := sym, weight := w, left := nilIdx, right := nilIdx, inPq := false, parented := false }

/-- Node `k` joins the two nodes that were next (R112). -/
def State.joinedAt (s : State) (k : Nat) (n : Node) : Prop :=
  n.kind = .internal ∧ n.sym = 0 ∧ n.weight.toNat = (s.node n.left).weight.toNat + (s.node n.right).weight.toNat ∧
    s.twoLeast k n.left n.right

theorem ArenaGrown.joinedAt {s t : State} {k : Nat} {m n : Node} (h : ArenaGrown s t) (hk : k ≤ s.nodes.length)
    (hcore : n.core = m.core) (hm : s.joinedAt k m) : t.joinedAt k n := by
  obtain ⟨hkind, hsym, hweight, htwo⟩ := hm
  obtain ⟨hkind', hsym', hweight', hleft', hright'⟩ := Node.core_eq hcore
  have ⟨⟨hleft, _⟩, ⟨hright, _⟩, _⟩ := htwo
  rw [State.joinedAt, hkind', hsym', hweight', hleft', hright', h.weight (lt_of_lt_of_le hleft hk),
    h.weight (lt_of_lt_of_le hright hk)]
  exact ⟨hkind, hsym, hweight, h.twoLeast hk htwo⟩

/-- The arena is the leaves of `syms` in order, with the counts `c`, and then joins. -/
structure History (syms : List Byte) (c : Byte → Count) (s : State) : Prop where
  leaves : ∀ (k : Nat) (sym : Byte), syms[k]? = some sym → ∃ n, s.nodes[k]? = some n ∧ n.core = leafCore sym (c sym)
  joins : ∀ (k : Nat) (n : Node), s.nodes[k]? = some n → syms.length ≤ k → s.joinedAt k n

section
variable {syms : List Byte} {c : Byte → Count} {s t : State}

/-- A leaf names no child. -/
theorem History.leaf_children (h : History syms c s) {n : Node} (hn : n ∈ s.nodes) (hk : n.kind = .leaf) :
    n.left = nilIdx ∧ n.right = nilIdx := by
  obtain ⟨k, hk'⟩ := List.getElem?_of_mem hn
  rcases Nat.lt_or_ge k syms.length with hlt | hge
  · obtain ⟨m, hm, hcore⟩ := h.leaves k _ (List.getElem?_eq_getElem hlt)
    obtain rfl : m = n := Option.some.inj (hm.symm.trans hk')
    obtain ⟨-, -, -, hleft, hright⟩ := Node.core_eq (m := leafCore _ _) hcore
    exact ⟨hleft, hright⟩
  · exact absurd (hk.symm.trans (h.joins k n hk' hge).1) nofun

/-- The nodes without a parent are those that wait for the next join. -/
theorem History.waitingAt_iff (h : History syms c s) (hlen : s.nodes.length ≤ Config.nodeCap) (x : NodeIdx) :
    s.waitingAt s.nodes.length x ↔ x.toNat < s.nodes.length ∧ x ∉ arenaRefs s.nodes := by
  refine and_congr_right fun hx => ⟨fun hw hmem => ?_, fun hfree j m hj hm => ?_⟩
  · obtain ⟨m, hm, hxm⟩ := List.mem_flatMap.mp hmem
    obtain ⟨j, hj⟩ := List.getElem?_of_mem hm
    obtain ⟨hl, hr⟩ := hw j m (List.getElem?_eq_some_iff.mp hj).1 hj
    obtain ⟨-, -, hc⟩ := mem_childRefs.mp hxm
    exact hc.elim hl hr
  · have hmem := List.mem_of_getElem? hm
    have hnil : x ≠ nilIdx := ne_nilIdx hx hlen
    cases hk : m.kind with
    | leaf =>
      obtain ⟨hleft, hright⟩ := h.leaf_children hmem hk
      exact ⟨fun hl => hnil (hl.symm.trans hleft), fun hr => hnil (hr.symm.trans hright)⟩
    | internal =>
      exact not_or.mp fun hc => hfree (List.mem_flatMap.mpr ⟨m, hmem, mem_childRefs.mpr ⟨hk, hnil, hc⟩⟩)

/-- Other marks, and nodes that are joins. -/
theorem History.grow (h : History syms c s) (hg : ArenaGrown s t)
    (hnew : ∀ (k : Nat) (n : Node), t.nodes[k]? = some n → s.nodes.length ≤ k → t.joinedAt k n) : History syms c t where
  leaves k sym hk := by
    obtain ⟨n, hn, hcore⟩ := h.leaves k sym hk
    obtain ⟨p, q, hn'⟩ := hg.2 k n hn
    exact ⟨_, hn', hcore⟩
  joins k n hn hk := by
    rcases Nat.lt_or_ge k s.nodes.length with hlt | hge
    · obtain ⟨m, hm, hcore⟩ := hg.2.back hlt hn
      exact hg.joinedAt hlt.le hcore (h.joins k m hm hk)
    · exact hnew k n hn hge

/-- One leaf more. -/
theorem History.leaf {n : Node} {sym : Byte} (h : History syms c s) (hs : s.nodes.length = syms.length)
    (hg : ArenaGrown s t) (hlen : t.nodes.length = s.nodes.length + 1) (hn : t.nodes[s.nodes.length]? = some n)
    (hcore : n.core = leafCore sym (c sym)) : History (syms ++ [sym]) c t where
  leaves k x hk := by
    rcases Nat.lt_or_ge k syms.length with hlt | hge
    · rw [List.getElem?_append_left hlt] at hk
      obtain ⟨m, hm, hmc⟩ := h.leaves k x hk
      obtain ⟨p, q, hm'⟩ := hg.2 k m hm
      exact ⟨_, hm', hmc⟩
    · rw [List.getElem?_append_right hge, List.getElem?_singleton] at hk
      split at hk
      · obtain rfl : k = s.nodes.length := by omega
        exact ⟨n, hn, Option.some.inj hk ▸ hcore⟩
      · cases hk
  joins k m hm hk := by
    have hlt := (List.getElem?_eq_some_iff.mp hm).1
    rw [List.length_append, List.length_singleton] at hk
    omega

end

end Sys2Proof.Machine
end

section
/-! PROOF. The operations of TREE_BUILD (42_tree_builder.md R112) keep the nodes without a parent in PQ, up to the root. -/

namespace Sys2Proof.Machine

/-! ### The nodes without a parent -/

/-- The nodes in PQ. -/
def State.queued (s : State) : List NodeIdx := s.pq.map PqEntry.node

/-- The exact sum of some nodes' weights. -/
def State.weightOf (s : State) (xs : List NodeIdx) : Nat := (xs.map fun x => (s.node x).weight.toNat).sum

/-- Two nodes joined, and the new node put into PQ (R112). -/
def joinInsert (a b : NodeIdx) (s : State) : State := pqInsert s.nextIdx (join a b s)

/-- A leaf made and put into PQ (R112). -/
def leafInsert (sym : Byte) (x : Count) (s : State) : State := pqInsert s.nextIdx (alloc .leaf sym x nilIdx nilIdx s)

/-- TREE_BUILD between two of its operations: the nodes without a parent are `out` and those in PQ, a node's seq is its index,
and the weights sum to `w`. -/
structure Pool (w : Nat) (out : List NodeIdx) (s : State) : Prop where
  building : Building s
  free : ∀ x ∈ out, Free s x
  roots : ∀ x : NodeIdx, x.toNat < s.nodes.length → x ∉ arenaRefs s.nodes → x ∈ out ++ s.queued
  seq : s.seq.toNat = s.nodes.length
  entrySeq : ∀ e ∈ s.pq, e.seq.toNat = e.node.toNat
  weight : s.weightOf (out ++ s.queued) = w
  light : ∀ n ∈ s.nodes, n.weight.toNat ≤ w

section
variable {s t u v : State} {e a b : PqEntry} {w : Nat} {out : List NodeIdx} {syms : List Byte} {c : Byte → Count}

theorem ArenaGrown.weightOf {xs : List NodeIdx} (h : ArenaGrown s t) (hxs : ∀ x ∈ xs, x.toNat < s.nodes.length) :
    t.weightOf xs = s.weightOf xs :=
  congrArg List.sum (List.map_congr_left fun x hx => by rw [h.weight (hxs x hx)])

/-- A bound on the weights bounds those of the kept records. -/
theorem ArenaGrown.weight_le {k : Nat} {n : Node} (h : ArenaGrown s t) (hs : ∀ m ∈ s.nodes, m.weight.toNat ≤ w)
    (hk : k < s.nodes.length) (hn : t.nodes[k]? = some n) : n.weight.toNat ≤ w := by
  obtain ⟨m, hm, hcore⟩ := h.2.back hk hn
  rw [Node.weight_eq_of_core hcore]
  exact hs m (List.mem_of_getElem? hm)

theorem Building.length_lt (h : Building s) : s.nodes.length < 512 := Nat.lt_succ_of_le h.arena.queue.arena_le

theorem weightOf_append (s : State) (xs ys : List NodeIdx) :
    s.weightOf (xs ++ ys) = s.weightOf xs + s.weightOf ys := by
  rw [State.weightOf, List.map_append, List.sum_append, State.weightOf, State.weightOf]

theorem weightOf_pair (s : State) (x y : NodeIdx) :
    s.weightOf [x, y] = (s.node x).weight.toNat + (s.node y).weight.toNat := rfl

theorem Pool.lt_length (h : Pool w out s) {x : NodeIdx} (hx : x ∈ out ++ s.queued) : x.toNat < s.nodes.length := by
  rcases List.mem_append.mp hx with hx | hx
  · exact (h.free x hx).allocated
  · obtain ⟨e, he, rfl⟩ := List.mem_map.mp hx
    exact h.building.arena.queue.allocated e he

/-- PqExtractMin takes out one entry. -/
theorem Building.extract_perm (h : Building s) (he : pqExtractMin s = some (e, t)) : s.pq.Perm (e :: t.pq) := by
  have hmem := leastOf_mem (pqExtractMin_eq_some.mp he).1
  have hnodup : s.pq.Nodup :=
    .of_map _ (List.pairwise_map.mpr (h.arena.queue.distinct.imp fun hxy => hxy.2))
  obtain ⟨-, -, hfilter⟩ := pqExtractMin_grown he
  have herase : t.pq = s.pq.erase e := by
    rw [hfilter, hnodup.erase_eq_filter]
    exact List.filter_congr fun x _ => by simp [bne, beq_eq_decide]
  exact herase ▸ List.perm_cons_erase hmem

/-- The node taken out has the least key of all in PQ. -/
theorem Building.extract_keyLess (h : Building s) (hseq : ∀ e ∈ s.pq, e.seq.toNat = e.node.toNat)
    (he : pqExtractMin s = some (e, t)) {x : PqEntry} (hx : x ∈ s.pq) (hne : x ≠ e) : s.keyLess e.node x.node := by
  have hleast := (pqExtractMin_eq_some.mp he).1
  have hnodup : (s.pq.map PqEntry.seq).Nodup :=
    List.pairwise_map.mpr (h.arena.queue.distinct.imp fun hxy => BitVec.ne_of_lt hxy.1)
  have hkey := keyBelow_iff.mp (leastOf_keyBelow hnodup hleast hx hne)
  rwa [hseq e (leastOf_mem hleast), hseq x hx] at hkey

theorem Pool.extract (h : Pool w out s) (he : pqExtractMin s = some (e, t)) : Pool w (out ++ [e.node]) t := by
  obtain ⟨hg, hlen, _⟩ := pqExtractMin_grown he
  obtain ⟨-, hbuild, hfree, -, -⟩ := h.building.extract (K := ∅) he
  have hpq := h.building.extract_perm he
  have hperm : (out ++ s.queued).Perm (out ++ [e.node] ++ t.queued) := by
    rw [← List.append_cons]
    exact (hpq.map PqEntry.node).append_left out
  have hlinks : SameLinks s.nodes t.nodes := by
    obtain ⟨-, rfl⟩ := pqExtractMin_eq_some.mp he
    exact sameLinks_inPq _ _ _
  have hseq : t.seq = s.seq := by
    obtain ⟨-, rfl⟩ := pqExtractMin_eq_some.mp he
    rfl
  refine ⟨hbuild, ?_, fun x hx hfree => ?_, by rw [hseq, hlen, h.seq],
    fun x hx => h.entrySeq x (hpq.mem_iff.mpr (List.mem_cons_of_mem _ hx)), ?_, fun n hn => ?_⟩
  · intro x hx
    rcases List.mem_append.mp hx with hx | hx
    · exact (h.free x hx).extract he
    · exact List.mem_singleton.mp hx ▸ hfree
  · exact hperm.mem_iff.mp (h.roots x (hlen ▸ hx) (hlinks.arenaRefs ▸ hfree))
  · rw [hg.weightOf fun x hx => h.lt_length (hperm.mem_iff.mpr hx), ← h.weight]
    exact (hperm.symm.map _).sum_eq
  · obtain ⟨k, hk⟩ := List.getElem?_of_mem hn
    exact hg.weight_le h.light (hlen ▸ (List.getElem?_eq_some_iff.mp hk).1) hk

/-- The nodes `out` become the children of a new node, which enters PQ and adds `extra` to the weights. -/
theorem Pool.enter {n : Node} {extra : Nat} (h : Pool w out s) (hg : ArenaGrown s t) (hbuild : Building t)
    (hlen : t.nodes.length = s.nodes.length + 1) (hn : t.nodes[s.nodes.length]? = some n)
    (hpq : t.pq = s.pq ++ [⟨s.nextIdx, s.seq⟩]) (hseq : t.seq = s.seq + 1)
    (hrefs : arenaRefs t.nodes = arenaRefs s.nodes ++ out) (hw : n.weight.toNat = s.weightOf out + extra) :
    Pool (w + extra) [] t := by
  have hcap := hbuild.length_lt
  have hidx : s.nextIdx.toNat = s.nodes.length := nextIdx_toNat (by omega)
  have hqueued : t.queued = s.queued ++ [s.nextIdx] := by
    rw [State.queued, hpq, List.map_append]
    rfl
  have hsum := h.weight
  rw [weightOf_append] at hsum
  refine ⟨hbuild, nofun, fun x hx hfree => ?_, ?_, fun e he => ?_, ?_, fun m hm => ?_⟩
  · rw [hrefs, List.mem_append, not_or] at hfree
    rw [List.nil_append, hqueued, List.mem_append, List.mem_singleton]
    by_cases hx' : x = s.nextIdx
    · exact .inr hx'
    · have hlt : x.toNat < s.nodes.length := by
        rw [← BitVec.toNat_inj, hidx] at hx'
        omega
      exact .inl ((List.mem_append.mp (h.roots x hlt hfree.1)).resolve_left hfree.2)
  · rw [hseq, hlen, ← h.seq]
    have := h.seq
    bv_omega
  · rw [hpq] at he
    rcases List.mem_append.mp he with he | he
    · exact h.entrySeq e he
    · rw [List.mem_singleton.mp he, hidx]
      exact h.seq
  · have hnew : (t.node s.nextIdx).weight = n.weight := by
      rw [State.node, State.node?, hidx, hn, Option.getD_some]
    rw [List.nil_append, hqueued, weightOf_append, hg.weightOf fun x hx => h.lt_length (List.mem_append_right _ hx),
      State.weightOf, State.weightOf, List.map_singleton, List.sum_singleton, hnew, hw, ← State.weightOf]
    omega
  · obtain ⟨k, hk⟩ := List.getElem?_of_mem hm
    have hlt := (List.getElem?_eq_some_iff.mp hk).1
    rcases Nat.lt_or_ge k s.nodes.length with hlt' | hge
    · exact Nat.le_add_right_of_le (hg.weight_le h.light hlt' hk)
    · obtain rfl : k = s.nodes.length := by omega
      rw [← Option.some.inj (hn.symm.trans hk), hw]
      omega

/-! ### One join -/

theorem Pool.waitingAt_iff (h : Pool w [] s) (hh : History syms c s) (x : NodeIdx) :
    s.waitingAt s.nodes.length x ↔ x ∈ s.queued := by
  rw [hh.waitingAt_iff h.building.arena.queue.arena_le]
  refine ⟨fun hx => h.roots x hx.1 hx.2, fun hx => ⟨h.lt_length hx, ?_⟩⟩
  obtain ⟨e, he, rfl⟩ := List.mem_map.mp hx
  exact h.building.arena.roots e he

/-- Two extractions in a row take the two least of the waiting nodes. -/
theorem Pool.twoLeast (h : Pool w [] s) (hh : History syms c s) (ha : pqExtractMin s = some (a, t))
    (hb : pqExtractMin t = some (b, u)) : s.twoLeast s.nodes.length a.node b.node := by
  obtain ⟨hg, hlen, _⟩ := pqExtractMin_grown ha
  have ht := h.extract ha
  have hpa := h.building.extract_perm ha
  have hpb := ht.building.extract_perm hb
  have hamem : a ∈ s.pq := hpa.mem_iff.mpr (by simp)
  have hbmem : b ∈ t.pq := hpb.mem_iff.mpr (by simp)
  have hbs : b ∈ s.pq := hpa.mem_iff.mpr (List.mem_cons_of_mem _ hbmem)
  have hba : b ≠ a := fun hba => (ht.free a.node (by simp)).notInPq b hbmem (congrArg PqEntry.node hba)
  refine ⟨(h.waitingAt_iff hh _).mpr (List.mem_map_of_mem hamem), (h.waitingAt_iff hh _).mpr (List.mem_map_of_mem hbs),
    h.building.extract_keyLess h.entrySeq ha hbs hba, fun x hx hxa hxb => ?_⟩
  obtain ⟨e, he, rfl⟩ := List.mem_map.mp ((h.waitingAt_iff hh x).mp hx)
  have het : e ∈ t.pq := List.mem_of_ne_of_mem (fun hea => hxa (congrArg _ hea)) (hpa.mem_iff.mp he)
  have hkey := ht.building.extract_keyLess ht.entrySeq hb het fun heb => hxb (congrArg _ heb)
  exact (hg.keyLess (h.building.arena.queue.allocated b hbs) hx.1).mp hkey

theorem joinInsert_grown (a b : NodeIdx) (s : State) : ArenaGrown s (joinInsert a b s) :=
  ((alloc_grown _ _ _ _ _ s).trans (alloc_join_grown a b s)).trans (pqInsert_grown _ _)

theorem leafInsert_grown (sym : Byte) (x : Count) (s : State) : ArenaGrown s (leafInsert sym x s) :=
  (alloc_grown _ _ _ _ _ s).trans (pqInsert_grown _ _)

theorem joinInsert_links (a b : NodeIdx) (s : State) :
    SameLinks (s.nodes ++ [joinRecord a b s]) (joinInsert a b s).nodes :=
  (join_links a b s).trans (sameLinks_inPq _ _ _)

theorem leafInsert_links (sym : Byte) (x : Count) (s : State) :
    SameLinks (s.nodes ++ [leafCore sym x]) (leafInsert sym x s).nodes :=
  sameLinks_inPq _ _ _

theorem SameLinks.length_of_append {ns ns' : List Node} {n : Node} (h : SameLinks (ns ++ [n]) ns') :
    ns'.length = ns.length + 1 := by
  rw [h.length_eq, List.length_append, List.length_singleton]

theorem SameLinks.getElem?_of_append {ns ns' : List Node} {n : Node} (h : SameLinks (ns ++ [n]) ns') :
    ∃ m, ns'[ns.length]? = some m ∧ m.core = n.core := by
  obtain ⟨m, hm⟩ : ∃ m, ns'[ns.length]? = some m := ⟨_, List.getElem?_eq_getElem (by rw [h.length_of_append]; omega)⟩
  obtain ⟨x, hx, hcore⟩ := exists_of_map_eq h hm
  rw [List.getElem?_concat_length] at hx
  exact ⟨m, hm, Option.some.inj hx ▸ hcore⟩

theorem Pool.weight_children {a b : NodeIdx} (h : Pool w [a, b] s) (hw : w < 2 ^ 64) :
    ((s.node a).weight + (s.node b).weight).toNat = s.weightOf [a, b] := by
  have hsum := h.weight
  rw [weightOf_append, weightOf_pair] at hsum
  rw [weightOf_pair]
  exact BitVec.toNat_add_of_lt (by omega)

/-- Two nodes taken out of PQ become the children of a new one. -/
theorem Pool.join {a b : NodeIdx} (h : Pool w [a, b] s) (hab : a ≠ b) (hw : w < 2 ^ 64)
    (hcount : s.nodes.length + s.pq.length + 2 ≤ 512) (hroom : s.pq.length < 256) : Pool w [] (joinInsert a b s) := by
  have ha := h.free a (by simp)
  have hb := h.free b (by simp)
  have hlinks := joinInsert_links a b s
  obtain ⟨n, hn, hcore⟩ := hlinks.getElem?_of_append
  refine h.enter (extra := 0) (joinInsert_grown a b s) (h.building.join (K := ∅) ha hb hab hcount hroom).2
    hlinks.length_of_append hn rfl rfl ?_ ?_
  · rw [hlinks.arenaRefs, arenaRefs_append, joinRecord_childRefs h.building.arena.queue.arena_le ha.allocated hb.allocated]
  · rw [Node.weight_eq_of_core hcore]
    exact h.weight_children hw

/-- One join (R112): the two least waiting nodes become the children of a new one. -/
theorem Pool.joined (h : Pool w [] s) (hh : History syms c s) (hw : w < 2 ^ 64) (ha : pqExtractMin s = some (a, t))
    (hb : pqExtractMin t = some (b, u)) : ArenaGrown s (joinInsert a.node b.node u) ∧
      Pool w [] (joinInsert a.node b.node u) ∧ History syms c (joinInsert a.node b.node u) := by
  have ht : Pool w [a.node] t := h.extract ha
  have hu : Pool w [a.node, b.node] u := ht.extract hb
  obtain ⟨hst, hnt, _⟩ := pqExtractMin_grown ha
  obtain ⟨htu, hnu, _⟩ := pqExtractMin_grown hb
  have hab : a.node ≠ b.node := fun hab =>
    (ht.free a.node (by simp)).notInPq b (leastOf_mem (pqExtractMin_eq_some.mp hb).1) hab.symm
  have hcount := h.building.count
  have hroom := h.building.arena.queue.length_le
  have hpt := (h.building.extract_perm ha).length_eq
  have hpu := (ht.building.extract_perm hb).length_eq
  simp only [List.length_cons, Config.pqCap] at hpt hpu hroom
  have hgu := joinInsert_grown a.node b.node u
  have hg := hst.trans (htu.trans hgu)
  refine ⟨hg, hu.join hab hw (by omega) (by omega), hh.grow hg fun k m hm hk => ?_⟩
  have hlinks := joinInsert_links a.node b.node u
  have hlt := (List.getElem?_eq_some_iff.mp hm).1
  rw [hlinks.length_of_append] at hlt
  obtain ⟨n, hn, hcore⟩ := hlinks.getElem?_of_append
  obtain rfl : k = u.nodes.length := by omega
  obtain rfl := Option.some.inj (hn.symm.trans hm)
  obtain ⟨hkind, hsym, hweight, hleft, hright⟩ := Node.core_eq hcore
  rw [State.joinedAt, hkind, hsym, hweight, hleft, hright]
  refine ⟨rfl, rfl, ?_, ?_⟩
  · have hsum := hu.weight_children hw
    rwa [← hgu.weightOf fun x hx => (hu.free x hx).allocated, weightOf_pair] at hsum
  · rw [hnu.trans hnt]
    exact hg.twoLeast le_rfl (h.twoLeast hh ha hb)

/-! ### The three parts of TREE_BUILD (R112) -/

theorem pool_arenaClear (s : State) : Pool 0 [] (arenaClear s) :=
  ⟨building_arenaClear s, nofun, nofun, rfl, nofun, rfl, nofun⟩

theorem history_arenaClear (c : Byte → Count) (s : State) : History [] c (arenaClear s) :=
  ⟨nofun, nofun⟩

/-- One leaf seeded. -/
theorem Pool.leaf (h : Pool w [] s) (sym : Byte) (x : Count) (hlen : s.nodes.length < 256) (hroom : s.pq.length < 256) :
    Pool (w + x.toNat) [] (leafInsert sym x s) := by
  have hlinks := leafInsert_links sym x s
  obtain ⟨n, hn, hcore⟩ := hlinks.getElem?_of_append
  refine h.enter (leafInsert_grown sym x s) (h.building.seed (K := ∅) sym x hlen hroom).2 hlinks.length_of_append hn rfl
    rfl ?_ ?_
  · rw [hlinks.arenaRefs, arenaRefs_append]
    rfl
  · rw [Node.weight_eq_of_core hcore]
    exact (Nat.zero_add _).symm

/-- The seeding: the symbols of `xs` that are counted, in order. -/
theorem Pool.seedLeaves {xs : List Byte} (h : Pool w [] s) (hh : History syms s.histAt s)
    (hlen : s.nodes.length = syms.length) (hpq : s.pq.length = syms.length)
    (hroom : syms.length + (s.presentIn xs).length ≤ 256) : ArenaGrown s (seedLeaves xs s) ∧
      Pool (w + ((s.presentIn xs).map fun sym => (s.histAt sym).toNat).sum) [] (seedLeaves xs s) ∧
      History (syms ++ s.presentIn xs) s.histAt (seedLeaves xs s) := by
  induction xs generalizing s w syms with
  | nil => exact ⟨.refl s, h, by rwa [State.presentIn, List.filter_nil, List.append_nil]⟩
  | cons sym xs ih =>
    by_cases hz : s.histAt sym = 0
    · rw [presentIn_cons_absent xs hz] at hroom ⊢
      rw [Machine.seedLeaves, if_pos hz]
      exact ih h hh hlen hpq hroom
    · rw [presentIn_cons_present xs hz, List.length_cons] at hroom
      rw [presentIn_cons_present xs hz, Machine.seedLeaves, if_neg hz, ← leafInsert]
      have hg := leafInsert_grown sym (s.histAt sym) s
      have hlinks := leafInsert_links sym (s.histAt sym) s
      obtain ⟨n, hn, hcore⟩ := hlinks.getElem?_of_append
      have hh' := hh.leaf hlen hg hlinks.length_of_append hn hcore
      obtain ⟨hgrown, hpool, hhist⟩ := ih (h.leaf sym (s.histAt sym) (by omega) (by omega)) (hg.histAt ▸ hh')
        (by rw [hlinks.length_of_append, hlen, List.length_append, List.length_singleton])
        (by simp [leafInsert, hpq]) (by rw [hg.presentIn, List.length_append, List.length_singleton]; omega)
      rw [hg.presentIn, hg.histAt] at hpool hhist
      rw [List.map_cons, List.sum_cons, ← Nat.add_assoc, List.append_cons]
      exact ⟨hg.trans hgrown, hpool, hhist⟩

/-- The joins. -/
theorem Pool.joinAll {fuel : Nat} (h : Pool w [] s) (hh : History syms c s) (hw : w < 2 ^ 64) :
    (joinAll fuel s).Ends fun t => ArenaGrown s t ∧ Pool w [] t ∧ History syms c t := by
  induction fuel generalizing s with
  | zero => trivial
  | succ fuel ih =>
    unfold Machine.joinAll
    split
    · exact ⟨.refl s, h, hh⟩
    · split
      · trivial
      · next a t ha =>
        split
        · trivial
        · next b u hb =>
          obtain ⟨hg, h', hh'⟩ := h.joined hh hw ha hb
          exact (ih h' hh').imp fun v hv => ⟨hg.trans hv.1, hv.2⟩

/-- The root leaves PQ. -/
theorem Pool.takeRoot (h : Pool w [] s) (hh : History syms c s) : (takeRoot s).Ends fun v =>
    ∃ u, Pool w [v.root] u ∧ History syms c v ∧ v.nodes = u.nodes ∧ v.pq = u.pq ∧ v.seq = u.seq ∧
      v.resAux = putField s.resAux 0 9 v.root.toNat := by
  unfold Machine.takeRoot
  split
  · trivial
  · next e t he =>
    obtain ⟨hg, hlen, _⟩ := pqExtractMin_grown he
    have hh' : History syms c t := hh.grow hg fun k n hn hk => by
      have := (List.getElem?_eq_some_iff.mp hn).1
      omega
    refine ⟨t, h.extract he, ⟨hh'.leaves, hh'.joins⟩, rfl, rfl, rfl, ?_⟩
    obtain ⟨⟨ns, q, n, rfl⟩, _⟩ := hg
    rfl

/-- The sum of the counts of the symbols present, exact. -/
def State.presentSum (s : State) : Nat := (s.present.map fun sym => (s.histAt sym).toNat).sum

theorem treeBuildCore_history (h : treeBuildCore s = .done () v) (hw : s.presentSum < 2 ^ 64) :
    ∃ u, Pool s.presentSum [v.root] u ∧ History s.present s.histAt v ∧ v.nodes = u.nodes ∧ v.pq = u.pq ∧ v.seq = u.seq ∧
      v.resAux = putField s.resAux 0 9 v.root.toNat := by
  obtain ⟨hg, hpool, hhist⟩ := (pool_arenaClear s).seedLeaves (xs := allSymbols) (history_arenaClear _ s) rfl rfl
    ((Nat.zero_add _).trans_le (length_present_le s))
  rw [Nat.zero_add] at hpool
  obtain ⟨_, t, ht, hv⟩ := andThen_eq_done.mp h
  have hjoined := hpool.joinAll (fuel := (seedLeaves allSymbols (arenaClear s)).pq.length + 1) hhist hw
  rw [ht] at hjoined
  obtain ⟨hg', hpool', hhist'⟩ := hjoined
  have hroot := hpool'.takeRoot hhist'
  rw [hv] at hroot
  obtain ⟨⟨ns, q, n, rfl⟩, _⟩ := hg.trans hg'
  exact hroot

/-! ### The arena with the root alone -/

/-- A child has a parent after it. -/
theorem Downward.lt_of_mem_arenaRefs {ns : List Node} {x : NodeIdx} (h : Downward ns) (hx : x ∈ arenaRefs ns) :
    x.toNat + 1 < ns.length := by
  obtain ⟨n, hn, hc⟩ := List.mem_flatMap.mp hx
  obtain ⟨j, hj⟩ := List.getElem?_of_mem hn
  obtain ⟨hk, -, hc⟩ := mem_childRefs.mp hc
  obtain ⟨hl, hr⟩ := h j n hj hk
  have hjlt := (List.getElem?_eq_some_iff.mp hj).1
  rcases hc with rfl | rfl <;> omega

/-- The root is the last node made. -/
theorem Pool.root_last {r : NodeIdx} (h : Pool w [r] s) (hpq : s.pq = []) : r.toNat + 1 = s.nodes.length := by
  have hlt := (h.free r (by simp)).allocated
  have hcap := h.building.length_lt
  have hlast : (BitVec.ofNat 9 (s.nodes.length - 1)).toNat = s.nodes.length - 1 := ofNat9_toNat (by omega)
  have hfree : BitVec.ofNat 9 (s.nodes.length - 1) ∉ arenaRefs s.nodes := fun hmem => by
    have := h.building.downward.lt_of_mem_arenaRefs hmem
    omega
  have hmem := h.roots _ (by omega) hfree
  rw [State.queued, hpq, List.map_nil, List.append_nil, List.mem_singleton] at hmem
  rw [← hmem, hlast]
  omega

/-- The root is the only node without a parent. -/
theorem Pool.parented_iff {r : NodeIdx} (h : Pool w [r] s) (hpq : s.pq = []) {k : Nat} {n : Node}
    (hn : s.nodes[k]? = some n) : n.parented = true ↔ k ≠ r.toNat := by
  have hlt := (List.getElem?_eq_some_iff.mp hn).1
  have hcap := h.building.length_lt
  have hk : (BitVec.ofNat 9 k).toNat = k := ofNat9_toNat (by omega)
  rw [h.building.arena.owned.parented (BitVec.ofNat 9 k) n (by rwa [hk])]
  refine ⟨fun hmem hkr => ?_, fun hkr => ?_⟩
  · rw [hkr, BitVec.ofNat_toNat, BitVec.setWidth_eq] at hmem
    exact (h.free r (by simp)).noParent hmem
  · by_contra hfree
    have hmem := h.roots _ (hk.symm ▸ hlt) hfree
    rw [State.queued, hpq, List.map_nil, List.append_nil, List.mem_singleton] at hmem
    exact hkr (hmem ▸ hk.symm)

theorem Pool.inPq_eq_false (h : Pool w out s) (hpq : s.pq = []) {n : Node} (hn : n ∈ s.nodes) : n.inPq = false := by
  obtain ⟨k, hk⟩ := List.getElem?_of_mem hn
  have hlt := (List.getElem?_eq_some_iff.mp hk).1
  have hcap := h.building.length_lt
  refine Bool.eq_false_of_not_eq_true fun hq => ?_
  obtain ⟨e, he, _⟩ := (h.building.arena.queue.inPq (BitVec.ofNat 9 k) n (by rwa [ofNat9_toNat (by omega)])).mp hq
  rw [hpq] at he
  cases he

end

end Sys2Proof.Machine
end

section
/-! PROOF. TREE_BUILD's result (42_tree_builder.md R111 to R115), where TOTAL is the sum of HIST. -/

namespace Sys2Proof.Machine

/-! ### The counts -/

theorem sum_presentIn (s : State) (xs : List Byte) : ((s.presentIn xs).map fun sym => (s.histAt sym).toNat).sum =
    (xs.map fun sym => (s.histAt sym).toNat).sum := by
  induction xs with
  | nil => rfl
  | cons sym xs ih =>
    by_cases hz : s.histAt sym = 0
    · rw [presentIn_cons_absent xs hz, ih, List.map_cons, List.sum_cons, hz]
      exact (Nat.zero_add _).symm
    · rw [presentIn_cons_present xs hz, List.map_cons, List.sum_cons, ih, List.map_cons, List.sum_cons]

theorem presentSum_eq_histSum (s : State) : s.presentSum = s.histSum := by
  have hlist : allSymbols.map s.histAt = s.hist.toList := by
    refine List.ext_getElem (by simp [allSymbols]) fun k hk _ => ?_
    have hk : k < 256 := by simpa [allSymbols] using hk
    simp [allSymbols, State.histAt, Nat.mod_eq_of_lt hk]
  rw [State.presentSum, ← presentIn_allSymbols, sum_presentIn, State.histSum, ← hlist, List.map_map]
  rfl

/-- A sum of counts that does not wrap. -/
theorem toNat_sum_counts (xs : List Count) (h : (xs.map BitVec.toNat).sum < 2 ^ 64) :
    xs.sum.toNat = (xs.map BitVec.toNat).sum := by
  induction xs with
  | nil => rfl
  | cons x xs ih =>
    rw [List.map_cons, List.sum_cons] at h ⊢
    have hxs := ih (by omega)
    rw [List.sum_cons, BitVec.toNat_add_of_lt (by omega), hxs]

/-- TOTAL is the sum of the counts present, where it is the sum of HIST. -/
theorem sum_histAt_present_of_total {s : State} (h : s.total.toNat = s.histSum) :
    (s.present.map s.histAt).sum = s.total := by
  have hmap : ((s.present.map s.histAt).map BitVec.toNat).sum = s.total.toNat := by
    rw [h, ← presentSum_eq_histSum, List.map_map]
    rfl
  exact BitVec.eq_of_toNat_eq ((toNat_sum_counts _ (hmap ▸ s.total.isLt)).trans hmap)

/-! ### The obligation -/

/-- What TREE_BUILD leaves where RES_AUX is 0 and TOTAL agrees: its frame, the indices and the history. -/
theorem treeBuildCore_built {s : State} (haux : s.resAux = 0) (htotal : s.total.toNat = s.histSum) (hne : s.total ≠ 0) :
    ∃ (v : State) (tree : CodeTree), treeBuildCore s = .done () v ∧
      v = { invalidate s with
        nodes := v.nodes, root := BitVec.ofNat 9 (2 * s.present.length - 2), pq := []
        seq := BitVec.ofNat 16 (2 * s.present.length - 1), treeValid := true, res := s.total
        resAux := BitVec.ofNat 32 (2 * s.present.length - 2) } ∧
      v.nodes.length = 2 * s.present.length - 1 ∧ History s.present s.histAt v ∧
      (∀ (k : Nat) (n : Node), v.nodes[k]? = some n → (n.parented = true ↔ k ≠ 2 * s.present.length - 2)) ∧
      (v.node v.root).weight = s.total ∧ (∀ n ∈ v.nodes, n.weight.toNat ≤ s.total.toNat ∧ n.inPq = false) ∧
      v.treeAt v.root = some tree ∧ tree.leaves.Perm s.present := by
  have hsum := presentSum_eq_histSum s
  have hpresent : s.present ≠ [] := fun hempty => by
    rw [State.presentSum, hempty, List.map_nil, List.sum_nil, ← htotal] at hsum
    exact hne (BitVec.eq_of_toNat_eq hsum.symm)
  obtain ⟨v, tree, hv, hframe, hholds, hleaves, hweight, hsize⟩ :=
    treeBuildCore_done (sum_histAt_present_of_total htotal) hpresent
  obtain ⟨u, hpool, hhist, hnodes, hpq, hseq, hvaux⟩ := treeBuildCore_history hv (by rw [hsum, ← htotal]; exact s.total.isLt)
  have hvpq : v.pq = [] := by rw [hframe]
  rw [hsum, ← htotal] at hpool
  rw [hvpq] at hpq
  have hlen : v.nodes.length = 2 * s.present.length - 1 := by
    have := tree.size_add_one
    have := hleaves.length_eq
    omega
  have hpos := List.length_pos_iff.mpr hpresent
  have hlast := hpool.root_last hpq.symm
  rw [← hnodes, hlen] at hlast
  have hroot : v.root.toNat = 2 * s.present.length - 2 := by omega
  have hroot' : v.root = BitVec.ofNat 9 (2 * s.present.length - 2) := by
    rw [← hroot, BitVec.ofNat_toNat, BitVec.setWidth_eq]
  have hseq' : v.seq = BitVec.ofNat 16 (2 * s.present.length - 1) := by
    rw [hseq, ← hlen, hnodes, ← hpool.seq, BitVec.ofNat_toNat, BitVec.setWidth_eq]
  have haux' : v.resAux = BitVec.ofNat 32 (2 * s.present.length - 2) := by
    rw [hvaux, haux, putField_zero, Nat.mod_eq_of_lt v.root.isLt, hroot]
  refine ⟨v, tree, hv, ?_, hlen, hhist, fun k n hn => ?_, hweight, fun n hn => ⟨hpool.light n (hnodes ▸ hn), ?_⟩,
    hholds.treeAt hsize.le, hleaves⟩
  · rw [hroot', hseq', haux'] at hframe
    exact hframe
  · rw [hnodes] at hn
    rw [hpool.parented_iff hpq.symm hn, hroot]
  · exact hpool.inPq_eq_false hpq.symm (hnodes ▸ hn)

/-- Settles O31: the arena's history, and the tree at its last node. -/
theorem treeBuildShape : Obligations.TreeBuildShape := by
  refine fun s => ⟨fun hzero => runCommand_check (if_pos hzero), fun htotal hne => ?_⟩
  obtain ⟨v, tree, hv, hframe, hlen, hhist, hparented, hweight, hnodes, htree, hleaves⟩ :=
    treeBuildCore_built (s := accept 0x24 s) rfl htotal.2 hne
  have hbody : treeBuildBody (accept 0x24 s) = .done () v := (if_neg hne).trans hv
  refine ⟨complete v, tree, runCommand_done hbody, congrArg complete hframe, hlen, fun k sym hk => ?_, hhist.joins,
    hparented, hweight, hnodes, htree, hleaves, ?_⟩
  · obtain ⟨n, hn, hcore⟩ := hhist.leaves k sym hk
    obtain ⟨hkind, hsym, hw, hleft, hright⟩ := Node.core_eq (m := leafCore _ _) hcore
    exact ⟨n, hn, hkind, hsym, hw, hleft, hright⟩
  · have := tree.depth_lt_leaves
    have hlen : tree.leaves.length = s.present.length := hleaves.length_eq
    omega

end Sys2Proof.Machine
end

section
/-! PROOF. The histogram's commands (42_tree_builder.md R107 to R110). HIST_SCAN counts byte by byte until the source ends,
a read fails or TOTAL is full; each of these ends is reached from the state with the bytes before it counted. -/

namespace Sys2Proof.Machine

theorem totalFull_iff {s : State} : s.totalFull = true ↔ s.total.toNat = 2 ^ 64 - 1 := decide_eq_true_iff

/-! ### The bytes counted so far -/

/-- Counting changes HIST, and TOTAL by the number of bytes. -/
theorem countAll_eq (bs : List Byte) (s : State) : countAll bs s =
    { s with hist := (countAll bs s).hist, total := s.total + BitVec.ofNat 64 bs.length } := by
  obtain ⟨h, n, heq⟩ := countAll_frame bs s
  rw [← total_countAll, heq]

theorem skip_countAll (n : Nat) (bs : List Byte) (s : State) : (countAll bs s).skip n = countAll bs (s.skip n) := by
  induction bs generalizing s with
  | nil => rfl
  | cons b bs ih => exact ih (countSymbol b s)

/-- The state after HIST_SCAN's loop has counted the next `k` bytes of the source. -/
def State.countNext (k : Nat) (s : State) : State := countAll (s.rest.take k) (s.skip k)

theorem histAt_countNext (k : Nat) (s : State) (sym : Byte) :
    (s.countNext k).histAt sym = s.histAt sym + BitVec.ofNat 64 ((s.rest.take k).count sym) :=
  histAt_countAll _ sym (s.skip k)

/-- One more byte read and counted. -/
theorem countNext_succ {k : Nat} {s : State} {b : Byte} (hb : s.rest[k]? = some b) :
    countSymbol b ((s.countNext k).skip 1) = s.countNext (k + 1) := by
  rw [State.countNext, State.countNext, skip_countAll, skip_skip, List.take_add_one, hb, countAll, countAll,
    List.foldl_append]
  rfl

section
variable {k : Nat} {s : State} (hk : k ≤ s.rest.length)
include hk

theorem countNext_eq : s.countNext k =
    { s with
      hist := (s.countNext k).hist, total := s.total + BitVec.ofNat 64 k, srcPos := s.srcPos + k
      draws := s.draws.drop k } := by
  have h := countAll_eq (s.rest.take k) (s.skip k)
  rwa [List.length_take_of_le hk] at h

theorem countNext_total : (s.countNext k).total = s.total + BitVec.ofNat 64 k := by rw [countNext_eq hk]

theorem countNext_draws : (s.countNext k).draws = s.draws.drop k := by rw [countNext_eq hk]

theorem countNext_srcAttached : (s.countNext k).srcAttached = s.srcAttached := by rw [countNext_eq hk]

theorem countNext_rest : (s.countNext k).rest = s.rest.drop k :=
  calc (s.countNext k).rest = (s.skip k).rest := by rw [countNext_eq hk]; rfl
    _ = s.rest.drop k := skip_rest k s

theorem countNext_totalFull (htot : s.total.toNat + k ≤ 2 ^ 64 - 1) :
    (s.countNext k).totalFull = true ↔ s.total.toNat + k = 2 ^ 64 - 1 := by
  rw [totalFull_iff, countNext_total hk, BitVec.toNat_add, BitVec.toNat_ofNat]
  omega

end

/-! ### The host's draws (20_memory.md R56) -/

/-- The host delivers the next `k` reads of the source. -/
def Delivers (k : Nat) (s : State) : Prop := ∀ i < k, (s.skip i).nextDraw = true

theorem Willing.delivers {s : State} (h : Willing s) (k : Nat) : Delivers k s := fun i _ => (h.skip i).nextDraw

theorem delivers_of_draws {k : Nat} {s : State} {d : List Bool} (h : s.draws = List.replicate k true ++ d) :
    Delivers k s := fun i hi => by
  have hlast : k - i = k - i - 1 + 1 := by omega
  have hdrop : s.draws.drop i = List.replicate (k - i - 1 + 1) true ++ d := by
    rw [h, List.drop_append_of_le_length (by simpa using hi.le), List.drop_replicate, ← hlast]
  exact congrArg (List.headD · true) hdrop

/-- SrcRead of a byte the host delivers, after `k` bytes have been counted. -/
theorem srcRead_countNext {k : Nat} {s : State} (ha : s.srcAttached = true) (hk : k < s.rest.length)
    (hd : (s.skip k).nextDraw = true) : srcRead (s.countNext k) = (.byte s.rest[k], (s.countNext k).skip 1) := by
  have hattached := (countNext_srcAttached hk.le).trans ha
  have hbyte : (s.countNext k).src[(s.countNext k).srcPos]? = some s.rest[k] := by
    rw [src_getElem?_srcPos, countNext_rest hk.le, List.head?_drop, List.getElem?_eq_getElem hk]
  have hdraw : (s.countNext k).nextDraw = true := by rwa [State.nextDraw, countNext_draws hk.le]
  simp [srcRead, hattached, hbyte, hdraw, State.skip]

/-! ### HIST_SCAN's loop (R109) -/

/-- The loop counts bytes as long as the host delivers them and TOTAL has room. -/
theorem histScanLoop_countNext {k : Nat} {s : State} (fuel : Nat) (ha : s.srcAttached = true) (hd : Delivers k s)
    (hk : k ≤ s.rest.length) (htot : s.total.toNat + k ≤ 2 ^ 64 - 1) :
    histScanLoop (fuel + k) 0 s = histScanLoop fuel k (s.countNext k) := by
  induction k generalizing fuel with
  | zero => rfl
  | succ k ih =>
    have hread := srcRead_countNext ha hk (hd k k.lt_succ_self)
    have hroom : ¬ ((s.countNext k).skip 1).totalFull = true :=
      mt (countNext_totalFull (by omega) (by omega)).mp (by omega)
    calc histScanLoop (fuel + (k + 1)) 0 s
        = histScanLoop (fuel + 1) k (s.countNext k) := by
          rw [← ih (fuel + 1) (fun i hi => hd i (hi.trans k.lt_succ_self)) (by omega) (by omega), Nat.add_right_comm,
            Nat.add_assoc]
      _ = histScanLoop fuel (k + 1) (countSymbol s.rest[k] ((s.countNext k).skip 1)) := by
          simp only [histScanLoop, hread, if_neg hroom]
      _ = histScanLoop fuel (k + 1) (s.countNext (k + 1)) := by
          rw [countNext_succ (List.getElem?_eq_getElem hk)]

/-- The pass whose read fails. -/
theorem histScanLoop_refused {d : List Bool} {s : State} (h : SourceRefuses s d) (fuel k : Nat) :
    histScanLoop (fuel + 1) k s = .raised .ioError { s with draws := d } := by
  rw [histScanLoop, srcRead_refused h]

/-- The pass that finds TOTAL full: its byte is consumed and not counted (60_exceptions.md R165). -/
theorem histScanLoop_full {b : Byte} {s t : State} (hread : srcRead s = (.byte b, t)) (hfull : t.totalFull = true)
    (fuel k : Nat) : histScanLoop (fuel + 1) k s = .raised .capacity t := by
  simp only [histScanLoop, hread, if_pos hfull]

/-! ### HIST_SCAN's body, at each of its ends -/

theorem histScanBody_counts_rest {s : State} (ha : s.srcAttached = true) (hw : Willing s)
    (htot : s.total.toNat + s.rest.length ≤ 2 ^ 64 - 1) :
    histScanBody s = .done () (setRes (BitVec.ofNat 64 s.rest.length) (s.countNext s.rest.length)) := by
  rw [histScanBody_done ha hw htot, State.countNext, List.take_length]

theorem histAt_countNext_rest (s : State) (sym : Byte) :
    (s.countNext s.rest.length).histAt sym = s.histAt sym + BitVec.ofNat 64 (s.rest.count sym) := by
  rw [histAt_countNext, List.take_length]

section
variable {k : Nat} {s : State} (ha : s.srcAttached = true) (hk : k < s.rest.length)
  (htot : s.total.toNat + k ≤ 2 ^ 64 - 1)
include ha hk htot

/-- A pass that raises after `k` bytes ends the body. -/
theorem histScanBody_raised {t : State} {e : Err} (hd : Delivers k s)
    (h : ∀ fuel, histScanLoop (fuel + 1) k (s.countNext k) = .raised e t) : histScanBody s = .raised e t := by
  have hfuel : s.readsLeft = s.rest.length - k + 1 + k := by rw [State.readsLeft, ← rest_length]; omega
  rw [histScanBody, hfuel, histScanLoop_countNext _ ha hd hk.le htot, h, andThen_raised]

/-- The host fails the read after `k` bytes. -/
theorem histScanBody_refused_after {d : List Bool} (hd : s.draws = List.replicate k true ++ false :: d) :
    histScanBody s = .raised .ioError { s.countNext k with draws := d } := by
  have hrefuses : SourceRefuses (s.countNext k) d := by
    refine .inr ⟨(countNext_srcAttached hk.le).trans ha, ?_, ?_⟩
    · rw [countNext_rest hk.le]
      exact List.drop_eq_nil_iff.not.mpr hk.not_ge
    · rw [countNext_draws hk.le, hd]
      exact List.drop_left' List.length_replicate
  exact histScanBody_raised ha hk htot (delivers_of_draws hd) fun fuel => histScanLoop_refused hrefuses fuel k

end

/-- TOTAL is full after `k` bytes, and one more is read. -/
theorem histScanBody_full {k : Nat} {s : State} (ha : s.srcAttached = true) (hk : k < s.rest.length) (hw : Willing s)
    (htot : s.total.toNat + k = 2 ^ 64 - 1) : histScanBody s = .raised .capacity ((s.countNext k).skip 1) := by
  have hread := srcRead_countNext ha hk (hw.skip k).nextDraw
  have hfull : ((s.countNext k).skip 1).totalFull = true := (countNext_totalFull hk.le htot.le).mpr htot
  exact histScanBody_raised ha hk htot.le (hw.delivers k) fun fuel => histScanLoop_full hread hfull fuel k

/-! ### The obligations -/

/-- Settles O29: HIST_ADD by whether TOTAL is full. -/
theorem histogramCommands : Obligations.HistogramCommands := by
  refine ⟨rfl, fun sym => rfl, fun sym => rfl, fun s sym => ⟨?_, ?_, fun hfull => ?_, fun hroom => ?_⟩⟩
  · exact runCommand_done (op := 0x20) (body := fun s => .done () (histReset s)) rfl
  · exact runCommand_done (op := 0x23) (body := fun s => .done () (setRes (s.histAt sym) s)) rfl
  · exact runCommand_check (if_pos (totalFull_iff.mpr hfull))
  · have hbody : histAddBody sym (accept 0x21 s) = .done () _ := if_neg (mt totalFull_iff.mp hroom.ne)
    refine ⟨_, runCommand_done hbody, rfl, fun x => (histAt_countSymbol sym x (accept 0x21 s)).trans ?_⟩
    simp only [eq_comm (a := sym)]
    rfl

/-- Settles O30: the loop ends at the end of the source, at a read that fails, or at a byte for which TOTAL is full. -/
theorem histScan : Obligations.HistScan := by
  refine ⟨fun s ha hw hpos htot => ?_, fun s => ⟨fun ha => ?_, fun k more ha hd hk htot => ?_,
    fun k ha hw hk htot => ?_⟩⟩
  · have hend : s.srcPos + s.rest.length = s.src.length := by rw [rest_length]; omega
    refine ⟨_, runCommand_done (histScanBody_counts_rest (s := accept 0x22 s) ha hw htot), ?_,
      histAt_countNext_rest (accept 0x22 s)⟩
    rw [← hend]
    exact congrArg (fun t => complete (setRes _ t)) (countNext_eq (s := accept 0x22 s) le_rfl)
  · exact runCommand_check (histScanBody_refused (s := accept 0x22 s) (.inl ⟨ha, rfl⟩))
  · refine ⟨_, runCommand_raised (histScanBody_refused_after (s := accept 0x22 s) ha hk htot hd), ?_,
      histAt_countNext k (accept 0x22 s)⟩
    exact congrArg (fun t => raise .ioError { t with draws := more }) (countNext_eq (s := accept 0x22 s) hk.le)
  · refine ⟨_, runCommand_raised (histScanBody_full (s := accept 0x22 s) ha hk hw htot), ?_,
      histAt_countNext k (accept 0x22 s)⟩
    rw [← List.drop_drop]
    exact congrArg (fun t => raise .capacity (t.skip 1)) (countNext_eq (s := accept 0x22 s) hk.le)

end Sys2Proof.Machine
end

section
/-! PROOF. The code-table commands (43_code_table.md R117 to R123). Walk either records every path or stops at a symbol that
has a code already; no path of a tree begins another; a window is read bit by bit. -/

namespace Sys2Proof.Machine

/-! ### Paths and codes of a tree -/

/-- A table that holds every path, and nothing at the symbols without a leaf, is the tree's. -/
theorem CodeTree.codeAt_eq_codeOf {tree : CodeTree} {s : State} (hpaths : ∀ p ∈ tree.paths, s.codeAt p.1 = some p.2)
    (hnone : ∀ sym, sym ∉ tree.leaves → s.codeAt sym = none) (sym : Byte) : s.codeAt sym = tree.codeOf sym := by
  cases h : tree.paths.find? fun p => p.1 == sym with
  | none =>
    have habsent : sym ∉ tree.leaves := fun hsym => by
      obtain ⟨c, hc⟩ := tree.exists_path_of_mem_leaves hsym
      simpa using List.find?_eq_none.mp h _ hc
    rw [hnone sym habsent, CodeTree.codeOf, h, Option.map_none]
  | some p =>
    have hsym : p.1 = sym := by simpa using List.find?_some h
    rw [CodeTree.codeOf, h, Option.map_some, ← hsym, hpaths p (List.mem_of_find?_eq_some h)]

/-- A code is a path. -/
theorem CodeTree.mem_paths_of_codeOf {tree : CodeTree} {sym : Byte} {c : Code} (h : tree.codeOf sym = some c) :
    (sym, c) ∈ tree.paths := by
  obtain ⟨p, hp, rfl⟩ := Option.map_eq_some_iff.mp h
  have hsym : p.1 = sym := by simpa using List.find?_some hp
  exact hsym ▸ List.mem_of_find?_eq_some hp

/-- Two paths diverge at an inner node, so neither begins the other (R121). -/
theorem CodeTree.paths_prefixFree {tree : CodeTree} {p q : Byte × Code} (hp : p ∈ tree.paths) (hq : q ∈ tree.paths)
    (h : p.2 <+: q.2) : p = q := by
  induction tree generalizing p q with
  | leaf sym => exact (List.mem_singleton.mp hp).trans (List.mem_singleton.mp hq).symm
  | node l r ihl ihr =>
    simp only [CodeTree.paths, List.mem_append, List.mem_map] at hp hq
    rcases hp with ⟨p, hp, rfl⟩ | ⟨p, hp, rfl⟩ <;> rcases hq with ⟨q, hq, rfl⟩ | ⟨q, hq, rfl⟩ <;>
      rw [List.cons_prefix_cons] at h
    · rw [ihl hp hq h.2]
    · exact absurd h.1 (by decide)
    · exact absurd h.1 (by decide)
    · rw [ihr hp hq h.2]

/-! ### CODE_GEN -/

/-- Walk stops at a leaf whose symbol has a code already, from before or from another leaf. -/
theorem genWalk_raised {tree : CodeTree} {path : Code} {nleaf maxlen : Nat} {s : State}
    (h : ¬(tree.leaves.Nodup ∧ ∀ sym ∈ tree.leaves, s.codeAt sym = none)) :
    ∃ t, genWalk tree path nleaf maxlen s = .raised .badOperand t ∧ t = { s with codes := t.codes } := by
  induction tree generalizing path nleaf maxlen s with
  | leaf sym =>
    have hcoded : (s.codeAt sym).isSome = true := by
      simpa [CodeTree.leaves, Option.isSome_iff_ne_none] using h
    exact ⟨s, if_pos hcoded, rfl⟩
  | node l r ihl ihr =>
    by_cases hl : l.leaves.Nodup ∧ ∀ sym ∈ l.leaves, s.codeAt sym = none
    · obtain ⟨t, ht, htf, htpaths, htnone⟩ := genWalk_done (path := path ++ [false]) (nleaf := nleaf) (maxlen := maxlen)
        hl.1 hl.2
      have hr : ¬(r.leaves.Nodup ∧ ∀ sym ∈ r.leaves, t.codeAt sym = none) := fun ⟨hnd, hfree⟩ => h <| by
        have hdisj : ∀ sym ∈ r.leaves, sym ∉ l.leaves := fun sym hsr hsl => by
          obtain ⟨c, hc⟩ := l.exists_path_of_mem_leaves hsl
          exact Option.some_ne_none _ ((htpaths _ hc).symm.trans (hfree sym hsr))
        refine ⟨List.nodup_append'.mpr ⟨hl.1, hnd, fun sym hsl hsr => hdisj sym hsr hsl⟩, fun sym hsym => ?_⟩
        rcases List.mem_append.mp hsym with hsl | hsr
        · exact hl.2 sym hsl
        · exact (htnone sym (hdisj sym hsr)).symm.trans (hfree sym hsr)
      obtain ⟨u, hu, huf⟩ := ihr (path := path ++ [true]) (nleaf := nleaf + l.leaves.length)
        (maxlen := max maxlen ((path ++ [false]).length + l.depth)) hr
      exact ⟨u, by rw [genWalk, ht, andThen_done, hu], by rw [huf, htf]⟩
    · obtain ⟨t, ht, htf⟩ := ihl (path := path ++ [false]) (nleaf := nleaf) (maxlen := maxlen) hl
      exact ⟨t, by rw [genWalk, ht, andThen_raised], htf⟩

/-- CODE_GEN's first lines: no valid table, and every entry absent. -/
def clearCodes (s : State) : State := { s with codesValid := false, codes := Vector.replicate 256 none }

@[simp] theorem clearCodes_codeAt (s : State) (sym : Byte) : (clearCodes s).codeAt sym = none := Vector.getElem_replicate _

/-- CODE_GEN after its check walks the tree at ROOT. -/
theorem codeGenCore_eq {tree : CodeTree} {s : State} (ht : s.treeAt s.root = some tree) :
    codeGenCore s = (genWalk tree [] 0 0 (clearCodes s)).andThen fun k t =>
      .done () (setAux 0 8 k.2 (setRes (BitVec.ofNat 64 k.1) { t with codesValid := true })) := by
  rw [codeGenCore, ht]
  rfl

theorem codeGenCore_treeBroken {s : State} (h : s.treeAt s.root = none) : codeGenCore s = .fault .treeBroken := by
  rw [codeGenCore, h]

/-- CODE_GEN after its check, on a tree of distinct symbols: the table is the tree's. -/
theorem codeGenCore_table {tree : CodeTree} {s : State} (ht : s.treeAt s.root = some tree) (hnd : tree.leaves.Nodup) :
    ∃ t, codeGenCore s = .done () t ∧
      t = { s with
        codesValid := true, codes := t.codes, res := BitVec.ofNat 64 tree.leaves.length
        resAux := putField s.resAux 0 8 tree.depth } ∧
      ∀ sym, t.codeAt sym = tree.codeOf sym := by
  obtain ⟨t, hdone, hframe, _⟩ := codeGenCore_done ht hnd
  obtain ⟨u, hu, _, hpaths, hnone⟩ := genWalk_done (path := []) (nleaf := 0) (maxlen := 0) (s := clearCodes s) hnd
    fun sym _ => clearCodes_codeAt s sym
  refine ⟨t, hdone, hframe, ?_⟩
  rw [codeGenCore_eq ht, hu, andThen_done] at hdone
  cases hdone
  exact CodeTree.codeAt_eq_codeOf (s := u) hpaths fun sym hsym => (hnone sym hsym).trans (clearCodes_codeAt s sym)

/-- CODE_GEN after its check, on a tree with a symbol at two leaves. -/
theorem codeGenCore_raised {tree : CodeTree} {s : State} (ht : s.treeAt s.root = some tree) (hnd : ¬tree.leaves.Nodup) :
    ∃ t, codeGenCore s = .raised .badOperand t ∧ t = { s with codesValid := false, codes := t.codes } := by
  obtain ⟨t, hraised, hframe⟩ := genWalk_raised (path := []) (nleaf := 0) (maxlen := 0) (s := clearCodes s)
    (mt And.left hnd)
  exact ⟨t, by rw [codeGenCore_eq ht, hraised, andThen_raised], hframe⟩

/-- Settles O32: by whether there is a tree and its symbols are distinct. -/
theorem codeGenRecordsPaths : Obligations.CodeGenRecordsPaths := by
  refine fun s => ⟨fun hinvalid => runCommand_check (if_pos hinvalid), fun tree hvalid htree => ?_⟩
  have hbody : codeGenBody (accept 0x28 s) = codeGenCore (accept 0x28 s) := if_neg (ne_false_of_eq_true hvalid)
  refine ⟨fun hnd => ?_, fun hdup => ?_⟩
  · obtain ⟨t, ht, hframe, hcodes⟩ := codeGenCore_table (s := accept 0x28 s) htree hnd
    have haux : putField 0 0 8 tree.depth = BitVec.ofNat 32 (tree.depth % 256) := putField_zero 8 tree.depth
    rw [← haux]
    exact ⟨complete t, runCommand_done (hbody.trans ht), congrArg complete hframe, hcodes⟩
  · obtain ⟨t, ht, hframe⟩ := codeGenCore_raised (s := accept 0x28 s) htree hdup
    exact ⟨raise .badOperand t, runCommand_raised (hbody.trans ht), congrArg (raise .badOperand) hframe⟩

/-- A CODE_GEN that set CODES_VALID found a tree, and left the tree's table. -/
theorem codeGen_table_of_codesValid {s t : State} (h : exec .codeGen s = .next t) (hcodes : t.codesValid = true)
    (htree : s.treeValid = true) : ∃ tree : CodeTree, ∀ sym, t.codeAt sym = tree.codeOf sym := by
  cases hroot : s.treeAt s.root with
  | none =>
    have hbody : codeGenBody (accept 0x28 s) = .fault .treeBroken :=
      (if_neg (ne_false_of_eq_true htree)).trans (codeGenCore_treeBroken hroot)
    cases h.symm.trans (congrArg finish hbody)
  | some tree =>
    obtain ⟨hdistinct, hdup⟩ := (codeGenRecordsPaths s).2 tree htree hroot
    by_cases hnd : tree.leaves.Nodup
    · obtain ⟨u, hu, _, htable⟩ := hdistinct hnd
      cases h.symm.trans hu
      exact ⟨tree, htable⟩
    · obtain ⟨u, hu, hframe⟩ := hdup hnd
      cases h.symm.trans hu
      rw [hframe] at hcodes
      cases hcodes

/-- Settles O33: the codes are paths of one tree. -/
theorem codesArePrefixFree : Obligations.CodesArePrefixFree := by
  intro s t h hcodes htree x y c d hx hy hprefix
  obtain ⟨tree, htable⟩ := codeGen_table_of_codesValid h hcodes htree
  have hc : (x, c) ∈ tree.paths := CodeTree.mem_paths_of_codeOf ((htable x).symm.trans hx)
  have hd : (y, d) ∈ tree.paths := CodeTree.mem_paths_of_codeOf ((htable y).symm.trans hy)
  exact congrArg Prod.fst (CodeTree.paths_prefixFree hc hd hprefix)

/-! ### CODE_LOOKUP -/

theorem getLsbD_foldl_or {w : Nat} (f : Nat → BitVec w) (js : List Nat) (v : BitVec w) (i : Nat) :
    (js.foldl (fun v j => v ||| f j) v).getLsbD i = (v.getLsbD i || js.any fun j => (f j).getLsbD i) := by
  induction js generalizing v with
  | nil => simp
  | cons j js ih => rw [List.foldl_cons, ih, BitVec.getLsbD_or, List.any_cons, Bool.or_assoc]

/-- A bit put at its place in a 64-bit register. -/
theorem getLsbD_ite_shiftLeft (b : Bool) {n : Nat} (i : Nat) (hn : n < 64) :
    (if b then 1#64 <<< n else 0#64).getLsbD i = (decide (i = n) && b) := by
  cases b with
  | false => simp
  | true =>
    rw [if_pos rfl, ← BitVec.twoPow_eq, BitVec.getLsbD_twoPow, decide_eq_true hn, Bool.true_and, Bool.and_true]
    exact decide_eq_decide.mpr eq_comm

/-- Bit by bit, a window is 32 bits of the code, the first in bit 31 (R123). -/
theorem getLsbD_codeWindow (c : Code) (k i : Nat) :
    (codeWindow c k).getLsbD i = (decide (i < 32) && c.getD (32 * k + (31 - i)) false) := by
  have hbit (j : Nat) := getLsbD_ite_shiftLeft (c.getD (32 * k + j) false) i (by omega : 31 - j < 64)
  simp only [codeWindow, getLsbD_foldl_or, hbit]
  rw [Bool.eq_iff_iff]
  simp only [BitVec.ofNat_eq_ofNat, BitVec.getLsbD_zero, Bool.false_or, List.any_eq_true, List.mem_range,
    Bool.and_eq_true, decide_eq_true_eq]
  constructor
  · rintro ⟨j, hj, rfl, hcode⟩
    exact ⟨by omega, by rwa [show 31 - (31 - j) = j by omega]⟩
  · rintro ⟨hi, hcode⟩
    exact ⟨31 - i, by omega, by omega, hcode⟩

theorem argWindow_eq (arg : Count) : argWindow arg = arg.toNat % 8 := by
  rw [argWindow, BitVec.extractLsb'_toNat, Nat.shiftRight_zero]

theorem codeWindow_high (c : Code) (k : Nat) : (codeWindow c k).extractLsb' 32 32 = 0 := by
  apply BitVec.eq_of_getLsbD_eq
  intro i hi
  rw [BitVec.getLsbD_extractLsb', getLsbD_codeWindow, decide_eq_false (by omega : ¬32 + i < 32), Bool.false_and,
    Bool.and_false]
  exact BitVec.getLsbD_zero.symm

/-- RES_AUX of CODE_LOOKUP: the length in bits 7 to 0, and bit 8 set. -/
theorem putField_codeLength (n : Nat) : putField (putField 0 0 8 n) 8 1 1 = BitVec.ofNat 32 (0x100 + n % 256) := by
  have hlow : (BitVec.ofNat 32 (n % 2 ^ 8)).toNat = n % 2 ^ 8 := by rw [BitVec.toNat_ofNat]; omega
  have hlt : (BitVec.ofNat 32 (n % 2 ^ 8)).toNat < 2 ^ 8 := by omega
  rw [putField_zero, putField_above 1 1 hlt]
  apply BitVec.eq_of_toNat_eq
  rw [toNat_or_shiftLeft hlt (by decide), hlow, BitVec.toNat_ofNat, BitVec.toNat_ofNat]
  omega

theorem codeLookupBody_absent {sym : Byte} {s : State} (hvalid : s.codesValid = true) (h : s.codeAt sym = none) :
    codeLookupBody sym s = .raised .absentSymbol s := by
  rw [codeLookupBody, if_neg (ne_false_of_eq_true hvalid), h]

theorem codeLookupBody_present {sym : Byte} {s : State} {c : Code} (hvalid : s.codesValid = true)
    (h : s.codeAt sym = some c) : codeLookupBody sym s =
      .done () (setAux 8 1 1 (setAux 0 8 c.length (setRes (codeWindow c (argWindow s.arg)) s))) := by
  rw [codeLookupBody, if_neg (ne_false_of_eq_true hvalid), h]

/-- Settles O34: check by check, then the window bit by bit. -/
theorem codeLookupWindow : Obligations.CodeLookupWindow := by
  refine ⟨fun sym => rfl, fun s sym => ⟨fun hinvalid => runCommand_check (if_pos hinvalid),
    fun hvalid habsent => runCommand_check (codeLookupBody_absent (s := accept 0x29 s) hvalid habsent),
    fun c hvalid hcode => ⟨codeWindow c (argWindow s.arg), ?_, codeWindow_high c _, fun j hj => ?_⟩⟩⟩
  · rw [← putField_codeLength]
    exact runCommand_done (codeLookupBody_present (s := accept 0x29 s) hvalid hcode)
  · rw [getLsbD_codeWindow, argWindow_eq, decide_eq_true (by omega : 31 - j < 32), Bool.true_and,
      show 31 - (31 - j) = j by omega]

end Sys2Proof.Machine
end

section
/-! PROOF. A run of bytes the source gives one read after another (20_memory.md R56), whatever the host draws after
them, and where such a run ends. -/

namespace Sys2Proof.Machine

/-- The next reads of the source return the bytes `bs`. -/
def Gives (bs : List Byte) (s : State) : Prop := s.srcAttached = true ∧ bs <+: s.rest ∧ Delivers bs.length s

section
variable {s : State} {b : Byte} {bs cs rest : List Byte} {d : List Bool}

theorem Gives.of_willing (ha : s.srcAttached = true) (hw : Willing s) (h : bs <+: s.rest) : Gives bs s :=
  ⟨ha, h, hw.delivers _⟩

theorem Gives.of_rest {more : List Byte} (ha : s.srcAttached = true) (hw : Willing s) (hr : s.rest = bs ++ b :: more) :
    Gives (bs ++ [b]) s :=
  .of_willing ha hw ⟨more, by rw [hr, List.append_assoc]; rfl⟩

theorem Gives.of_draws (ha : s.srcAttached = true) (h : bs <+: s.rest)
    (hd : s.draws = List.replicate bs.length true ++ d) : Gives bs s :=
  ⟨ha, h, delivers_of_draws hd⟩

theorem Gives.left (h : Gives (bs ++ cs) s) : Gives bs s := by
  obtain ⟨ha, hr, hd⟩ := h
  refine ⟨ha, (List.prefix_append bs cs).trans hr, fun i hi => hd i ?_⟩
  rw [List.length_append]
  omega

theorem Gives.skip (h : Gives (bs ++ cs) s) : Gives cs (s.skip bs.length) := by
  obtain ⟨ha, ⟨more, hr⟩, hd⟩ := h
  refine ⟨ha, ⟨more, ?_⟩, fun i hi => ?_⟩
  · rw [skip_rest, ← hr, List.append_assoc, List.drop_left]
  · rw [skip_skip]
    exact hd _ (by rw [List.length_append]; omega)

theorem Gives.getByte (h : Gives (b :: bs) s) : getByte s = .done b (s.skip 1) := by
  obtain ⟨ha, ⟨more, hr⟩, hd⟩ := h
  have hb : s.src[s.srcPos]? = some b := by rw [src_getElem?_srcPos, ← hr]; rfl
  have hdraw : s.nextDraw = true := hd 0 (Nat.succ_pos _)
  simp [Machine.getByte, srcRead, ha, hb, hdraw, State.skip]

theorem Gives.getByte_after (h : Gives (bs ++ [b]) s) :
    Machine.getByte (s.skip bs.length) = .done b (s.skip (bs.length + 1)) := by
  rw [h.skip.getByte, skip_skip]

/-- A loop over the bytes has passes enough (70_reset_and_hazards.md R200). -/
theorem Gives.length_lt_readsLeft (h : Gives bs s) : bs.length < s.readsLeft := by
  obtain ⟨-, hr, -⟩ := h
  have hle := hr.length_le
  rw [rest_length] at hle
  unfold State.readsLeft
  omega

theorem getByte_end (ha : s.srcAttached = true) (hr : s.rest = []) : getByte s = .raised .formatError s :=
  getByte_eof ha (by rw [src_getElem?_srcPos, hr]; rfl)

/-- The read after `bs` is the one the host fails. -/
theorem sourceRefuses_skip (ha : s.srcAttached = true) (hr : s.rest = bs ++ rest) (hne : rest ≠ [])
    (hd : s.draws = List.replicate bs.length true ++ false :: d) : SourceRefuses (s.skip bs.length) d := by
  refine .inr ⟨ha, ?_, ?_⟩
  · rwa [skip_rest, hr, List.drop_left]
  · exact (congrArg _ hd).trans (List.drop_left' List.length_replicate)

end

end Sys2Proof.Machine
end

section
/-! PROOF. Dec, HDR_READ and SEP_READ (44_container.md R124, R128, R132). HDR_READ's loop takes in the digits and then
ends, or raises, in one more pass. -/

namespace Sys2Proof.Machine

/-! ### Dec (R124) -/

/-- Only 0 begins with the digit 0. -/
theorem eq_zero_of_decDigits_head {fuel v : Nat} (h : v < 10 ^ fuel) (hz : (decDigits fuel v).head? = some 0x30) :
    v = 0 := by
  induction fuel generalizing v with
  | zero => rwa [pow_zero, Nat.lt_one_iff] at h
  | succ fuel ih =>
    unfold decDigits at hz
    split at hz
    · next hv =>
      have := congrArg BitVec.toNat (Option.some.inj hz)
      rw [toNat_digit hv] at this
      exact Nat.add_left_cancel this
    · next hv =>
      have hq : v / 10 < 10 ^ fuel := by rw [pow_succ] at h; omega
      have hne : decDigits fuel (v / 10) ≠ [] := fun hnil => by
        have := digitsValue_decDigits hq
        rw [hnil] at this
        change 0 = v / 10 at this
        omega
      rw [List.head?_append_of_ne_nil _ hne] at hz
      have := ih hq hz
      omega

theorem dec_eq_of_head_zero {v : Count} (h : (dec v).head? = some 0x30) : dec v = [0x30] := by
  have hv : v.toNat = 0 := eq_zero_of_decDigits_head (by have := v.isLt; omega) h
  rw [dec, hv]
  rfl

/-! ### One pass of HDR_READ's loop (R128) -/

section
variable {b : Byte} {fuel nd : Nat} {v : Count} {s t : State}

theorem hdrLoop_read_raised {e : Err} (h : getByte s = .raised e t) : hdrLoop (fuel + 1) v nd s = .raised e t := by
  rw [hdrLoop, h, andThen_raised]

theorem hdrLoop_digit_of_some {v' : Count} (h : getByte s = .done b t) (hb : isDigit b = true)
    (hv : headerDigit v (b.toNat - 0x30) = some v') : hdrLoop (fuel + 1) v nd s = hdrLoop fuel v' (nd + 1) t := by
  obtain ⟨d, hdec, hd⟩ := decodeHeader_digit hb
  simp only [hdrLoop, h, andThen_done, hdec, hd, hv]

theorem hdrLoop_digit_of_none (h : getByte s = .done b t) (hb : isDigit b = true)
    (hv : headerDigit v (b.toNat - 0x30) = none) : hdrLoop (fuel + 1) v nd s = .raised .capacity t := by
  obtain ⟨d, hdec, hd⟩ := decodeHeader_digit hb
  simp only [hdrLoop, h, andThen_done, hdec, hd, hv]

theorem decodeHeader_bad (hb : isDigit b = false) (hne : b ≠ 0x2C) : decodeHeader b = .error .badHeaderByte := by
  rw [decodeHeader, if_neg hne, if_neg (of_decide_eq_false hb)]

theorem hdrLoop_bad (h : getByte s = .done b t) (hb : isDigit b = false) (hne : b ≠ 0x2C) :
    hdrLoop (fuel + 1) v nd s = .raised .formatError t := by
  simp only [hdrLoop, h, andThen_done, decodeHeader_bad hb hne]

theorem hdrLoop_comma_first (h : getByte s = .done 0x2C t) : hdrLoop (fuel + 1) v 0 s = .raised .formatError t := by
  simp only [hdrLoop, h, andThen_done, decodeHeader_comma, headerEnd, if_pos]

end

/-! ### HDR_READ (R128, 60_exceptions.md R159, R160, R165) -/

/-- The loop takes in digits, as long as the value stays below 2^64. -/
theorem hdrLoop_digits_taken {ds : List Byte} {fuel nd : Nat} {v : Count} {s : State} (hg : Gives ds s)
    (hd : ∀ b ∈ ds, isDigit b = true) (hv : digitsFrom v.toNat ds < 2 ^ 64) :
    hdrLoop (fuel + ds.length) v nd s =
      hdrLoop fuel (BitVec.ofNat 64 (digitsFrom v.toNat ds)) (nd + ds.length) (s.skip ds.length) := by
  induction ds generalizing v nd s with
  | nil => simp [digitsFrom]
  | cons b ds ih =>
    have hle : 10 * v.toNat + (b.toNat - 0x30) < 2 ^ 64 := (le_digitsFrom _ ds).trans_lt hv
    obtain ⟨v', hv'⟩ : ∃ v' : Count, v'.toNat = 10 * v.toNat + (b.toNat - 0x30) :=
      ⟨BitVec.ofNat 64 _, (BitVec.toNat_ofNat _ 64).trans (Nat.mod_eq_of_lt hle)⟩
    have hval : digitsFrom v'.toNat ds = digitsFrom v.toNat (b :: ds) := congrArg (digitsFrom · ds) hv'
    calc hdrLoop (fuel + ds.length + 1) v nd s
        = hdrLoop (fuel + ds.length) v' (nd + 1) (s.skip 1) :=
          hdrLoop_digit_of_some hg.getByte (hd b List.mem_cons_self) (headerDigit_of_fits hv')
      _ = hdrLoop fuel (BitVec.ofNat 64 (digitsFrom v'.toNat ds)) (nd + 1 + ds.length) ((s.skip 1).skip ds.length) :=
          ih (Gives.skip (bs := [b]) hg) (fun c hc => hd c (List.mem_cons_of_mem b hc)) (hval ▸ hv)
      _ = _ := by rw [hval, skip_skip, List.length_cons, Nat.add_comm 1, Nat.add_assoc, Nat.add_comm 1]

section
variable {ds : List Byte} {e : Err} {s t : State} (hd : ∀ b ∈ ds, isDigit b = true) (hv : digitsValue ds < 2 ^ 64)
include hd hv

/-- A pass that raises after the digits `ds` ends the body. -/
theorem hdrReadBody_raised (hg : Gives ds s)
    (h : ∀ fuel, hdrLoop (fuel + 1) (BitVec.ofNat 64 (digitsValue ds)) ds.length ((dropBits s).skip ds.length) =
      .raised e t) : hdrReadBody s = .raised e t := by
  have hfuel : s.readsLeft = s.readsLeft - ds.length - 1 + 1 + ds.length := by
    have := hg.length_lt_readsLeft
    omega
  rw [hdrReadBody, hfuel, hdrLoop_digits_taken (v := 0) (s := dropBits s) hg hd hv, Nat.zero_add]
  exact h _

/-- The read after the digits fails or finds the source at its end. -/
theorem hdrReadBody_read_raised (hg : Gives ds s) (h : getByte ((dropBits s).skip ds.length) = .raised e t) :
    hdrReadBody s = .raised e t :=
  hdrReadBody_raised hd hv hg fun _ => hdrLoop_read_raised h

/-- The byte after the digits is neither a digit nor a comma that ends the header. -/
theorem hdrReadBody_bad {b : Byte} (hg : Gives (ds ++ [b]) s) (hb : isDigit b = false) (hend : b ≠ 0x2C ∨ ds = []) :
    hdrReadBody s = .raised .formatError ((dropBits s).skip (ds.length + 1)) := by
  have hget := Gives.getByte_after (s := dropBits s) hg
  refine hdrReadBody_raised hd hv hg.left fun fuel => ?_
  by_cases hcomma : b = 0x2C
  · subst hcomma
    obtain rfl := hend.resolve_left (not_not.mpr rfl)
    exact hdrLoop_comma_first hget
  · exact hdrLoop_bad hget hb hcomma

/-- The digit after the digits makes the value too large. -/
theorem hdrReadBody_overflow {b : Byte} (hg : Gives (ds ++ [b]) s) (hb : isDigit b = true)
    (hover : 2 ^ 64 ≤ digitsValue (ds ++ [b])) :
    hdrReadBody s = .raised .capacity ((dropBits s).skip (ds.length + 1)) := by
  rw [digitsValue_append_singleton] at hover
  refine hdrReadBody_raised hd hv hg.left fun fuel =>
    hdrLoop_digit_of_none (Gives.getByte_after (s := dropBits s) hg) hb (headerDigit_of_overflow ?_)
  rwa [BitVec.toNat_ofNat, Nat.mod_eq_of_lt hv]

end

/-! ### The obligations -/

/-- Settles O35: the digits have the value, and only 0 begins with the digit 0. -/
theorem decimalRendering : Obligations.DecimalRendering := fun v =>
  ⟨dec_ne_nil v, dec_isDigit v, digitsValue_dec v, dec_eq_of_head_zero⟩

/-- Settles O39: SEP_READ is one read. -/
theorem sepReadDiscardsOneByte : Obligations.SepReadDiscardsOneByte := by
  refine fun s ha hw => ⟨fun b more hr => ?_, fun hr => ?_⟩
  · rw [← List.drop_one]
    exact runCommand_done (sepReadBody_done (s := accept 0x3A s) ha hw hr)
  · have hbody : sepReadBody (accept 0x3A s) = .raised .formatError (dropBits (accept 0x3A s)) := by
      rw [sepReadBody, getByte_end (s := dropBits (accept 0x3A s)) ha hr, andThen_raised]
    exact runCommand_raised hbody

/-- Settles O37: the digits are taken in, and the next pass meets the comma or raises. -/
theorem hdrRead : Obligations.HdrRead := by
  refine ⟨fun s ds more ha hw hr hne hd hv => ?_, fun s ds more ha hw hd hv => ⟨fun b hr hb hend => ?_,
    fun b hr hb hover => ?_, fun hr => ?_⟩, fun s ds rest more ha hd hv hr hne hdraws => ?_⟩
  · exact runCommand_done (hdrReadBody_done (s := accept 0x38 s) ha hw hr hne hd hv)
  · have hg : Gives (ds ++ [b]) (accept 0x38 s) := .of_rest ha hw hr
    exact runCommand_raised (hdrReadBody_bad hd hv hg hb hend)
  · have hg : Gives (ds ++ [b]) (accept 0x38 s) := .of_rest ha hw hr
    exact runCommand_raised (hdrReadBody_overflow hd hv hg hb hover)
  · have hg : Gives ds (accept 0x38 s) := .of_willing ha hw ⟨[], (List.append_nil ds).trans hr.symm⟩
    have hend : ((dropBits (accept 0x38 s)).skip ds.length).rest = [] := by
      rw [← hr]
      exact (skip_rest ..).trans List.drop_length
    exact runCommand_raised (hdrReadBody_read_raised hd hv hg (getByte_end ha hend))
  · have hg : Gives ds (accept 0x38 s) := .of_draws ha (hr ▸ List.prefix_append ds rest) hdraws
    have hfail : SourceRefuses ((dropBits (accept 0x38 s)).skip ds.length) more :=
      sourceRefuses_skip (s := dropBits (accept 0x38 s)) ha hr hne hdraws
    exact runCommand_raised (hdrReadBody_read_raised hd hv hg (getByte_refused hfail))

end Sys2Proof.Machine
end

section
/-! PROOF. SHAPE_READ on part of a tree's shape bytes (44_container.md R129, 60_exceptions.md R159, R160, R165): a Parse
that raises after some tokens has read those and made one node for each. -/

namespace Sys2Proof.Machine

/-! ### What Parse has done so far -/

/-- `n` bytes of the source have been read and `k` nodes made since `s`. -/
def PartParsed (s : State) (n k : Nat) (t : State) : Prop :=
  ∃ ns : List Node, ns.length = s.nodes.length + k ∧ t = (s.skip n).withNodes ns

section
variable {s t u : State} {n m k l : Nat}

theorem PartParsed.refl (s : State) : PartParsed s 0 0 s := ⟨s.nodes, rfl, rfl⟩

theorem PartParsed.length_nodes (h : PartParsed s n k t) : t.nodes.length = s.nodes.length + k := by
  obtain ⟨ns, hns, rfl⟩ := h
  exact hns

theorem PartParsed.trans (h : PartParsed s n k t) (h' : PartParsed t m l u) : PartParsed s (n + m) (k + l) u := by
  obtain ⟨ns, hns, rfl⟩ := h
  obtain ⟨ns', hns', rfl⟩ := h'
  refine ⟨ns', ?_, by simp⟩
  rw [hns', withNodes_nodes, hns, Nat.add_assoc]

theorem PartParsed.skip (h : PartParsed s n k t) : PartParsed s (n + 1) k (t.skip 1) :=
  h.trans (m := 1) (l := 0) ⟨t.nodes, rfl, rfl⟩

/-- A node made from one byte, and what its subtrees add. -/
theorem PartParsed.cons (h : PartParsed s 1 1 t) (h' : PartParsed t n k u) : PartParsed s (n + 1) (k + 1) u := by
  rw [Nat.add_comm n, Nat.add_comm k]
  exact h.trans h'

theorem PartParsed.attach (h : PartParsed s n k t) (i : NodeIdx) (side : Side) (c : NodeIdx) :
    PartParsed s n k (attach i side c t) := by
  obtain ⟨ns, hns, rfl⟩ := h
  refine ⟨(Machine.attach i side c (((s.skip n).withNodes ns))).nodes, ?_, rfl⟩
  rw [attach_nodes, List.length_modify, List.length_modify]
  exact hns

theorem PartParsed.alloc (h : PartParsed s n k t) (kind : NodeKind) (sym : Byte) :
    PartParsed s n (k + 1) (alloc kind sym 0 nilIdx nilIdx t) := by
  obtain ⟨ns, hns, rfl⟩ := h
  refine ⟨_, ?_, rfl⟩
  rw [List.length_append, withNodes_nodes, hns]
  rfl

theorem Gives.after {bs cs : List Byte} (h : Gives (bs ++ cs) s) (ht : PartParsed s bs.length k t) : Gives cs t := by
  obtain ⟨ns, -, rfl⟩ := ht
  exact h.skip

end

/-! ### One call of Parse -/

section
variable {fuel : Nat} {e : Err} {m : Byte} {s t u : State}

theorem parseShape_read_raised (h : getByte s = .raised e t) : parseShape (fuel + 1) s = .raised e t := by
  rw [parseShape, h, andThen_raised]

theorem parseShape_bad_marker (h : getByte s = .done m t) (h0 : m ≠ 0x30) (h1 : m ≠ 0x31) :
    parseShape (fuel + 1) s = .raised .formatError t := by
  rw [parseShape, h, andThen_done, if_neg h1, if_neg h0]

theorem parseShape_leaf (h : getByte s = .done 0x31 t) (hfull : t.arenaFull = false) :
    parseShape (fuel + 1) s = (getByte t).andThen fun sym u => .done u.nextIdx (shapeLeaf sym u) := by
  rw [parseShape, h, andThen_done, if_pos rfl, if_neg (by simp [hfull])]

theorem parseShape_internal {bs : List Byte} (hg : Gives (0x30 :: bs) s) (hroom : s.nodes.length < 511) :
    ∃ i t, PartParsed s 1 1 t ∧ Gives bs t ∧ ∀ fuel, parseShape (fuel + 1) s =
      (parseShape fuel t).andThen fun l u =>
        (parseShape fuel (attach i .left l u)).andThen fun r v => .done i (attach i .right r v) := by
  have ht : PartParsed s 1 1 (alloc .internal 0 0 nilIdx nilIdx (s.skip 1)) :=
    (PartParsed.refl s).skip.alloc .internal 0
  have hfull : (s.skip 1).arenaFull = false := arenaFull_eq_false hroom
  refine ⟨(s.skip 1).nextIdx, _, ht, Gives.after (bs := [0x30]) hg ht, fun fuel => ?_⟩
  rw [parseShape, hg.getByte, andThen_done, if_neg (by decide), if_pos rfl, shapeInternal, if_neg (by simp [hfull]),
    andThen_done]

theorem parseShape_full (h : getByte s = .done m t) (hm : m = 0x30 ∨ m = 0x31) (hfull : t.arenaFull = true) :
    parseShape (fuel + 1) s = .raised .capacity t := by
  rw [parseShape, h, andThen_done, shapeInternal, if_pos hfull, if_pos hfull, andThen_raised]
  obtain rfl | rfl := hm <;> rfl

end

/-! ### Parse on the first tokens of a tree -/

/-- Parse on a whole tree's shape bytes makes its nodes, whatever the host draws after those bytes. -/
theorem parseShape_whole {tree : CodeTree} {fuel : Nat} {s : State} (hg : Gives tree.shapeBytes s)
    (hsize : s.nodes.length + tree.size ≤ 511) (hf : tree.shapeBytes.length < fuel) :
    ∃ r t, parseShape fuel s = .done r t ∧ PartParsed s tree.shapeBytes.length tree.size t := by
  induction tree generalizing fuel s with
  | leaf sym =>
    obtain ⟨fuel, rfl⟩ := Nat.exists_eq_add_one_of_ne_zero (Nat.ne_zero_of_lt hf)
    have hfull : (s.skip 1).arenaFull = false := arenaFull_eq_false hsize
    have hsym : Gives [sym] (s.skip 1) := Gives.skip (bs := [0x31]) hg
    refine ⟨((s.skip 1).skip 1).nextIdx, _, ?_, (PartParsed.refl s).skip.skip.alloc .leaf sym⟩
    rw [parseShape_leaf hg.getByte hfull, hsym.getByte]
    rfl
  | node l r ihl ihr =>
    obtain ⟨fuel, rfl⟩ := Nat.exists_eq_add_one_of_ne_zero (Nat.ne_zero_of_lt hf)
    simp only [CodeTree.shapeBytes, CodeTree.size, List.length_cons, List.length_append] at hg hsize hf ⊢
    obtain ⟨i, t, ht, hgl, hparse⟩ := parseShape_internal hg (by omega)
    have htlen := ht.length_nodes
    obtain ⟨li, u, hl, hu⟩ := ihl (fuel := fuel) hgl.left (by omega) (by omega)
    replace hu := hu.attach i .left li
    have hulen := hu.length_nodes
    obtain ⟨ri, v, hr, hv⟩ := ihr (fuel := fuel) (hgl.after hu) (by omega) (by omega)
    exact ⟨_, _, by rw [hparse, hl, andThen_done, hr, andThen_done], (ht.cons (hu.trans hv)).attach i .right ri⟩

/-- The bytes of an internal node's first tokens are its own and those of the first tokens of its subtrees. -/
theorem CodeTree.flatten_take_node (l r : CodeTree) (j : Nat) :
    ((CodeTree.node l r).shapeTokens.take (j + 1)).flatten =
      0x30 :: ((l.shapeTokens.take j).flatten ++ (r.shapeTokens.take (j - l.size)).flatten) := by
  simp [CodeTree.shapeTokens, List.take_append]

theorem CodeTree.flatten_take_whole (tree : CodeTree) {j : Nat} (h : tree.size ≤ j) :
    (tree.shapeTokens.take j).flatten = tree.shapeBytes := by
  rw [List.take_of_length_le (by rwa [tree.length_shapeTokens]), tree.flatten_shapeTokens]

/-- Where the call of Parse after `j` whole tokens raises, so does Parse. -/
theorem parseShape_raised {tree : CodeTree} {j fuel : Nat} {e : Err} {f : State → State} {s : State}
    (hj : j < tree.size) (hg : Gives (tree.shapeTokens.take j).flatten s) (hroom : s.nodes.length + j ≤ 511)
    (hf : (tree.shapeTokens.take j).flatten.length < fuel)
    (hstop : ∀ fuel u, PartParsed s (tree.shapeTokens.take j).flatten.length j u →
      parseShape (fuel + 1) u = .raised e (f u)) :
    ∃ u, PartParsed s (tree.shapeTokens.take j).flatten.length j u ∧ parseShape fuel s = .raised e (f u) := by
  induction tree generalizing j fuel s with
  | leaf sym =>
    obtain ⟨fuel, rfl⟩ := Nat.exists_eq_add_one_of_ne_zero (Nat.ne_zero_of_lt hf)
    obtain rfl : j = 0 := by simp only [CodeTree.size] at hj; omega
    exact ⟨s, .refl s, hstop fuel s (.refl s)⟩
  | node l r ihl ihr =>
    obtain ⟨fuel, rfl⟩ := Nat.exists_eq_add_one_of_ne_zero (Nat.ne_zero_of_lt hf)
    cases j with
    | zero => exact ⟨s, .refl s, hstop fuel s (.refl s)⟩
    | succ j =>
      simp only [CodeTree.size] at hj
      simp only [CodeTree.flatten_take_node, List.length_cons, List.length_append] at hg hf hstop ⊢
      obtain ⟨i, t, ht, hgl, hparse⟩ := parseShape_internal hg (by omega)
      have htlen := ht.length_nodes
      by_cases hl : j < l.size
      · have hr : j - l.size = 0 := by omega
        simp only [hr, List.take_zero, List.flatten_nil, List.length_nil, Nat.add_zero] at hf hstop ⊢
        obtain ⟨u, hu, hraised⟩ := ihl (fuel := fuel) hl hgl.left (by omega) (by omega)
          fun fuel u hu => hstop fuel u (ht.cons hu)
        exact ⟨u, ht.cons hu, by rw [hparse, hraised, andThen_raised]⟩
      · rw [l.flatten_take_whole (not_lt.mp hl)] at hgl hf hstop ⊢
        obtain ⟨li, u, hdone, hu⟩ := parseShape_whole (fuel := fuel) hgl.left (by omega) (by omega)
        replace hu := hu.attach i .left li
        have hulen := hu.length_nodes
        have hsplit : l.size + (j - l.size) = j := by omega
        have hall {m : Nat} {v : State} (hv : PartParsed (attach i .left li u) m (j - l.size) v) :
            PartParsed s (l.shapeBytes.length + m + 1) (j + 1) v := by
          have := ht.cons (hu.trans hv)
          rwa [hsplit] at this
        obtain ⟨v, hv, hraised⟩ := ihr (fuel := fuel) (by omega) (hgl.after hu) (by omega) (by omega)
          fun fuel v hv => hstop fuel v (hall hv)
        exact ⟨v, hall hv, by rw [hparse, hdone, andThen_done, hraised, andThen_raised]⟩

/-! ### Bytes cut short -/

theorem CodeTree.shapeToken_cases {tree : CodeTree} {tok : List Byte} (h : tok ∈ tree.shapeTokens) :
    tok = [0x30] ∨ ∃ sym, tok = [0x31, sym] := by
  induction tree with
  | leaf sym => exact .inr ⟨sym, List.mem_singleton.mp h⟩
  | node l r ihl ihr =>
    obtain rfl | h := List.mem_cons.mp h
    · exact .inl rfl
    · exact (List.mem_append.mp h).elim ihl ihr

/-- Fewer bytes than the tokens have are some whole tokens, with at most a leaf's marker behind them. -/
theorem exists_take_of_cut {toks : List (List Byte)} {k : Nat}
    (h : ∀ tok ∈ toks, tok = [0x30] ∨ ∃ sym, tok = [0x31, sym]) (hk : k < toks.flatten.length) :
    ∃ j < toks.length, toks.flatten.take k = (toks.take j).flatten ∨
      toks.flatten.take k = (toks.take j).flatten ++ [0x31] := by
  induction toks generalizing k with
  | nil => simp at hk
  | cons tok toks ih =>
    cases k with
    | zero => exact ⟨0, Nat.succ_pos _, .inl rfl⟩
    | succ k =>
      have later {k : Nat} (hk : k < toks.flatten.length) : ∃ j < (tok :: toks).length,
          tok ++ toks.flatten.take k = ((tok :: toks).take j).flatten ∨
          tok ++ toks.flatten.take k = ((tok :: toks).take j).flatten ++ [0x31] := by
        obtain ⟨j, hj, heq⟩ := ih (fun t ht => h t (List.mem_cons_of_mem tok ht)) hk
        refine ⟨j + 1, Nat.succ_lt_succ hj, ?_⟩
        obtain heq | heq := heq <;> simp [heq]
      obtain rfl | ⟨sym, rfl⟩ := h tok List.mem_cons_self
      · exact later (Nat.lt_of_succ_lt_succ hk)
      · cases k with
        | zero => exact ⟨0, Nat.succ_pos _, .inr rfl⟩
        | succ k => exact later (Nat.lt_of_succ_lt_succ (Nat.lt_of_succ_lt_succ hk))

/-- Where the read after `k` of a tree's shape bytes raises, so does Parse. -/
theorem parseShape_cut {tree : CodeTree} {k fuel : Nat} {e : Err} {f : State → State} {s : State}
    (hk : k < tree.shapeBytes.length) (hg : Gives (tree.shapeBytes.take k) s) (hsize : s.nodes.length + tree.size ≤ 511)
    (hf : k < fuel) (hstop : ∀ j u, PartParsed s k j u → getByte u = .raised e (f u)) :
    ∃ j u, PartParsed s k j u ∧ parseShape fuel s = .raised e (f u) := by
  have hlen : (tree.shapeBytes.take k).length = k := List.length_take_of_le hk.le
  obtain ⟨j, hj, hcut⟩ := exists_take_of_cut (toks := tree.shapeTokens) (fun _ => CodeTree.shapeToken_cases)
    (by rwa [tree.flatten_shapeTokens])
  rw [tree.length_shapeTokens] at hj
  rw [tree.flatten_shapeTokens] at hcut
  obtain hcut | hcut := hcut
  · rw [hcut] at hg hlen
    obtain ⟨u, hu, hraised⟩ := parseShape_raised (e := e) (f := f) hj hg (by omega) (hlen ▸ hf)
      fun fuel u hu => parseShape_read_raised (hstop j u (hlen ▸ hu))
    exact ⟨j, u, hlen ▸ hu, hraised⟩
  · rw [hcut] at hg hlen
    rw [List.length_append, List.length_singleton] at hlen
    obtain ⟨u, hu, hraised⟩ := parseShape_raised (e := e) (f := fun u => f (u.skip 1)) (fuel := fuel) hj hg.left
      (by omega) (by omega) fun fuel u hu => by
        have hfull : (u.skip 1).arenaFull = false := arenaFull_eq_false (by rw [skip_nodes, hu.length_nodes]; omega)
        rw [parseShape_leaf (hg.after hu).getByte hfull, hstop j (u.skip 1) (hlen ▸ hu.skip), andThen_raised]
    exact ⟨j, u.skip 1, hlen ▸ hu.skip, hraised⟩

end Sys2Proof.Machine
end

section
/-! PROOF. SHAPE_READ (44_container.md R129 to R131): the records of the tree it rebuilds, and the errors that end
it. -/

namespace Sys2Proof.Machine

/-! ### The records in preorder -/

/-- Each record of a decoded tree is the first record of a subtree. -/
theorem CodeTree.preorder_split {tree : CodeTree} {base k : Nat} {parented : Bool} (hk : k < tree.size) :
    ∃ (sub : CodeTree) (pre post : List Node), pre.length = k ∧
      tree.preorder base parented = pre ++ sub.preorder (base + k) (parented || decide (k ≠ 0)) ++ post := by
  induction tree generalizing base k parented with
  | leaf sym =>
    obtain rfl : k = 0 := by simp only [CodeTree.size] at hk; omega
    exact ⟨.leaf sym, [], [], rfl, by simp⟩
  | node l r ihl ihr =>
    simp only [CodeTree.size] at hk
    obtain rfl | hpos := Nat.eq_zero_or_pos k
    · exact ⟨.node l r, [], [], rfl, by simp⟩
    rw [CodeTree.preorder_node]
    generalize internalRecord _ _ parented = root
    by_cases hl : k - 1 < l.size
    · obtain ⟨sub, pre, post, hpre, heq⟩ := ihl (base := base + 1) (parented := true) hl
      refine ⟨sub, root :: pre, post ++ r.preorder (base + 1 + l.size) true, by rw [List.length_cons]; omega, ?_⟩
      rw [heq, show base + 1 + (k - 1) = base + k by omega]
      simp [hpos.ne']
    · obtain ⟨sub, pre, post, hpre, heq⟩ := ihr (base := base + 1 + l.size) (k := k - 1 - l.size) (parented := true)
        (by omega)
      refine ⟨sub, root :: (l.preorder (base + 1) true ++ pre), post, by simp [hpre]; omega, ?_⟩
      rw [heq, show base + 1 + l.size + (k - 1 - l.size) = base + k by omega]
      simp [hpos.ne']

/-- Record `k` of a decoded tree: a leaf's, or an internal node's, whose children come where its left subtree begins and
where that ends. -/
theorem CodeTree.preorder_record {tree : CodeTree} {k : Nat} {n : Node} (hsize : tree.size ≤ 511)
    (hn : (tree.preorder 0 false)[k]? = some n) :
    (∃ sym, n = leafRecord sym (decide (k ≠ 0))) ∨
    ∃ l : CodeTree, n = internalRecord (BitVec.ofNat 9 (k + 1)) (BitVec.ofNat 9 (k + 1 + l.size)) (decide (k ≠ 0)) ∧
      k + 1 + l.size < tree.size ∧ HoldsTree (tree.preorder 0 false) l (BitVec.ofNat 9 (k + 1)) := by
  have hk : k < tree.size := by simpa using (List.getElem?_eq_some_iff.mp hn).1
  obtain ⟨sub, pre, post, rfl, heq⟩ := tree.preorder_split (base := 0) (parented := false) hk
  have hlen := congrArg List.length heq
  simp only [List.length_append, CodeTree.length_preorder] at hlen
  have hholds := holdsTree_preorder sub pre post (decide (pre.length ≠ 0)) (by omega)
  rw [Nat.zero_add, Bool.false_or] at heq
  rw [← heq] at hholds
  cases sub with
  | leaf sym =>
    refine .inl ⟨sym, ?_⟩
    rw [heq] at hn
    simpa [CodeTree.preorder_leaf, eq_comm] using hn
  | node l r =>
    obtain ⟨m, hm, -, hl, -⟩ := hholds
    rw [ofNat9_toNat (by omega), hn] at hm
    have hrecord : n = internalRecord (BitVec.ofNat 9 (pre.length + 1)) (BitVec.ofNat 9 (pre.length + 1 + l.size))
        (decide (pre.length ≠ 0)) := by
      rw [heq] at hn
      simpa [CodeTree.preorder_node, eq_comm] using hn
    obtain rfl := Option.some.inj hm
    have hr := r.size_pos
    simp only [CodeTree.size] at hlen
    refine .inr ⟨l, hrecord, by omega, ?_⟩
    rwa [hrecord] at hl

/-! ### SHAPE_READ at each of its errors (60_exceptions.md R159, R160, R165) -/

/-- SHAPE_READ's state after `n` bytes, with the draws `d` left and the arena `ns` made: there is no tree. -/
def State.shapePart (n : Nat) (d : List Bool) (ns : List Node) (s : State) : State :=
  { arenaClear (dropBits s) with srcPos := s.srcPos + n, draws := d, nodes := ns }

theorem PartParsed.shapePart {s u : State} {n j : Nat} (h : PartParsed (arenaClear (dropBits s)) n j u) :
    ∃ ns : List Node, ns.length = j ∧ u = s.shapePart n (s.draws.drop n) ns := by
  obtain ⟨ns, hns, rfl⟩ := h
  exact ⟨ns, hns.trans (Nat.zero_add j), rfl⟩

section
variable {tree : CodeTree} {e : Err} {s : State} {n : Nat} {d : List Bool} {ns : List Node}

theorem shapeReadBody_of_parse_raised {t : State}
    (h : parseShape s.readsLeft (arenaClear (dropBits s)) = .raised e t) : shapeReadBody s = .raised e t := by
  rw [shapeReadBody, h, andThen_raised]

/-- The marker after `j` whole tokens, at which Parse raises. -/
theorem shapeReadBody_marker {j : Nat} {m : Byte} (hj : j < tree.size) (hroom : j ≤ 511)
    (hg : Gives ((tree.shapeTokens.take j).flatten ++ [m]) s)
    (hstop : ∀ fuel u, u.nodes.length = j → getByte u = .done m (u.skip 1) →
      parseShape (fuel + 1) u = .raised e (u.skip 1)) :
    ∃ ns, ns.length = j ∧ shapeReadBody s = .raised e (s.shapePart ((tree.shapeTokens.take j).flatten.length + 1)
      (s.draws.drop ((tree.shapeTokens.take j).flatten.length + 1)) ns) := by
  have hg : Gives ((tree.shapeTokens.take j).flatten ++ [m]) (arenaClear (dropBits s)) := hg
  obtain ⟨u, hu, hraised⟩ := parseShape_raised (f := State.skip 1) hj hg.left (by simpa using hroom)
    (Gives.length_lt_readsLeft hg.left) fun fuel u hu =>
      hstop fuel u (by rw [hu.length_nodes]; simp) (hg.after hu).getByte
  obtain ⟨ns, hns, hpart⟩ := hu.skip.shapePart
  exact ⟨ns, hns, shapeReadBody_of_parse_raised (hpart ▸ hraised)⟩

/-- The read after `k` bytes of a tree, at which GetByte raises. -/
theorem shapeReadBody_cut {k : Nat} (hk : k < tree.shapeBytes.length) (hsize : tree.size ≤ 511)
    (hg : Gives (tree.shapeBytes.take k) s)
    (hstop : ∀ ns, getByte (s.shapePart k (s.draws.drop k) ns) = .raised e (s.shapePart k d ns)) :
    ∃ ns, shapeReadBody s = .raised e (s.shapePart k d ns) := by
  have hfuel : k < s.readsLeft := List.length_take_of_le hk.le ▸ hg.length_lt_readsLeft
  obtain ⟨j, u, hu, hraised⟩ := parseShape_cut (f := fun u => { u with draws := d }) (s := arenaClear (dropBits s)) hk
    hg (by simpa using hsize) hfuel fun j u hu => by
      obtain ⟨ns, -, rfl⟩ := hu.shapePart
      exact hstop ns
  obtain ⟨ns, -, rfl⟩ := hu.shapePart
  exact ⟨ns, shapeReadBody_of_parse_raised hraised⟩

theorem exec_shapeRead_raised (h : shapeReadBody (accept 0x39 s) = .raised e ((accept 0x39 s).shapePart n d ns)) :
    exec .shapeRead s = .next { s.failed 0x39 e with
      nleft := 0, srcPos := s.srcPos + n, draws := d, nodes := ns, root := 0x1FF
      pq := [], seq := 0, treeValid := false, codesValid := false, codes := Vector.replicate 256 none
      errPos := BitVec.ofNat 64 (s.srcPos + n) } :=
  runCommand_raised h

end

/-! ### SHAPE_READ on a whole tree -/

theorem shapeDone_eq {tree : CodeTree} {s : State} (h : s.resAux = 0) : s.shapeDone tree =
    { s.shapePart tree.shapeBytes.length (s.draws.drop tree.shapeBytes.length) (tree.preorder 0 false) with
      root := 0, treeValid := true, res := BitVec.ofNat 64 tree.size } := by
  have haux : putField s.resAux 0 9 0 = s.resAux := by rw [h]; rfl
  rw [← tree.length_preorder 0 false]
  exact congrArg (fun w => { s.shapeDone tree with resAux := w }) haux

theorem exec_shapeRead_done {tree : CodeTree} {more : List Byte} {s : State} (ha : s.srcAttached = true)
    (hw : Willing s) (hr : s.rest = tree.shapeBytes ++ more) (hsize : tree.size ≤ 511) :
    exec .shapeRead s = .next { s.fresh with
      nleft := 0, srcPos := s.srcPos + tree.shapeBytes.length, draws := s.draws.drop tree.shapeBytes.length
      nodes := tree.preorder 0 false, root := 0, pq := [], seq := 0, treeValid := true, codesValid := false
      codes := Vector.replicate 256 none, res := BitVec.ofNat 64 tree.size, resAux := 0 } := by
  have hbody := shapeReadBody_done (s := accept 0x39 s) ha hw hr hsize
  rw [shapeDone_eq rfl] at hbody
  exact runCommand_done hbody

/-! ### The obligation -/

/-- Settles O38: the rebuilt tree is described record by record, and each error by the read or the marker that raises
it. -/
theorem shapeRead : Obligations.ShapeRead := by
  refine ⟨fun s tree more ha hw hsize hr => ?_, fun s tree ha hw hsize hpos hpre hne => ?_,
    fun s tree j m more ha hw hj hr => ⟨fun hroom h0 h1 => ?_, fun hfull hm => ?_⟩,
    fun s tree k rest more ha hsize hk hr hne hdraws => ?_⟩
  · have hholds : HoldsTree (tree.preorder 0 false) tree 0 := by
      simpa using holdsTree_preorder tree [] [] false (by simpa using hsize)
    have hlen : (tree.preorder 0 false).length = tree.size := tree.length_preorder 0 false
    refine ⟨_, exec_shapeRead_done ha hw hr hsize, rfl, rfl, hlen, hholds.treeAt hlen.ge,
      fun k n hn => ?_, fun k n hn hkind => ?_⟩
    · obtain ⟨sym, rfl⟩ | ⟨l, rfl, -, -⟩ := tree.preorder_record hsize hn
      · exact ⟨rfl, rfl, decide_eq_true_iff⟩
      · exact ⟨rfl, rfl, decide_eq_true_iff⟩
    · obtain ⟨sym, rfl⟩ | ⟨l, rfl, hlt, hl⟩ := tree.preorder_record hsize hn
      · cases hkind
      · have hfits : l.size ≤ (tree.preorder 0 false).length := by omega
        exact ⟨ofNat9_toNat (by omega), l, hl.treeAt hfits, ofNat9_toNat (by omega)⟩
  · have htake : tree.shapeBytes.take s.rest.length = s.rest := (List.prefix_iff_eq_take.mp hpre).symm
    have hk : s.rest.length < tree.shapeBytes.length := hpre.length_le.lt_of_ne fun h => hne (hpre.eq_of_length h)
    have hend : s.srcPos + s.rest.length = s.src.length := by rw [rest_length]; omega
    have hg : Gives (tree.shapeBytes.take s.rest.length) (accept 0x39 s) :=
      .of_willing ha hw (by rw [htake]; exact List.prefix_rfl)
    obtain ⟨ns, hraised⟩ := shapeReadBody_cut hk hsize hg fun ns =>
      getByte_end ha ((skip_rest s.rest.length s).trans List.drop_length)
    rw [← hend]
    exact ⟨_, exec_shapeRead_raised hraised, rfl⟩
  · have hg : Gives ((tree.shapeTokens.take j).flatten ++ [m]) (accept 0x39 s) := .of_rest ha hw hr
    obtain ⟨ns, hns, hraised⟩ := shapeReadBody_marker hj hroom hg fun fuel u _ hget =>
      parseShape_bad_marker hget h0 h1
    exact ⟨_, exec_shapeRead_raised hraised, hns, rfl⟩
  · have hg : Gives ((tree.shapeTokens.take j).flatten ++ [m]) (accept 0x39 s) := .of_rest ha hw hr
    obtain ⟨ns, hns, hraised⟩ := shapeReadBody_marker hj hfull.le hg fun fuel u hlen hget =>
      parseShape_full hget hm (arenaFull_iff.mpr (hlen.trans hfull).ge)
    exact ⟨_, exec_shapeRead_raised hraised, hns.trans hfull, rfl⟩
  · have hlen : (tree.shapeBytes.take k).length = k := List.length_take_of_le hk.le
    have hd : s.draws = List.replicate (tree.shapeBytes.take k).length true ++ false :: more := by rw [hlen, hdraws]
    have hg : Gives (tree.shapeBytes.take k) (accept 0x39 s) := .of_draws ha (hr ▸ List.prefix_append _ rest) hd
    have hfail : SourceRefuses (s.skip k) more := hlen ▸ sourceRefuses_skip ha hr hne hd
    obtain ⟨ns, hraised⟩ := shapeReadBody_cut hk hsize hg fun ns =>
      getByte_refused (s := (accept 0x39 s).shapePart k (s.draws.drop k) ns) hfail
    exact ⟨_, exec_shapeRead_raised hraised, rfl⟩

end Sys2Proof.Machine
end

section
/-! PROOF. The BitWriter's commands and BR_RESET (45_bitstream.md R134 to R139, R142). ENC_SCAN's loop encodes byte after byte
up to the end of the source or to a byte with no code. -/

namespace Sys2Proof.Machine

/-! ### The buffers emptied (R135, R139, R142) -/

/-- Settles O40: each command is acceptance, the reset of its buffer, and completion. -/
theorem bufferResets : Obligations.BufferResets := ⟨rfl, rfl, fun _ => ⟨rfl, rfl⟩⟩

/-- PutByte of an attached sink with room, where the host accepts this write. -/
theorem putByte_accepted {b : Byte} {s : State} (ha : s.snkAttached = true) (hd : s.nextDraw = true) (hr : Room 1 s) :
    putByte b s = .done () (s.wrote [b]) := by
  have hlt : s.snk.length < Config.maxCount := Nat.lt_of_succ_le hr
  simp [putByte, snkWrite, ha, hd, hlt, State.wrote]

theorem nextDraw_of_head? {s : State} (h : s.draws.head? ≠ some false) : s.nextDraw = true := by
  unfold State.nextDraw
  cases hd : s.draws with
  | nil => rfl
  | cons d ds => simpa [hd] using h

theorem bwFlushBody_refused {s : State} {d : List Bool} (h : SinkRefuses s d) :
    bwFlushBody s = .raised .ioError { bwReset s with draws := d } := by
  rw [bwFlushBody, putByte_refused (s := bwReset s) h, andThen_raised]

/-- Settles O43: ACC is written from an emptied BitWriter, by whether the sink takes it. -/
theorem bwFlushAlwaysWritesOneByte : Obligations.BwFlushAlwaysWritesOneByte := by
  refine ⟨rfl, fun s => ⟨fun ha hd hr => ?_, fun ha hd => ?_, fun ha => ?_⟩⟩
  · have hpad : putField 0 0 4 (8 - s.nacc.val) = BitVec.ofNat 32 (8 - s.nacc.val) := by
      rw [putField_zero, Nat.mod_eq_of_lt (by omega)]
    have hbody : bwFlushBody (accept 0x44 s) =
        .done () (setAux 0 4 (8 - s.nacc.val) (setRes 1 ((bwReset (accept 0x44 s)).wrote [s.acc]))) := by
      rw [bwFlushBody, putByte_accepted (s := bwReset (accept 0x44 s)) ha (nextDraw_of_head? hd) hr]
      rfl
    rw [← List.drop_one, ← hpad]
    exact runCommand_done hbody
  · obtain ⟨d, hd⟩ := List.head?_eq_some_iff.mp hd
    rw [hd]
    exact runCommand_raised (bwFlushBody_refused (s := accept 0x44 s) (.inr ⟨ha, hd⟩))
  · exact runCommand_raised (bwFlushBody_refused (s := accept 0x44 s) (.inl ⟨ha, rfl⟩))

/-! ### ENC_SYMBOL (R136) -/

theorem encSymbolBody_absent {sym : Byte} {s : State} (hv : s.codesValid = true) (hc : s.codeAt sym = none) :
    encSymbolBody sym s = .raised .absentSymbol s := by
  simp [encSymbolBody, hv, hc]

theorem encSymbolBody_puts {sym : Byte} {c : Code} {s : State} (hv : s.codesValid = true) (hc : s.codeAt sym = some c) :
    encSymbolBody sym s = (putBits c s).andThen fun _ t => .done () (setRes (BitVec.ofNat 64 c.length) t) := by
  simp [encSymbolBody, hv, hc]

/-! ### ENC_SCAN (R138) -/

/-- The bits pending are fewer than a byte, so `n` bits more need no more than `n + 1` bytes. -/
theorem Room.bitRoom {n : Nat} {s : State} (h : Room (n + 1) s) : BitRoom n s := by
  have := s.nacc.isLt
  exact h.mono (by omega)

section
variable {s : State} {b : Byte} {more : List Byte} (hsrc : s.srcAttached = true) (hw : Willing s)
include hsrc hw

/-- A pass of the loop at a byte with a code. -/
theorem encScanLoop_byte {c : Code} (hsnk : s.snkAttached = true) (hrest : s.rest = b :: more)
    (hc : s.codeAt b = some c) (hr : BitRoom c.length s) :
    ∃ t, BitsAppended (s.skip 1) c t ∧ ∀ fuel k, encScanLoop (fuel + 1) k s = encScanLoop fuel (k + 1) t := by
  obtain ⟨t, ht, hbits⟩ := putBits_done (s := s.skip 1) hsnk (hw.skip 1) hr
  refine ⟨t, hbits, fun fuel k => ?_⟩
  simp only [encScanLoop, srcRead_rest hsrc hw hrest, skip_codeAt, hc, ht, andThen_done]

/-- A pass of the loop at a byte with no code. -/
theorem encScanLoop_absent (fuel k : Nat) (hrest : s.rest = b :: more) (hc : s.codeAt b = none) :
    encScanLoop (fuel + 1) k s = .raised .absentSymbol (s.skip 1) := by
  simp only [encScanLoop, srcRead_rest hsrc hw hrest, skip_codeAt, hc]

end

/-- The passes of the loop over bytes with codes. -/
theorem encScanLoop_bytes {cs : List Code} {pre more : List Byte} {s : State} (hsrc : s.srcAttached = true)
    (hsnk : s.snkAttached = true) (hw : Willing s) (hrest : s.rest = pre ++ more) (hc : pre.map s.codeAt = cs.map some)
    (hr : BitRoom cs.flatten.length s) :
    ∃ t, BitsAppended (s.skip cs.length) cs.flatten t ∧
      ∀ fuel k, encScanLoop (fuel + cs.length) k s = encScanLoop fuel (k + cs.length) t := by
  induction cs generalizing pre s with
  | nil => exact ⟨s, .refl s, fun _ _ => rfl⟩
  | cons c cs ih =>
    obtain ⟨b, pre, rfl, hb, hpre⟩ := List.map_eq_cons_iff.mp hc
    rw [List.flatten_cons, List.length_append] at hr
    obtain ⟨t, hbits, hpass⟩ := encScanLoop_byte hsrc hw hsnk hrest hb (hr.mono (Nat.le_add_right _ _))
    have htrest : t.rest = pre ++ more := by rw [hbits.rest, skip_rest, hrest]; rfl
    have htcode : t.codeAt = s.codeAt := funext hbits.codeAt
    obtain ⟨u, hbits', hpasses⟩ := ih (hbits.srcAttached.trans hsrc) (hbits.snkAttached.trans hsnk)
      (hbits.willing (hw.skip 1)) htrest (by rw [htcode, hpre]) (hbits.bitRoom hr)
    refine ⟨u, ?_, fun fuel k => ?_⟩
    · have := (hbits.skip cs.length).trans hbits'
      rwa [skip_skip, Nat.add_comm 1] at this
    · calc encScanLoop (fuel + cs.length + 1) k s = encScanLoop (fuel + cs.length) (k + 1) t := hpass _ _
        _ = encScanLoop fuel (k + 1 + cs.length) u := hpasses _ _
        _ = encScanLoop fuel (k + (cs.length + 1)) u := by rw [Nat.add_right_comm, Nat.add_assoc]

/-- ENC_SCAN after its check, on a source that has codes up to its end. -/
theorem encScanCore_done {cs : List Code} {s : State} (hsrc : s.srcAttached = true) (hsnk : s.snkAttached = true)
    (hw : Willing s) (hc : s.rest.map s.codeAt = cs.map some) (hr : BitRoom cs.flatten.length s) :
    ∃ t, encScanCore s = .done () (setRes (BitVec.ofNat 64 cs.length) t) ∧
      BitsAppended (s.skip cs.length) cs.flatten t := by
  have hlen : s.rest.length = cs.length := by simpa using congrArg List.length hc
  rw [rest_length] at hlen
  obtain ⟨t, hloop, hbits⟩ := encScanLoop_done (fuel := s.readsLeft) (k := 0) hsrc hsnk hw hc hr
    (by unfold State.readsLeft; omega)
  exact ⟨t, by rw [encScanCore, hloop, andThen_done, Nat.zero_add], hbits⟩

/-- ENC_SCAN after its check, on a source that has codes up to a byte with none. -/
theorem encScanCore_absent {cs : List Code} {pre more : List Byte} {b : Byte} {s : State} (hsrc : s.srcAttached = true)
    (hsnk : s.snkAttached = true) (hw : Willing s) (hrest : s.rest = pre ++ b :: more)
    (hc : pre.map s.codeAt = cs.map some) (hb : s.codeAt b = none) (hr : BitRoom cs.flatten.length s) :
    ∃ t, encScanCore s = .raised .absentSymbol (t.skip 1) ∧ BitsAppended (s.skip cs.length) cs.flatten t := by
  obtain ⟨t, hbits, hpasses⟩ := encScanLoop_bytes hsrc hsnk hw hrest hc hr
  have hlen : pre.length = cs.length := by simpa using congrArg List.length hc
  have htrest : t.rest = b :: more := by rw [hbits.rest, skip_rest, hrest, List.drop_left' hlen]
  have hfuel : s.readsLeft = s.src.length - s.srcPos - cs.length + 1 + cs.length := by
    have hle := congrArg List.length hrest
    rw [rest_length, List.length_append] at hle
    unfold State.readsLeft
    omega
  refine ⟨t, ?_, hbits⟩
  rw [encScanCore, hfuel, hpasses, encScanLoop_absent (hbits.srcAttached.trans hsrc) (hbits.willing (hw.skip _)) _ _
    htrest ((hbits.codeAt b).trans hb), andThen_raised]

theorem encScanBody_eq_core {s : State} (hv : s.codesValid = true) : encScanBody s = encScanCore s :=
  if_neg (by simp [hv])

/-- Settles O42: ENC_SYMBOL check by check; ENC_SCAN by where the bytes with codes end. -/
theorem encodersAppendCodes : Obligations.EncodersAppendCodes := by
  refine ⟨fun s sym => ⟨fun hv => runCommand_check (if_pos hv), fun hv hc => ?_, fun c hv hc ha hw hr => ?_⟩,
    fun s => ⟨fun hv => runCommand_check (if_pos hv), fun cs hv hsrc hsnk hw hpos hc hr => ?_,
      fun b more hv hsrc hw hrest hb => ?_, fun pre more b cs hv hsrc hsnk hw hrest hc hb hr => ?_⟩⟩
  · exact runCommand_check (encSymbolBody_absent (s := accept 0x42 s) hv hc)
  · obtain ⟨t, hput, a, k, bs, rfl, hbits⟩ := putBits_done (s := accept 0x42 s) ha hw hr.bitRoom
    have hbody : encSymbolBody sym (accept 0x42 s) =
        .done () (setRes (BitVec.ofNat 64 c.length) { (accept 0x42 s).wrote bs with acc := a, nacc := k }) := by
      rw [encSymbolBody_puts (s := accept 0x42 s) hv hc, hput, andThen_done]
    exact ⟨_, bs, runCommand_done hbody, rfl, hbits⟩
  · obtain ⟨t, hcore, a, k, bs, rfl, hbits⟩ := encScanCore_done (s := accept 0x43 s) hsrc hsnk hw hc hr.bitRoom
    have hbody := (encScanBody_eq_core (s := accept 0x43 s) hv).trans hcore
    have hend : s.src.length = s.srcPos + cs.length := by
      have hlen := congrArg List.length hc
      rw [List.length_map, List.length_map, rest_length] at hlen
      omega
    refine ⟨_, bs, runCommand_done hbody, ?_, hbits⟩
    rw [hend, Nat.add_comm bs.length, ← List.drop_drop]
    rfl
  · have hbody : encScanBody (accept 0x43 s) = .raised .absentSymbol ((accept 0x43 s).skip 1) := by
      rw [encScanBody_eq_core (s := accept 0x43 s) hv, encScanCore, State.readsLeft,
        encScanLoop_absent (s := accept 0x43 s) hsrc hw _ _ hrest hb, andThen_raised]
    rw [← List.drop_one]
    exact runCommand_raised hbody
  · obtain ⟨t, hcore, a, k, bs, rfl, hbits⟩ := encScanCore_absent (s := accept 0x43 s) hsrc hsnk hw hrest hc hb hr.bitRoom
    have hbody := (encScanBody_eq_core (s := accept 0x43 s) hv).trans hcore
    have hlen : pre.length = cs.length := by simpa using congrArg List.length hc
    refine ⟨_, bs, runCommand_raised hbody, ?_, hbits⟩
    rw [hlen, Nat.add_comm bs.length, ← List.drop_drop, ← List.drop_drop]
    rfl

end Sys2Proof.Machine
end

section
/-! PROOF. The BitReader and BR_GET (45_bitstream.md R141, R143): how many bytes a run of bits makes it fetch, and what it
leaves buffered. -/

namespace Sys2Proof.Machine

/-! ### Bits taken from the stream (R141) -/

/-- From `s` to `t` the next `n` bits are taken, a byte fetched only when a bit is needed, and beside the draws of the fetches
`k` more are used. -/
structure BitsFetched (n k : Nat) (s t : State) : Prop where
  enough : n ≤ s.upcoming.length
  upcoming : t.upcoming = s.upcoming.drop n
  cur : t.cur = (s.rest.take (s.fetches n)).getLastD s.cur
  src : t.src = s.src
  srcPos : t.srcPos = s.srcPos + s.fetches n
  draws : t.draws = s.draws.drop (s.fetches n + k)

theorem length_upcoming (s : State) : s.upcoming.length = s.nleft.val + 8 * s.rest.length := by
  have := s.nleft.isLt
  simp only [State.upcoming, List.length_append, List.length_drop, length_byteBits, length_bytesBits]
  omega

/-- With no bit to come, none is buffered and the source is at its end. -/
theorem end_of_upcoming {s : State} (h : s.upcoming = []) : s.nleft.val = 0 ∧ s.rest = [] := by
  have hlen := length_upcoming s
  rw [h, List.length_nil] at hlen
  exact ⟨by omega, List.length_eq_zero_iff.mp (by omega)⟩

theorem fetches_zero (s : State) : s.fetches 0 = 0 := by
  simp [State.fetches]

theorem getLastD_take_add {α : Type} (xs : List α) (m n : Nat) (d : α) :
    (xs.take (m + n)).getLastD d = ((xs.drop m).take n).getLastD ((xs.take m).getLastD d) := by
  rw [List.take_add]
  cases h : (xs.drop m).take n using List.reverseRecOn with
  | nil => simp
  | append_singleton ys y => rw [← List.append_assoc, List.getLastD_concat, List.getLastD_concat]

section
variable {m n j k : Nat} {s t u : State}

theorem OnlyReader.refl (s : State) : OnlyReader s s := ⟨s.cur, s.nleft, s.srcPos, s.draws, rfl⟩

theorem BitsFetched.refl (s : State) : BitsFetched 0 0 s s :=
  ⟨Nat.zero_le _, rfl, by rw [fetches_zero]; rfl, rfl, by rw [fetches_zero]; rfl, by rw [fetches_zero]; rfl⟩

theorem BitsFetched.rest (h : BitsFetched n k s t) : t.rest = s.rest.drop (s.fetches n) := by
  rw [State.rest, h.src, h.srcPos, State.rest, List.drop_drop]

theorem BitsFetched.willing (h : BitsFetched n k s t) (hw : Willing s) : Willing t := fun d hd =>
  hw d (List.mem_of_mem_drop (h.draws ▸ hd))

/-- The bits fetched are taken or buffered. -/
theorem BitsFetched.nleft_add (h : BitsFetched n k s t) : t.nleft.val + n = s.nleft.val + 8 * s.fetches n := by
  have henough := h.enough
  have hlen := congrArg List.length h.upcoming
  rw [List.length_drop, length_upcoming, length_upcoming, h.rest, List.length_drop] at hlen
  rw [length_upcoming] at henough
  unfold State.fetches at hlen ⊢
  omega

theorem BitsFetched.fetches_add (h : BitsFetched m j s t) (n : Nat) :
    s.fetches (m + n) = s.fetches m + t.fetches n := by
  have hadd := h.nleft_add
  have := t.nleft.isLt
  unfold State.fetches at hadd ⊢
  omega

theorem BitsFetched.trans (h : BitsFetched m j s t) (h' : BitsFetched n k t u) : BitsFetched (m + n) (j + k) s u := by
  have hf := h.fetches_add n
  have henough := h'.enough
  rw [h.upcoming, List.length_drop] at henough
  refine ⟨by have := h.enough; omega, ?_, ?_, h'.src.trans h.src, ?_, ?_⟩
  · rw [h'.upcoming, h.upcoming, List.drop_drop]
  · rw [h'.cur, h.cur, h.rest, hf, getLastD_take_add]
  · rw [h'.srcPos, h.srcPos, hf, Nat.add_assoc]
  · rw [h'.draws, h.draws, List.drop_drop, hf]
    congr 1
    omega

/-- When all bits to come are taken, the whole rest of the source has been fetched. -/
theorem fetches_length_upcoming (s : State) : s.fetches s.upcoming.length = s.rest.length := by
  rw [length_upcoming, State.fetches]
  omega

theorem BitsFetched.all_taken (h : BitsFetched s.upcoming.length k s t) :
    t.upcoming = [] ∧ t.nleft = 0 ∧ t.cur = s.rest.getLastD s.cur ∧ t.srcPos = s.srcPos + s.rest.length ∧
      t.draws = s.draws.drop (s.rest.length + k) := by
  have hadd := h.nleft_add
  obtain ⟨-, hup, hcur, -, hpos, hdraws⟩ := h
  rw [fetches_length_upcoming] at hadd hcur hpos hdraws
  rw [length_upcoming] at hadd
  rw [List.drop_length] at hup
  rw [List.take_length] at hcur
  exact ⟨hup, Fin.ext (by simp; omega), hcur, hpos, hdraws⟩

theorem BitsFetched.onlyReader_eq (h : BitsFetched n 0 s t) (hr : OnlyReader s t) :
    t = { s.skip (s.fetches n) with cur := (s.rest.take (s.fetches n)).getLastD s.cur, nleft := t.nleft } := by
  obtain ⟨c, l, p, d, rfl⟩ := hr
  obtain ⟨-, -, hcur, -, hpos, hdraws⟩ := h
  dsimp only at hcur hpos hdraws
  rw [hcur, hpos, hdraws]
  rfl

/-- GetBit takes one bit. -/
theorem getBit_fetches {x : Bool} {more : List Bool} (ha : s.srcAttached = true) (hw : Willing s)
    (hu : s.upcoming = x :: more) : ∃ t, getBit s = .done x t ∧ OnlyReader s t ∧ BitsFetched 1 0 s t := by
  obtain ⟨t, hget, hreader, -, hup⟩ := getBit_done ha hw hu
  refine ⟨t, hget, hreader, ?_⟩
  have henough : 1 ≤ s.upcoming.length := by rw [hu]; exact Nat.le_add_left 1 _
  have hdrop : t.upcoming = s.upcoming.drop 1 := by rw [hup, hu]; rfl
  by_cases h0 : s.nleft.val = 0
  · have hf : s.fetches 1 = 1 := by simp [State.fetches, h0]
    have hne : s.rest ≠ [] := fun hnil => by simp [length_upcoming, h0, hnil] at henough
    obtain ⟨b, bs, hrest⟩ := List.exists_cons_of_ne_nil hne
    rw [getBit_fetched h0, getByte_rest ha hw hrest] at hget
    cases hget
    refine ⟨henough, hdrop, ?_, rfl, ?_, ?_⟩ <;> rw [hf]
    · rw [hrest]; rfl
    · rfl
    · rfl
  · obtain ⟨l, hl⟩ : ∃ l : Fin 9, s.nleft.val = l.val + 1 :=
      ⟨⟨s.nleft.val - 1, by omega⟩, (Nat.sub_add_cancel (Nat.pos_of_ne_zero h0)).symm⟩
    have hf : s.fetches 1 = 0 := by simp [State.fetches, hl]
    rw [getBit_buffered hl] at hget
    cases hget
    refine ⟨henough, hdrop, ?_, rfl, ?_, ?_⟩ <;> rw [hf] <;> rfl

/-- With no bit to come, GetBit finds the source at its end. -/
theorem getBit_end (ha : s.srcAttached = true) (hu : s.upcoming = []) : getBit s = .raised .formatError s := by
  obtain ⟨hleft, hrest⟩ := end_of_upcoming hu
  rw [getBit_fetched hleft, getByte_end ha hrest, andThen_raised]

/-! ### BR_GET (R143) -/

/-- BR_GET's loop takes `n` bits. -/
theorem getBits_fetches (v : Nat) (ha : s.srcAttached = true) (hw : Willing s) (hn : n ≤ s.upcoming.length) :
    ∃ t, getBits n v s = .done ((s.upcoming.take n).foldl (fun v x => 2 * v + x.toNat) v) t ∧ OnlyReader s t ∧
      BitsFetched n 0 s t := by
  induction n generalizing v s with
  | zero => exact ⟨s, rfl, .refl s, .refl s⟩
  | succ n ih =>
    obtain ⟨x, more, hu⟩ := List.exists_cons_of_length_pos (Nat.lt_of_lt_of_le (Nat.succ_pos n) hn)
    obtain ⟨t, hget, hreader, hbit⟩ := getBit_fetches ha hw hu
    have htup : t.upcoming = more := by rw [hbit.upcoming, hu]; rfl
    rw [hu, List.length_cons] at hn
    obtain ⟨w, hgets, hreader', hbits⟩ := ih (2 * v + x.toNat) (hreader.srcAttached.trans ha) (hbit.willing hw)
      (by rw [htup]; omega)
    refine ⟨w, ?_, hreader.trans hreader', Nat.add_comm 1 n ▸ hbit.trans hbits⟩
    rw [getBits, hget, andThen_done, hgets, htup, hu]
    rfl

theorem getBits_add (m n v : Nat) (s : State) :
    getBits (m + n) v s = (getBits m v s).andThen fun v t => getBits n v t := by
  induction m generalizing v s with
  | zero => rw [Nat.zero_add]; rfl
  | succ m ih => simp only [Nat.succ_add, getBits, andThen_assoc, ih]

/-- BR_GET's loop takes the bits there are and finds the source at its end. -/
theorem getBits_cut (v : Nat) (ha : s.srcAttached = true) (hw : Willing s) (hn : s.upcoming.length < n) :
    ∃ t, getBits n v s = .raised .formatError t ∧ OnlyReader s t ∧ BitsFetched s.upcoming.length 0 s t := by
  obtain ⟨l, rfl⟩ := Nat.exists_eq_add_of_lt hn
  obtain ⟨t, hgets, hreader, hbits⟩ := getBits_fetches v ha hw (Nat.le_refl s.upcoming.length)
  refine ⟨t, ?_, hreader, hbits⟩
  rw [Nat.add_assoc, getBits_add, hgets, andThen_done, getBits,
    getBit_end (hreader.srcAttached.trans ha) hbits.all_taken.1, andThen_raised]

theorem brGetBody_gets {n : Byte} (h : n.toNat ≤ 32) :
    brGetBody n s = (getBits n.toNat 0 s).andThen fun v t => .done () (setRes (BitVec.ofNat 64 v) t) :=
  if_neg (by simp [bitCountOk, h])

end

/-- Settles O44: by the check, and by whether the stream has `n` bits left. -/
theorem brGetTakesBits : Obligations.BrGetTakesBits := by
  refine fun s n => ⟨fun h => ?_, fun h ha hw hn => ?_, fun h ha hw hn => ?_⟩
  · exact runCommand_check (if_pos (decide_eq_false (Nat.not_le.mpr h)))
  · obtain ⟨t, hgets, hreader, hbits⟩ := getBits_fetches (s := accept 0x49 s) 0 ha hw hn
    have hbody : brGetBody n (accept 0x49 s) =
        .done () (setRes (BitVec.ofNat 64 (bitsValue (s.upcoming.take n.toNat))) t) := by
      rw [brGetBody_gets h, hgets, andThen_done]
      rfl
    refine ⟨_, runCommand_done hbody, ?_, hbits.upcoming⟩
    rw [hbits.onlyReader_eq hreader]
    rfl
  · obtain ⟨t, hgets, hreader, hbits⟩ := getBits_cut (s := accept 0x49 s) 0 ha hw hn
    have hbody : brGetBody n (accept 0x49 s) = .raised .formatError t := by
      rw [brGetBody_gets h, hgets, andThen_raised]
    obtain ⟨hup, hleft, -⟩ := BitsFetched.all_taken (s := accept 0x49 s) hbits
    refine ⟨_, runCommand_raised hbody, ?_, (end_of_upcoming (s := t) hup).2⟩
    obtain ⟨c, l, p, d, rfl⟩ := hreader
    cases hleft
    rfl

end Sys2Proof.Machine
end

section
/-! PROOF. The decoder's walk and one decoded symbol (45_bitstream.md R145, R146, 60_exceptions.md R160): the bits lead down the
tree, to the leaf or to an internal node where the source ends. -/

namespace Sys2Proof.Machine

/-! ### Paths, one bit at a time -/

/-- A tree that is read stands in the arena. -/
theorem holdsTree_of_readTree {nodes : List Node} {fuel : Nat} {i : NodeIdx} {tree : CodeTree}
    (h : readTree nodes fuel i = some tree) : HoldsTree nodes tree i := by
  induction fuel generalizing i tree with
  | zero => cases h
  | succ fuel ih =>
    rw [readTree] at h
    cases hn : nodes[i.toNat]? with
    | none => simp [hn] at h
    | some n =>
      rw [hn] at h
      cases hk : n.kind with
      | leaf =>
        simp only [hk, Option.some.injEq] at h
        exact h ▸ ⟨n, hn, hk, rfl⟩
      | internal =>
        simp only [hk] at h
        cases hl : readTree nodes fuel n.left with
        | none => simp [hl] at h
        | some l =>
          cases hr : readTree nodes fuel n.right with
          | none => simp [hl, hr] at h
          | some r =>
            simp only [hl, hr, Option.some.injEq] at h
            exact h ▸ ⟨n, hn, hk, ih hl, ih hr⟩

theorem holdsTree_of_treeAt {s : State} {i : NodeIdx} {tree : CodeTree} (h : s.treeAt i = some tree) :
    HoldsTree s.nodes tree i :=
  holdsTree_of_readTree h

/-- A path of no bits is a leaf's. -/
theorem CodeTree.eq_leaf_of_nil_path {tree : CodeTree} {sym : Byte} (h : (sym, []) ∈ tree.paths) : tree = .leaf sym := by
  cases tree with
  | leaf sym' => cases List.mem_singleton.mp h; rfl
  | node l r => simp [CodeTree.paths] at h

/-- The first bit of a path says which subtree of the root the rest is a path of. -/
theorem CodeTree.exists_subtree_of_cons_path {tree : CodeTree} {sym : Byte} {x : Bool} {p : Code}
    (h : (sym, x :: p) ∈ tree.paths) :
    ∃ l r, tree = .node l r ∧ (sym, p) ∈ (if x then r else l).paths := by
  cases tree with
  | leaf sym' => cases List.mem_singleton.mp h
  | node l r =>
    refine ⟨l, r, rfl, ?_⟩
    simp only [CodeTree.paths, List.mem_append, List.mem_map, Prod.mk.injEq, List.cons.injEq] at h
    rcases h with ⟨⟨_, _⟩, hq, rfl, rfl, rfl⟩ | ⟨⟨_, _⟩, hq, rfl, rfl, rfl⟩
    · exact hq
    · exact hq

/-- The child a bit leads to holds the subtree that the bit leads to. -/
theorem HoldsTree.descend {nodes : List Node} {l r : CodeTree} {i : NodeIdx} (h : HoldsTree nodes (.node l r) i)
    (x : Bool) :
    ∃ n, nodes[i.toNat]? = some n ∧ n.kind = .internal ∧ HoldsTree nodes (if x then r else l) (descend n x) := by
  obtain ⟨n, hn, hk, hl, hr⟩ := h
  cases x
  · exact ⟨n, hn, hk, hl⟩
  · exact ⟨n, hn, hk, hr⟩

theorem follow_congr {s t : State} (h : t.nodes = s.nodes) (i : NodeIdx) (path : Code) :
    t.follow i path = s.follow i path := by
  induction path generalizing i with
  | nil => rfl
  | cons x xs ih => simp only [State.follow, State.node?, h, ih]

/-! ### The walk (R145, R146) -/

section
variable {tree : CodeTree} {sym : Byte} {c : NodeIdx} {s : State} {more : List Bool}

/-- The walk along the first bits of a path: it comes to the node they lead to, where the rest of the path goes on. -/
theorem decWalk_follows {q r : Code} (ht : HoldsTree s.nodes tree c) (hp : (sym, q ++ r) ∈ tree.paths)
    (hu : s.upcoming = q ++ more) (ha : s.srcAttached = true) (hw : Willing s) :
    ∃ sub i t, HoldsTree s.nodes sub i ∧ (sym, r) ∈ sub.paths ∧ s.follow c q = some i ∧ OnlyReader s t ∧
      BitsFetched q.length 0 s t ∧ ∀ fuel, decWalk (fuel + q.length) c s = decWalk fuel i t := by
  induction q generalizing tree c s with
  | nil => exact ⟨tree, c, s, ht, hp, rfl, .refl s, .refl s, fun _ => rfl⟩
  | cons x q ih =>
    obtain ⟨left, right, rfl, hq⟩ := CodeTree.exists_subtree_of_cons_path hp
    obtain ⟨n, hn, hk, ht⟩ := ht.descend x
    have hn : s.node? c = some n := hn
    obtain ⟨t, hget, hreader, hbit⟩ := getBit_fetches ha hw hu
    have hnodes := hreader.nodes
    obtain ⟨sub, i, u, hsub, hr, hfollow, hreader', hbits, hwalk⟩ := ih (hnodes.symm ▸ ht) hq
      (by rw [hbit.upcoming, hu]; rfl) (hreader.srcAttached.trans ha) (hbit.willing hw)
    refine ⟨sub, i, u, hnodes ▸ hsub, hr, ?_, hreader.trans hreader', ?_, fun fuel => ?_⟩
    · rw [follow_cons x q hn, ← follow_congr hnodes, hfollow]
    · rw [List.length_cons, Nat.add_comm]
      exact hbit.trans hbits
    · rw [← hwalk fuel, List.length_cons, ← Nat.add_assoc, decWalk, hn]
      simp only [hk, hget, andThen_done]

/-- The path leads from `i` to the leaf at `c`, whose symbol is `sym`. -/
def State.leadsTo (s : State) (i : NodeIdx) (path : Code) (sym : Byte) (c : NodeIdx) : Prop :=
  s.follow i path = some c ∧ ∃ n, s.node? c = some n ∧ n.kind = .leaf ∧ n.sym = sym

/-- The walk along a whole path ends at its leaf. -/
theorem decWalk_leaf {path : Code} (ht : HoldsTree s.nodes tree c) (hp : (sym, path) ∈ tree.paths)
    (hu : s.upcoming = path ++ more) (ha : s.srcAttached = true) (hw : Willing s) :
    ∃ i t, decWalk s.bitsLeft c s = .done i t ∧ s.leadsTo c path sym i ∧ OnlyReader s t ∧
      BitsFetched path.length 0 s t := by
  obtain ⟨sub, i, t, hsub, hr, hfollow, hreader, hbits, hwalk⟩ := decWalk_follows (q := path) (r := []) ht
    (by rwa [List.append_nil]) hu ha hw
  obtain rfl := CodeTree.eq_leaf_of_nil_path hr
  obtain ⟨n, hn, hk, hs⟩ := hsub
  refine ⟨i, t, ?_, ⟨hfollow, n, hn, hk, hs⟩, hreader, hbits⟩
  have hfuel : s.bitsLeft = more.length + 1 + path.length := by
    rw [bitsLeft_eq, hu, List.length_append]
    omega
  have hn : t.node? i = some n := by rw [State.node?, hreader.nodes, hn]
  rw [hfuel, hwalk, decWalk, hn]
  simp only [hk]

/-- The walk along a path that the source cuts short. -/
theorem decWalk_cut {cut path : Code} (ht : HoldsTree s.nodes tree c) (hp : (sym, path) ∈ tree.paths)
    (hcut : cut <+: path) (hne : cut ≠ path) (hu : s.upcoming = cut) (ha : s.srcAttached = true) (hw : Willing s) :
    ∃ t, decWalk s.bitsLeft c s = .raised .formatError t ∧ OnlyReader s t ∧ BitsFetched s.upcoming.length 0 s t := by
  obtain ⟨r, rfl⟩ := hcut
  obtain ⟨x, r, rfl⟩ := List.exists_cons_of_ne_nil fun hnil : r = [] => hne (by rw [hnil, List.append_nil])
  obtain ⟨sub, i, t, hsub, hr, -, hreader, hbits, hwalk⟩ := decWalk_follows (more := []) ht hp
    (by rwa [List.append_nil]) ha hw
  obtain ⟨left, right, rfl, -⟩ := CodeTree.exists_subtree_of_cons_path hr
  obtain ⟨n, hn, hk, -⟩ := hsub
  rw [← hu] at hbits hwalk
  refine ⟨t, ?_, hreader, hbits⟩
  have hn : t.node? i = some n := by rw [State.node?, hreader.nodes, hn]
  rw [bitsLeft_eq, Nat.add_comm, hwalk, decWalk, hn]
  simp only [hk, getBit_end (hreader.srcAttached.trans ha) hbits.all_taken.1, andThen_raised]

end

/-! ### One symbol (R145) -/

/-- RES_AUX of a command that reports a node after another. -/
theorem putField_node_again (a b : NodeIdx) : putField (b.setWidth 32) 0 9 a.toNat = a.setWidth 32 := by
  have hclear : b.setWidth 32 &&& ~~~(BitVec.ofNat 32 (2 ^ 9 - 1) <<< 0) = 0 := by
    apply BitVec.eq_of_getLsbD_eq
    intro k hk
    have hmask : (BitVec.ofNat 32 (2 ^ 9 - 1)).getLsbD k = decide (k < 9) := by
      rw [BitVec.getLsbD_ofNat, Nat.testBit_two_pow_sub_one]
      simp [hk]
    rw [BitVec.getLsbD_and, BitVec.getLsbD_not, BitVec.shiftLeft_zero, hmask, BitVec.getLsbD_setWidth]
    by_cases h9 : k < 9
    · simp [h9]
    · simp [BitVec.getLsbD_of_ge b k (Nat.not_lt.mp h9)]
  rw [putField, hclear, ← putField_node, putField]
  simp

theorem emitLeaf_done {c : NodeIdx} {n : Node} {s : State} (hn : s.node? c = some n) (ha : s.snkAttached = true)
    (hw : Willing s) (hr : Room 1 s) :
    emitLeaf c s = .done () { s.wrote [n.sym] with
      remain := s.remain - 1, res := n.sym.setWidth 64, resAux := putField s.resAux 0 9 c.toNat } := by
  have hnode : s.node c = n := by rw [State.node, hn, Option.getD_some]
  rw [emitLeaf, hnode, putByte_wrote ha hw hr, andThen_done]
  rfl

section
variable {tree : CodeTree} {sym : Byte} {s : State} {more : List Bool}

/-- DEC_SYMBOL after its checks decodes one path and reports its leaf. -/
theorem decSymbolCore_reports {path : Code} (ht : HoldsTree s.nodes tree s.root) (hp : (sym, path) ∈ tree.paths)
    (hu : s.upcoming = path ++ more) (hsrc : s.srcAttached = true) (hsnk : s.snkAttached = true) (hw : Willing s)
    (hr : Room 1 s) :
    ∃ c t, decSymbolCore s = .done () t ∧ s.leadsTo s.root path sym c ∧ Decoded s [sym] more t ∧
      BitsFetched path.length 1 s t ∧ t.res = sym.setWidth 64 ∧ t.resAux = putField s.resAux 0 9 c.toNat := by
  obtain ⟨c, t, hwalk, hleads, hreader, hbits⟩ := decWalk_leaf ht hp hu hsrc hw
  obtain ⟨hfollow, n, hn, hk, rfl⟩ := hleads
  have hemit := emitLeaf_done (s := t) (c := c) (n := n) (by rw [State.node?, hreader.nodes]; exact hn)
    (hreader.snkAttached.trans hsnk) (hbits.willing hw) (by rw [Room, hreader.snk]; exact hr)
  have hcore : decSymbolCore s = _ := (congrArg (Ran.andThen · emitLeaf) hwalk).trans hemit
  have hdraws : t.draws.drop 1 = s.draws.drop (s.fetches path.length + 1) := by rw [hbits.draws, List.drop_drop]
  have hwt := (hbits.willing hw).wrote [n.sym]
  have hup : t.upcoming = more := by rw [hbits.upcoming, hu, List.drop_left]
  obtain ⟨henough, hdrop, hcur, -, hpos, -⟩ := hbits
  obtain ⟨cur, l, p, d, rfl⟩ := hreader
  exact ⟨c, _, hcore, ⟨hfollow, n, hn, hk, rfl⟩, ⟨⟨cur, l, p, d.drop 1, _, _, rfl⟩, hwt, hup⟩,
    ⟨henough, hdrop, hcur, rfl, hpos, hdraws⟩, rfl, rfl⟩

/-- DEC_SYMBOL after its checks, where the source ends inside the path. -/
theorem decSymbolCore_cut {cut path : Code} (ht : HoldsTree s.nodes tree s.root) (hp : (sym, path) ∈ tree.paths)
    (hcut : cut <+: path) (hne : cut ≠ path) (hu : s.upcoming = cut) (hsrc : s.srcAttached = true) (hw : Willing s) :
    ∃ t, decSymbolCore s = .raised .formatError t ∧ OnlyReader s t ∧ BitsFetched s.upcoming.length 0 s t := by
  obtain ⟨t, hwalk, hreader, hbits⟩ := decWalk_cut ht hp hcut hne hu hsrc hw
  exact ⟨t, by rw [decSymbolCore, hwalk, andThen_raised], hreader, hbits⟩

theorem decSymbolBody_refused (h : s.treeValid = false ∨ s.remain = 0) : decSymbolBody s = .raised .badState s := by
  unfold decSymbolBody
  rcases h with h | h <;> simp [h]

theorem decSymbolBody_eq_core (hv : s.treeValid = true) (hrem : s.remain ≠ 0) : decSymbolBody s = decSymbolCore s := by
  rw [decSymbolBody, if_neg (by simp [hv]), if_neg hrem]

end

/-- Settles O45: the walk ends at the path's leaf, or where the source ends. -/
theorem decSymbolDecodesOne : Obligations.DecSymbolDecodesOne := by
  refine fun s => ⟨fun h => runCommand_check (decSymbolBody_refused (s := accept 0x4A s) h),
    fun tree sym path more hv hrem ht hp hu hsrc hsnk hw hr => ?_,
    fun tree sym path hv hrem ht hp hcut hne hsrc hw => ?_⟩
  · obtain ⟨c, t, hcore, ⟨hfollow, n, hn, hk, hsym⟩, hdec, hbits, hres, haux⟩ := decSymbolCore_reports
      (s := accept 0x4A s) (holdsTree_of_treeAt ht) hp hu hsrc hsnk hw hr
    have hbody := (decSymbolBody_eq_core (s := accept 0x4A s) hv hrem).trans hcore
    refine ⟨_, c, n, runCommand_done hbody, ?_, (follow_congr (accept_nodes _ _) _ _).symm.trans hfollow, hn, hk, hsym,
      hdec.2.2⟩
    rw [accept_resAux, putField_node] at haux
    obtain ⟨⟨cur, l, p, d, res, aux, rfl⟩, -⟩ := hdec
    cases hbits.cur
    cases hbits.srcPos
    cases hbits.draws
    cases hres
    cases haux
    rfl
  · obtain ⟨t, hcore, ⟨cur, l, p, d, rfl⟩, hbits⟩ := decSymbolCore_cut (s := accept 0x4A s) (holdsTree_of_treeAt ht) hp
      hcut hne rfl hsrc hw
    have hbody := (decSymbolBody_eq_core (s := accept 0x4A s) hv hrem).trans hcore
    obtain ⟨-, hleft, hcur, hpos, hdraws⟩ := hbits.all_taken
    cases hleft
    cases hcur
    cases hpos
    cases hdraws
    exact runCommand_raised hbody

end Sys2Proof.Machine
end

section
/-! PROOF. DEC_RUN (45_bitstream.md R144, R147, 60_exceptions.md R160): its loop decodes symbol after symbol, until REMAIN is 0
or the source ends inside a symbol. -/

namespace Sys2Proof.Machine

/-- The bits of several paths, one after another. -/
def pathBits (ps : List (Byte × Code)) : List Bool := (ps.map Prod.snd).flatten

theorem pathBits_concat (ps : List (Byte × Code)) (p : Byte × Code) : pathBits (ps ++ [p]) = pathBits ps ++ p.2 := by
  simp [pathBits]

/-- RES and RES_AUX of `t` report the last of the symbols decoded since `s`, and are 0 before the first. -/
def LastReported (s : State) (ps : List (Byte × Code)) (t : State) : Prop :=
  (ps = [] → t.res = 0 ∧ t.resAux = 0) ∧ ∀ last, ps.getLast? = some last →
    t.res = last.1.setWidth 64 ∧ ∃ c, s.follow s.root last.2 = some c ∧ t.resAux = c.setWidth 32

/-- RES_AUX holds a node index and nothing above it. -/
theorem LastReported.exists_resAux {s t : State} {ps : List (Byte × Code)} (h : LastReported s ps t) :
    ∃ b : NodeIdx, t.resAux = b.setWidth 32 := by
  obtain ⟨hnil, hlast⟩ := h
  cases hps : ps.getLast? with
  | none => exact ⟨0, (hnil (List.getLast?_eq_none_iff.mp hps)).2⟩
  | some last =>
    obtain ⟨-, c, -, hc⟩ := hlast last hps
    exact ⟨c, hc⟩

theorem lastReported_concat {s t : State} (ps : List (Byte × Code)) {p : Byte × Code} {c : NodeIdx}
    (hres : t.res = p.1.setWidth 64) (hfollow : s.follow s.root p.2 = some c) (haux : t.resAux = c.setWidth 32) :
    LastReported s (ps ++ [p]) t := by
  refine ⟨fun h => absurd h (by simp), fun last hlast => ?_⟩
  rw [List.getLast?_concat, Option.some.injEq] at hlast
  subst hlast
  exact ⟨hres, c, hfollow, haux⟩

theorem decRunLoop_zero {fuel k : Nat} {s : State} (h : s.remain = 0) : decRunLoop fuel k s = .done k s := by
  cases fuel with
  | zero => rfl
  | succ fuel => rw [decRunLoop, if_pos h]

theorem decRunLoop_symbol {fuel k : Nat} {s : State} (h : s.remain ≠ 0) :
    decRunLoop (fuel + 1) k s = (decSymbolCore s).andThen fun _ t => decRunLoop fuel (k + 1) t := by
  rw [decRunLoop, if_neg h]

section
variable {out : List Byte} {more : List Bool} {s t : State}

theorem Decoded.nodes (h : Decoded s out more t) : t.nodes = s.nodes := by
  obtain ⟨⟨c, n, p, d, res, aux, rfl⟩, _⟩ := h; rfl

theorem Decoded.root (h : Decoded s out more t) : t.root = s.root := by
  obtain ⟨⟨c, n, p, d, res, aux, rfl⟩, _⟩ := h; rfl

theorem Decoded.srcAttached (h : Decoded s out more t) : t.srcAttached = s.srcAttached := by
  obtain ⟨⟨c, n, p, d, res, aux, rfl⟩, _⟩ := h; rfl

theorem Decoded.snkAttached (h : Decoded s out more t) : t.snkAttached = s.snkAttached := by
  obtain ⟨⟨c, n, p, d, res, aux, rfl⟩, _⟩ := h; rfl

theorem Decoded.holdsTree {tree : CodeTree} (h : Decoded s out more t) (ht : HoldsTree s.nodes tree s.root) :
    HoldsTree t.nodes tree t.root := by
  rwa [h.nodes, h.root]

theorem Decoded.remain_ne_zero (h : Decoded s out more t) (hrem : out.length < s.remain.toNat) : t.remain ≠ 0 := by
  have heq : t.remain = s.remain - BitVec.ofNat 64 out.length := by
    obtain ⟨⟨c, n, p, d, res, aux, rfl⟩, _⟩ := h; rfl
  bv_omega

theorem Decoded.room {n : Nat} (h : Decoded s out more t) (hr : Room (out.length + n) s) : Room n t := by
  rw [Room, h.snk, List.length_append, Nat.add_assoc]
  exact hr

end

/-- The first passes of the loop decode one path each, as long as REMAIN allows. -/
theorem decRunLoop_paths {tree : CodeTree} {ps : List (Byte × Code)} {more : List Bool} {s : State}
    (ht : HoldsTree s.nodes tree s.root) (hp : ∀ p ∈ ps, p ∈ tree.paths) (hrem : ps.length ≤ s.remain.toNat)
    (hu : s.upcoming = pathBits ps ++ more) (hres : s.res = 0) (haux : s.resAux = 0) (hsrc : s.srcAttached = true)
    (hsnk : s.snkAttached = true) (hw : Willing s) (hr : Room ps.length s) :
    ∃ t, (∀ fuel k, decRunLoop (fuel + ps.length) k s = decRunLoop fuel (k + ps.length) t) ∧
      Decoded s (ps.map Prod.fst) more t ∧ BitsFetched (pathBits ps).length ps.length s t ∧ LastReported s ps t := by
  induction ps using List.reverseRecOn generalizing more with
  | nil =>
    have hu : s.upcoming = more := hu
    exact ⟨s, fun _ _ => rfl, hu ▸ .refl hw, .refl s, fun _ => ⟨hres, haux⟩, nofun⟩
  | append_singleton ps p ih =>
    rw [List.length_append, List.length_singleton] at hrem hr
    rw [pathBits_concat, List.append_assoc] at hu
    obtain ⟨t, hloop, hdec, hbits, hlast⟩ := ih (fun q hq => hp q (List.mem_append_left _ hq)) (by omega) hu
      (hr.mono (by omega))
    rw [← List.length_map Prod.fst] at hrem hr
    obtain ⟨c, u, hcore, ⟨hfollow, -⟩, hdec', hbits', hres', haux'⟩ := decSymbolCore_reports (hdec.holdsTree ht)
      (hp p (by simp)) hdec.2.2 (hdec.srcAttached.trans hsrc) (hdec.snkAttached.trans hsnk) hdec.2.1 (hdec.room hr)
    rw [hdec.root, follow_congr hdec.nodes] at hfollow
    have hne := hdec.remain_ne_zero hrem
    obtain ⟨b, hb⟩ := hlast.exists_resAux
    rw [hb, putField_node_again] at haux'
    refine ⟨u, fun fuel k => ?_, ?_, ?_, lastReported_concat ps hres' hfollow haux'⟩
    · calc decRunLoop (fuel + (ps ++ [p]).length) k s = decRunLoop (fuel + 1 + ps.length) k s := by
            rw [List.length_append, List.length_singleton, Nat.add_right_comm, Nat.add_assoc]
        _ = decRunLoop fuel (k + ps.length + 1) u := by rw [hloop, decRunLoop_symbol hne, hcore, andThen_done]
        _ = decRunLoop fuel (k + (ps ++ [p]).length) u := by rw [List.length_append, List.length_singleton, Nat.add_assoc]
    · rw [List.map_append]
      exact hdec.trans hdec'
    · rw [pathBits_concat, List.length_append, List.length_append]
      exact hbits.trans hbits'

section
variable {tree : CodeTree} {ps : List (Byte × Code)} {s : State} (ht : HoldsTree s.nodes tree s.root)
  (hp : ∀ p ∈ ps, p ∈ tree.paths) (hres : s.res = 0) (haux : s.resAux = 0) (hsrc : s.srcAttached = true)
  (hsnk : s.snkAttached = true) (hw : Willing s) (hr : Room ps.length s)
include ht hp hres haux hsrc hsnk hw hr

/-- DEC_RUN after its check decodes REMAIN paths. -/
theorem decRunCore_reports {more : List Bool} (hrem : s.remain.toNat = ps.length) (hu : s.upcoming = pathBits ps ++ more) :
    ∃ t, decRunCore s = .done () (setRes (BitVec.ofNat 64 ps.length) t) ∧ Decoded s (ps.map Prod.fst) more t ∧
      BitsFetched (pathBits ps).length ps.length s t ∧ LastReported s ps t := by
  obtain ⟨t, hloop, hrest⟩ := decRunLoop_paths ht hp hrem.ge hu hres haux hsrc hsnk hw hr
  have hloop := hloop 0 0
  rw [Nat.zero_add] at hloop
  exact ⟨t, by rw [decRunCore, hrem, hloop, decRunLoop, andThen_done], hrest⟩

/-- DEC_RUN after its check, where the source ends inside the path after `ps`. -/
theorem decRunCore_cut {sym : Byte} {path cut : Code} (hrem : ps.length < s.remain.toNat)
    (hpath : (sym, path) ∈ tree.paths) (hcut : cut <+: path) (hne : cut ≠ path) (hu : s.upcoming = pathBits ps ++ cut) :
    ∃ t u, decRunCore s = .raised .formatError u ∧ Decoded s (ps.map Prod.fst) cut t ∧ OnlyReader t u ∧
      BitsFetched s.upcoming.length ps.length s u ∧ LastReported s ps t := by
  obtain ⟨t, hloop, hdec, hbits, hlast⟩ := decRunLoop_paths ht hp hrem.le hu hres haux hsrc hsnk hw hr
  obtain ⟨u, hcore, hreader, hbits'⟩ := decSymbolCore_cut (hdec.holdsTree ht) hpath hcut hne hdec.2.2
    (hdec.srcAttached.trans hsrc) hdec.2.1
  have hne := hdec.remain_ne_zero (by rwa [List.length_map])
  have hfuel : s.remain.toNat = s.remain.toNat - ps.length - 1 + 1 + ps.length := by omega
  have hall : (pathBits ps).length + t.upcoming.length = s.upcoming.length := by
    rw [hu, List.length_append, hdec.2.2]
  refine ⟨t, u, ?_, hdec, hreader, hall ▸ hbits.trans hbits', hlast⟩
  rw [decRunCore, hfuel, hloop, decRunLoop_symbol hne, hcore, andThen_raised, andThen_raised]

end

theorem decRunBody_eq_core {s : State} (hv : s.treeValid = true) : decRunBody s = decRunCore s := if_neg (by simp [hv])

theorem decRunCore_idle {s : State} (h : s.remain = 0) : decRunCore s = .done () (setRes 0 s) := by
  rw [decRunCore, decRunLoop_zero h, andThen_done]
  rfl

/-- Settles O46: by whether REMAIN symbols are there, none, or fewer. -/
theorem decRunDecodesRemain : Obligations.DecRunDecodesRemain := by
  refine fun s => ⟨fun hv => runCommand_check (if_pos hv), fun hv hrem => ?_,
    fun tree ps last more hv ht hp hrem hlast hu hsrc hsnk hw hr => ?_,
    fun tree ps sym path cut hv ht hp hrem hpath hcut hne hu hsrc hsnk hw hr => ?_⟩
  · exact runCommand_done ((decRunBody_eq_core (s := accept 0x4B s) hv).trans (decRunCore_idle hrem))
  · obtain ⟨t, hcore, hdec, hbits, -, hreport⟩ := decRunCore_reports (s := accept 0x4B s) (holdsTree_of_treeAt ht) hp rfl rfl
      hsrc hsnk hw hr hrem hu
    obtain ⟨-, c, hfollow, haux⟩ := hreport last hlast
    have hbody := (decRunBody_eq_core (s := accept 0x4B s) hv).trans hcore
    refine ⟨_, c, runCommand_done hbody, ?_, (follow_congr (accept_nodes _ _) _ _).symm.trans hfollow, hdec.2.2⟩
    have hzero : s.remain - BitVec.ofNat 64 (ps.map Prod.fst).length = 0 := by
      rw [List.length_map, ← hrem, BitVec.ofNat_toNat, BitVec.setWidth_eq, BitVec.sub_self]
      rfl
    obtain ⟨⟨cur, l, q, d, res, aux, rfl⟩, -⟩ := hdec
    cases hbits.cur
    cases hbits.srcPos
    cases hbits.draws
    cases haux
    rw [accept_remain, hzero]
    rfl
  · obtain ⟨t, u, hcore, hdec, hreader, hbits, hreport⟩ := decRunCore_cut (s := accept 0x4B s) (holdsTree_of_treeAt ht) hp
      rfl rfl hsrc hsnk hw hr hrem hpath hcut hne hu
    have hbody := (decRunBody_eq_core (s := accept 0x4B s) hv).trans hcore
    refine ⟨_, runCommand_raised hbody, ?_, ?_⟩
    · obtain ⟨-, hleft, hcur, hpos, hdraws⟩ := hbits.all_taken
      obtain ⟨⟨_, _, _, _, res, aux, rfl⟩, -⟩ := hdec
      obtain ⟨cur, l, q, d, rfl⟩ := hreader
      cases hleft
      cases hcur
      cases hpos
      cases hdraws
      rw [List.length_map]
      rfl
    · obtain ⟨_, _, _, _, rfl⟩ := hreader
      obtain ⟨hnil, hlast⟩ := hreport
      refine ⟨hnil, fun last h => ?_⟩
      obtain ⟨hres, c, hfollow, haux⟩ := hlast last h
      exact ⟨hres, c, (follow_congr (accept_nodes _ _) _ _).symm.trans hfollow, haux⟩

end Sys2Proof.Machine
end

section
/-! PROOF. COMPRESS (46_codec.md R149 to R151): the container it writes, and the state it leaves. -/

namespace Sys2Proof.Machine

/-! ### The payload, padded (45_bitstream.md R139, R140) -/

/-- The bits of ACC are those pending and zeros. -/
theorem byteBits_acc {s : State} (h : ∀ k, k < 8 - s.nacc.val → s.acc.getLsbD k = false) :
    byteBits s.acc = s.pending ++ List.replicate (8 - s.nacc.val) false := by
  have hzero : (byteBits s.acc).drop s.nacc.val = List.replicate (8 - s.nacc.val) false := by
    refine List.eq_replicate_iff.mpr ⟨by simp, fun x hx => ?_⟩
    obtain ⟨i, hi, rfl⟩ := List.mem_iff_getElem.mp hx
    rw [List.length_drop, length_byteBits] at hi
    simp only [byteBits, List.getElem_drop, List.getElem_map, List.getElem_range]
    exact h _ (by omega)
  rw [State.pending, ← hzero, List.take_append_drop]

/-- ENC_SCAN keeps the bits of ACC below the pending ones 0. -/
theorem encScanCore_keeps_acc {s t : State} (h : encScanCore s = .done () t)
    (hs : ∀ k, k < 8 - s.nacc.val → s.acc.getLsbD k = false) : ∀ k, k < 8 - t.nacc.val → t.acc.getLsbD k = false := by
  have hreach := encScanCore_reach (K := ∅) s
  rw [h] at hreach
  exact Reach.keeps hreach (fun _ _ _ _ he hacc => he.keeps_acc hacc) hs

/-- Step (5) of COMPRESS from an empty BitWriter: the codes of the source's bytes, padded with zeros to whole bytes, at least
one bit of them. -/
theorem compressPayload_pads {cs : List Code} {s : State} (hsrc : s.srcAttached = true) (hsnk : s.snkAttached = true)
    (hw : Willing s) (hacc : s.acc = 0) (hnacc : s.nacc = 0) (hc : s.rest.map s.codeAt = cs.map some)
    (hr : Room (cs.flatten.length / 8 + 1) s) :
    ∃ payload res aux, compressPayload s = .done () (s.encoded cs.length payload res aux) ∧
      payload.length = cs.flatten.length / 8 + 1 ∧
      bytesBits payload = cs.flatten ++ List.replicate (8 - cs.flatten.length % 8) false := by
  obtain ⟨t, hcore, hbits⟩ := encScanCore_done hsrc hsnk hw hc (hr.mono (by simp [hnacc]))
  have hzero : ∀ k, k < 8 - t.nacc.val → t.acc.getLsbD k = false :=
    encScanCore_keeps_acc (t := setRes (BitVec.ofNat 64 cs.length) t) hcore fun k _ => by rw [hacc]; exact BitVec.getLsbD_zero
  have hlen := hbits.length_eq
  simp only [skip_snk, skip_nacc, hnacc, Fin.coe_ofNat_eq_mod, Nat.zero_mod, Nat.zero_add] at hlen
  have := t.nacc.isLt
  have hput := putByte_wrote (b := t.acc) (s := bwReset (setRes (BitVec.ofNat 64 cs.length) t))
    (hbits.snkAttached.trans hsnk) (hbits.willing (hw.skip _)) (by
      simp only [Room, bwReset_snk, setRes_snk] at hr ⊢
      omega)
  have hmod : t.nacc.val = cs.flatten.length % 8 := by omega
  have hpad := byteBits_acc hzero
  obtain ⟨a, n, bs, rfl, heq⟩ := hbits
  have hpending : (s.skip cs.length).pending = [] := by simp [State.pending, State.skip, hnacc]
  rw [hpending, List.nil_append] at heq
  refine ⟨bs ++ [a], 1, putField s.resAux 0 4 (8 - n.val), ?_, ?_, ?_⟩
  · rw [compressPayload, hcore, andThen_done, bwFlushBody, setRes_acc, hput, andThen_done, State.encoded, ← wrote_wrote]
    simp only [setAux, setRes, bwReset, State.wrote, State.skip]
  · simp only [wrote_snk, skip_snk, List.length_append, List.length_singleton] at hlen ⊢
    omega
  · rw [bytesBits_append, show bytesBits [a] = byteBits a by simp [bytesBits], hpad, ← List.append_assoc, heq, hmod]

/-! ### The tree and its codes -/

theorem CodeTree.codeOf_of_mem_leaves {tree : CodeTree} {sym : Byte} (h : sym ∈ tree.leaves) :
    ∃ c, tree.codeOf sym = some c := by
  obtain ⟨c, hc⟩ := tree.exists_path_of_mem_leaves h
  have hfind : (tree.paths.find? fun p => p.1 == sym).isSome = true := List.find?_isSome.mpr ⟨_, hc, beq_self_eq_true sym⟩
  obtain ⟨p, hp⟩ := Option.isSome_iff_exists.mp hfind
  exact ⟨p.2, by rw [CodeTree.codeOf, hp, Option.map_some]⟩

/-- The codes of symbols that are leaves of the tree. -/
theorem CodeTree.exists_codes {tree : CodeTree} {xs : List Byte} (h : ∀ b ∈ xs, b ∈ tree.leaves) :
    ∃ cs : List Code, xs.map tree.codeOf = cs.map some ∧ cs.flatten.length ≤ tree.depth * xs.length := by
  induction xs with
  | nil => exact ⟨[], rfl, Nat.zero_le _⟩
  | cons b xs ih =>
    obtain ⟨c, hc⟩ := CodeTree.codeOf_of_mem_leaves (h b List.mem_cons_self)
    obtain ⟨cs, hcs, hlen⟩ := ih fun b' hb' => h b' (List.mem_cons_of_mem b hb')
    have hdepth : c.length ≤ tree.depth := CodeTree.path_length_le_depth (CodeTree.mem_paths_of_codeOf hc)
    refine ⟨c :: cs, by rw [List.map_cons, List.map_cons, hc, hcs], ?_⟩
    rw [List.flatten_cons, List.length_append, List.length_cons, Nat.mul_succ]
    omega

/-- TREE_BUILD and CODE_GEN after a scan of the source, with what they leave alone: the arena holds a tree of the source's
bytes, each once, the source's length is the root's weight, and the code table is the tree's. -/
theorem buildCodes_table {s : State} {src : List Byte} (hlen : src.length < 2 ^ 64) (hne : src ≠ [])
    (hhist : ∀ sym, s.histAt sym = BitVec.ofNat 64 (src.count sym)) (htot : s.total = BitVec.ofNat 64 src.length) :
    ∃ t u tree, treeBuildCore s = .done () t ∧ codeGenCore t = .done () u ∧
      (∃ ns r n cs res aux, u = { s with
        nodes := ns, root := r, pq := [], seq := n, codes := cs, treeValid := true, codesValid := true
        res := res, resAux := aux }) ∧
      u.root.toNat < u.nodes.length ∧ (u.node u.root).weight = BitVec.ofNat 64 src.length ∧
      u.treeAt u.root = some tree ∧ tree.leaves.Perm src.dedup ∧ ∀ sym, u.codeAt sym = tree.codeOf sym := by
  have hperm := present_perm_dedup hlen hhist
  have hpresent : s.present ≠ [] := fun h => hne ((List.dedup_eq_nil _).mp (h ▸ hperm).nil_eq.symm)
  obtain ⟨t, tree, ht, htf, hholds, hleaves, hweight, hsize⟩ :=
    treeBuildCore_done (htot ▸ sum_histAt_present hlen hhist) hpresent
  have htree : t.treeAt t.root = some tree := hholds.treeAt hsize.le
  have hdedup := hleaves.trans hperm
  obtain ⟨u, hu, huf, htable⟩ := codeGenCore_table htree (hdedup.nodup_iff.mpr src.nodup_dedup)
  refine ⟨t, u, tree, ht, hu, ⟨t.nodes, t.root, t.seq, u.codes, _, _, by rw [huf, htf]; rfl⟩, ?_⟩
  rw [huf]
  exact ⟨hholds.lt_length, hweight.trans htot, htree, hdedup, fun sym => htable sym⟩

/-! ### The container -/

/-- `payload` is the codes that the tree gives the bytes of `src`, padded with zeros to `floor(B/8) + 1` bytes (R140, R150). -/
structure PaddedCodes (tree : CodeTree) (src : List Byte) (codes : List Code) (payload : List Byte) : Prop where
  map_codeOf : src.map tree.codeOf = codes.map some
  length : payload.length = codes.flatten.length / 8 + 1
  bits : bytesBits payload = codes.flatten ++ List.replicate (8 - codes.flatten.length % 8) false

/-- Steps (4) and (5) of COMPRESS, the tree built and its codes generated. -/
theorem writeContainer_bytes {src : List Byte} {tree : CodeTree} {s : State} (hroot : s.root.toNat < s.nodes.length)
    (hweight : (s.node s.root).weight = BitVec.ofNat 64 src.length) (ht : s.treeAt s.root = some tree)
    (hleaves : tree.leaves.Perm src.dedup) (hcount : tree.leaves.length ≤ 256)
    (htable : ∀ sym, s.codeAt sym = tree.codeOf sym) (hrest : s.rest = src) (hsrc : s.srcAttached = true)
    (hsnk : s.snkAttached = true) (hw : Willing s) (hacc : s.acc = 0) (hnacc : s.nacc = 0)
    (hr : Room (32 * src.length + 1024) s) :
    ∃ codes payload res aux, ((compressHead s).andThen fun _ s => compressPayload s) =
        .done () ((s.wrote (containerHead src.length tree)).encoded src.length payload res aux) ∧
      PaddedCodes tree src codes payload := by
  obtain ⟨codes, hcodes, hbits⟩ := CodeTree.exists_codes (tree := tree) (xs := src)
    fun b hb => hleaves.mem_iff.mpr (List.mem_dedup.mpr hb)
  have hlen : codes.length = src.length := by simpa using (congrArg List.length hcodes).symm
  have hbound : tree.depth * src.length ≤ 255 * src.length :=
    Nat.mul_le_mul_right _ (by have := tree.depth_lt_leaves; omega)
  have hheadlen := length_containerHead_le src.length hcount
  have hhead := compressHead_done hroot hweight ht hsnk hw (hr.mono (by omega))
  have hroom : Room (codes.flatten.length / 8 + 1) (s.wrote (containerHead src.length tree)) :=
    Room.wrote (hr.mono (by omega))
  obtain ⟨payload, res, aux, hpay, hpaylen, hpaybits⟩ := compressPayload_pads (cs := codes)
    (s := setRes 1 (s.wrote (containerHead src.length tree))) hsrc hsnk (hw.wrote _) hacc hnacc
    (by rw [← hcodes, ← hrest]; exact List.map_congr_left fun b _ => htable b) hroom
  refine ⟨codes, payload, res, aux, ?_, hcodes, hpaylen, hpaybits⟩
  rw [hhead, andThen_done, hpay, hlen]
  rfl

/-- `SNK_POS - s0`, `xs` the sink's bytes at `s0`. -/
theorem writtenSince_append {s : State} {xs ys : List Byte} (h : s.snk = xs ++ ys) :
    s.writtenSince xs.length = BitVec.ofNat 64 ys.length := by
  rw [State.writtenSince, h, List.length_append, Nat.add_sub_cancel_left]

/-- The scan changes HIST, TOTAL and RES, moves to the end of the source, and empties arena, tables and BitWriter. -/
theorem scanned_eq (s : State) : s.scanned = { (bwReset (histReset (arenaClear s))).skip s.src.length with
    hist := s.scanned.hist, total := s.scanned.total, res := s.scanned.res } := by
  rw [State.scanned, countAll_eq]
  rfl

theorem compressBody_of_scan {s : State} (hpos : s.srcPos = 0) (hsrc : s.srcAttached = true) (hw : Willing s)
    (hlen : s.src.length < 2 ^ 64) :
    compressBody s = if s.scanned.total = 0 then
        (putBytes [0x30, 0x2C] s.scanned).andThen fun _ u =>
          .done () (sizes 0 (u.writtenSince s.snk.length) (u.writtenSince s.snk.length) u)
      else
        (compressSteps s.scanned).andThen fun _ u =>
          .done () (sizes u.total (u.writtenSince s.snk.length) (u.writtenSince s.snk.length) u) := by
  rw [compressBody, if_neg (not_not.mpr hpos), compress_scan hpos hsrc hw hlen, andThen_done]

/-- COMPRESS's body on an empty source (R151). -/
theorem compressBody_nil {s : State} (hpos : s.srcPos = 0) (hnil : s.src = []) (hsrc : s.srcAttached = true)
    (hsnk : s.snkAttached = true) (hw : Willing s) (hr : Room 2 s) :
    compressBody s = .done () (sizes 0 2 2 ((bwReset (histReset (arenaClear s))).wrote [0x30, 0x2C])) := by
  have hscan : s.scanned = setRes 0 (bwReset (histReset (arenaClear s))) := by
    rw [State.scanned, hnil]
    rfl
  have hput := putBytes_wrote (bs := [0x30, 0x2C]) (s := s.scanned) (by rw [hscan]; exact hsnk) (by rw [hscan]; exact hw)
    (by rw [hscan]; exact hr)
  have htot : s.scanned.total = 0 := by rw [hscan]; rfl
  have hwritten : (s.scanned.wrote [0x30, 0x2C]).writtenSince s.snk.length = 2 :=
    writtenSince_append (ys := [0x30, 0x2C]) (by rw [hscan]; rfl)
  rw [compressBody_of_scan hpos hsrc hw (by rw [hnil]; decide), if_pos htot, hput, andThen_done, hwritten, hscan]
  rfl

/-- Steps (2) to (5) of COMPRESS on a source of at least one byte that has been scanned. -/
theorem compressSteps_container {src : List Byte} {s : State} (hs : s.src = src) (hlen : src.length < 2 ^ 64)
    (hne : src ≠ []) (hhist : ∀ sym, s.histAt sym = BitVec.ofNat 64 (src.count sym))
    (htot : s.total = BitVec.ofNat 64 src.length) (hsrc : s.srcAttached = true) (hsnk : s.snkAttached = true)
    (hw : Willing s) (hacc : s.acc = 0) (hnacc : s.nacc = 0) (hr : Room (32 * src.length + 1024) s) :
    ∃ u tree codes payload res aux, compressSteps s =
        .done () ((u.wrote (containerHead src.length tree)).encoded src.length payload res aux) ∧
      (∃ ns r n cs res aux, u = { s.rewound with
        nodes := ns, root := r, pq := [], seq := n, codes := cs, treeValid := true, codesValid := true
        res := res, resAux := aux }) ∧
      u.treeAt u.root = some tree ∧ tree.leaves.Perm src.dedup ∧ PaddedCodes tree src codes payload := by
  subst hs
  have hrewind : srcRewindBody s = .done () s.rewound := srcRewindBody_done hsrc hw
  obtain ⟨t, u, tree, ht, hu, hframe, hroot, hweight, htree, hleaves, htable⟩ :=
    buildCodes_table (s := s.rewound) hlen hne hhist htot
  have hcount : tree.leaves.length ≤ 256 := by
    rw [hleaves.length_eq, ← (present_perm_dedup hlen hhist).length_eq]
    exact length_present_le s
  obtain ⟨ns, r, n, cs, res, aux, rfl⟩ := hframe
  obtain ⟨codes, payload, res', aux', hrun, hpadded⟩ := writeContainer_bytes hroot hweight htree hleaves hcount htable
    (rewound_rest s) hsrc hsnk (hw.tail (t := s.rewound) rfl) hacc hnacc hr
  refine ⟨_, tree, codes, payload, res', aux', ?_, ⟨ns, r, n, cs, res, aux, rfl⟩, htree, hleaves, hpadded⟩
  rw [compressSteps_eq, hrewind, andThen_done, ht, andThen_done, hu, andThen_done, hrun]

theorem scanned_total_ne_zero {s : State} (hlen : s.src.length < 2 ^ 64) (hne : s.src ≠ []) : s.scanned.total ≠ 0 := by
  intro h
  have := congrArg BitVec.toNat ((scanned_total s).symm.trans h)
  rw [BitVec.toNat_ofNat, Nat.mod_eq_of_lt hlen] at this
  exact hne (List.length_eq_zero_iff.mp this)

/-- COMPRESS's body on a source of at least one byte (R149, R150). -/
theorem compressBody_container {s : State} (hpos : s.srcPos = 0) (hne : s.src ≠ []) (hlen : s.src.length < 2 ^ 64)
    (hsrc : s.srcAttached = true) (hsnk : s.snkAttached = true) (hw : Willing s) (hr : Room (32 * s.src.length + 1024) s) :
    ∃ t tree codes payload, compressBody s = .done () t ∧
      t = { s with
        hist := t.hist, total := BitVec.ofNat 64 s.src.length, nodes := t.nodes, root := t.root, pq := []
        seq := t.seq, codes := t.codes, treeValid := true, codesValid := true, acc := 0, nacc := 0
        srcPos := s.src.length, draws := t.draws, snk := s.snk ++ containerHead s.src.length tree ++ payload
        origSize := BitVec.ofNat 64 s.src.length
        compSize := BitVec.ofNat 64 ((containerHead s.src.length tree).length + payload.length)
        res := BitVec.ofNat 64 ((containerHead s.src.length tree).length + payload.length), resAux := 0 } ∧
      (∀ sym, t.histAt sym = BitVec.ofNat 64 (s.src.count sym)) ∧ t.treeAt t.root = some tree ∧
      tree.leaves.Perm s.src.dedup ∧ PaddedCodes tree s.src codes payload := by
  have hscan := scanned_eq s
  have htotal := scanned_total s
  have hhist := scanned_histAt s
  rw [compressBody_of_scan hpos hsrc hw hlen, if_neg (scanned_total_ne_zero hlen hne)]
  generalize s.scanned = y at hscan htotal hhist ⊢
  have hports : y.src = s.src ∧ y.srcAttached = true ∧ y.snkAttached = true ∧ Willing y ∧ y.acc = 0 ∧ y.nacc = 0 ∧
      Room (32 * s.src.length + 1024) y := by
    rw [hscan]
    exact ⟨rfl, hsrc, hsnk, hw.skip s.src.length, rfl, rfl, hr⟩
  obtain ⟨hysrc, hysrcA, hysnkA, hyw, hyacc, hynacc, hyr⟩ := hports
  obtain ⟨u, tree, codes, payload, res, aux, hsteps, ⟨ns, r, m, cs, res', aux', rfl⟩, htree, hleaves, hpadded⟩ :=
    compressSteps_container hysrc hlen hne hhist htotal hysrcA hysnkA hyw hyacc hynacc hyr
  rw [hsteps, andThen_done]
  refine ⟨_, tree, codes, payload, rfl, ?_, hhist, htree, hleaves, hpadded⟩
  rw [writtenSince_append (ys := containerHead s.src.length tree ++ payload) (by rw [hscan]; exact List.append_assoc _ _ _),
    List.length_append, hscan]
  simp only [sizes, State.encoded, State.wrote, State.skip, State.rewound, Nat.zero_add, htotal]
  rfl

/-- Settles O47: by SRC_POS, and by whether the source is empty. -/
theorem compress : Obligations.Compress := by
  refine ⟨fun s => ⟨fun hpos => runCommand_check (if_pos hpos), fun hpos hsrc hnil hsnk hw hr => ?_⟩,
    fun s hpos hsrc hne hsnk hw hlen hr => ?_⟩
  · exact runCommand_done (compressBody_nil (s := accept 0x50 s) hpos hnil hsrc hsnk hw hr)
  · obtain ⟨t, tree, codes, payload, hbody, hframe, hhist, htree, hleaves, hcodes, hlength, hbits⟩ :=
      compressBody_container (s := accept 0x50 s) hpos hne hlen hsrc hsnk hw hr
    exact ⟨complete t, tree, containerHead s.src.length tree, payload, codes, runCommand_done hbody,
      congrArg complete hframe, hhist, htree, hleaves.nodup_iff.mpr s.src.nodup_dedup,
      fun sym => hleaves.mem_iff.trans List.mem_dedup, hcodes, rfl, hlength, hbits⟩

end Sys2Proof.Machine
end

section
/-! PROOF. DECOMPRESS (46_codec.md R152, R153): the state it leaves, and how far it has read. -/

namespace Sys2Proof.Machine

/-! ### DEC_RUN behind other commands' results -/

theorem Decoded.remain_toNat {s t : State} {out : List Byte} {more : List Bool} {n : Nat} (h : Decoded s out more t)
    (hrem : s.remain.toNat = out.length + n) : t.remain.toNat = n := by
  have heq : t.remain = s.remain - BitVec.ofNat 64 out.length := by
    obtain ⟨⟨c, l, p, d, res, aux, rfl⟩, _⟩ := h; rfl
  bv_omega

section
variable {tree : CodeTree} {ps : List (Byte × Code)} {more : List Bool} {s : State} (ht : HoldsTree s.nodes tree s.root)
  (hp : ∀ p ∈ ps, p ∈ tree.paths) (hrem : s.remain.toNat = ps.length) (hu : s.upcoming = pathBits ps ++ more)
  (hsrc : s.srcAttached = true) (hsnk : s.snkAttached = true) (hw : Willing s) (hr : Room ps.length s)
include ht hp hrem hu hsrc hsnk hw hr

/-- DEC_RUN's loop fetches the bytes that the bits of REMAIN paths need, whatever RES and RES_AUX hold before it. -/
theorem decRunLoop_fetches (k : Nat) :
    ∃ t, decRunLoop ps.length k s = .done (k + ps.length) t ∧ Decoded s (ps.map Prod.fst) more t ∧
      BitsFetched (pathBits ps).length ps.length s t := by
  induction ps generalizing k s with
  | nil =>
    have hu : s.upcoming = more := hu
    exact ⟨s, rfl, hu ▸ .refl hw, .refl s⟩
  | cons p ps ih =>
    rw [List.length_cons, Nat.add_comm] at hrem hr
    have hcons : pathBits (p :: ps) = p.2 ++ pathBits ps := rfl
    rw [hcons, List.append_assoc] at hu
    obtain ⟨c, t, hcore, -, hdec, hbits, -⟩ := decSymbolCore_reports ht (hp p List.mem_cons_self) hu hsrc hsnk hw
      (hr.mono (Nat.le_add_right 1 _))
    obtain ⟨u, hloop, hdec', hbits'⟩ := ih (hdec.holdsTree ht)
      (fun q hq => hp q (List.mem_cons_of_mem p hq)) (hdec.remain_toNat hrem) hdec.2.2 (hdec.srcAttached.trans hsrc)
      (hdec.snkAttached.trans hsnk) hdec.2.1 (hdec.room hr) (k + 1)
    have hne : s.remain ≠ 0 := by bv_omega
    refine ⟨u, ?_, hdec.trans hdec', ?_⟩
    · rw [List.length_cons, decRunLoop_symbol hne, hcore, andThen_done, hloop, Nat.add_right_comm, Nat.add_assoc]
    · rw [hcons, List.length_append, List.length_cons, Nat.add_comm ps.length]
      exact hbits.trans hbits'

/-- DEC_RUN after its check fetches the bytes that the bits of REMAIN paths need. -/
theorem decRunCore_fetches :
    ∃ t, decRunCore s = .done () (setRes (BitVec.ofNat 64 ps.length) t) ∧ Decoded s (ps.map Prod.fst) more t ∧
      t.srcPos = s.srcPos + s.fetches (pathBits ps).length := by
  obtain ⟨t, hloop, hdec, hbits⟩ := decRunLoop_fetches ht hp hrem hu hsrc hsnk hw hr 0
  exact ⟨t, by rw [decRunCore, hrem, hloop, andThen_done, Nat.zero_add], hdec, hbits.srcPos⟩

end

/-! ### The bytes consumed (R152) -/

/-- The bytes of a container up to the last bit that the codes of `ps` need: digits, comma, shape, separator, payload. -/
def containerUsed (ds : List Byte) (tree : CodeTree) (ps : List (Byte × Code)) : Nat :=
  ds.length + 1 + tree.shapeBytes.length + 1 + ((pathBits ps).length + 7) / 8

/-- With no bit buffered, every bit is fetched. -/
theorem fetches_of_nleft {s : State} (h : s.nleft = 0) (n : Nat) : s.fetches n = (n + 7) / 8 := by
  rw [State.fetches, h, Fin.val_zero, Nat.sub_zero]

theorem shapeDone_srcPos (tree : CodeTree) (s : State) :
    (s.shapeDone tree).srcPos = s.srcPos + tree.shapeBytes.length := rfl

theorem sepDone_srcPos (b : Byte) (s : State) : (s.sepDone b).srcPos = s.srcPos + 1 := rfl

theorem headerDone_srcPos (n : Nat) (v : Count) (s : State) : (s.headerDone n v).srcPos = s.srcPos + (n + 1) := rfl

/-- `SRC_POS - t0`, `n` bytes read since `t0`. -/
theorem readSince_add {s : State} {start n : Nat} (h : s.srcPos = start + n) :
    s.readSince start = BitVec.ofNat 64 n := by
  rw [State.readSince, h, Nat.add_sub_cancel_left]

/-- Steps (2) to (4) of DECOMPRESS: the tree of the shape, and its symbols. -/
theorem decompressSteps_container {tree : CodeTree} {sep : Byte} {ps : List (Byte × Code)} {more : List Byte}
    {pad : List Bool} {s : State} (hsrc : s.srcAttached = true) (hsnk : s.snkAttached = true) (hw : Willing s)
    (hsize : tree.size ≤ 511) (hp : ∀ p ∈ ps, p ∈ tree.paths) (hrem : s.remain.toNat = ps.length)
    (hr : s.rest = tree.shapeBytes ++ sep :: more) (hbits : bytesBits more = pathBits ps ++ pad) (hroom : Room ps.length s) :
    ∃ t, decompressSteps s = .done () (setRes (BitVec.ofNat 64 ps.length) t) ∧
      Decoded ((s.shapeDone tree).sepDone sep) (ps.map Prod.fst) pad t ∧
      t.srcPos = s.srcPos + tree.shapeBytes.length + 1 + ((pathBits ps).length + 7) / 8 := by
  have hsep : (s.shapeDone tree).rest = sep :: more := by rw [shapeDone_rest, hr, List.drop_left]
  have hholds : HoldsTree (tree.preorder 0 false) tree 0 := by
    simpa using holdsTree_preorder tree [] [] false (by simpa using hsize)
  have hup : ((s.shapeDone tree).sepDone sep).upcoming = pathBits ps ++ pad := by
    rw [upcoming_eq_of_nleft (s := (s.shapeDone tree).sepDone sep) rfl, sepDone_rest, hsep, ← hbits]
    rfl
  obtain ⟨t, hrun, hdec, hpos⟩ := decRunCore_fetches (s := (s.shapeDone tree).sepDone sep) hholds hp (by simpa using hrem) hup
    (by simpa using hsrc) (by simpa using hsnk) ((hw.shapeDone tree).sepDone sep) (by simpa [Room] using hroom)
  rw [sepDone_srcPos, shapeDone_srcPos, fetches_of_nleft (sepDone_nleft sep _)] at hpos
  refine ⟨t, ?_, hdec, hpos⟩
  rw [decompressSteps, shapeReadBody_done hsrc hw hr hsize, andThen_done,
    sepReadBody_done (s := s.shapeDone tree) hsrc (hw.shapeDone tree) hsep, andThen_done, hrun]

/-- The state of DECOMPRESS at the first payload bit. -/
theorem payloadStart_eq (n : Nat) (v : Count) (tree : CodeTree) (sep : Byte) (s : State) :
    ((s.headerDone n v).shapeDone tree).sepDone sep = { s with
      nodes := tree.preorder 0 false, root := 0, pq := [], seq := 0, treeValid := true, codesValid := false
      codes := Vector.replicate 256 none, cur := 0, nleft := 0, decl := v, remain := v
      srcPos := s.srcPos + (n + 1) + tree.shapeBytes.length + 1
      draws := ((s.draws.drop (n + 1)).drop tree.shapeBytes.length).drop 1
      res := sep.setWidth 64, resAux := putField s.resAux 0 9 0 } := by
  simp only [State.headerDone, State.declared, brReset, State.shapeDone, shapeEnd, State.withNodes, State.sepDone, sepEnd,
    State.skip, dropBits, arenaClear, invalidate, setRes, setAux]
  rfl

section
variable {ds more : List Byte} {s : State} (hsrc : s.srcAttached = true) (hw : Willing s) (hds : ds ≠ [])
  (hd : ∀ b ∈ ds, isDigit b = true)
include hsrc hw hds hd

/-- DECOMPRESS's body on a header of value 0 stops after the comma (R153). -/
theorem decompressBody_stops (hv : digitsValue ds = 0) (hr : s.rest = ds ++ 0x2C :: more) :
    decompressBody s = .done () (sizes 0 (BitVec.ofNat 64 (ds.length + 1)) 0 (s.headerDone ds.length 0)) := by
  have hhdr := decompress_header hsrc hw hds hd (by rw [hv]; decide) hr
  rw [hv] at hhdr
  rw [decompressBody, hhdr, andThen_done, ← readSince_add (s := s.headerDone ds.length 0) (start := s.srcPos) rfl]
  exact if_pos rfl

/-- DECOMPRESS's body on a container of at least one symbol (R152). -/
theorem decompressBody_container {tree : CodeTree} {sep : Byte} {ps : List (Byte × Code)} {pad : List Bool}
    (hsnk : s.snkAttached = true) (hv : digitsValue ds = ps.length) (hlen : ps.length < 2 ^ 64) (hne : ps ≠ [])
    (hsize : tree.size ≤ 511) (hp : ∀ p ∈ ps, p ∈ tree.paths)
    (hr : s.rest = ds ++ 0x2C :: (tree.shapeBytes ++ sep :: more)) (hbits : bytesBits more = pathBits ps ++ pad)
    (hroom : Room ps.length s) :
    ∃ t, decompressBody s = .done () t ∧ t = { s with
      nodes := t.nodes, root := 0, pq := [], seq := 0, treeValid := true, codesValid := false
      codes := Vector.replicate 256 none, cur := t.cur, nleft := t.nleft, decl := BitVec.ofNat 64 ps.length, remain := 0
      srcPos := s.srcPos + containerUsed ds tree ps, draws := t.draws, snk := s.snk ++ ps.map Prod.fst
      origSize := BitVec.ofNat 64 ps.length, compSize := BitVec.ofNat 64 (containerUsed ds tree ps)
      res := BitVec.ofNat 64 ps.length, resAux := 0 } := by
  have hval : (BitVec.ofNat 64 ps.length).toNat = ps.length := by
    rw [BitVec.toNat_ofNat, Nat.mod_eq_of_lt hlen]
  have hdecl : BitVec.ofNat 64 ps.length ≠ 0 := fun h =>
    hne (List.length_eq_zero_iff.mp (hval.symm.trans (congrArg BitVec.toNat h)))
  have hhdr := decompress_header hsrc hw hds hd (hv ▸ hlen) hr
  rw [hv] at hhdr
  obtain ⟨t, hsteps, hdec, hpos⟩ := decompressSteps_container (sep := sep) (more := more)
    (s := s.headerDone ds.length (BitVec.ofNat 64 ps.length)) hsrc hsnk (hw.headerDone _ _) hsize hp hval
    (by simp [hr, ← List.drop_drop]) hbits hroom
  replace hpos : t.srcPos = s.srcPos + containerUsed ds tree ps := by
    rw [hpos, headerDone_srcPos]
    simp only [containerUsed, Nat.add_assoc]
  have hread : (setRes (BitVec.ofNat 64 ps.length) t).readSince s.srcPos = BitVec.ofNat 64 (containerUsed ds tree ps) :=
    readSince_add hpos
  have hzero : BitVec.ofNat 64 ps.length - BitVec.ofNat 64 (ps.map Prod.fst).length = 0 := by
    rw [List.length_map, BitVec.sub_self]
    rfl
  refine ⟨_, by rw [decompressBody, hhdr, andThen_done, headerDone_decl, if_neg hdecl, hsteps, andThen_done, hread], ?_⟩
  rw [payloadStart_eq] at hdec
  obtain ⟨⟨cur, l, q, d, res, aux, rfl⟩, -⟩ := hdec
  cases hpos
  rw [hzero]
  rfl

end

/-- Settles O48: by whether the header's value is 0. -/
theorem decompressReadsTheContainer : Obligations.DecompressReadsTheContainer := by
  refine fun s ds more hsrc hw hds hd hlt => ⟨fun hv hr => ?_,
    fun tree sep ps pad hsize hne hp hv hr hbits hsnk hroom => ?_⟩
  · exact runCommand_done (decompressBody_stops (s := accept 0x51 s) hsrc hw hds hd hv hr)
  · obtain ⟨t, hbody, hframe⟩ := decompressBody_container (s := accept 0x51 s) hsrc hw hds hd hsnk hv (hv ▸ hlt) hne hsize
      hp hr hbits hroom
    exact ⟨complete t, _, runCommand_done hbody, rfl, congrArg complete hframe⟩

end Sys2Proof.Machine
end

section
/-! PROOF. What an error records (60_exceptions.md R158, R154): a command that ends with a new error has raised it, and what its
body did before that left the command's opcode and the two sizes alone. -/

namespace Sys2Proof.Machine

/-! ### Before a composite raises -/

/-- COMPRESS writes the sizes in its last line, behind which nothing raises (46_codec.md R154). -/
theorem compressBody_raised_reach (s : State) : (compressBody s).Meets (fun _ _ => True) (Reach {.count} s) := by
  have hc : Kind.count ∈ ({.count} : Set Kind) := rfl
  have hstart : Reach {.count} s (bwReset (histReset (arenaClear s))) :=
    (Effect.arenaClear s).reach.trans (((Effect.histReset _).reachOf hc).trans (Effect.bwReset _).reach)
  unfold compressBody
  split
  · exact .refl s
  · refine (hstart.ends (histScanBody_reach hc _)).meets.andThen fun _ t ht => ?_
    split
    · exact (ht.ends (putBytes_reach _ t)).meets.andThen fun _ _ _ => trivial
    · exact (ht.ends (compressSteps_reach t)).meets.andThen fun _ _ _ => trivial

/-- DECOMPRESS writes the sizes in its last line, behind which nothing raises (46_codec.md R154). -/
theorem decompressBody_raised_reach (s : State) : (decompressBody s).Meets (fun _ _ => True) (Reach ∅ s) := by
  have hstart : Reach ∅ s (brReset (arenaClear s)) := (Effect.arenaClear s).reach.trans (brReset_reach _)
  refine (hstart.ends (hdrReadBody_reach _)).meets.andThen fun _ t ht => ?_
  split
  · trivial
  · exact (ht.ends (decompressSteps_reach t)).meets.andThen fun _ _ _ => trivial

/-! ### Before any command raises -/

/-- A body without SOFT_RESET's effect keeps the command's opcode, which `raise` records. -/
theorem Reach.cmdOp {K : Set Kind} {s t : State} (h : Reach K s t) (hK : BodyKinds K) (hr : .reset ∉ K) :
    t.cmdOp = s.cmdOp := by
  refine h.keeps (P := fun u => u.cmdOp = s.cmdOp) (fun k u v hk he hu => ?_) rfl
  cases he with
  | softReset => exact absurd (hk.resolve_left nofun) hr
  | accept | complete | raise => exact absurd (hk.resolve_left nofun) hK.noControl
  | hardReset => exact absurd (hk.resolve_left nofun) hK.noHost
  | _ => exact hu

/-- The kinds of effect a command has before it raises. -/
def raisingKinds (i : Instr) : Set Kind := ownKinds i \ {.sizes, .reset}

theorem bodyKinds_raisingKinds (i : Instr) : BodyKinds (raisingKinds i) :=
  ⟨fun h => (bodyKinds i).noControl h.1, fun h => (bodyKinds i).noHost h.1⟩

section
variable {i : Instr} {s t : State} {e : Err}

/-- A command that ends with an error not there before has not completed: its body's own effects write no error. -/
theorem EndsAt.raised {u : State} (hu : Reach (ownKinds i) (accept (opcode i) s) u) (hs : s.errCode = none)
    (ht : EndsAt u t) (he : t.errCode = some e) : t = raise e u := by
  rcases ht with rfl | ⟨e', rfl⟩
  · have hnone : u.errCode = none := hu.errCode_none (bodyKinds i) hs
    rw [complete_errCode, hnone] at he
    cases he
  · cases he
    rfl

/-- A command that ends with an error not there before, by what its body has done where it raises. -/
theorem runCommand_newError {K : Set Kind} {body : State → Ran Unit}
    (hends : ∀ s, (body s).Ends (Reach (ownKinds i) s)) (hraised : ∀ s, (body s).Meets (fun _ _ => True) (Reach K s))
    (hs : s.errCode = none) (h : runCommand (opcode i) body s = .next t) (he : t.errCode = some e) :
    ∃ u, Reach K (accept (opcode i) s) u ∧ t = raise e u := by
  have hend := hends (accept (opcode i) s)
  have hraise := hraised (accept (opcode i) s)
  rcases runCommand_eq_next.mp h with ⟨u, hu, ht⟩ | ⟨e', u, hu, ht⟩ <;> rw [hu] at hend hraise
  · have hnone : u.errCode = none := Reach.errCode_none hend (bodyKinds i) hs
    rw [ht, complete_errCode, hnone] at he
    cases he
  · exact ⟨u, hraise, EndsAt.raised hend hs (.inr ⟨e', ht⟩) he⟩

/-- A command that ends with an error not there before raised it, with neither size written and no reset done. -/
theorem exec_newError (hi : isToken i = false) (hs : s.errCode = none) (h : exec i s = .next t)
    (he : t.errCode = some e) : ∃ u, Reach (raisingKinds i) (accept (opcode i) s) u ∧ t = raise e u := by
  by_cases hr : .reset ∈ ownKinds i
  · obtain rfl := reset_mem_ownKinds hr
    cases h
    cases he
  by_cases hz : .sizes ∈ ownKinds i
  · rcases sizes_mem_ownKinds hz with rfl | rfl
    · obtain ⟨u, hu, ht⟩ := runCommand_newError (i := .compress)
        (compressBody_reach (Set.mem_insert _ _) (Set.mem_insert_of_mem _ (Set.mem_singleton _)))
        compressBody_raised_reach hs h he
      exact ⟨u, hu.mono (by simp [raisingKinds, ownKinds]), ht⟩
    · obtain ⟨u, hu, ht⟩ := runCommand_newError (i := .decompress) (decompressBody_reach (Set.mem_singleton _))
        decompressBody_raised_reach hs h he
      exact ⟨u, hu.mono (Set.empty_subset _), ht⟩
  · obtain ⟨u, hu, ht⟩ := exec_reach hi h
    refine ⟨u, hu.mono fun k hk => ⟨hk, ?_⟩, EndsAt.raised hu hs ht he⟩
    rintro (rfl | rfl)
    · exact hz hk
    · exact hr hk

end

/-! ### The obligation -/

/-- Settles O11: the error was raised, and `raise` records the opcode of acceptance, which the body has kept. -/
theorem raiseRecordsOpcodeAndPosition : Obligations.RaiseRecordsOpcodeAndPosition := by
  intro i s t e hi hs h he
  obtain ⟨u, hu, rfl⟩ := exec_newError hi hs h he
  have hreset : .reset ∉ raisingKinds i := fun h => h.2 (.inr rfl)
  have hsizes : .sizes ∉ raisingKinds i := fun h => h.2 (.inl rfl)
  have hop : u.cmdOp = opcode i := hu.cmdOp (bodyKinds_raisingKinds i) hreset
  have hkept := hu.sizes (bodyKinds_raisingKinds i) hsizes hreset
  exact ⟨hop, rfl, rfl, hkept⟩

end Sys2Proof.Machine
end
